-- ==== Sys2Proof/Word.lean ====
section
/-! DEFINITION. The word types of the mcroomp/cabac coder core (spec/00_scope.md R14, R15): an 8-bit byte and the
32-bit word that a coder register and a command word are. Bit 0 is the least significant bit. -/

namespace Sys2Proof

/-- A byte of a stream (R15): bit 7 is its first bit in stream order. -/
abbrev Byte := BitVec 8

/-- A 32-bit coder register (R14) or a 32-bit command word (R110). -/
abbrev Word := BitVec 32

end Sys2Proof
end

