-- ==== Sys2Proof/Config.lean ====
section
/-! DEFINITION. The implementation parameters of spec/00_scope.md R13, as plain data that a model instance fixes once
(`Params`, held in State and changed by no step), and the free values: what the spec leaves open, as constants
without a body. -/

namespace Sys2Proof

/-- `SINK_MODE` (R13, R82): whether the byte sink may refuse an offered byte. -/
inductive SinkMode where
  /-- Every offered byte is accepted. -/
  | inMemory
  /-- Each offer is answered by a free draw of the environment. -/
  | external
  deriving DecidableEq, Repr

/-- `CABAC_SWAP_TEST` (R13, R154): which state the LPS update tests for the MPS swap. -/
inductive SwapTest where
  /-- The state before the transition (ITU-T order, the default). -/
  | old
  /-- The state after the transition (the source's literal reading). -/
  | new
  deriving DecidableEq, Repr

/-- The parameters of R13 that are fixed for a model instance. The per-OPEN ones (`N`, `E`) are operands. -/
structure Params where
  /-- `NUM_ENGINES`, at least 1. -/
  numEngines : Nat
  /-- `NUM_CTX`, 256 to 65536. -/
  numCtx : Nat
  /-- `OUTSTANDING_W`: `none` is unbounded, else a width of at least 16. -/
  outstandingW : Option Nat
  /-- `RANS_QCAP`: `none` is unbounded, else a capacity of at least 1. -/
  ransQCap : Option Nat
  /-- `SINK_MODE`. -/
  sinkMode : SinkMode
  /-- `CABAC_SWAP_TEST`. -/
  cabacSwapTest : SwapTest
  /-- `SIMD`, the Fpaq0 parallel build flag: read by no command (R11, R335). -/
  simd : Bool
  deriving DecidableEq, Repr

/-- The ranges R13 gives the parameters. -/
abbrev Params.Legal (p : Params) : Prop :=
  1 ≤ p.numEngines ∧ 256 ≤ p.numCtx ∧ p.numCtx ≤ 65536 ∧
    (∀ w ∈ p.outstandingW, 16 ≤ w) ∧ (∀ n ∈ p.ransQCap, 1 ≤ n)

/-- The defaults of R13. `NUM_ENGINES` has none there: 1 is the model's (DESIGN CHOICE, log entry 2). -/
def Params.default : Params where
  numEngines := 1
  numCtx := 1024
  outstandingW := none
  ransQCap := none
  sinkMode := .inMemory
  cabacSwapTest := .old
  simd := false

/-- FREE VALUE (R82; log entry 3): whether the environment of engine `engine` accepts its offer number `offer`
of an `External` sink. -/
opaque Config.sinkAccepts (engine offer : Nat) : Bool

/-- FREE VALUE (R40, R53; log entry 4): the rANS encoder's `x` after the OPEN_ENC that is command number `cmdIndex`
of engine `engine`. R53: "x unspecified (set to 2^16 by FINISH)". -/
opaque Config.ransOpenX (engine cmdIndex : Nat) : Word

/-- FREE VALUE (R16, R211, R213; log entry 5): what the CABAC `range` register holds after `range - amount` where
`range < amount`. The spec's arithmetic is on non-negative integers and gives no result there; the register has 9
bits (R14). -/
opaque Config.rangeBelowZero (range amount : Nat) : BitVec 9

end Sys2Proof
end

