-- ==== Sys2Proof/Syntax.lean ====
section
/-! DEFINITION. The command set CMD1 (spec/30_encoding.md R112, R113): codec families, operations, and `Instr`, one
constructor per row of spec/opcode_table.json. Operands, in the order of the assembler (R140): `n` the lane count N,
`l` a lane, `b` the bit, `eof` the end-of-stream mode E, `c` a context index. Their ranges are `Instr.WellFormed`. -/

namespace Sys2Proof

/-- The codec families, in the order of their FAM codes 0 to 4 (R110). -/
inductive Family where
  | cabac | vp8 | rans | fpaq0 | fpaq0p
  deriving DecidableEq, Repr

/-- The operations, in the order of their OP codes 0 to 12 (R112). -/
inductive Op where
  | openEnc | openDec | put | putBypass | putTerm | finish | get | getBypass | getTerm
  | ctxInit | ctxInitAll | ctxUpdate | ctxRead
  deriving DecidableEq, Repr

/-- The 57 commands (R113). -/
inductive Instr where
  /-- `cabac.open_enc` (R181) -/
  | cabacOpenEnc
  /-- `cabac.open_dec` (R210) -/
  | cabacOpenDec (eof : Bool)
  /-- `cabac.put` (R189) -/
  | cabacPut (b : Bool) (c : Nat)
  /-- `cabac.put_bypass` (R190) -/
  | cabacPutBypass (b : Bool)
  /-- `cabac.put_term` (R191) -/
  | cabacPutTerm (b : Bool)
  /-- `cabac.finish` (R192) -/
  | cabacFinish
  /-- `cabac.get` (R211) -/
  | cabacGet (c : Nat)
  /-- `cabac.get_bypass` (R212) -/
  | cabacGetBypass
  /-- `cabac.get_term` (R213) -/
  | cabacGetTerm
  /-- `cabac.ctx_init` (R160) -/
  | cabacCtxInit (c : Nat)
  /-- `cabac.ctx_init_all` (R161) -/
  | cabacCtxInitAll
  /-- `cabac.ctx_update` (R162) -/
  | cabacCtxUpdate (b : Bool) (c : Nat)
  /-- `cabac.ctx_read` (R163) -/
  | cabacCtxRead (c : Nat)
  /-- `vp8.open_enc` (R235) -/
  | vp8OpenEnc
  /-- `vp8.open_dec` (R245) -/
  | vp8OpenDec (eof : Bool)
  /-- `vp8.put` (R236) -/
  | vp8Put (b : Bool) (c : Nat)
  /-- `vp8.put_bypass` (R238) -/
  | vp8PutBypass (b : Bool)
  /-- `vp8.finish` (R239) -/
  | vp8Finish
  /-- `vp8.get` (R247) -/
  | vp8Get (c : Nat)
  /-- `vp8.get_bypass` (R248) -/
  | vp8GetBypass
  /-- `vp8.ctx_init` (R165) -/
  | vp8CtxInit (c : Nat)
  /-- `vp8.ctx_init_all` (R166) -/
  | vp8CtxInitAll
  /-- `vp8.ctx_update` (R167) -/
  | vp8CtxUpdate (b : Bool) (c : Nat)
  /-- `vp8.ctx_read` (R168) -/
  | vp8CtxRead (c : Nat)
  /-- `rans.open_enc` (R272) -/
  | ransOpenEnc
  /-- `rans.open_dec` (R282) -/
  | ransOpenDec (eof : Bool)
  /-- `rans.put` (R274) -/
  | ransPut (b : Bool) (c : Nat)
  /-- `rans.put_bypass` (R275) -/
  | ransPutBypass (b : Bool)
  /-- `rans.finish` (R276) -/
  | ransFinish
  /-- `rans.get` (R285) -/
  | ransGet (c : Nat)
  /-- `rans.get_bypass` (R286) -/
  | ransGetBypass
  /-- `rans.ctx_init` (R165) -/
  | ransCtxInit (c : Nat)
  /-- `rans.ctx_init_all` (R166) -/
  | ransCtxInitAll
  /-- `rans.ctx_update` (R167) -/
  | ransCtxUpdate (b : Bool) (c : Nat)
  /-- `rans.ctx_read` (R168) -/
  | ransCtxRead (c : Nat)
  /-- `fpaq0.open_enc` (R305) -/
  | fpaq0OpenEnc
  /-- `fpaq0.open_dec` (R314) -/
  | fpaq0OpenDec (eof : Bool)
  /-- `fpaq0.put` (R306) -/
  | fpaq0Put (b : Bool) (c : Nat)
  /-- `fpaq0.put_bypass` (R307) -/
  | fpaq0PutBypass (b : Bool)
  /-- `fpaq0.finish` (R308) -/
  | fpaq0Finish
  /-- `fpaq0.get` (R317) -/
  | fpaq0Get (c : Nat)
  /-- `fpaq0.get_bypass` (R318) -/
  | fpaq0GetBypass
  /-- `fpaq0.ctx_init` (R165) -/
  | fpaq0CtxInit (c : Nat)
  /-- `fpaq0.ctx_init_all` (R166) -/
  | fpaq0CtxInitAll
  /-- `fpaq0.ctx_update` (R167) -/
  | fpaq0CtxUpdate (b : Bool) (c : Nat)
  /-- `fpaq0.ctx_read` (R168) -/
  | fpaq0CtxRead (c : Nat)
  /-- `fpaq0p.open_enc` (R323) -/
  | fpaq0pOpenEnc (n : Nat)
  /-- `fpaq0p.open_dec` (R330) -/
  | fpaq0pOpenDec (n : Nat) (eof : Bool)
  /-- `fpaq0p.put` (R324) -/
  | fpaq0pPut (l : Nat) (b : Bool) (c : Nat)
  /-- `fpaq0p.put_bypass` (R325) -/
  | fpaq0pPutBypass (l : Nat) (b : Bool)
  /-- `fpaq0p.finish` (R326) -/
  | fpaq0pFinish
  /-- `fpaq0p.get` (R332) -/
  | fpaq0pGet (l : Nat) (c : Nat)
  /-- `fpaq0p.get_bypass` (R333) -/
  | fpaq0pGetBypass (l : Nat)
  /-- `fpaq0p.ctx_init` (R165) -/
  | fpaq0pCtxInit (c : Nat)
  /-- `fpaq0p.ctx_init_all` (R166) -/
  | fpaq0pCtxInitAll
  /-- `fpaq0p.ctx_update` (R167) -/
  | fpaq0pCtxUpdate (b : Bool) (c : Nat)
  /-- `fpaq0p.ctx_read` (R168) -/
  | fpaq0pCtxRead (c : Nat)
  deriving DecidableEq, Repr

end Sys2Proof
end

