-- ==== Sys2Proof/Machine/State.lean ====
section
/-! DEFINITION. The state of the core (spec/10_state.md, spec/20_memory.md): engines with their coder registers,
context memory and streams, the host's pending actions, the reasons a step stops, and the state after power-on. -/

namespace Sys2Proof.Machine

open Sys2Proof

/-- A sparse memory: (address, byte) pairs in the canonical form `Memory.wf` (Machine/Ops.lean). -/
abbrev Memory := List Host.Cell

/-- `phase` (R32). -/
inductive Phase where
  /-- No session is open. -/
  | idle
  /-- An encoder session accepts PUT commands. -/
  | enc
  /-- A decoder session accepts GET commands. -/
  | dec
  /-- An encoder session has executed FINISH. -/
  | finished
  /-- A command raised an error. -/
  | faulted
  deriving DecidableEq, Repr

/-- `dir` (R34). -/
inductive Dir where
  | enc | dec
  deriving DecidableEq, Repr

/-- The status of a command: OK or an error (R351). Codes 8 to 15 are never returned and have no name. -/
inductive Status where
  | ok | outputFailure | inputExhausted | illegalCommand | ctxRange | laneRange | counterOverflow | queueOverflow
  deriving DecidableEq, Repr

/-- CABAC encoder registers (R36). -/
structure CabacEnc where
  low : Word
  /-- The 9 bits of `range` that can be set (R2, R14); `CabacEnc.range` is the 32-bit register (R36, log entry 18). -/
  range9 : BitVec 9
  /-- The count of bits whose value is not yet known: a natural number, bounded by `OUTSTANDING_W` (R186). -/
  outstanding : Nat
  firstBit : Bool
  deriving DecidableEq, Repr

/-- CABAC decoder registers (R37). -/
structure CabacDec where
  /-- The 9 bits of `range` that can be set (R2, R14); `CabacDec.range` is the 32-bit register (R37, log entry 18). -/
  range9 : BitVec 9
  offset : Word
  deriving DecidableEq, Repr

/-- VP8 encoder registers (R38). -/
structure Vp8Enc where
  low : Word
  /-- The 8 bits of `range` that can be set (R2, R14); `Vp8Enc.range` is the 32-bit register (R38, log entry 18). -/
  range8 : BitVec 8
  /-- Shifts since the last byte was assembled, 0 to 7. -/
  count : BitVec 3
  pendingByte : Byte
  pendingValid : Bool
  /-- The assembled 0xFF bytes after `pendingByte` not yet written. -/
  bitsOutstanding : Nat
  deriving DecidableEq, Repr

/-- VP8 decoder registers (R39). -/
structure Vp8Dec where
  /-- The 8 bits of `range` that can be set (R2, R14); `Vp8Dec.range` is the 32-bit register (R39, log entry 18). -/
  range8 : BitVec 8
  value : Word
  deriving DecidableEq, Repr

/-- rANS encoder registers (R40): the symbol queue `Q` of pairs (bit, p) in PUT order, and `x`. -/
structure RansEnc where
  queue : List (Bool × Byte)
  x : Word
  deriving DecidableEq, Repr

/-- rANS decoder register (R43). -/
structure RansDec where
  x : Word
  deriving DecidableEq, Repr

/-- Fpaq0 encoder registers (R44). -/
structure Fpaq0Enc where
  low : Word
  high : Word
  deriving DecidableEq, Repr

/-- Fpaq0 decoder registers (R45). -/
structure Fpaq0Dec where
  low : Word
  high : Word
  value : Word
  deriving DecidableEq, Repr

/-- The registers of one lane of the Fpaq0 parallel encoder (R46); `k` counts the bytes it has emitted. -/
structure LaneEnc where
  low : Word
  high : Word
  k : Nat
  deriving DecidableEq, Repr

/-- The registers of one lane of the Fpaq0 parallel decoder (R47); `k` counts the bytes it has read. -/
structure LaneDec where
  low : Word
  high : Word
  value : Word
  k : Nat
  deriving DecidableEq, Repr

/-- A response (R125): the record (status, bit, ctx, out) and the OP that its packed word carries. -/
structure Response where
  status : Status
  op : BitVec 4
  bit : Bool
  ctx : Byte
  out : List Byte
  deriving DecidableEq, Repr

/-- One engine (R30): a coder with its own state, context memory, sink and source. -/
structure Engine where
  /-- The engine's number 0 .. NUM_ENGINES-1, its command port (R371). -/
  id : Nat
  /-- `phase` (R32). -/
  phase : Phase
  /-- `cmd_index` (R33): the commands received since power-on. -/
  cmdIndex : Nat
  /-- `fam` (R34): the family of the open session. -/
  fam : Family
  /-- `dir` (R34). -/
  dir : Dir
  /-- `N` (R34): the number of lanes, 1 outside FPAQ0P. -/
  laneCount : Nat
  /-- `eof` (R34): the decoder's end-of-stream mode E, `true` for explicit EOF. -/
  eof : Bool
  /-- `last_err` (R35): the status of the most recent command. -/
  lastErr : Status
  /-- CABAC encoder registers (R36). -/
  cabacEnc : CabacEnc
  /-- CABAC decoder registers (R37). -/
  cabacDec : CabacDec
  /-- VP8 encoder registers (R38). -/
  vp8Enc : Vp8Enc
  /-- VP8 decoder registers (R39). -/
  vp8Dec : Vp8Dec
  /-- rANS encoder registers (R40). -/
  ransEnc : RansEnc
  /-- rANS decoder register (R43). -/
  ransDec : RansDec
  /-- Fpaq0 encoder registers (R44). -/
  fpaq0Enc : Fpaq0Enc
  /-- Fpaq0 decoder registers (R45). -/
  fpaq0Dec : Fpaq0Dec
  /-- Fpaq0 parallel encoder registers, lane 0 first (R46). -/
  lanesEnc : List LaneEnc
  /-- Fpaq0 parallel decoder registers, lane 0 first (R47). -/
  lanesDec : List LaneDec
  /-- The context memory `CTX` (R48): packed descriptors (R41, R42); an unlisted entry holds the family's initial one. -/
  ctx : Memory
  /-- `OUT.bits` (R72), first bit first. -/
  sink : List Bool
  /-- The slot buffer `SB` (R80): an unlisted position is unwritten. -/
  slots : Memory
  /-- `IN.bytes` (R76), latched by OPEN_DEC. -/
  src : List Byte
  /-- `IN.bitpos` (R76). -/
  bitpos : Nat
  /-- The input buffer the host has placed for the next OPEN_DEC (R31, R55, R393). Empty until the host places one: R393
  obliges the host and does not say what an OPEN_DEC without it latches (DESIGN CHOICE, log entry 19). -/
  staged : List Byte
  /-- The model's own counter of the offers an `External` sink has answered since power-on (R82, log entry 3). -/
  offers : Nat
  /-- The responses returned to the host since power-on, newest first (R125, R372). -/
  responses : List Response
  deriving DecidableEq, Repr

/-- The engine with `phase` replaced. -/
def Engine.setPhase (e : Engine) (v : Phase) : Engine := { e with phase := v }

/-- The engine with `cmdIndex` replaced. -/
def Engine.setCmdIndex (e : Engine) (v : Nat) : Engine := { e with cmdIndex := v }

/-- The engine with `fam` replaced. -/
def Engine.setFam (e : Engine) (v : Family) : Engine := { e with fam := v }

/-- The engine with `dir` replaced. -/
def Engine.setDir (e : Engine) (v : Dir) : Engine := { e with dir := v }

/-- The engine with `laneCount` replaced. -/
def Engine.setLaneCount (e : Engine) (v : Nat) : Engine := { e with laneCount := v }

/-- The engine with `eof` replaced. -/
def Engine.setEof (e : Engine) (v : Bool) : Engine := { e with eof := v }

/-- The engine with `lastErr` replaced. -/
def Engine.setLastErr (e : Engine) (v : Status) : Engine := { e with lastErr := v }

/-- The engine with `cabacEnc` replaced. -/
def Engine.setCabacEnc (e : Engine) (v : CabacEnc) : Engine := { e with cabacEnc := v }

/-- The engine with `cabacDec` replaced. -/
def Engine.setCabacDec (e : Engine) (v : CabacDec) : Engine := { e with cabacDec := v }

/-- The engine with `vp8Enc` replaced. -/
def Engine.setVp8Enc (e : Engine) (v : Vp8Enc) : Engine := { e with vp8Enc := v }

/-- The engine with `vp8Dec` replaced. -/
def Engine.setVp8Dec (e : Engine) (v : Vp8Dec) : Engine := { e with vp8Dec := v }

/-- The engine with `ransEnc` replaced. -/
def Engine.setRansEnc (e : Engine) (v : RansEnc) : Engine := { e with ransEnc := v }

/-- The engine with `ransDec` replaced. -/
def Engine.setRansDec (e : Engine) (v : RansDec) : Engine := { e with ransDec := v }

/-- The engine with `fpaq0Enc` replaced. -/
def Engine.setFpaq0Enc (e : Engine) (v : Fpaq0Enc) : Engine := { e with fpaq0Enc := v }

/-- The engine with `fpaq0Dec` replaced. -/
def Engine.setFpaq0Dec (e : Engine) (v : Fpaq0Dec) : Engine := { e with fpaq0Dec := v }

/-- The engine with `lanesEnc` replaced. -/
def Engine.setLanesEnc (e : Engine) (v : List LaneEnc) : Engine := { e with lanesEnc := v }

/-- The engine with `lanesDec` replaced. -/
def Engine.setLanesDec (e : Engine) (v : List LaneDec) : Engine := { e with lanesDec := v }

/-- The engine with `ctx` replaced. -/
def Engine.setCtx (e : Engine) (v : Memory) : Engine := { e with ctx := v }

/-- The engine with `sink` replaced. -/
def Engine.setSink (e : Engine) (v : List Bool) : Engine := { e with sink := v }

/-- The engine with `slots` replaced. -/
def Engine.setSlots (e : Engine) (v : Memory) : Engine := { e with slots := v }

/-- The engine with `src` replaced. -/
def Engine.setSrc (e : Engine) (v : List Byte) : Engine := { e with src := v }

/-- The engine with `bitpos` replaced. -/
def Engine.setBitpos (e : Engine) (v : Nat) : Engine := { e with bitpos := v }

/-- The engine with `staged` replaced. -/
def Engine.setStaged (e : Engine) (v : List Byte) : Engine := { e with staged := v }

/-- The engine with `offers` replaced. -/
def Engine.setOffers (e : Engine) (v : Nat) : Engine := { e with offers := v }

/-- The engine with `responses` replaced. -/
def Engine.setResponses (e : Engine) (v : List Response) : Engine := { e with responses := v }

/-- A CABAC context descriptor unpacked (R41): the state index and the most probable symbol. -/
structure CabacCtx where
  s : BitVec 6
  mps : Bool
  deriving DecidableEq, Repr

/-- The results a successful command returns besides its status (R22, R125). -/
structure Reply where
  bit : Bool
  ctx : Byte
  out : List Byte
  deriving DecidableEq, Repr

/-- The end of a procedure of the spec's pseudocode on an engine: it went on with a value, or it raised an error (R20),
with the engine as the statements executed so far left it (R360). -/
inductive Res (α : Type) where
  | ok (a : α) (e : Engine)
  | raised (code : Status) (e : Engine)
  deriving DecidableEq, Repr

/-- What the host does to the core (R31): it issues command words, places decoder input and reads encoder output. The
engine is named by its port. -/
inductive HostAction where
  /-- Issue a command word on the engine's port (R110, R111). -/
  | command (engine : Nat) (word : Word)
  /-- Place the complete input of the engine's next decoder session (R31, R393). -/
  | placeInput (engine : Nat) (bytes : List Byte)
  /-- Try to change the input buffer that the engine's decoder session has latched (R89). -/
  | overwriteInput (engine : Nat) (bytes : List Byte)
  /-- Read the engine's output bytes (R88). -/
  | readOutput (engine : Nat)
  deriving DecidableEq, Repr

/-- The machine: the parameters it was built with, its engines, the port the current command came on, the host's
actions not yet taken, and what the host got by its last read of an output. -/
structure State where
  /-- The parameters of R13, fixed for the machine. -/
  params : Params
  /-- The `NUM_ENGINES` engines (R30, R371). -/
  engines : List Engine
  /-- The port of the command being executed: the model's own field (R371, log entry 1). -/
  sel : Nat
  /-- The host's actions not yet taken, next first: the model's own field (R31, log entry 1). -/
  host : List HostAction
  /-- The bytes the host got by its last `readOutput`: the model's own field (R88, log entry 1). -/
  readBack : List Byte
  deriving DecidableEq, Repr

/-- The machine with its engines replaced. -/
def State.setEngines (s : State) (v : List Engine) : State := { s with engines := v }

/-- The machine with the selected port replaced. -/
def State.setSel (s : State) (v : Nat) : State := { s with sel := v }

/-- The machine with the pending host actions replaced. -/
def State.setHost (s : State) (v : List HostAction) : State := { s with host := v }

/-- The machine with the host's last read replaced. -/
def State.setReadBack (s : State) (v : List Byte) : State := { s with readBack := v }

/-- Why a step faults. -/
inductive Fault where
  /-- The host addresses a port outside 0 .. NUM_ENGINES-1, which does not exist (R371). Raised by `step` and `exec`.
  Safe: the machine stops. -/
  | noSuchEngine
  deriving DecidableEq, Repr

/-- Why a step is refused. -/
inductive Refusal where
  /-- An instruction without a meaning. No arm of `exec` answers it. Safe: the machine stops. -/
  | notModelled (mnemonic : String)
  /-- The host tries to change a latched decoder input: the spec gives it no step (R89). Raised by `step`. Safe. -/
  | inputLatched
  /-- The host tries to read an output outside phase Finished: the spec gives it no read (R88). Raised by `step`.
  Safe. -/
  | outputNotReadable
  deriving DecidableEq, Repr

/-- Engine `id` after power-on: `phase`, `cmd_index` and `last_err` as R52 states; every other register is unspecified
there, and holds zero (or empty) here (DESIGN CHOICE, log entry 6). Two of them are read before an OPEN writes them.
`staged`: an OPEN_DEC with no input placed since power-on latches the empty sequence (DESIGN CHOICE, log entry 19).
`dir`: `inputLatched` reads it in phase Faulted, where `Enc` says that no input is latched (DESIGN CHOICE, log entry 6). -/
def Engine.powerOn (id : Nat) : Engine where
  id := id
  phase := .idle
  cmdIndex := 0
  fam := .cabac
  dir := .enc
  laneCount := 0
  eof := false
  lastErr := .ok
  cabacEnc := ⟨0, 0, 0, false⟩
  cabacDec := ⟨0, 0⟩
  vp8Enc := ⟨0, 0, 0, 0, false, 0⟩
  vp8Dec := ⟨0, 0⟩
  ransEnc := ⟨[], 0⟩
  ransDec := ⟨0⟩
  fpaq0Enc := ⟨0, 0⟩
  fpaq0Dec := ⟨0, 0, 0⟩
  lanesEnc := []
  lanesDec := []
  ctx := []
  sink := []
  slots := []
  src := []
  bitpos := 0
  staged := []
  offers := 0
  responses := []

/-- The machine with parameters `p` after power-on (R52, R371): every engine Idle, no host action pending. -/
def State.powerOn (p : Params) : State where
  params := p
  engines := (List.range p.numEngines).map Engine.powerOn
  sel := 0
  host := []
  readBack := []

/-- The machine right after reset, with the default parameters of R13. -/
def State.reset : State := State.powerOn Params.default

end Sys2Proof.Machine
end

