-- ==== Sys2Proof/Machine/Flags.lean ====
section
/-! DEFINITION. Status codes and the packed response word (spec/60_exceptions.md R351, spec/30_encoding.md R125). The
core has no condition codes or flags that a later command tests (R50); its 1-bit state is in the coder registers. -/

namespace Sys2Proof.Machine

open Sys2Proof

/-- The 4-bit code of a status (R351). -/
def Status.code : Status → BitVec 4
  | .ok => 0
  | .outputFailure => 1
  | .inputExhausted => 2
  | .illegalCommand => 3
  | .ctxRange => 4
  | .laneRange => 5
  | .counterOverflow => 6
  | .queueOverflow => 7

/-- The fixed part of a response as a word (R125): status in bits 31:28, OP in 27:24, bit in 23, zero in 22:16, ctx in
15:0. -/
def Response.word (r : Response) : Word :=
  r.status.code ++ r.op ++ BitVec.ofBool r.bit ++ (0 : BitVec 7) ++ (0 : BitVec 8) ++ r.ctx

end Sys2Proof.Machine
end

