-- ==== Sys2Proof/WellFormed.lean ====
section
/-! DEFINITION. The ranges of the operands of a command (spec/30_encoding.md R120, R121). -/

namespace Sys2Proof

/-- A context index fits in field C (R120): 0 to 65535. -/
abbrev ctxIndexFits (c : Nat) : Prop := c < 65536

/-- A lane fits in field L (R120): 0 to 127. -/
abbrev laneFits (l : Nat) : Prop := l < 128

/-- A lane count is 1 to 128 (R121). -/
abbrev laneCountFits (n : Nat) : Prop := 1 ≤ n ∧ n ≤ 128

/-- Every operand is in the range its field admits, as a check. -/
def Instr.wellFormed : Instr → Bool
  | .cabacOpenEnc => true
  | .cabacOpenDec _ => true
  | .cabacPut _ c => decide (ctxIndexFits c)
  | .cabacPutBypass _ => true
  | .cabacPutTerm _ => true
  | .cabacFinish => true
  | .cabacGet c => decide (ctxIndexFits c)
  | .cabacGetBypass => true
  | .cabacGetTerm => true
  | .cabacCtxInit c => decide (ctxIndexFits c)
  | .cabacCtxInitAll => true
  | .cabacCtxUpdate _ c => decide (ctxIndexFits c)
  | .cabacCtxRead c => decide (ctxIndexFits c)
  | .vp8OpenEnc => true
  | .vp8OpenDec _ => true
  | .vp8Put _ c => decide (ctxIndexFits c)
  | .vp8PutBypass _ => true
  | .vp8Finish => true
  | .vp8Get c => decide (ctxIndexFits c)
  | .vp8GetBypass => true
  | .vp8CtxInit c => decide (ctxIndexFits c)
  | .vp8CtxInitAll => true
  | .vp8CtxUpdate _ c => decide (ctxIndexFits c)
  | .vp8CtxRead c => decide (ctxIndexFits c)
  | .ransOpenEnc => true
  | .ransOpenDec _ => true
  | .ransPut _ c => decide (ctxIndexFits c)
  | .ransPutBypass _ => true
  | .ransFinish => true
  | .ransGet c => decide (ctxIndexFits c)
  | .ransGetBypass => true
  | .ransCtxInit c => decide (ctxIndexFits c)
  | .ransCtxInitAll => true
  | .ransCtxUpdate _ c => decide (ctxIndexFits c)
  | .ransCtxRead c => decide (ctxIndexFits c)
  | .fpaq0OpenEnc => true
  | .fpaq0OpenDec _ => true
  | .fpaq0Put _ c => decide (ctxIndexFits c)
  | .fpaq0PutBypass _ => true
  | .fpaq0Finish => true
  | .fpaq0Get c => decide (ctxIndexFits c)
  | .fpaq0GetBypass => true
  | .fpaq0CtxInit c => decide (ctxIndexFits c)
  | .fpaq0CtxInitAll => true
  | .fpaq0CtxUpdate _ c => decide (ctxIndexFits c)
  | .fpaq0CtxRead c => decide (ctxIndexFits c)
  | .fpaq0pOpenEnc n => decide (laneCountFits n)
  | .fpaq0pOpenDec n _ => decide (laneCountFits n)
  | .fpaq0pPut l _ c => decide (laneFits l) && decide (ctxIndexFits c)
  | .fpaq0pPutBypass l _ => decide (laneFits l)
  | .fpaq0pFinish => true
  | .fpaq0pGet l c => decide (laneFits l) && decide (ctxIndexFits c)
  | .fpaq0pGetBypass l => decide (laneFits l)
  | .fpaq0pCtxInit c => decide (ctxIndexFits c)
  | .fpaq0pCtxInitAll => true
  | .fpaq0pCtxUpdate _ c => decide (ctxIndexFits c)
  | .fpaq0pCtxRead c => decide (ctxIndexFits c)

/-- The command is well formed: every operand is in the range of its field (R120, R121). -/
abbrev Instr.WellFormed (i : Instr) : Prop := i.wellFormed = true

end Sys2Proof
end

