-- ==== Sys2Proof/Decode.lean ====
section
/-! DEFINITION. The command word of spec/30_encoding.md: its fields (R110), the decoder with the checks of R130 that
read the word alone (R122, R131), total on any word and rejecting by name, and the encoder (R120, R121, R135). -/

namespace Sys2Proof

/-- The fields of a command word as unsigned numbers (R110, R120). -/
structure CmdFields where
  /-- FAM, bits 31:28. -/
  fam : Nat
  /-- OP, bits 27:24. -/
  op : Nat
  /-- B, bit 23. -/
  b : Bool
  /-- L, bits 22:16. -/
  l : Nat
  /-- C, bits 15:0. -/
  c : Nat
  deriving DecidableEq, Repr

/-- Why a word names no command (R130, R131). Every reason raises ILLEGAL_COMMAND. -/
inductive DecodeError where
  /-- FAM is 5 to 15. -/
  | reservedFamily
  /-- OP is 13 to 15. -/
  | reservedOperation
  /-- PUT_TERM or GET_TERM with FAM other than CABAC. -/
  | termNotCabac
  /-- A field that R122 marks 0 is not zero. -/
  | unusedFieldNonZero
  deriving DecidableEq, Repr

/-- The fields of a word (R110). -/
def CmdFields.ofWord (w : Word) : CmdFields where
  fam := (w.extractLsb' 28 4).toNat
  op := (w.extractLsb' 24 4).toNat
  b := w.getLsbD 23
  l := (w.extractLsb' 16 7).toNat
  c := (w.extractLsb' 0 16).toNat

/-- The word with these fields (R110, R135). -/
def CmdFields.toWord (x : CmdFields) : Word :=
  BitVec.ofNat 32 (x.fam * 2 ^ 28 + x.op * 2 ^ 24 + x.b.toNat * 2 ^ 23 + x.l * 2 ^ 16 + x.c)

/-- The FAM code of a family (R110). -/
def Family.code : Family → Nat
  | .cabac => 0 | .vp8 => 1 | .rans => 2 | .fpaq0 => 3 | .fpaq0p => 4

/-- The family of a FAM code; `none` is reserved (R110, R131). -/
def Family.ofCode : Nat → Option Family
  | 0 => some .cabac | 1 => some .vp8 | 2 => some .rans | 3 => some .fpaq0 | 4 => some .fpaq0p
  | _ => none

/-- The OP code of an operation (R112). -/
def Op.code : Op → Nat
  | .openEnc => 0
  | .openDec => 1
  | .put => 2
  | .putBypass => 3
  | .putTerm => 4
  | .finish => 5
  | .get => 6
  | .getBypass => 7
  | .getTerm => 8
  | .ctxInit => 9
  | .ctxInitAll => 10
  | .ctxUpdate => 11
  | .ctxRead => 12

/-- The operation of an OP code; `none` is reserved (R112, R131). -/
def Op.ofCode : Nat → Option Op
  | 0 => some .openEnc
  | 1 => some .openDec
  | 2 => some .put
  | 3 => some .putBypass
  | 4 => some .putTerm
  | 5 => some .finish
  | 6 => some .get
  | 7 => some .getBypass
  | 8 => some .getTerm
  | 9 => some .ctxInit
  | 10 => some .ctxInitAll
  | 11 => some .ctxUpdate
  | 12 => some .ctxRead
  | _ => none

/-- Whether the operation uses field B: the bit b, or E for OPEN_DEC (R122). -/
def Op.usesB : Op → Bool
  | .openDec | .put | .putBypass | .putTerm | .ctxUpdate => true
  | .openEnc | .finish | .get | .getBypass | .getTerm | .ctxInit | .ctxInitAll | .ctxRead => false

/-- Whether the operation uses field L when the family is FPAQ0P: the lane, or N - 1 for an OPEN (R122). -/
def Op.usesL : Op → Bool
  | .openEnc | .openDec | .put | .putBypass | .get | .getBypass => true
  | .putTerm | .finish | .getTerm | .ctxInit | .ctxInitAll | .ctxUpdate | .ctxRead => false

/-- Whether the operation uses field C: the context index (R122). -/
def Op.usesC : Op → Bool
  | .put | .get | .ctxInit | .ctxUpdate | .ctxRead => true
  | .openEnc | .openDec | .putBypass | .putTerm | .finish | .getBypass | .getTerm | .ctxInitAll => false

/-- Every field that R122 marks 0 for this family and operation is zero. -/
def CmdFields.unusedZero (x : CmdFields) (f : Family) (o : Op) : Bool :=
  (o.usesB || !x.b) && ((o.usesL && f == .fpaq0p) || x.l == 0) && (o.usesC || x.c == 0)

/-- The command of a family and operation with its operands taken from B, L and C (R113, R120, R121); `none` for
the terminating-bin operations outside CABAC (R112). -/
def Instr.ofFields (f : Family) (o : Op) (b : Bool) (l c : Nat) : Option Instr :=
  match f with
  | .cabac =>
    match o with
    | .openEnc => some .cabacOpenEnc
    | .openDec => some (.cabacOpenDec b)
    | .put => some (.cabacPut b c)
    | .putBypass => some (.cabacPutBypass b)
    | .putTerm => some (.cabacPutTerm b)
    | .finish => some .cabacFinish
    | .get => some (.cabacGet c)
    | .getBypass => some .cabacGetBypass
    | .getTerm => some .cabacGetTerm
    | .ctxInit => some (.cabacCtxInit c)
    | .ctxInitAll => some .cabacCtxInitAll
    | .ctxUpdate => some (.cabacCtxUpdate b c)
    | .ctxRead => some (.cabacCtxRead c)
  | .vp8 =>
    match o with
    | .openEnc => some .vp8OpenEnc
    | .openDec => some (.vp8OpenDec b)
    | .put => some (.vp8Put b c)
    | .putBypass => some (.vp8PutBypass b)
    | .finish => some .vp8Finish
    | .get => some (.vp8Get c)
    | .getBypass => some .vp8GetBypass
    | .ctxInit => some (.vp8CtxInit c)
    | .ctxInitAll => some .vp8CtxInitAll
    | .ctxUpdate => some (.vp8CtxUpdate b c)
    | .ctxRead => some (.vp8CtxRead c)
    | .putTerm | .getTerm => none
  | .rans =>
    match o with
    | .openEnc => some .ransOpenEnc
    | .openDec => some (.ransOpenDec b)
    | .put => some (.ransPut b c)
    | .putBypass => some (.ransPutBypass b)
    | .finish => some .ransFinish
    | .get => some (.ransGet c)
    | .getBypass => some .ransGetBypass
    | .ctxInit => some (.ransCtxInit c)
    | .ctxInitAll => some .ransCtxInitAll
    | .ctxUpdate => some (.ransCtxUpdate b c)
    | .ctxRead => some (.ransCtxRead c)
    | .putTerm | .getTerm => none
  | .fpaq0 =>
    match o with
    | .openEnc => some .fpaq0OpenEnc
    | .openDec => some (.fpaq0OpenDec b)
    | .put => some (.fpaq0Put b c)
    | .putBypass => some (.fpaq0PutBypass b)
    | .finish => some .fpaq0Finish
    | .get => some (.fpaq0Get c)
    | .getBypass => some .fpaq0GetBypass
    | .ctxInit => some (.fpaq0CtxInit c)
    | .ctxInitAll => some .fpaq0CtxInitAll
    | .ctxUpdate => some (.fpaq0CtxUpdate b c)
    | .ctxRead => some (.fpaq0CtxRead c)
    | .putTerm | .getTerm => none
  | .fpaq0p =>
    match o with
    | .openEnc => some (.fpaq0pOpenEnc (l + 1))
    | .openDec => some (.fpaq0pOpenDec (l + 1) b)
    | .put => some (.fpaq0pPut l b c)
    | .putBypass => some (.fpaq0pPutBypass l b)
    | .finish => some .fpaq0pFinish
    | .get => some (.fpaq0pGet l c)
    | .getBypass => some (.fpaq0pGetBypass l)
    | .ctxInit => some (.fpaq0pCtxInit c)
    | .ctxInitAll => some .fpaq0pCtxInitAll
    | .ctxUpdate => some (.fpaq0pCtxUpdate b c)
    | .ctxRead => some (.fpaq0pCtxRead c)
    | .putTerm | .getTerm => none

/-- The decoder: the first three checks of R130, in its order, then the command. -/
def decode (w : Word) : Except DecodeError Instr :=
  let x := CmdFields.ofWord w
  match Family.ofCode x.fam, Op.ofCode x.op with
  | none, _ => .error .reservedFamily
  | some _, none => .error .reservedOperation
  | some f, some o =>
    match Instr.ofFields f o x.b x.l x.c with
    | none => .error .termNotCabac
    | some i => if x.unusedZero f o then .ok i else .error .unusedFieldNonZero

/-- The family of a command (R113). -/
def Instr.family : Instr → Family
  | .cabacOpenEnc => .cabac
  | .cabacOpenDec _ => .cabac
  | .cabacPut _ _ => .cabac
  | .cabacPutBypass _ => .cabac
  | .cabacPutTerm _ => .cabac
  | .cabacFinish => .cabac
  | .cabacGet _ => .cabac
  | .cabacGetBypass => .cabac
  | .cabacGetTerm => .cabac
  | .cabacCtxInit _ => .cabac
  | .cabacCtxInitAll => .cabac
  | .cabacCtxUpdate _ _ => .cabac
  | .cabacCtxRead _ => .cabac
  | .vp8OpenEnc => .vp8
  | .vp8OpenDec _ => .vp8
  | .vp8Put _ _ => .vp8
  | .vp8PutBypass _ => .vp8
  | .vp8Finish => .vp8
  | .vp8Get _ => .vp8
  | .vp8GetBypass => .vp8
  | .vp8CtxInit _ => .vp8
  | .vp8CtxInitAll => .vp8
  | .vp8CtxUpdate _ _ => .vp8
  | .vp8CtxRead _ => .vp8
  | .ransOpenEnc => .rans
  | .ransOpenDec _ => .rans
  | .ransPut _ _ => .rans
  | .ransPutBypass _ => .rans
  | .ransFinish => .rans
  | .ransGet _ => .rans
  | .ransGetBypass => .rans
  | .ransCtxInit _ => .rans
  | .ransCtxInitAll => .rans
  | .ransCtxUpdate _ _ => .rans
  | .ransCtxRead _ => .rans
  | .fpaq0OpenEnc => .fpaq0
  | .fpaq0OpenDec _ => .fpaq0
  | .fpaq0Put _ _ => .fpaq0
  | .fpaq0PutBypass _ => .fpaq0
  | .fpaq0Finish => .fpaq0
  | .fpaq0Get _ => .fpaq0
  | .fpaq0GetBypass => .fpaq0
  | .fpaq0CtxInit _ => .fpaq0
  | .fpaq0CtxInitAll => .fpaq0
  | .fpaq0CtxUpdate _ _ => .fpaq0
  | .fpaq0CtxRead _ => .fpaq0
  | .fpaq0pOpenEnc _ => .fpaq0p
  | .fpaq0pOpenDec _ _ => .fpaq0p
  | .fpaq0pPut _ _ _ => .fpaq0p
  | .fpaq0pPutBypass _ _ => .fpaq0p
  | .fpaq0pFinish => .fpaq0p
  | .fpaq0pGet _ _ => .fpaq0p
  | .fpaq0pGetBypass _ => .fpaq0p
  | .fpaq0pCtxInit _ => .fpaq0p
  | .fpaq0pCtxInitAll => .fpaq0p
  | .fpaq0pCtxUpdate _ _ => .fpaq0p
  | .fpaq0pCtxRead _ => .fpaq0p

/-- The operation of a command (R113). -/
def Instr.op : Instr → Op
  | .cabacOpenEnc => .openEnc
  | .cabacOpenDec _ => .openDec
  | .cabacPut _ _ => .put
  | .cabacPutBypass _ => .putBypass
  | .cabacPutTerm _ => .putTerm
  | .cabacFinish => .finish
  | .cabacGet _ => .get
  | .cabacGetBypass => .getBypass
  | .cabacGetTerm => .getTerm
  | .cabacCtxInit _ => .ctxInit
  | .cabacCtxInitAll => .ctxInitAll
  | .cabacCtxUpdate _ _ => .ctxUpdate
  | .cabacCtxRead _ => .ctxRead
  | .vp8OpenEnc => .openEnc
  | .vp8OpenDec _ => .openDec
  | .vp8Put _ _ => .put
  | .vp8PutBypass _ => .putBypass
  | .vp8Finish => .finish
  | .vp8Get _ => .get
  | .vp8GetBypass => .getBypass
  | .vp8CtxInit _ => .ctxInit
  | .vp8CtxInitAll => .ctxInitAll
  | .vp8CtxUpdate _ _ => .ctxUpdate
  | .vp8CtxRead _ => .ctxRead
  | .ransOpenEnc => .openEnc
  | .ransOpenDec _ => .openDec
  | .ransPut _ _ => .put
  | .ransPutBypass _ => .putBypass
  | .ransFinish => .finish
  | .ransGet _ => .get
  | .ransGetBypass => .getBypass
  | .ransCtxInit _ => .ctxInit
  | .ransCtxInitAll => .ctxInitAll
  | .ransCtxUpdate _ _ => .ctxUpdate
  | .ransCtxRead _ => .ctxRead
  | .fpaq0OpenEnc => .openEnc
  | .fpaq0OpenDec _ => .openDec
  | .fpaq0Put _ _ => .put
  | .fpaq0PutBypass _ => .putBypass
  | .fpaq0Finish => .finish
  | .fpaq0Get _ => .get
  | .fpaq0GetBypass => .getBypass
  | .fpaq0CtxInit _ => .ctxInit
  | .fpaq0CtxInitAll => .ctxInitAll
  | .fpaq0CtxUpdate _ _ => .ctxUpdate
  | .fpaq0CtxRead _ => .ctxRead
  | .fpaq0pOpenEnc _ => .openEnc
  | .fpaq0pOpenDec _ _ => .openDec
  | .fpaq0pPut _ _ _ => .put
  | .fpaq0pPutBypass _ _ => .putBypass
  | .fpaq0pFinish => .finish
  | .fpaq0pGet _ _ => .get
  | .fpaq0pGetBypass _ => .getBypass
  | .fpaq0pCtxInit _ => .ctxInit
  | .fpaq0pCtxInitAll => .ctxInitAll
  | .fpaq0pCtxUpdate _ _ => .ctxUpdate
  | .fpaq0pCtxRead _ => .ctxRead

/-- The fields a command is encoded with (R120, R121, R122): an unused field is 0, L of an FPAQ0P OPEN is N - 1. -/
def Instr.fields : Instr → CmdFields
  | .cabacOpenEnc => ⟨0, 0, false, 0, 0⟩
  | .cabacOpenDec eof => ⟨0, 1, eof, 0, 0⟩
  | .cabacPut b c => ⟨0, 2, b, 0, c⟩
  | .cabacPutBypass b => ⟨0, 3, b, 0, 0⟩
  | .cabacPutTerm b => ⟨0, 4, b, 0, 0⟩
  | .cabacFinish => ⟨0, 5, false, 0, 0⟩
  | .cabacGet c => ⟨0, 6, false, 0, c⟩
  | .cabacGetBypass => ⟨0, 7, false, 0, 0⟩
  | .cabacGetTerm => ⟨0, 8, false, 0, 0⟩
  | .cabacCtxInit c => ⟨0, 9, false, 0, c⟩
  | .cabacCtxInitAll => ⟨0, 10, false, 0, 0⟩
  | .cabacCtxUpdate b c => ⟨0, 11, b, 0, c⟩
  | .cabacCtxRead c => ⟨0, 12, false, 0, c⟩
  | .vp8OpenEnc => ⟨1, 0, false, 0, 0⟩
  | .vp8OpenDec eof => ⟨1, 1, eof, 0, 0⟩
  | .vp8Put b c => ⟨1, 2, b, 0, c⟩
  | .vp8PutBypass b => ⟨1, 3, b, 0, 0⟩
  | .vp8Finish => ⟨1, 5, false, 0, 0⟩
  | .vp8Get c => ⟨1, 6, false, 0, c⟩
  | .vp8GetBypass => ⟨1, 7, false, 0, 0⟩
  | .vp8CtxInit c => ⟨1, 9, false, 0, c⟩
  | .vp8CtxInitAll => ⟨1, 10, false, 0, 0⟩
  | .vp8CtxUpdate b c => ⟨1, 11, b, 0, c⟩
  | .vp8CtxRead c => ⟨1, 12, false, 0, c⟩
  | .ransOpenEnc => ⟨2, 0, false, 0, 0⟩
  | .ransOpenDec eof => ⟨2, 1, eof, 0, 0⟩
  | .ransPut b c => ⟨2, 2, b, 0, c⟩
  | .ransPutBypass b => ⟨2, 3, b, 0, 0⟩
  | .ransFinish => ⟨2, 5, false, 0, 0⟩
  | .ransGet c => ⟨2, 6, false, 0, c⟩
  | .ransGetBypass => ⟨2, 7, false, 0, 0⟩
  | .ransCtxInit c => ⟨2, 9, false, 0, c⟩
  | .ransCtxInitAll => ⟨2, 10, false, 0, 0⟩
  | .ransCtxUpdate b c => ⟨2, 11, b, 0, c⟩
  | .ransCtxRead c => ⟨2, 12, false, 0, c⟩
  | .fpaq0OpenEnc => ⟨3, 0, false, 0, 0⟩
  | .fpaq0OpenDec eof => ⟨3, 1, eof, 0, 0⟩
  | .fpaq0Put b c => ⟨3, 2, b, 0, c⟩
  | .fpaq0PutBypass b => ⟨3, 3, b, 0, 0⟩
  | .fpaq0Finish => ⟨3, 5, false, 0, 0⟩
  | .fpaq0Get c => ⟨3, 6, false, 0, c⟩
  | .fpaq0GetBypass => ⟨3, 7, false, 0, 0⟩
  | .fpaq0CtxInit c => ⟨3, 9, false, 0, c⟩
  | .fpaq0CtxInitAll => ⟨3, 10, false, 0, 0⟩
  | .fpaq0CtxUpdate b c => ⟨3, 11, b, 0, c⟩
  | .fpaq0CtxRead c => ⟨3, 12, false, 0, c⟩
  | .fpaq0pOpenEnc n => ⟨4, 0, false, n - 1, 0⟩
  | .fpaq0pOpenDec n eof => ⟨4, 1, eof, n - 1, 0⟩
  | .fpaq0pPut l b c => ⟨4, 2, b, l, c⟩
  | .fpaq0pPutBypass l b => ⟨4, 3, b, l, 0⟩
  | .fpaq0pFinish => ⟨4, 5, false, 0, 0⟩
  | .fpaq0pGet l c => ⟨4, 6, false, l, c⟩
  | .fpaq0pGetBypass l => ⟨4, 7, false, l, 0⟩
  | .fpaq0pCtxInit c => ⟨4, 9, false, 0, c⟩
  | .fpaq0pCtxInitAll => ⟨4, 10, false, 0, 0⟩
  | .fpaq0pCtxUpdate b c => ⟨4, 11, b, 0, c⟩
  | .fpaq0pCtxRead c => ⟨4, 12, false, 0, c⟩

/-- The encoder: the command word of a well-formed command (R110, R135). -/
def encode (i : Instr) : Word :=
  i.fields.toWord

/-- The command the decoder reads from a table word of `nbits` bits (fixed name). The command word is one 32-bit
value without a byte order (R111). -/
def decodeTableWord (nbits w : Nat) : Option Instr :=
  match decode (BitVec.ofNat 32 (w % 2 ^ nbits)) with
  | .ok i => some i
  | .error _ => none

end Sys2Proof
end

