-- ==== Sys2Proof/Machine/Operands.lean ====
section
/-! DEFINITION. What a command's operands name: the legality of a command in the engine's state and of its lane and
context operands (spec/30_encoding.md R130), and the packed context descriptors (spec/10_state.md R41, R42). -/

namespace Sys2Proof.Machine

open Sys2Proof

/-- The phase and family conditions of R130: an OPEN is legal in every phase; any other command needs an open session of
its own family, in the phase of its kind. -/
def legalNow (e : Engine) (f : Family) (o : Op) : Bool :=
  match o with
  | .openEnc | .openDec => true
  | .put | .putBypass | .putTerm | .finish => e.phase == .enc && f == e.fam
  | .get | .getBypass | .getTerm => e.phase == .dec && f == e.fam
  | .ctxInit | .ctxInitAll | .ctxUpdate | .ctxRead =>
    (e.phase == .enc || e.phase == .dec || e.phase == .finished) && f == e.fam

/-- The checks of R130 that read the engine's state, in its order: phase and family, then the lane operand, then the
context operand. A command without such an operand passes `none`. -/
def checkCommand (p : Params) (e : Engine) (f : Family) (o : Op) (lane ctx : Option Nat) : Status :=
  if !legalNow e f o then .illegalCommand
  else if lane.any (fun l => e.laneCount ≤ l) then .laneRange
  else if ctx.any (fun c => p.numCtx ≤ c) then .ctxRange
  else .ok

/-- The packed initial descriptor of a family's contexts: (s = 0, mps = 0) for CABAC (R41), p = 128 for the others
(R42). -/
def initialCtx : Family → Byte
  | .cabac => 0
  | .vp8 | .rans | .fpaq0 | .fpaq0p => 128

/-- The packed form `mps << 6 | s` of a CABAC descriptor (R41). -/
def CabacCtx.pack (c : CabacCtx) : Byte :=
  (0 : BitVec 1) ++ BitVec.ofBool c.mps ++ c.s

/-- The CABAC descriptor of a packed byte (R41). -/
def CabacCtx.unpack (v : Byte) : CabacCtx where
  s := v.extractLsb' 0 6
  mps := v.getLsbD 6

/-! ### The operands of a command -/

/-- The lane operand that R130 checks: FPAQ0P PUT, PUT_BYPASS, GET and GET_BYPASS have one. -/
def laneOperand : Instr → Option Nat
  | .cabacOpenEnc => none
  | .cabacOpenDec _ => none
  | .cabacPut _ _ => none
  | .cabacPutBypass _ => none
  | .cabacPutTerm _ => none
  | .cabacFinish => none
  | .cabacGet _ => none
  | .cabacGetBypass => none
  | .cabacGetTerm => none
  | .cabacCtxInit _ => none
  | .cabacCtxInitAll => none
  | .cabacCtxUpdate _ _ => none
  | .cabacCtxRead _ => none
  | .vp8OpenEnc => none
  | .vp8OpenDec _ => none
  | .vp8Put _ _ => none
  | .vp8PutBypass _ => none
  | .vp8Finish => none
  | .vp8Get _ => none
  | .vp8GetBypass => none
  | .vp8CtxInit _ => none
  | .vp8CtxInitAll => none
  | .vp8CtxUpdate _ _ => none
  | .vp8CtxRead _ => none
  | .ransOpenEnc => none
  | .ransOpenDec _ => none
  | .ransPut _ _ => none
  | .ransPutBypass _ => none
  | .ransFinish => none
  | .ransGet _ => none
  | .ransGetBypass => none
  | .ransCtxInit _ => none
  | .ransCtxInitAll => none
  | .ransCtxUpdate _ _ => none
  | .ransCtxRead _ => none
  | .fpaq0OpenEnc => none
  | .fpaq0OpenDec _ => none
  | .fpaq0Put _ _ => none
  | .fpaq0PutBypass _ => none
  | .fpaq0Finish => none
  | .fpaq0Get _ => none
  | .fpaq0GetBypass => none
  | .fpaq0CtxInit _ => none
  | .fpaq0CtxInitAll => none
  | .fpaq0CtxUpdate _ _ => none
  | .fpaq0CtxRead _ => none
  | .fpaq0pOpenEnc _ => none
  | .fpaq0pOpenDec _ _ => none
  | .fpaq0pPut l _ _ => some l
  | .fpaq0pPutBypass l _ => some l
  | .fpaq0pFinish => none
  | .fpaq0pGet l _ => some l
  | .fpaq0pGetBypass l => some l
  | .fpaq0pCtxInit _ => none
  | .fpaq0pCtxInitAll => none
  | .fpaq0pCtxUpdate _ _ => none
  | .fpaq0pCtxRead _ => none

/-- The context operand that R130 checks: PUT, GET, CTX_INIT, CTX_UPDATE and CTX_READ have one. -/
def ctxOperand : Instr → Option Nat
  | .cabacOpenEnc => none
  | .cabacOpenDec _ => none
  | .cabacPut _ c => some c
  | .cabacPutBypass _ => none
  | .cabacPutTerm _ => none
  | .cabacFinish => none
  | .cabacGet c => some c
  | .cabacGetBypass => none
  | .cabacGetTerm => none
  | .cabacCtxInit c => some c
  | .cabacCtxInitAll => none
  | .cabacCtxUpdate _ c => some c
  | .cabacCtxRead c => some c
  | .vp8OpenEnc => none
  | .vp8OpenDec _ => none
  | .vp8Put _ c => some c
  | .vp8PutBypass _ => none
  | .vp8Finish => none
  | .vp8Get c => some c
  | .vp8GetBypass => none
  | .vp8CtxInit c => some c
  | .vp8CtxInitAll => none
  | .vp8CtxUpdate _ c => some c
  | .vp8CtxRead c => some c
  | .ransOpenEnc => none
  | .ransOpenDec _ => none
  | .ransPut _ c => some c
  | .ransPutBypass _ => none
  | .ransFinish => none
  | .ransGet c => some c
  | .ransGetBypass => none
  | .ransCtxInit c => some c
  | .ransCtxInitAll => none
  | .ransCtxUpdate _ c => some c
  | .ransCtxRead c => some c
  | .fpaq0OpenEnc => none
  | .fpaq0OpenDec _ => none
  | .fpaq0Put _ c => some c
  | .fpaq0PutBypass _ => none
  | .fpaq0Finish => none
  | .fpaq0Get c => some c
  | .fpaq0GetBypass => none
  | .fpaq0CtxInit c => some c
  | .fpaq0CtxInitAll => none
  | .fpaq0CtxUpdate _ c => some c
  | .fpaq0CtxRead c => some c
  | .fpaq0pOpenEnc _ => none
  | .fpaq0pOpenDec _ _ => none
  | .fpaq0pPut _ _ c => some c
  | .fpaq0pPutBypass _ _ => none
  | .fpaq0pFinish => none
  | .fpaq0pGet _ c => some c
  | .fpaq0pGetBypass _ => none
  | .fpaq0pCtxInit c => some c
  | .fpaq0pCtxInitAll => none
  | .fpaq0pCtxUpdate _ c => some c
  | .fpaq0pCtxRead c => some c

end Sys2Proof.Machine
end

