-- ==== Sys2Proof/Machine/Ops.lean ====
section
/-! DEFINITION. The named operations every command is built from: sparse memories, the range registers, sequencing with errors, the bit
sink and source and the slot buffer (spec/20_memory.md), context entries, opening a session, raising an error (taking
an exception, spec/60_exceptions.md R360), completing a command, and the frame every command runs in (R130). -/

namespace Sys2Proof.Machine

open Sys2Proof

/-! ### Sparse memories -/

/-- The byte listed at an address, if any. -/
def Memory.lookup (a : Nat) : Memory → Option Byte
  | [] => none
  | c :: m => if c.1 = a then some c.2 else Memory.lookup a m

/-- List `v` at `a`, keeping the addresses rising. -/
def Memory.insertCell (a : Nat) (v : Byte) : Memory → Memory
  | [] => [(a, v)]
  | c :: m =>
    if a < c.1 then (a, v) :: c :: m
    else if a = c.1 then (a, v) :: m
    else c :: Memory.insertCell a v m

/-- Unlist an address. -/
def Memory.erase (a : Nat) : Memory → Memory
  | [] => []
  | c :: m => if c.1 = a then m else c :: Memory.erase a m

/-- What address `a` reads as, where an unlisted address reads as `d`: a byte, or nothing written. -/
def Memory.read (d : Option Byte) (m : Memory) (a : Nat) : Option Byte :=
  (Memory.lookup a m).or d

/-- Write `v` at `a`, where an unlisted address reads as `d`: writing that value unlists the address. -/
def Memory.write (d : Option Byte) (m : Memory) (a : Nat) (v : Byte) : Memory :=
  if d = some v then Memory.erase a m else Memory.insertCell a v m

/-- The canonical form: addresses strictly rising, and no entry equal to what an unlisted address reads as. -/
abbrev Memory.wf (d : Option Byte) (m : Memory) : Prop :=
  m.Pairwise (fun x y => x.1 < y.1) ∧ ∀ c ∈ m, d ≠ some c.2

/-! ### The range registers (R2, R14, R36 to R39) -/

/-- `range` of the CABAC encoder as the 32-bit register of R36: its 9 bits (R14), and zeros above. -/
def CabacEnc.range (r : CabacEnc) : Word := r.range9.setWidth 32

/-- `range <- v` of the CABAC encoder, which keeps the 9 bits that R14 gives it. -/
def CabacEnc.setRange (r : CabacEnc) (v : Word) : CabacEnc := { r with range9 := v.setWidth 9 }

/-- `range` of the CABAC decoder as the 32-bit register of R37: its 9 bits (R14), and zeros above. -/
def CabacDec.range (r : CabacDec) : Word := r.range9.setWidth 32

/-- `range <- v` of the CABAC decoder, which keeps the 9 bits that R14 gives it. -/
def CabacDec.setRange (r : CabacDec) (v : Word) : CabacDec := { r with range9 := v.setWidth 9 }

/-- `range` of the VP8 encoder as the 32-bit register of R38: its 8 bits (R14), and zeros above. -/
def Vp8Enc.range (r : Vp8Enc) : Word := r.range8.setWidth 32

/-- `range <- v` of the VP8 encoder, which keeps the 8 bits that R14 gives it. -/
def Vp8Enc.setRange (r : Vp8Enc) (v : Word) : Vp8Enc := { r with range8 := v.setWidth 8 }

/-- `range` of the VP8 decoder as the 32-bit register of R39: its 8 bits (R14), and zeros above. -/
def Vp8Dec.range (r : Vp8Dec) : Word := r.range8.setWidth 32

/-- `range <- v` of the VP8 decoder, which keeps the 8 bits that R14 gives it. -/
def Vp8Dec.setRange (r : Vp8Dec) (v : Word) : Vp8Dec := { r with range8 := v.setWidth 8 }

/-! ### Sequencing -/

/-- Go on with the next statement unless an error was raised (R20). -/
def Res.andThen {α β : Type} (r : Res α) (f : α → Engine → Res β) : Res β :=
  match r with
  | .ok a e => f a e
  | .raised code e => .raised code e

/-! ### The bit sink (R72 to R75, R82) -/

/-- Offer one byte to the sink (R82): an `InMemory` sink accepts it; the environment of an `External` one answers by a
free draw, and a refusal raises OUTPUT_FAILURE. -/
def offerByte (p : Params) (e : Engine) : Res Unit :=
  match p.sinkMode with
  | .inMemory => .ok () e
  | .external =>
    if Config.sinkAccepts e.id e.offers then .ok () (e.setOffers (e.offers + 1))
    else .raised .outputFailure (e.setOffers (e.offers + 1))

/-- `WriteBit(b)` (R73): append a bit; a byte this completes is offered. -/
def writeBit (p : Params) (b : Bool) (e : Engine) : Res Unit :=
  let e := e.setSink (e.sink ++ [b])
  if e.sink.length % 8 = 0 then offerByte p e else .ok () e

/-- Append a list of bits, first one first. -/
def writeBits (p : Params) : List Bool → Engine → Res Unit
  | [], e => .ok () e
  | b :: bs, e => (writeBit p b e).andThen fun _ e => writeBits p bs e

/-- The bits of a byte in stream order, bit 7 first (R70). -/
def byteBits (v : Byte) : List Bool :=
  [v.getLsbD 7, v.getLsbD 6, v.getLsbD 5, v.getLsbD 4, v.getLsbD 3, v.getLsbD 2, v.getLsbD 1, v.getLsbD 0]

/-- `WriteByte(v)` (R74). -/
def writeByte (p : Params) (v : Byte) (e : Engine) : Res Unit :=
  writeBits p (byteBits v) e

/-- Write a list of bytes, first one first. -/
def writeBytes (p : Params) : List Byte → Engine → Res Unit
  | [], e => .ok () e
  | v :: vs, e => (writeByte p v e).andThen fun _ e => writeBytes p vs e

/-- `SinkClose()` (R75): pad the last byte with zero bits. -/
def sinkClose (p : Params) (e : Engine) : Res Unit :=
  writeBits p (List.replicate ((8 - e.sink.length % 8) % 8) false) e

/-- The byte whose bits in stream order are given (R72). -/
def byteOfBits (b7 b6 b5 b4 b3 b2 b1 b0 : Bool) : Byte :=
  BitVec.ofBool b7 ++ BitVec.ofBool b6 ++ BitVec.ofBool b5 ++ BitVec.ofBool b4 ++
    BitVec.ofBool b3 ++ BitVec.ofBool b2 ++ BitVec.ofBool b1 ++ BitVec.ofBool b0

/-- The complete bytes of a bit sequence, in order (R72). -/
def completeBytes : List Bool → List Byte
  | b7 :: b6 :: b5 :: b4 :: b3 :: b2 :: b1 :: b0 :: bs => byteOfBits b7 b6 b5 b4 b3 b2 b1 b0 :: completeBytes bs
  | _ => []

/-! ### The bit source (R76 to R79) -/

/-- The bit of the input at a bit position (R77): bit 7 of a byte first. -/
def srcBit (e : Engine) (pos : Nat) : Bool :=
  (e.src.getD (pos / 8) 0).getLsbD (7 - pos % 8)

/-- `AtEnd()` (R79). No command calls it. -/
def atEnd (e : Engine) : Bool := 8 * e.src.length ≤ e.bitpos

/-- `ReadBit()` (R77). -/
def readBit (e : Engine) : Res Bool :=
  if e.bitpos < 8 * e.src.length then .ok (srcBit e e.bitpos) (e.setBitpos (e.bitpos + 1))
  else if e.eof then .raised .inputExhausted e
  else .ok false (e.setBitpos (e.bitpos + 1))

/-- A register shifted left by one bit, with `b` shifted in, truncated to its width. -/
def shiftIn {n : Nat} (v : BitVec n) (b : Bool) : BitVec n :=
  (v <<< 1) ||| BitVec.ofNat n b.toNat

/-- A word shifted left by one byte, with `b` shifted in, truncated to 32 bits. -/
def shiftInByte (v : Word) (b : Byte) : Word :=
  (v <<< 8) ||| b.setWidth 32

/-- The loop of `ReadByte()` (R78): `n` more bits into `v`. -/
def readByteLoop : Nat → Byte → Engine → Res Byte
  | 0, v, e => .ok v e
  | n + 1, v, e => (readBit e).andThen fun b e => readByteLoop n (shiftIn v b) e

/-- `ReadByte()` (R78). -/
def readByte (e : Engine) : Res Byte := readByteLoop 8 0 e

/-! ### The slot buffer and the positioned source (R80, R81) -/

/-- `SlotWrite(pos, v)` (R80). -/
def slotWrite (pos : Nat) (v : Byte) (e : Engine) : Engine :=
  e.setSlots (Memory.write none e.slots pos v)

/-- The byte of the FPAQ0P output at a position: 0x00 where nothing was written (R80). -/
def slotByte (e : Engine) (pos : Nat) : Byte :=
  (Memory.read none e.slots pos).getD 0

/-- `SlotRead(pos)` (R81): it does not use or move the bit cursor. -/
def slotRead (pos : Nat) (e : Engine) : Res Byte :=
  if pos < e.src.length then .ok (e.src.getD pos 0) e
  else if e.eof then .raised .inputExhausted e
  else .ok 0 e

/-- The length `L = N * max k[i]` of the FPAQ0P output (R80). -/
def slotLength (e : Engine) : Nat :=
  e.laneCount * (e.lanesEnc.map LaneEnc.k).foldl max 0

/-- The FPAQ0P output byte sequence, positions 0 .. L-1 (R80). -/
def slotOutput (e : Engine) : List Byte :=
  (List.range (slotLength e)).map (slotByte e)

/-- Offer `n` bytes in a row (R82). -/
def offerBytes (p : Params) : Nat → Engine → Res Unit
  | 0, e => .ok () e
  | n + 1, e => (offerByte p e).andThen fun _ e => offerBytes p n e

/-- The output byte sequence of an engine (R75, R80, R86). -/
def Engine.output (e : Engine) : List Byte :=
  match e.fam with
  | .fpaq0p => slotOutput e
  | .cabac | .vp8 | .rans | .fpaq0 => completeBytes e.sink

/-- What the host may read of an engine's output (R88): all of it in phase Finished, nothing in any other phase. -/
def Engine.readableOutput (e : Engine) : Option (List Byte) :=
  if e.phase = .finished then some e.output else none

/-! ### Context entries (R48) -/

/-- `CTX[c]` in packed form. An unlisted entry holds the family's initial descriptor. -/
def ctxGet (e : Engine) (c : Nat) : Byte :=
  (Memory.read (some (initialCtx e.fam)) e.ctx c).getD 0

/-- `CTX[c] <- v` in packed form. -/
def ctxSet (e : Engine) (c : Nat) (v : Byte) : Engine :=
  e.setCtx (Memory.write (some (initialCtx e.fam)) e.ctx c v)

/-- Every entry at the initial descriptor: nothing listed (R161, R166). -/
def ctxReset (e : Engine) : Engine := e.setCtx []

/-! ### Sessions -/

/-- What every OPEN sets (R53, R54, R391): configuration, contexts, an empty sink and slot buffer, and the source with
its cursor at 0. -/
def openSession (f : Family) (d : Dir) (n : Nat) (eof : Bool) (src : List Byte) (e : Engine) : Engine :=
  ((((((((((e.setPhase (match d with | .enc => .enc | .dec => .dec)).setFam f).setDir d).setLaneCount n).setEof eof).setCtx
    []).setSink []).setSlots []).setSrc src).setBitpos 0)

/-- OPEN_ENC up to the family's registers (R53). -/
def openEncoder (f : Family) (n : Nat) (e : Engine) : Engine :=
  openSession f .enc n false [] e

/-- OPEN_DEC up to the family's registers (R54): it latches the input the host has placed (R76, R393). Where the host has
placed none since power-on that is the empty sequence, and where it has placed none since the last OPEN_DEC the same
input again (DESIGN CHOICE, log entry 19). -/
def openDecoder (f : Family) (n : Nat) (eof : Bool) (e : Engine) : Engine :=
  openSession f .dec n eof e.staged e

/-! ### Ending a command -/

/-- TAKING AN EXCEPTION, `raise Err(code)` (R360): the response, `last_err`, phase Faulted, and the command index. There
is no handler and no return; the next OPEN starts over (R364). -/
def raiseErr (op : BitVec 4) (code : Status) (e : Engine) : Engine :=
  (((e.setResponses (⟨code, op, false, 0, []⟩ :: e.responses)).setLastErr code).setPhase .faulted).setCmdIndex
    (e.cmdIndex + 1)

/-- A command's success (R21, R35, R125). -/
def completeCmd (op : BitVec 4) (r : Reply) (e : Engine) : Engine :=
  ((e.setResponses (⟨.ok, op, r.bit, r.ctx, r.out⟩ :: e.responses)).setLastErr .ok).setCmdIndex (e.cmdIndex + 1)

/-- A reply with nothing in it. -/
def Reply.none : Reply := ⟨false, 0, []⟩

/-- `return bit b` (R22). -/
def Reply.ofBit (b : Bool) : Reply := ⟨b, 0, []⟩

/-- `return ctx c` (R22). -/
def Reply.ofCtx (c : Byte) : Reply := ⟨false, c, []⟩

/-- `return out` (R22). -/
def Reply.ofOut (o : List Byte) : Reply := ⟨false, 0, o⟩

/-- The end of FINISH: phase Finished, and the output as the response's `out`. -/
def finishSession (e : Engine) : Res Reply :=
  let e := e.setPhase .finished
  .ok (.ofOut e.output) e

/-! ### The frame of a command -/

/-- The engine on the selected port. -/
def State.engine? (s : State) : Option Engine := s.engines[s.sel]?

/-- The machine with the engine on the selected port replaced. -/
def State.withEngine (s : State) (e : Engine) : State := s.setEngines (s.engines.set s.sel e)

/-- The OP code of an operation as the response's 4-bit field (R125). -/
def opBits (o : Op) : BitVec 4 := BitVec.ofNat 4 o.code

/-- The engine after an execution: completed, or with the error taken. -/
def settle (o : Op) : Res Reply → Engine
  | .ok r e => completeCmd (opBits o) r e
  | .raised code e => raiseErr (opBits o) code e

/-- A command on the selected engine: the state checks of R130, whose failure raises its error with no other effect
(R360), then the command's rule. -/
def runCommand (f : Family) (o : Op) (lane ctx : Option Nat) (body : Params → Engine → Res Reply) (s : State) :
    Host.Outcome State Fault Refusal :=
  match s.engine? with
  | none => .fault .noSuchEngine
  | some e =>
    if checkCommand s.params e f o lane ctx = .ok then .next (s.withEngine (settle o (body s.params e)))
    else .next (s.withEngine (raiseErr (opBits o) (checkCommand s.params e f o lane ctx) e))

end Sys2Proof.Machine
end

