-- ==== Sys2Proof/Machine/Context.lean ====
section
/-! DEFINITION. The update procedures of a context and the context commands of every family (spec/40_context.md R154 to
R168). -/

namespace Sys2Proof.Machine

open Sys2Proof

/-- `CabacUpdate(c, bin)` (R154), with the swap test that the parameter selects. -/
def cabacUpdate (t : SwapTest) (c : CabacCtx) (bin : Bool) : CabacCtx :=
  if bin = c.mps then ⟨BitVec.ofNat 6 (transIdxMPS c.s.toNat), c.mps⟩
  else
    let next := BitVec.ofNat 6 (transIdxLPS c.s.toNat)
    match t with
    | .old => ⟨next, if c.s = 0 then !c.mps else c.mps⟩
    | .new => ⟨next, if next = 0 then !c.mps else c.mps⟩

/-- The arithmetic shift `d >> 5` of R17: floor(d / 32). -/
def asr5 (d : Int) : Int := d / 32

/-- `ProbUpdate(p, b)` (R156). -/
def probUpdate (p : Byte) (b : Bool) : Byte :=
  let d : Int := if b then -(p.toNat : Int) else 256 - (p.toNat : Int)
  BitVec.ofNat 8 (min 255 (max 1 ((p.toNat : Int) + asr5 d))).toNat

/-- `CTX[c]` as a CABAC descriptor (R41, R48). -/
def cabacCtxGet (e : Engine) (c : Nat) : CabacCtx := CabacCtx.unpack (ctxGet e c)

/-- `CTX[c] <- v` for a CABAC descriptor (R41, R48). -/
def cabacCtxSet (e : Engine) (c : Nat) (v : CabacCtx) : Engine := ctxSet e c v.pack

/-- `CabacUpdate(CTX[c], b)`. -/
def cabacCtxUpdate (p : Params) (c : Nat) (b : Bool) (e : Engine) : Engine :=
  cabacCtxSet e c (cabacUpdate p.cabacSwapTest (cabacCtxGet e c) b)

/-- `CTX[c].p <- ProbUpdate(CTX[c].p, b)`. -/
def probCtxUpdate (c : Nat) (b : Bool) (e : Engine) : Engine :=
  ctxSet e c (probUpdate (ctxGet e c) b)

/-! ### The four context operations, for any family -/

/-- CTX_INIT of entry `c` (R160, R165). -/
def ctxInit (f : Family) (c : Nat) (s : State) : Host.Outcome State Fault Refusal :=
  runCommand f .ctxInit none (some c) (fun _ e => .ok .none (ctxSet e c (initialCtx f))) s

/-- CTX_INIT_ALL (R161, R166). -/
def ctxInitAll (f : Family) (s : State) : Host.Outcome State Fault Refusal :=
  runCommand f .ctxInitAll none none (fun _ e => .ok .none (ctxReset e)) s

/-- CTX_UPDATE of a probability family (R167). -/
def ctxUpdateProb (f : Family) (b : Bool) (c : Nat) (s : State) : Host.Outcome State Fault Refusal :=
  runCommand f .ctxUpdate none (some c) (fun _ e => .ok .none (probCtxUpdate c b e)) s

/-- CTX_READ: the packed descriptor, and no state changes (R163, R168). -/
def ctxRead (f : Family) (c : Nat) (s : State) : Host.Outcome State Fault Refusal :=
  runCommand f .ctxRead none (some c) (fun _ e => .ok (.ofCtx (ctxGet e c)) e) s

/-! ### CABAC -/

/-- `cabac.ctx_init c` (R160). -/
def execCabacCtxInit (c : Nat) (s : State) : Host.Outcome State Fault Refusal := ctxInit .cabac c s

/-- `cabac.ctx_init_all` (R161). -/
def execCabacCtxInitAll (s : State) : Host.Outcome State Fault Refusal := ctxInitAll .cabac s

/-- `cabac.ctx_update b, c` (R162): codes no bit and touches no coder register. -/
def execCabacCtxUpdate (b : Bool) (c : Nat) (s : State) : Host.Outcome State Fault Refusal :=
  runCommand .cabac .ctxUpdate none (some c) (fun p e => .ok .none (cabacCtxUpdate p c b e)) s

/-- `cabac.ctx_read c` (R163): returns `CTX[c].mps << 6 | CTX[c].s`. -/
def execCabacCtxRead (c : Nat) (s : State) : Host.Outcome State Fault Refusal := ctxRead .cabac c s

/-! ### VP8 -/

/-- `vp8.ctx_init c` (R165): `p = 128`. -/
def execVp8CtxInit (c : Nat) (s : State) : Host.Outcome State Fault Refusal := ctxInit .vp8 c s

/-- `vp8.ctx_init_all` (R166). -/
def execVp8CtxInitAll (s : State) : Host.Outcome State Fault Refusal := ctxInitAll .vp8 s

/-- `vp8.ctx_update b, c` (R167). -/
def execVp8CtxUpdate (b : Bool) (c : Nat) (s : State) : Host.Outcome State Fault Refusal := ctxUpdateProb .vp8 b c s

/-- `vp8.ctx_read c` (R168): returns `CTX[c].p`. -/
def execVp8CtxRead (c : Nat) (s : State) : Host.Outcome State Fault Refusal := ctxRead .vp8 c s

/-! ### RANS -/

/-- `rans.ctx_init c` (R165): `p = 128`. -/
def execRansCtxInit (c : Nat) (s : State) : Host.Outcome State Fault Refusal := ctxInit .rans c s

/-- `rans.ctx_init_all` (R166). -/
def execRansCtxInitAll (s : State) : Host.Outcome State Fault Refusal := ctxInitAll .rans s

/-- `rans.ctx_update b, c` (R167). -/
def execRansCtxUpdate (b : Bool) (c : Nat) (s : State) : Host.Outcome State Fault Refusal := ctxUpdateProb .rans b c s

/-- `rans.ctx_read c` (R168): returns `CTX[c].p`. -/
def execRansCtxRead (c : Nat) (s : State) : Host.Outcome State Fault Refusal := ctxRead .rans c s

/-! ### FPAQ0 -/

/-- `fpaq0.ctx_init c` (R165): `p = 128`. -/
def execFpaq0CtxInit (c : Nat) (s : State) : Host.Outcome State Fault Refusal := ctxInit .fpaq0 c s

/-- `fpaq0.ctx_init_all` (R166). -/
def execFpaq0CtxInitAll (s : State) : Host.Outcome State Fault Refusal := ctxInitAll .fpaq0 s

/-- `fpaq0.ctx_update b, c` (R167). -/
def execFpaq0CtxUpdate (b : Bool) (c : Nat) (s : State) : Host.Outcome State Fault Refusal := ctxUpdateProb .fpaq0 b c s

/-- `fpaq0.ctx_read c` (R168): returns `CTX[c].p`. -/
def execFpaq0CtxRead (c : Nat) (s : State) : Host.Outcome State Fault Refusal := ctxRead .fpaq0 c s

/-! ### FPAQ0P -/

/-- `fpaq0p.ctx_init c` (R165): `p = 128`. -/
def execFpaq0pCtxInit (c : Nat) (s : State) : Host.Outcome State Fault Refusal := ctxInit .fpaq0p c s

/-- `fpaq0p.ctx_init_all` (R166). -/
def execFpaq0pCtxInitAll (s : State) : Host.Outcome State Fault Refusal := ctxInitAll .fpaq0p s

/-- `fpaq0p.ctx_update b, c` (R167). -/
def execFpaq0pCtxUpdate (b : Bool) (c : Nat) (s : State) : Host.Outcome State Fault Refusal := ctxUpdateProb .fpaq0p b c s

/-- `fpaq0p.ctx_read c` (R168): returns `CTX[c].p`. -/
def execFpaq0pCtxRead (c : Nat) (s : State) : Host.Outcome State Fault Refusal := ctxRead .fpaq0p c s

end Sys2Proof.Machine
end

