-- ==== Sys2Proof/Machine/Cabac.lean ====
section
/-! DEFINITION. The CABAC commands (spec/41_cabac.md R181 to R217) and the procedures they are built from. -/

namespace Sys2Proof.Machine

open Sys2Proof

/-- `range - amount`. The spec's arithmetic is on non-negative integers (R16), so where `range < amount` (only a decoder
that went on after `get_term` returned 1 gets there) the register holds a free value (log entry 5). -/
def rangeSub (range : Word) (amount : Nat) : Word :=
  if amount ≤ range.toNat then range - BitVec.ofNat 32 amount
  else (Config.rangeBelowZero range.toNat amount).setWidth 32

/-- The LPS sub-range `rangeTabLPS[ctx.s][(range >> 6) & 3]` (R150, R189). -/
def lpsRange (c : CabacCtx) (range : Word) : Nat := rangeTabLPS c.s.toNat (rangeQuant range)

/-! ### Encoder procedures -/

/-- The loop of PutBit (R185): `n` deferred bits, each the opposite of the bit put. -/
def drainOutstanding (p : Params) (b : Bool) : Nat → Engine → Res Unit
  | 0, e => .ok () e
  | n + 1, e => (writeBit p b e).andThen fun _ e =>
      drainOutstanding p b n
        (e.setCabacEnc { e.cabacEnc with outstanding := e.cabacEnc.outstanding - 1 })

/-- `PutBit(b)` (R185): the first bit of a session is not written. -/
def putBit (p : Params) (b : Bool) (e : Engine) : Res Unit :=
  let first :=
    if e.cabacEnc.firstBit then .ok () (e.setCabacEnc { e.cabacEnc with firstBit := false })
    else writeBit p b e
  first.andThen fun _ e => drainOutstanding p (!b) e.cabacEnc.outstanding e

/-- A counter of width `OUTSTANDING_W` cannot be incremented (R186, R231). -/
def counterFull (p : Params) (n : Nat) : Bool :=
  p.outstandingW.any fun w => n == 2 ^ w - 1

/-- `IncOutstanding()` (R186). -/
def incOutstanding (p : Params) (e : Engine) : Res Unit :=
  if counterFull p e.cabacEnc.outstanding then .raised .counterOverflow e
  else .ok () (e.setCabacEnc { e.cabacEnc with outstanding := e.cabacEnc.outstanding + 1 })

/-- Classify `low` and output its top bit: the three cases of one RenormE step (R187). -/
def renormEClassify (p : Params) (e : Engine) : Res Unit :=
  let r := e.cabacEnc
  if r.low.toNat < 256 then putBit p false e
  else if 512 ≤ r.low.toNat then putBit p true (e.setCabacEnc { r with low := r.low - 512 })
  else incOutstanding p (e.setCabacEnc { r with low := r.low - 256 })

/-- Double `range` and `low` (R187). -/
def renormEShift (e : Engine) : Engine :=
  e.setCabacEnc ({ e.cabacEnc with low := e.cabacEnc.low <<< 1 }.setRange (e.cabacEnc.range <<< 1))

/-- `RenormE()` (R187), with the number of passes bounded. From any range of 1 or more it ends within 8 passes; a range
of 0, where the loop of R187 would not end, is reached by no run (log entry 8). -/
def cabacRenormE (p : Params) : Nat → Engine → Res Unit
  | 0, e => .ok () e
  | n + 1, e =>
    if e.cabacEnc.range.toNat < 256 then
      (renormEClassify p e).andThen fun _ e => cabacRenormE p n (renormEShift e)
    else .ok () e

/-- The bound on the passes of RenormE and RenormD. -/
def renormPasses : Nat := 8

/-- `EncodeFlush()` (R188). -/
def encodeFlush (p : Params) (e : Engine) : Res Unit :=
  (cabacRenormE p renormPasses (e.setCabacEnc (e.cabacEnc.setRange 2))).andThen fun _ e =>
  (putBit p (e.cabacEnc.low.getLsbD 9) e).andThen fun _ e =>
  (writeBit p (e.cabacEnc.low.getLsbD 8) e).andThen fun _ e =>
  writeBit p true e

/-- `range <- range - 2` of the terminating bin (R191, R192). -/
def termRange (e : Engine) : Engine :=
  e.setCabacEnc (e.cabacEnc.setRange (rangeSub e.cabacEnc.range 2))

/-- The terminating bin of value 1 (R191, R192): `low += range`, flush, close the sink, phase Finished. -/
def cabacTerminate (p : Params) (e : Engine) : Res Reply :=
  let e := termRange e
  let e := e.setCabacEnc { e.cabacEnc with low := e.cabacEnc.low + e.cabacEnc.range }
  (encodeFlush p e).andThen fun _ e =>
  (sinkClose p e).andThen fun _ e => finishSession e

/-- The interval step of PUT (R189): `range -= rLPS`, and on the LPS `low += range; range = rLPS`. -/
def cabacEncodeInterval (c : CabacCtx) (b : Bool) (r : CabacEnc) : CabacEnc :=
  let rLPS := lpsRange c r.range
  let range := rangeSub r.range rLPS
  if b = c.mps then r.setRange range
  else { r with low := r.low + range }.setRange (BitVec.ofNat 32 rLPS)

/-- The rule of `cabac.put` (R189): interval, context update, renormalization. -/
def cabacPutBody (b : Bool) (c : Nat) (p : Params) (e : Engine) : Res Reply :=
  let e1 := e.setCabacEnc (cabacEncodeInterval (cabacCtxGet e c) b e.cabacEnc)
  (cabacRenormE p renormPasses (cabacCtxUpdate p c b e1)).andThen fun _ e => .ok .none e

/-- The rule of `cabac.put_bypass` (R190). -/
def cabacPutBypassBody (b : Bool) (p : Params) (e : Engine) : Res Reply :=
  let low := e.cabacEnc.low <<< 1
  let low := if b then low + e.cabacEnc.range else low
  let e := e.setCabacEnc { e.cabacEnc with low := low }
  (if 1024 ≤ low.toNat then
      (putBit p true e).andThen fun _ e =>
        .ok () (e.setCabacEnc { e.cabacEnc with low := e.cabacEnc.low - 1024 })
    else if low.toNat < 512 then putBit p false e
    else incOutstanding p (e.setCabacEnc { e.cabacEnc with low := low - 512 })).andThen
  fun _ e => .ok .none e

/-- The rule of `cabac.put_term` (R191). -/
def cabacPutTermBody (b : Bool) (p : Params) (e : Engine) : Res Reply :=
  if b then cabacTerminate p e
  else (cabacRenormE p renormPasses (termRange e)).andThen fun _ e => .ok .none e

/-! ### Decoder procedures -/

/-- `offset <- ((offset << 1) | ReadBit()) mod 2^32` (R202, R210, R212). -/
def offsetShift (e : Engine) : Res Unit :=
  (readBit e).andThen fun b e =>
    .ok () (e.setCabacDec { e.cabacDec with offset := shiftIn e.cabacDec.offset b })

/-- `n` seeding bits into `offset` (R210). -/
def offsetSeed : Nat → Engine → Res Unit
  | 0, e => .ok () e
  | n + 1, e => (offsetShift e).andThen fun _ e => offsetSeed n e

/-- `RenormD()` (R202), with the number of passes bounded: 8 are enough from any range of 1 or more, and a command
enters it with no other (log entry 8). -/
def cabacRenormD : Nat → Engine → Res Unit
  | 0, e => .ok () e
  | n + 1, e =>
    if e.cabacDec.range.toNat < 256 then
      (offsetShift (e.setCabacDec (e.cabacDec.setRange (e.cabacDec.range <<< 1)))).andThen fun _ e =>
        cabacRenormD n e
    else .ok () e

/-- The interval step of GET (R211): the decoded bin, and the registers before renormalization. -/
def cabacDecodeInterval (c : CabacCtx) (r : CabacDec) : Bool × CabacDec :=
  let rLPS := lpsRange c r.range
  let range := rangeSub r.range rLPS
  if range.toNat ≤ r.offset.toNat then (!c.mps, { r with offset := r.offset - range }.setRange (BitVec.ofNat 32 rLPS))
  else (c.mps, r.setRange range)

/-- The rule of `cabac.open_dec` (R54, R210). -/
def cabacOpenDecBody (eof : Bool) (_ : Params) (e : Engine) : Res Reply :=
  (offsetSeed 9 ((openDecoder .cabac 1 eof e).setCabacDec ⟨510, 0⟩)).andThen fun _ e => .ok .none e

/-- The rule of `cabac.get` (R211). -/
def cabacGetBody (c : Nat) (p : Params) (e : Engine) : Res Reply :=
  let d := cabacDecodeInterval (cabacCtxGet e c) e.cabacDec
  (cabacRenormD renormPasses (cabacCtxUpdate p c d.1 (e.setCabacDec d.2))).andThen fun _ e => .ok (.ofBit d.1) e

/-- The rule of `cabac.get_bypass` (R212). -/
def cabacGetBypassBody (_ : Params) (e : Engine) : Res Reply :=
  (offsetShift e).andThen fun _ e =>
    let r := e.cabacDec
    if r.range.toNat ≤ r.offset.toNat then
      .ok (.ofBit true) (e.setCabacDec { r with offset := r.offset - r.range })
    else .ok (.ofBit false) e

/-- The rule of `cabac.get_term` (R213): the phase stays Dec. -/
def cabacGetTermBody (_ : Params) (e : Engine) : Res Reply :=
  let range := rangeSub e.cabacDec.range 2
  let e := e.setCabacDec (e.cabacDec.setRange range)
  if range.toNat ≤ e.cabacDec.offset.toNat then .ok (.ofBit true) e
  else (cabacRenormD renormPasses e).andThen fun _ e => .ok (.ofBit false) e

/-! ### The commands -/

/-- `cabac.open_enc` (R53, R181). -/
def execCabacOpenEnc (s : State) : Host.Outcome State Fault Refusal :=
  runCommand .cabac .openEnc none none
    (fun _ e => .ok .none ((openEncoder .cabac 1 e).setCabacEnc ⟨0, 510, 0, true⟩)) s

/-- `cabac.open_dec` (R210). -/
def execCabacOpenDec (eof : Bool) (s : State) : Host.Outcome State Fault Refusal :=
  runCommand .cabac .openDec none none (cabacOpenDecBody eof) s

/-- `cabac.put b, c` (R189). -/
def execCabacPut (b : Bool) (c : Nat) (s : State) : Host.Outcome State Fault Refusal :=
  runCommand .cabac .put none (some c) (cabacPutBody b c) s

/-- `cabac.put_bypass b` (R190). -/
def execCabacPutBypass (b : Bool) (s : State) : Host.Outcome State Fault Refusal :=
  runCommand .cabac .putBypass none none (cabacPutBypassBody b) s

/-- `cabac.put_term b` (R191). -/
def execCabacPutTerm (b : Bool) (s : State) : Host.Outcome State Fault Refusal :=
  runCommand .cabac .putTerm none none (cabacPutTermBody b) s

/-- `cabac.finish` (R192). -/
def execCabacFinish (s : State) : Host.Outcome State Fault Refusal :=
  runCommand .cabac .finish none none cabacTerminate s

/-- `cabac.get c` (R211). -/
def execCabacGet (c : Nat) (s : State) : Host.Outcome State Fault Refusal :=
  runCommand .cabac .get none (some c) (cabacGetBody c) s

/-- `cabac.get_bypass` (R212). -/
def execCabacGetBypass (s : State) : Host.Outcome State Fault Refusal :=
  runCommand .cabac .getBypass none none cabacGetBypassBody s

/-- `cabac.get_term` (R213). -/
def execCabacGetTerm (s : State) : Host.Outcome State Fault Refusal :=
  runCommand .cabac .getTerm none none cabacGetTermBody s

end Sys2Proof.Machine
end

