-- ==== Sys2Proof/Machine/Fpaq0.lean ====
section
/-! DEFINITION. The serial Fpaq0 commands (spec/44_fpaq0.md R300 to R319) and the procedures they are built from. -/

namespace Sys2Proof.Machine

open Sys2Proof

/-- `Mid(lo, hi, p) = lo + ((hi - lo) >> 8) * p` (R300). -/
def fpaq0Mid (lo hi : Word) (p : Byte) : Word :=
  BitVec.ofNat 32 (lo.toNat + (hi.toNat - lo.toNat) / 256 * p.toNat)

/-- The top byte of a word, `v[31:24]`. -/
def topByte (v : Word) : Byte := v.extractLsb' 24 8

/-- The byte of `v` at bits `8 * j + 7 .. 8 * j`. -/
def byteAt (v : Word) (j : Nat) : Byte := (v >>> (8 * j)).setWidth 8

/-- The four bytes of a word, most significant first (R70). -/
def wordBytesBE (v : Word) : List Byte := [byteAt v 3, byteAt v 2, byteAt v 1, byteAt v 0]

/-- `low <- (low << 8) mod 2^32` (R303). -/
def lowShift (v : Word) : Word := v <<< 8

/-- `high <- ((high << 8) mod 2^32) | 0xFF` (R303). -/
def highShift (v : Word) : Word := (v <<< 8) ||| 255

/-- The bound on the passes of the Fpaq0 renormalization loops: after 4 they have ended (R303). -/
def fpaq0Passes : Nat := 4

/-! ### Encoder -/

/-- `EncodeBit(b, p)` (R301). -/
def fpaq0EncodeBit (b : Bool) (p : Byte) (r : Fpaq0Enc) : Fpaq0Enc :=
  let mid := fpaq0Mid r.low r.high p
  if b then { r with low := mid + 1 } else { r with high := mid }

/-- `RenormE()` (R303). -/
def fpaq0RenormE (p : Params) : Nat → Engine → Res Unit
  | 0, e => .ok () e
  | n + 1, e =>
    if topByte e.fpaq0Enc.low = topByte e.fpaq0Enc.high then
      (writeByte p (topByte e.fpaq0Enc.high) e).andThen fun _ e =>
        fpaq0RenormE p n (e.setFpaq0Enc ⟨lowShift e.fpaq0Enc.low, highShift e.fpaq0Enc.high⟩)
    else .ok () e

/-- `EncodeBit(b, p); RenormE()` (R306, R307). -/
def fpaq0Encode (p : Params) (b : Bool) (prob : Byte) (e : Engine) : Res Unit :=
  fpaq0RenormE p fpaq0Passes (e.setFpaq0Enc (fpaq0EncodeBit b prob e.fpaq0Enc))

/-- The rule of `fpaq0.put` (R306). -/
def fpaq0PutBody (b : Bool) (c : Nat) (p : Params) (e : Engine) : Res Reply :=
  let prob := ctxGet e c
  (fpaq0Encode p b prob e).andThen fun _ e => .ok .none (ctxSet e c (probUpdate prob b))

/-- The rule of `fpaq0.put_bypass` (R307). -/
def fpaq0PutBypassBody (b : Bool) (p : Params) (e : Engine) : Res Reply :=
  (fpaq0Encode p b 128 e).andThen fun _ e => .ok .none e

/-- The rule of `fpaq0.finish` (R308). -/
def fpaq0FinishBody (p : Params) (e : Engine) : Res Reply :=
  (writeBytes p (wordBytesBE e.fpaq0Enc.low) e).andThen fun _ e =>
  (sinkClose p e).andThen fun _ e => finishSession e

/-! ### Decoder -/

/-- The interval step of DecodeBit (R316): the decoded bit, and the registers before renormalization. -/
def fpaq0DecodeInterval (p : Byte) (r : Fpaq0Dec) : Bool × Fpaq0Dec :=
  let mid := fpaq0Mid r.low r.high p
  if r.value.toNat ≤ mid.toNat then (false, { r with high := mid }) else (true, { r with low := mid + 1 })

/-- The refill loop of DecodeBit (R316). -/
def fpaq0RenormD : Nat → Engine → Res Unit
  | 0, e => .ok () e
  | n + 1, e =>
    if topByte e.fpaq0Dec.low = topByte e.fpaq0Dec.high then
      (readByte (e.setFpaq0Dec
          { e.fpaq0Dec with low := lowShift e.fpaq0Dec.low, high := highShift e.fpaq0Dec.high })).andThen fun v e =>
        fpaq0RenormD n (e.setFpaq0Dec { e.fpaq0Dec with value := shiftInByte e.fpaq0Dec.value v })
    else .ok () e

/-- `DecodeBit(p)` (R316). -/
def fpaq0DecodeBit (prob : Byte) (e : Engine) : Res Bool :=
  let d := fpaq0DecodeInterval prob e.fpaq0Dec
  (fpaq0RenormD fpaq0Passes (e.setFpaq0Dec d.2)).andThen fun _ e => .ok d.1 e

/-- `n` seeding bytes into `value`, the first most significant (R314). -/
def fpaq0Seed : Nat → Engine → Res Unit
  | 0, e => .ok () e
  | n + 1, e => (readByte e).andThen fun v e =>
      fpaq0Seed n (e.setFpaq0Dec { e.fpaq0Dec with value := shiftInByte e.fpaq0Dec.value v })

/-- The rule of `fpaq0.open_dec` (R54, R314). -/
def fpaq0OpenDecBody (eof : Bool) (_ : Params) (e : Engine) : Res Reply :=
  (fpaq0Seed 4 ((openDecoder .fpaq0 1 eof e).setFpaq0Dec ⟨0, 0xFFFFFFFF, 0⟩)).andThen fun _ e => .ok .none e

/-- The rule of `fpaq0.get` (R317). -/
def fpaq0GetBody (c : Nat) (_ : Params) (e : Engine) : Res Reply :=
  let prob := ctxGet e c
  (fpaq0DecodeBit prob e).andThen fun b e => .ok (.ofBit b) (ctxSet e c (probUpdate prob b))

/-- The rule of `fpaq0.get_bypass` (R318). -/
def fpaq0GetBypassBody (_ : Params) (e : Engine) : Res Reply :=
  (fpaq0DecodeBit 128 e).andThen fun b e => .ok (.ofBit b) e

/-! ### The commands -/

/-- `fpaq0.open_enc` (R53, R305). -/
def execFpaq0OpenEnc (s : State) : Host.Outcome State Fault Refusal :=
  runCommand .fpaq0 .openEnc none none
    (fun _ e => .ok .none ((openEncoder .fpaq0 1 e).setFpaq0Enc ⟨0, 0xFFFFFFFF⟩)) s

/-- `fpaq0.open_dec` (R314). -/
def execFpaq0OpenDec (eof : Bool) (s : State) : Host.Outcome State Fault Refusal :=
  runCommand .fpaq0 .openDec none none (fpaq0OpenDecBody eof) s

/-- `fpaq0.put b, c` (R306). -/
def execFpaq0Put (b : Bool) (c : Nat) (s : State) : Host.Outcome State Fault Refusal :=
  runCommand .fpaq0 .put none (some c) (fpaq0PutBody b c) s

/-- `fpaq0.put_bypass b` (R307). -/
def execFpaq0PutBypass (b : Bool) (s : State) : Host.Outcome State Fault Refusal :=
  runCommand .fpaq0 .putBypass none none (fpaq0PutBypassBody b) s

/-- `fpaq0.finish` (R308). -/
def execFpaq0Finish (s : State) : Host.Outcome State Fault Refusal :=
  runCommand .fpaq0 .finish none none fpaq0FinishBody s

/-- `fpaq0.get c` (R317). -/
def execFpaq0Get (c : Nat) (s : State) : Host.Outcome State Fault Refusal :=
  runCommand .fpaq0 .get none (some c) (fpaq0GetBody c) s

/-- `fpaq0.get_bypass` (R318). -/
def execFpaq0GetBypass (s : State) : Host.Outcome State Fault Refusal :=
  runCommand .fpaq0 .getBypass none none fpaq0GetBypassBody s

end Sys2Proof.Machine
end

