-- ==== Sys2Proof/Machine/Fpaq0p.lean ====
section
/-! DEFINITION. The parallel Fpaq0 commands (spec/44_fpaq0.md R320 to R335) and the procedures they are built from. A lane
operand has passed the check of R130, so its registers exist; outside it the accessors read zeros and write nothing. -/

namespace Sys2Proof.Machine

open Sys2Proof

/-! ### Encoder -/

/-- The registers of encoder lane `i` (R46). -/
def laneEnc (e : Engine) (i : Nat) : LaneEnc := e.lanesEnc.getD i ⟨0, 0, 0⟩

/-- Encoder lane `i` replaced (R46). -/
def setLaneEnc (e : Engine) (i : Nat) (r : LaneEnc) : Engine := e.setLanesEnc (e.lanesEnc.set i r)

/-- `LaneEmit(i, v)` (R321). -/
def laneEmit (i : Nat) (v : Byte) (e : Engine) : Engine :=
  let r := laneEnc e i
  setLaneEnc (slotWrite (r.k * e.laneCount + i) v e) i { r with k := r.k + 1 }

/-- `LaneEmit` of each of a list of bytes, first one first (R326). -/
def laneEmitAll (i : Nat) : List Byte → Engine → Engine
  | [], e => e
  | v :: vs, e => laneEmitAll i vs (laneEmit i v e)

/-- The interval step of LaneEncode (R322), as EncodeBit (R301). -/
def laneEncodeBit (b : Bool) (p : Byte) (r : LaneEnc) : LaneEnc :=
  let mid := fpaq0Mid r.low r.high p
  if b then { r with low := mid + 1 } else { r with high := mid }

/-- The renormalization loop of LaneEncode (R322). -/
def laneRenormE (i : Nat) : Nat → Engine → Engine
  | 0, e => e
  | n + 1, e =>
    let r := laneEnc e i
    if topByte r.low = topByte r.high then
      let e := laneEmit i (topByte r.high) e
      let r := laneEnc e i
      laneRenormE i n (setLaneEnc e i { r with low := lowShift r.low, high := highShift r.high })
    else e

/-- `LaneEncode(i, b, p)` (R322). -/
def laneEncode (i : Nat) (b : Bool) (prob : Byte) (e : Engine) : Engine :=
  laneRenormE i fpaq0Passes (setLaneEnc e i (laneEncodeBit b prob (laneEnc e i)))

/-- The rule of `fpaq0p.put` (R324). -/
def fpaq0pPutBody (l : Nat) (b : Bool) (c : Nat) (_ : Params) (e : Engine) : Res Reply :=
  let prob := ctxGet e c
  .ok .none (ctxSet (laneEncode l b prob e) c (probUpdate prob b))

/-- The rule of `fpaq0p.put_bypass` (R325). -/
def fpaq0pPutBypassBody (l : Nat) (b : Bool) (_ : Params) (e : Engine) : Res Reply :=
  .ok .none (laneEncode l b 128 e)

/-- Flush one lane: the four bytes of its `low`, most significant first (R326). -/
def laneFlush (i : Nat) (e : Engine) : Engine := laneEmitAll i (wordBytesBE (laneEnc e i).low) e

/-- Flush the lanes of a list, in its order (R326). -/
def flushLanes : List Nat → Engine → Engine
  | [], e => e
  | i :: is, e => flushLanes is (laneFlush i e)

/-- The rule of `fpaq0p.finish` (R326): flush lanes 0 .. N-1, offer the output in position order, phase Finished. -/
def fpaq0pFinishBody (p : Params) (e : Engine) : Res Reply :=
  let e := flushLanes (List.range e.laneCount) e
  (offerBytes p (slotLength e) e).andThen fun _ e => finishSession e

/-! ### Decoder -/

/-- The registers of decoder lane `i` (R47). -/
def laneDec (e : Engine) (i : Nat) : LaneDec := e.lanesDec.getD i ⟨0, 0, 0, 0⟩

/-- Decoder lane `i` replaced (R47). -/
def setLaneDec (e : Engine) (i : Nat) (r : LaneDec) : Engine := e.setLanesDec (e.lanesDec.set i r)

/-- `LaneRead(i)` (R328). -/
def laneRead (i : Nat) (e : Engine) : Res Byte :=
  (slotRead ((laneDec e i).k * e.laneCount + i) e).andThen fun v e =>
    let r := laneDec e i
    .ok v (setLaneDec e i { r with k := r.k + 1 })

/-- `value[i] <- ((value[i] << 8) mod 2^32) | LaneRead(i)` (R330, R331). -/
def laneRefill (i : Nat) (e : Engine) : Res Unit :=
  (laneRead i e).andThen fun v e =>
    let r := laneDec e i
    .ok () (setLaneDec e i { r with value := shiftInByte r.value v })

/-- The interval step of LaneDecode (R331): the decoded bit, and the registers before renormalization. -/
def laneDecodeInterval (p : Byte) (r : LaneDec) : Bool × LaneDec :=
  let mid := fpaq0Mid r.low r.high p
  if r.value.toNat ≤ mid.toNat then (false, { r with high := mid }) else (true, { r with low := mid + 1 })

/-- The refill loop of LaneDecode (R331). -/
def laneRenormD (i : Nat) : Nat → Engine → Res Unit
  | 0, e => .ok () e
  | n + 1, e =>
    let r := laneDec e i
    if topByte r.low = topByte r.high then
      (laneRefill i (setLaneDec e i { r with low := lowShift r.low, high := highShift r.high })).andThen fun _ e =>
        laneRenormD i n e
    else .ok () e

/-- `LaneDecode(i, p)` (R331). -/
def laneDecode (i : Nat) (prob : Byte) (e : Engine) : Res Bool :=
  let d := laneDecodeInterval prob (laneDec e i)
  (laneRenormD i fpaq0Passes (setLaneDec e i d.2)).andThen fun _ e => .ok d.1 e

/-- `n` seeding bytes into `value[i]`, the first most significant (R330). -/
def laneSeed (i : Nat) : Nat → Engine → Res Unit
  | 0, e => .ok () e
  | n + 1, e => (laneRefill i e).andThen fun _ e => laneSeed i n e

/-- Seed the lanes of a list, in its order, four bytes each (R330). -/
def seedLanes : List Nat → Engine → Res Unit
  | [], e => .ok () e
  | i :: is, e => (laneSeed i 4 e).andThen fun _ e => seedLanes is e

/-- The rule of `fpaq0p.open_dec` (R54, R330). -/
def fpaq0pOpenDecBody (n : Nat) (eof : Bool) (_ : Params) (e : Engine) : Res Reply :=
  (seedLanes (List.range n)
      ((openDecoder .fpaq0p n eof e).setLanesDec (List.replicate n ⟨0, 0xFFFFFFFF, 0, 0⟩))).andThen
    fun _ e => .ok .none e

/-- The rule of `fpaq0p.get` (R332). -/
def fpaq0pGetBody (l c : Nat) (_ : Params) (e : Engine) : Res Reply :=
  let prob := ctxGet e c
  (laneDecode l prob e).andThen fun b e => .ok (.ofBit b) (ctxSet e c (probUpdate prob b))

/-- The rule of `fpaq0p.get_bypass` (R333). -/
def fpaq0pGetBypassBody (l : Nat) (_ : Params) (e : Engine) : Res Reply :=
  (laneDecode l 128 e).andThen fun b e => .ok (.ofBit b) e

/-! ### The commands -/

/-- `fpaq0p.open_enc n` (R53, R323). -/
def execFpaq0pOpenEnc (n : Nat) (s : State) : Host.Outcome State Fault Refusal :=
  runCommand .fpaq0p .openEnc none none
    (fun _ e => .ok .none ((openEncoder .fpaq0p n e).setLanesEnc (List.replicate n ⟨0, 0xFFFFFFFF, 0⟩))) s

/-- `fpaq0p.open_dec n, eof` (R330). -/
def execFpaq0pOpenDec (n : Nat) (eof : Bool) (s : State) : Host.Outcome State Fault Refusal :=
  runCommand .fpaq0p .openDec none none (fpaq0pOpenDecBody n eof) s

/-- `fpaq0p.put l, b, c` (R324). -/
def execFpaq0pPut (l : Nat) (b : Bool) (c : Nat) (s : State) : Host.Outcome State Fault Refusal :=
  runCommand .fpaq0p .put (some l) (some c) (fpaq0pPutBody l b c) s

/-- `fpaq0p.put_bypass l, b` (R325). -/
def execFpaq0pPutBypass (l : Nat) (b : Bool) (s : State) : Host.Outcome State Fault Refusal :=
  runCommand .fpaq0p .putBypass (some l) none (fpaq0pPutBypassBody l b) s

/-- `fpaq0p.finish` (R326). -/
def execFpaq0pFinish (s : State) : Host.Outcome State Fault Refusal :=
  runCommand .fpaq0p .finish none none fpaq0pFinishBody s

/-- `fpaq0p.get l, c` (R332). -/
def execFpaq0pGet (l c : Nat) (s : State) : Host.Outcome State Fault Refusal :=
  runCommand .fpaq0p .get (some l) (some c) (fpaq0pGetBody l c) s

/-- `fpaq0p.get_bypass l` (R333). -/
def execFpaq0pGetBypass (l : Nat) (s : State) : Host.Outcome State Fault Refusal :=
  runCommand .fpaq0p .getBypass (some l) none (fpaq0pGetBypassBody l) s

end Sys2Proof.Machine
end

