-- ==== Sys2Proof/Machine/Rans.lean ====
section
/-! DEFINITION. The rANS commands (spec/43_rans.md R270 to R288) and the procedures they are built from. -/

namespace Sys2Proof.Machine

open Sys2Proof

/-- `Freq(s, p)` (R270). -/
def ransFreq (s : Bool) (p : Byte) : Nat := if s then 256 - p.toNat else p.toNat

/-- `Cum(s, p)` (R270). -/
def ransCum (s : Bool) (p : Byte) : Nat := if s then p.toNat else 0

/-- `EncodeSym(s, p)` (R271) on `x` and the emission list. -/
def encodeSym (sp : Bool × Byte) (st : Word × List Byte) : Word × List Byte :=
  let f := ransFreq sp.1 sp.2
  let k := ransCum sp.1 sp.2
  let st := if f * 2 ^ 16 ≤ st.1.toNat then (st.1 >>> 8, st.2 ++ [st.1.setWidth 8]) else st
  (BitVec.ofNat 32 (st.1.toNat / f * 256 + st.1.toNat % f + k), st.2)

/-- The steps of FINISH over the queue (R276), given in the order they run: last PUT first. -/
def encodeSyms : List (Bool × Byte) → Word × List Byte → Word × List Byte
  | [], st => st
  | sp :: q, st => encodeSyms q (encodeSym sp st)

/-- The four bytes of `x`, least significant first (R276). -/
def wordBytesLE (x : Word) : List Byte :=
  [x.setWidth 8, (x >>> 8).setWidth 8, (x >>> 16).setWidth 8, (x >>> 24).setWidth 8]

/-- `x` and the emission list after all the steps of FINISH on a queue (R276). -/
def ransEmit (q : List (Bool × Byte)) : Word × List Byte :=
  let st := encodeSyms q.reverse (BitVec.ofNat 32 (2 ^ 16), [])
  (st.1, st.2 ++ wordBytesLE st.1)

/-- `Enqueue(s, p)` (R273). -/
def enqueue (p : Params) (s : Bool) (prob : Byte) (e : Engine) : Res Unit :=
  if p.ransQCap = some e.ransEnc.queue.length then .raised .queueOverflow e
  else .ok () (e.setRansEnc { e.ransEnc with queue := e.ransEnc.queue ++ [(s, prob)] })

/-- The rule of `rans.put` (R274): a full queue leaves the context as it was. -/
def ransPutBody (b : Bool) (c : Nat) (p : Params) (e : Engine) : Res Reply :=
  let prob := ctxGet e c
  (enqueue p b prob e).andThen fun _ e => .ok .none (ctxSet e c (probUpdate prob b))

/-- The rule of `rans.put_bypass` (R275). -/
def ransPutBypassBody (b : Bool) (p : Params) (e : Engine) : Res Reply :=
  (enqueue p b 128 e).andThen fun _ e => .ok .none e

/-- The rule of `rans.finish` (R276). The register `x` is left at the final value; the spec leaves it open between commands
(DESIGN CHOICE, log entry 4). -/
def ransFinishBody (p : Params) (e : Engine) : Res Reply :=
  let st := ransEmit e.ransEnc.queue
  let e := e.setRansEnc { e.ransEnc with x := st.1 }
  (writeBytes p st.2.reverse e).andThen fun _ e =>
  (sinkClose p e).andThen fun _ e =>
  finishSession (e.setRansEnc { e.ransEnc with queue := [] })

/-- `n` seeding bytes into `x`, the first most significant (R282). -/
def ransSeed : Nat → Engine → Res Unit
  | 0, e => .ok () e
  | n + 1, e => (readByte e).andThen fun v e => ransSeed n (e.setRansDec ⟨shiftInByte e.ransDec.x v⟩)

/-- The symbol of a state and what `x` becomes before renormalization (R284). -/
def decodeSymStep (p : Byte) (x : Word) : Bool × Word :=
  let slot := x.toNat % 256
  let s := decide (p.toNat ≤ slot)
  (s, BitVec.ofNat 32 (ransFreq s p * (x.toNat / 256) + slot - ransCum s p))

/-- `DecodeSym(p)` (R284): one conditional refill. -/
def decodeSym (p : Byte) (e : Engine) : Res Bool :=
  let d := decodeSymStep p e.ransDec.x
  let e := e.setRansDec ⟨d.2⟩
  if d.2.toNat < 2 ^ 16 then
    (readByte e).andThen fun v e => .ok d.1 (e.setRansDec ⟨shiftInByte e.ransDec.x v⟩)
  else .ok d.1 e

/-- The rule of `rans.open_enc` (R53, R272): `x` is left unspecified (log entry 4). -/
def ransOpenEncBody (_ : Params) (e : Engine) : Res Reply :=
  .ok .none ((openEncoder .rans 1 e).setRansEnc ⟨[], Config.ransOpenX e.id e.cmdIndex⟩)

/-- The rule of `rans.open_dec` (R54, R282). -/
def ransOpenDecBody (eof : Bool) (_ : Params) (e : Engine) : Res Reply :=
  (ransSeed 4 ((openDecoder .rans 1 eof e).setRansDec ⟨0⟩)).andThen fun _ e => .ok .none e

/-- The rule of `rans.get` (R285). -/
def ransGetBody (c : Nat) (_ : Params) (e : Engine) : Res Reply :=
  let prob := ctxGet e c
  (decodeSym prob e).andThen fun b e => .ok (.ofBit b) (ctxSet e c (probUpdate prob b))

/-- The rule of `rans.get_bypass` (R286). -/
def ransGetBypassBody (_ : Params) (e : Engine) : Res Reply :=
  (decodeSym 128 e).andThen fun b e => .ok (.ofBit b) e

/-! ### The commands -/

/-- `rans.open_enc` (R272). -/
def execRansOpenEnc (s : State) : Host.Outcome State Fault Refusal :=
  runCommand .rans .openEnc none none ransOpenEncBody s

/-- `rans.open_dec` (R282). -/
def execRansOpenDec (eof : Bool) (s : State) : Host.Outcome State Fault Refusal :=
  runCommand .rans .openDec none none (ransOpenDecBody eof) s

/-- `rans.put b, c` (R274). -/
def execRansPut (b : Bool) (c : Nat) (s : State) : Host.Outcome State Fault Refusal :=
  runCommand .rans .put none (some c) (ransPutBody b c) s

/-- `rans.put_bypass b` (R275). -/
def execRansPutBypass (b : Bool) (s : State) : Host.Outcome State Fault Refusal :=
  runCommand .rans .putBypass none none (ransPutBypassBody b) s

/-- `rans.finish` (R276). -/
def execRansFinish (s : State) : Host.Outcome State Fault Refusal :=
  runCommand .rans .finish none none ransFinishBody s

/-- `rans.get c` (R285). -/
def execRansGet (c : Nat) (s : State) : Host.Outcome State Fault Refusal :=
  runCommand .rans .get none (some c) (ransGetBody c) s

/-- `rans.get_bypass` (R286). -/
def execRansGetBypass (s : State) : Host.Outcome State Fault Refusal :=
  runCommand .rans .getBypass none none ransGetBypassBody s

end Sys2Proof.Machine
end

