-- ==== Sys2Proof/Machine/Vp8.lean ====
section
/-! DEFINITION. The VP8 boolean coder commands (spec/42_vp8.md R230 to R249) and the procedures they are built from. -/

namespace Sys2Proof.Machine

open Sys2Proof

/-- `Split(p) = 1 + (((range - 1) * p) >> 8)` (R230), on exact numbers. -/
def vp8Split (range : Word) (p : Byte) : Nat :=
  1 + (range.toNat - 1) * p.toNat / 256

/-! ### Encoder procedures -/

/-- `IncBytesOutstanding()` (R231). -/
def incBytesOutstanding (p : Params) (e : Engine) : Res Unit :=
  if counterFull p e.vp8Enc.bitsOutstanding then .raised .counterOverflow e
  else .ok () (e.setVp8Enc { e.vp8Enc with bitsOutstanding := e.vp8Enc.bitsOutstanding + 1 })

/-- Release the deferred bytes (R232, R239): `first`, then `fill` once for each outstanding byte. -/
def releaseBytes (p : Params) (first fill : Byte) (e : Engine) : Res Unit :=
  writeBytes p (first :: List.replicate e.vp8Enc.bitsOutstanding fill) e

/-- After a release, `v` is the pending byte and none is outstanding (R232). -/
def setPending (v : Byte) (e : Engine) : Engine :=
  e.setVp8Enc { e.vp8Enc with bitsOutstanding := 0, pendingByte := v }

/-- `FormByte()` (R232): the assembled byte is `low[15:8]`, the carry `low[16]`. -/
def formByte (p : Params) (e : Engine) : Res Unit :=
  let r := e.vp8Enc
  let v : Byte := r.low.extractLsb' 8 8
  let e := e.setVp8Enc { r with low := r.low &&& 255 }
  if r.low.getLsbD 16 then
    (releaseBytes p (r.pendingByte + 1) 0 e).andThen fun _ e => .ok () (setPending v e)
  else if !r.pendingValid then
    .ok () (e.setVp8Enc { e.vp8Enc with pendingByte := v, pendingValid := true })
  else if v = 255 then incBytesOutstanding p e
  else (releaseBytes p r.pendingByte 255 e).andThen fun _ e => .ok () (setPending v e)

/-- `Shift()` (R233). -/
def vp8Shift (p : Params) (e : Engine) : Res Unit :=
  let r := e.vp8Enc
  let n := r.count.toNat + 1
  let e := e.setVp8Enc { r with low := r.low <<< 1, count := BitVec.ofNat 3 n }
  if n = 8 then formByte p e else .ok () e

/-- `n` shifts in a row (R239). -/
def vp8Shifts (p : Params) : Nat → Engine → Res Unit
  | 0, e => .ok () e
  | n + 1, e => (vp8Shift p e).andThen fun _ e => vp8Shifts p n e

/-- The interval step of EncodeBool (R234). -/
def vp8EncodeInterval (b : Bool) (p : Byte) (r : Vp8Enc) : Vp8Enc :=
  let split := BitVec.ofNat 32 (vp8Split r.range p)
  if b then { r with low := r.low + split }.setRange (r.range - split) else r.setRange split

/-- The renormalization loop of EncodeBool (R234), with the number of passes bounded: 7 are enough from any range of 1
or more; a range of 0 is reached by no run (log entry 8). -/
def vp8RenormE (p : Params) : Nat → Engine → Res Unit
  | 0, e => .ok () e
  | n + 1, e =>
    if e.vp8Enc.range.toNat < 128 then
      (vp8Shift p (e.setVp8Enc (e.vp8Enc.setRange (e.vp8Enc.range <<< 1)))).andThen fun _ e => vp8RenormE p n e
    else .ok () e

/-- The bound on the passes of the VP8 renormalization loops. -/
def vp8Passes : Nat := 7

/-- `EncodeBool(b, p)` (R234). -/
def encodeBool (p : Params) (b : Bool) (prob : Byte) (e : Engine) : Res Unit :=
  vp8RenormE p vp8Passes (e.setVp8Enc (vp8EncodeInterval b prob e.vp8Enc))

/-- The rule of `vp8.put` (R236). -/
def vp8PutBody (b : Bool) (c : Nat) (p : Params) (e : Engine) : Res Reply :=
  let prob := ctxGet e c
  (encodeBool p b prob e).andThen fun _ e => .ok .none (ctxSet e c (probUpdate prob b))

/-- The rule of `vp8.put_bypass` (R238). -/
def vp8PutBypassBody (b : Bool) (p : Params) (e : Engine) : Res Reply :=
  (encodeBool p b 128 e).andThen fun _ e => .ok .none e

/-- The number of shifts of FINISH (R239). -/
def vp8FlushShifts (r : Vp8Enc) : Nat :=
  if r.count = 0 then 8 else 16 - r.count.toNat

/-- The rule of `vp8.finish` (R239). -/
def vp8FinishBody (p : Params) (e : Engine) : Res Reply :=
  (vp8Shifts p (vp8FlushShifts e.vp8Enc) e).andThen fun _ e =>
  (if e.vp8Enc.pendingValid then releaseBytes p e.vp8Enc.pendingByte 255 e else .ok () e).andThen fun _ e =>
  (sinkClose p e).andThen fun _ e => finishSession e

/-! ### Decoder procedures -/

/-- The interval step of DecodeBool (R242): the decoded bit, and the registers before renormalization. -/
def vp8DecodeInterval (p : Byte) (r : Vp8Dec) : Bool × Vp8Dec :=
  let split := vp8Split r.range p
  if r.value.toNat < split then (false, r.setRange (BitVec.ofNat 32 split))
  else (true, { r with value := r.value - BitVec.ofNat 32 split }.setRange (r.range - BitVec.ofNat 32 split))

/-- The renormalization loop of DecodeBool (R242), with the number of passes bounded as in the encoder. -/
def vp8RenormD : Nat → Engine → Res Unit
  | 0, e => .ok () e
  | n + 1, e =>
    if e.vp8Dec.range.toNat < 128 then
      (readBit (e.setVp8Dec (e.vp8Dec.setRange (e.vp8Dec.range <<< 1)))).andThen fun b e =>
        vp8RenormD n (e.setVp8Dec { e.vp8Dec with value := shiftIn e.vp8Dec.value b })
    else .ok () e

/-- `DecodeBool(p)` (R242). -/
def decodeBool (prob : Byte) (e : Engine) : Res Bool :=
  let d := vp8DecodeInterval prob e.vp8Dec
  (vp8RenormD vp8Passes (e.setVp8Dec d.2)).andThen fun _ e => .ok d.1 e

/-- The rule of `vp8.open_dec` (R54, R245). -/
def vp8OpenDecBody (eof : Bool) (_ : Params) (e : Engine) : Res Reply :=
  (readByte ((openDecoder .vp8 1 eof e).setVp8Dec ⟨255, 0⟩)).andThen fun v e =>
    .ok .none (e.setVp8Dec { e.vp8Dec with value := v.setWidth 32 })

/-- The rule of `vp8.get` (R247). -/
def vp8GetBody (c : Nat) (_ : Params) (e : Engine) : Res Reply :=
  let prob := ctxGet e c
  (decodeBool prob e).andThen fun b e => .ok (.ofBit b) (ctxSet e c (probUpdate prob b))

/-- The rule of `vp8.get_bypass` (R248). -/
def vp8GetBypassBody (_ : Params) (e : Engine) : Res Reply :=
  (decodeBool 128 e).andThen fun b e => .ok (.ofBit b) e

/-! ### The commands -/

/-- `vp8.open_enc` (R53, R235). -/
def execVp8OpenEnc (s : State) : Host.Outcome State Fault Refusal :=
  runCommand .vp8 .openEnc none none
    (fun _ e => .ok .none ((openEncoder .vp8 1 e).setVp8Enc ⟨0, 255, 0, 0, false, 0⟩)) s

/-- `vp8.open_dec` (R245). -/
def execVp8OpenDec (eof : Bool) (s : State) : Host.Outcome State Fault Refusal :=
  runCommand .vp8 .openDec none none (vp8OpenDecBody eof) s

/-- `vp8.put b, c` (R236). -/
def execVp8Put (b : Bool) (c : Nat) (s : State) : Host.Outcome State Fault Refusal :=
  runCommand .vp8 .put none (some c) (vp8PutBody b c) s

/-- `vp8.put_bypass b` (R238). -/
def execVp8PutBypass (b : Bool) (s : State) : Host.Outcome State Fault Refusal :=
  runCommand .vp8 .putBypass none none (vp8PutBypassBody b) s

/-- `vp8.finish` (R239). -/
def execVp8Finish (s : State) : Host.Outcome State Fault Refusal :=
  runCommand .vp8 .finish none none vp8FinishBody s

/-- `vp8.get c` (R247). -/
def execVp8Get (c : Nat) (s : State) : Host.Outcome State Fault Refusal :=
  runCommand .vp8 .get none (some c) (vp8GetBody c) s

/-- `vp8.get_bypass` (R248). -/
def execVp8GetBypass (s : State) : Host.Outcome State Fault Refusal :=
  runCommand .vp8 .getBypass none none vp8GetBypassBody s

end Sys2Proof.Machine
end

