-- ==== Sys2Proof/Machine/Dispatch.lean ====
section
/-! DEFINITION. `exec`: one arm per command of spec/opcode_table.json, each one direct call of its meaning. -/

namespace Sys2Proof.Machine

def exec (i : Instr) (s : State) : Host.Outcome State Fault Refusal :=
  match i with
  | .cabacOpenEnc => Sys2Proof.Machine.execCabacOpenEnc s
  | .cabacOpenDec eof => Sys2Proof.Machine.execCabacOpenDec eof s
  | .cabacPut b c => Sys2Proof.Machine.execCabacPut b c s
  | .cabacPutBypass b => Sys2Proof.Machine.execCabacPutBypass b s
  | .cabacPutTerm b => Sys2Proof.Machine.execCabacPutTerm b s
  | .cabacFinish => Sys2Proof.Machine.execCabacFinish s
  | .cabacGet c => Sys2Proof.Machine.execCabacGet c s
  | .cabacGetBypass => Sys2Proof.Machine.execCabacGetBypass s
  | .cabacGetTerm => Sys2Proof.Machine.execCabacGetTerm s
  | .cabacCtxInit c => Sys2Proof.Machine.execCabacCtxInit c s
  | .cabacCtxInitAll => Sys2Proof.Machine.execCabacCtxInitAll s
  | .cabacCtxUpdate b c => Sys2Proof.Machine.execCabacCtxUpdate b c s
  | .cabacCtxRead c => Sys2Proof.Machine.execCabacCtxRead c s
  | .vp8OpenEnc => Sys2Proof.Machine.execVp8OpenEnc s
  | .vp8OpenDec eof => Sys2Proof.Machine.execVp8OpenDec eof s
  | .vp8Put b c => Sys2Proof.Machine.execVp8Put b c s
  | .vp8PutBypass b => Sys2Proof.Machine.execVp8PutBypass b s
  | .vp8Finish => Sys2Proof.Machine.execVp8Finish s
  | .vp8Get c => Sys2Proof.Machine.execVp8Get c s
  | .vp8GetBypass => Sys2Proof.Machine.execVp8GetBypass s
  | .vp8CtxInit c => Sys2Proof.Machine.execVp8CtxInit c s
  | .vp8CtxInitAll => Sys2Proof.Machine.execVp8CtxInitAll s
  | .vp8CtxUpdate b c => Sys2Proof.Machine.execVp8CtxUpdate b c s
  | .vp8CtxRead c => Sys2Proof.Machine.execVp8CtxRead c s
  | .ransOpenEnc => Sys2Proof.Machine.execRansOpenEnc s
  | .ransOpenDec eof => Sys2Proof.Machine.execRansOpenDec eof s
  | .ransPut b c => Sys2Proof.Machine.execRansPut b c s
  | .ransPutBypass b => Sys2Proof.Machine.execRansPutBypass b s
  | .ransFinish => Sys2Proof.Machine.execRansFinish s
  | .ransGet c => Sys2Proof.Machine.execRansGet c s
  | .ransGetBypass => Sys2Proof.Machine.execRansGetBypass s
  | .ransCtxInit c => Sys2Proof.Machine.execRansCtxInit c s
  | .ransCtxInitAll => Sys2Proof.Machine.execRansCtxInitAll s
  | .ransCtxUpdate b c => Sys2Proof.Machine.execRansCtxUpdate b c s
  | .ransCtxRead c => Sys2Proof.Machine.execRansCtxRead c s
  | .fpaq0OpenEnc => Sys2Proof.Machine.execFpaq0OpenEnc s
  | .fpaq0OpenDec eof => Sys2Proof.Machine.execFpaq0OpenDec eof s
  | .fpaq0Put b c => Sys2Proof.Machine.execFpaq0Put b c s
  | .fpaq0PutBypass b => Sys2Proof.Machine.execFpaq0PutBypass b s
  | .fpaq0Finish => Sys2Proof.Machine.execFpaq0Finish s
  | .fpaq0Get c => Sys2Proof.Machine.execFpaq0Get c s
  | .fpaq0GetBypass => Sys2Proof.Machine.execFpaq0GetBypass s
  | .fpaq0CtxInit c => Sys2Proof.Machine.execFpaq0CtxInit c s
  | .fpaq0CtxInitAll => Sys2Proof.Machine.execFpaq0CtxInitAll s
  | .fpaq0CtxUpdate b c => Sys2Proof.Machine.execFpaq0CtxUpdate b c s
  | .fpaq0CtxRead c => Sys2Proof.Machine.execFpaq0CtxRead c s
  | .fpaq0pOpenEnc n => Sys2Proof.Machine.execFpaq0pOpenEnc n s
  | .fpaq0pOpenDec n eof => Sys2Proof.Machine.execFpaq0pOpenDec n eof s
  | .fpaq0pPut l b c => Sys2Proof.Machine.execFpaq0pPut l b c s
  | .fpaq0pPutBypass l b => Sys2Proof.Machine.execFpaq0pPutBypass l b s
  | .fpaq0pFinish => Sys2Proof.Machine.execFpaq0pFinish s
  | .fpaq0pGet l c => Sys2Proof.Machine.execFpaq0pGet l c s
  | .fpaq0pGetBypass l => Sys2Proof.Machine.execFpaq0pGetBypass l s
  | .fpaq0pCtxInit c => Sys2Proof.Machine.execFpaq0pCtxInit c s
  | .fpaq0pCtxInitAll => Sys2Proof.Machine.execFpaq0pCtxInitAll s
  | .fpaq0pCtxUpdate b c => Sys2Proof.Machine.execFpaq0pCtxUpdate b c s
  | .fpaq0pCtxRead c => Sys2Proof.Machine.execFpaq0pCtxRead c s

end Sys2Proof.Machine
end

