-- ==== Sys2Proof/Machine/Port.lean ====
section
/-! DEFINITION. What the core does with each action of the host (spec/10_state.md R31, R55): a command word on a port, the
placing of a decoder's input, an attempt to change a latched input, and a read of an output. -/

namespace Sys2Proof.Machine

open Sys2Proof

/-- A word that names no command raises ILLEGAL_COMMAND on its engine, with the word's OP field in the response (R130,
R131, R355). -/
def illegalWord (w : Word) (s : State) : Host.Outcome State Fault Refusal :=
  match s.engine? with
  | none => .fault .noSuchEngine
  | some e => .next (s.withEngine (raiseErr (w.extractLsb' 24 4) .illegalCommand e))

/-- A command word on the selected port: decode it and execute the command (R130). -/
def issueWord (w : Word) (s : State) : Host.Outcome State Fault Refusal :=
  match decode w with
  | .ok i => exec i s
  | .error _ => illegalWord w s

/-- An engine's input is latched: a decoder session has been opened and no OPEN came since (R76, R89). In phase Faulted
reached from Idle, with no OPEN since power-on, the `dir` read here is the power-on value, which R52 leaves unspecified:
it is `Enc`, so no input is latched (DESIGN CHOICE, log entry 6). -/
def inputLatched (e : Engine) : Bool := e.dir == .dec && (e.phase == .dec || e.phase == .faulted)

/-- The host places the input of port `n`'s next decoder session (R393). The input a session has latched is another
buffer and stays as it is (R76, R89, log entry 7). -/
def placeInput (n : Nat) (bytes : List Byte) (s : State) : Host.Outcome State Fault Refusal :=
  match s.engines[n]? with
  | none => .fault .noSuchEngine
  | some e => .next (s.setEngines (s.engines.set n (e.setStaged bytes)))

/-- The host tries to change port `n`'s input: a latched one is refused (R89); before an OPEN_DEC it is the placing of
the input (R55). -/
def overwriteInput (n : Nat) (bytes : List Byte) (s : State) : Host.Outcome State Fault Refusal :=
  match s.engines[n]? with
  | none => .fault .noSuchEngine
  | some e => if inputLatched e then .refused .inputLatched else placeInput n bytes s

/-- The host reads port `n`'s output: in phase Finished only (R88). -/
def readOutput (n : Nat) (s : State) : Host.Outcome State Fault Refusal :=
  match s.engines[n]? with
  | none => .fault .noSuchEngine
  | some e =>
    match e.readableOutput with
    | some bytes => .next (s.setReadBack bytes)
    | none => .refused .outputNotReadable

/-- One action of the host, taken. -/
def takeAction (a : HostAction) (s : State) : Host.Outcome State Fault Refusal :=
  match a with
  | .command n w => issueWord w (s.setSel n)
  | .placeInput n bytes => placeInput n bytes s
  | .overwriteInput n bytes => overwriteInput n bytes s
  | .readOutput n => readOutput n s

end Sys2Proof.Machine
end

