-- ==== Sys2Proof/Machine/Step.lean ====
section
/-! DEFINITION. One step of the machine: it takes the host's next action, whole (spec/20_memory.md R84, R90). The core
fetches nothing (R92); the place a command word comes from is the list of the host's pending actions. -/

namespace Sys2Proof.Machine

open Sys2Proof

/-- One step. With no host action pending the core waits and keeps all its state (R373). -/
def step (s : State) : Host.Outcome State Fault Refusal :=
  match s.host with
  | [] => .next s
  | a :: rest => takeAction a (s.setHost rest)

/-- `s` with the command word `w` as the host's next action, on the selected port (fixed name; log entry 1). -/
def State.withFetchWord (s : State) (nbits w : Nat) : State :=
  s.setHost (.command s.sel (BitVec.ofNat 32 (w % 2 ^ nbits)) :: s.host)

end Sys2Proof.Machine
end

