-- ==== Sys2Proof/Safety.lean ====
section
/-! DEFINITION. What counts as a good state and a safe run of the core, in the words the statements use: the invariants
of the engines (spec/10_state.md, spec/41_cabac.md R199, spec/42_vp8.md R237, spec/44_fpaq0.md R304), the exact code
numbers that an encoder's registers and output stand for, the bits of an input, and whole sessions. -/

namespace Sys2Proof.Machine

open Sys2Proof

/-! ### Runs -/

/-- An outcome that goes on: neither a fault nor a refusal. -/
abbrev GoesOn (o : Host.Outcome State Fault Refusal) : Prop := ∃ t, o = .next t

/-- Commands executed one after another on the selected engine, up to the first stop. -/
def runAll : List Instr → State → Host.Outcome State Fault Refusal
  | [], s => .next s
  | i :: is, s =>
    match exec i s with
    | .next t => runAll is t
    | .fault r => .fault r
    | .refused r => .refused r

/-- The parameters with which no encoder command can raise an execution error (R351): an `InMemory` sink and unbounded
counters and queue. -/
abbrev Unbounded (p : Params) : Prop :=
  p.sinkMode = .inMemory ∧ p.outstandingW = none ∧ p.ransQCap = none

/-- The phase an operation other than an OPEN needs (R130). -/
def phaseFits (ph : Phase) (o : Op) : Bool :=
  match o with
  | .openEnc | .openDec => true
  | .put | .putBypass | .putTerm | .finish => ph == .enc
  | .get | .getBypass | .getTerm => ph == .dec
  | .ctxInit | .ctxInitAll | .ctxUpdate | .ctxRead => ph == .enc || ph == .dec || ph == .finished

/-- A command is legal on an engine (R130): an OPEN always, any other in its family's open session and in a phase that
fits it; its lane below N and its context index below `NUM_CTX`. -/
abbrev Legal (p : Params) (e : Engine) (i : Instr) : Prop :=
  (i.op = .openEnc ∨ i.op = .openDec ∨ (i.family = e.fam ∧ phaseFits e.phase i.op = true)) ∧
  (∀ l ∈ laneOperand i, l < e.laneCount) ∧ (∀ c ∈ ctxOperand i, c < p.numCtx)

/-- The command completes on the selected engine `e`, which becomes `t`: the next state differs in that engine only, the
status is OK, and the response is `r` (R21, R35, R125). -/
abbrev Completes (i : Instr) (s : State) (e : Engine) (r : Reply) (t : Engine) : Prop :=
  exec i s = .next (s.withEngine t) ∧ t.lastErr = .ok ∧ t.cmdIndex = e.cmdIndex + 1 ∧
  t.responses = ⟨.ok, opBits i.op, r.bit, r.ctx, r.out⟩ :: e.responses

/-- The command ends in the error `code` on the selected engine `e`, which becomes `t`: the error's entry of R360. -/
abbrev Raises (i : Instr) (s : State) (e : Engine) (code : Status) (t : Engine) : Prop :=
  exec i s = .next (s.withEngine t) ∧ t.lastErr = code ∧ t.phase = .faulted ∧ t.cmdIndex = e.cmdIndex + 1 ∧
  t.responses = ⟨code, opBits i.op, false, 0, []⟩ :: e.responses

/-! ### Numbers read from streams -/

/-- The number a bit sequence spells, first bit most significant. -/
def bitsValue (bs : List Bool) : Nat := bs.foldl (fun v b => 2 * v + b.toNat) 0

/-- The number a byte sequence spells, first byte most significant. -/
def bytesValue (bs : List Byte) : Nat := bs.foldl (fun v b => 256 * v + b.toNat) 0

/-- Byte `i` of an input, 0 past its end (R77, R81 with eof = 0). -/
def inputByte (bytes : List Byte) (i : Nat) : Nat := (bytes.getD i 0).toNat

/-- Bit `pos` of an input in stream order, 0 past its end (R70, R77 with eof = 0). -/
def inputBit (bytes : List Byte) (pos : Nat) : Nat := inputByte bytes (pos / 8) / 2 ^ (7 - pos % 8) % 2

/-- The number that `n` bits of an input from bit `pos` on spell, 0 past its end. -/
def inputBits (bytes : List Byte) (pos : Nat) : Nat → Nat
  | 0 => 0
  | n + 1 => 2 * inputBits bytes pos n + inputBit bytes (pos + n)

/-- A decoder at its cursor can read `n` bits without INPUT_EXHAUSTED (R77, R353): it reads none, or it is in zero-fill
mode, or the input holds them. -/
abbrev InputLeft (e : Engine) (n : Nat) : Prop :=
  n = 0 ∨ e.eof = false ∨ e.bitpos + n ≤ 8 * e.src.length

/-- The numbers `lo` and `hi` of 32 bits have exactly `n` equal leading bytes (R303, R316). -/
abbrev EqualLeadingBytes (lo hi n : Nat) : Prop :=
  n ≤ 4 ∧ lo / 256 ^ (4 - n) = hi / 256 ^ (4 - n) ∧ (n < 4 → lo / 256 ^ (3 - n) ≠ hi / 256 ^ (3 - n))

/-- A `w`-bit outstanding counter that holds `k` has too little room for `n` RenormE passes from `low` (R186, R187). A pass
that straddles (`256 <= low < 512`) doubles the distance of `low` from 512, so the first `m + 1` passes all straddle
exactly when `2^m * (512 - low) <= 256`; and with `16 <= w` a pass that does not straddle leaves room for the rest. -/
abbrev CounterShort (w k low n : Nat) : Prop :=
  2 ^ w - 1 - k < n ∧ low < 512 ∧ 2 ^ (2 ^ w - 1 - k) * (512 - low) ≤ 256

/-! ### Exact code numbers -/

/-- The number the CABAC encoder's state stands for: the bits written, then the outstanding ones (taken as one 0 and
then 1s, which a carry turns round), then `low`. The discarded first bit is 0 (R201). -/
def cabacCode (e : Engine) : Nat :=
  bitsValue e.sink * 2 ^ (10 + e.cabacEnc.outstanding) + (2 ^ e.cabacEnc.outstanding - 1) * 2 ^ 9 + e.cabacEnc.low.toNat

/-- The RenormE passes and bypass bins of the session so far: bits written or outstanding, and the discarded one. -/
def cabacShifts (e : Engine) : Nat :=
  e.sink.length + e.cabacEnc.outstanding + (if e.cabacEnc.firstBit then 0 else 1)

/-- The number the VP8 encoder's deferred bytes stand for after the bytes written: the pending byte, then 0xFF for each
outstanding one (R38). -/
def vp8Formed (e : Engine) : Nat :=
  if e.vp8Enc.pendingValid then
    (bitsValue e.sink * 256 + e.vp8Enc.pendingByte.toNat) * 256 ^ e.vp8Enc.bitsOutstanding +
      (256 ^ e.vp8Enc.bitsOutstanding - 1)
  else 0

/-- The number the VP8 encoder's state stands for: the formed bytes, then `low`, whose window of 8 bits has been shifted
`count` times since the last byte was formed. -/
def vp8Code (e : Engine) : Nat :=
  vp8Formed e * 2 ^ (8 + e.vp8Enc.count.toNat) + e.vp8Enc.low.toNat

/-- The bytes the VP8 encoder has formed: written, pending or outstanding. -/
def vp8FormedBytes (e : Engine) : Nat :=
  e.sink.length / 8 + (if e.vp8Enc.pendingValid then 1 + e.vp8Enc.bitsOutstanding else 0)

/-! ### Invariants of one engine -/

/-- A packed descriptor that updates can reach (R153, R157): for CABAC a state other than 63 (and no bit above mps), for
the probability families p in 1 .. 225. -/
def ctxReachable (f : Family) (v : Byte) : Bool :=
  match f with
  | .cabac => decide (v.toNat < 128 ∧ v.toNat % 64 ≠ 63)
  | .vp8 | .rans | .fpaq0 | .fpaq0p => decide (1 ≤ v.toNat ∧ v.toNat ≤ 225)

/-- The context memory is in canonical form, within `NUM_CTX`, and holds reachable descriptors only. -/
abbrev CtxInv (p : Params) (e : Engine) : Prop :=
  Memory.wf (some (initialCtx e.fam)) e.ctx ∧ ∀ c ∈ e.ctx, c.1 < p.numCtx ∧ ctxReachable e.fam c.2 = true

/-- An encoder or decoder session is open or finished. -/
abbrev inSession (e : Engine) : Prop := e.phase = .enc ∨ e.phase = .dec ∨ e.phase = .finished

/-- The control registers agree (R32 to R35): the direction with the phase, N and eof with the family and direction, the
Faulted phase with an error status, and the command index with the responses returned. -/
abbrev SessionInv (e : Engine) : Prop :=
  ((e.phase = .enc ∨ e.phase = .finished) → e.dir = .enc) ∧
  (e.phase = .dec → e.dir = .dec) ∧
  (e.dir = .enc → e.eof = false) ∧
  (inSession e → 1 ≤ e.laneCount ∧ e.laneCount ≤ 128 ∧ (e.fam ≠ .fpaq0p → e.laneCount = 1)) ∧
  (e.phase = .faulted ↔ e.lastErr ≠ .ok) ∧
  e.cmdIndex = e.responses.length ∧
  (e.responses.head?.elim .ok Response.status) = e.lastErr

/-- The CABAC encoder's registers are in bounds (R199, R201, R36). -/
abbrev CabacEncInv (p : Params) (e : Engine) : Prop :=
  256 ≤ e.cabacEnc.range.toNat ∧ e.cabacEnc.range.toNat ≤ 510 ∧
  e.cabacEnc.low.toNat + e.cabacEnc.range.toNat ≤ 1024 ∧
  (e.cabacEnc.firstBit = true → e.cabacEnc.low.toNat + e.cabacEnc.range.toNat ≤ 510 ∧ e.sink = []) ∧
  (∀ w ∈ p.outstandingW, e.cabacEnc.outstanding < 2 ^ w)

/-- The VP8 encoder's registers are in bounds (R237, R38), and its sink is byte-aligned (R232). -/
abbrev Vp8EncInv (p : Params) (e : Engine) : Prop :=
  128 ≤ e.vp8Enc.range.toNat ∧ e.vp8Enc.range.toNat ≤ 255 ∧
  e.vp8Enc.low.toNat + e.vp8Enc.range.toNat ≤ 510 * 2 ^ e.vp8Enc.count.toNat ∧
  (e.vp8Enc.pendingValid = false →
    e.vp8Enc.low.toNat + e.vp8Enc.range.toNat ≤ 255 * 2 ^ e.vp8Enc.count.toNat ∧
      e.vp8Enc.bitsOutstanding = 0 ∧ e.sink = []) ∧
  (e.vp8Enc.pendingValid = true → e.vp8Enc.pendingByte.toNat ≤ 254) ∧
  e.sink.length % 8 = 0 ∧
  (∀ w ∈ p.outstandingW, e.vp8Enc.bitsOutstanding < 2 ^ w)

/-- The VP8 decoder's range is normalized (R39). -/
abbrev Vp8DecInv (e : Engine) : Prop :=
  128 ≤ e.vp8Dec.range.toNat ∧ e.vp8Dec.range.toNat ≤ 255

/-- The rANS queue holds pairs with p in 1 .. 225 and no more than `RANS_QCAP` of them (R40), and nothing has been written
yet (R274, R407). -/
abbrev RansEncInv (p : Params) (e : Engine) : Prop :=
  (∀ sp ∈ e.ransEnc.queue, 1 ≤ sp.2.toNat ∧ sp.2.toNat ≤ 225) ∧
  (∀ n ∈ p.ransQCap, e.ransEnc.queue.length ≤ n) ∧ e.sink = []

/-- An Fpaq0 interval between commands (R304): `low <= high`, and their top bytes differ. -/
abbrev IntervalInv (low high : Word) : Prop :=
  low.toNat ≤ high.toNat ∧ topByte low ≠ topByte high

/-- The Fpaq0 parallel encoder has a register set for each lane, with a good interval, and lane `i` has written exactly
the positions `i`, `N + i`, up to `(k[i] - 1) * N + i` (R46, R80, R321). -/
abbrev LanesEncInv (e : Engine) : Prop :=
  e.lanesEnc.length = e.laneCount ∧ (∀ r ∈ e.lanesEnc, IntervalInv r.low r.high) ∧
  Memory.wf none e.slots ∧
  (∀ a, (Memory.lookup a e.slots).isSome = true ↔ a / e.laneCount < (laneEnc e (a % e.laneCount)).k)

/-- The Fpaq0 parallel decoder has a register set for each lane, with a good interval (R47). -/
abbrev LanesDecInv (e : Engine) : Prop :=
  e.lanesDec.length = e.laneCount ∧ ∀ r ∈ e.lanesDec, IntervalInv r.low r.high

/-- An encoder session of family `f` is open. -/
abbrev Encoding (f : Family) (e : Engine) : Prop := e.phase = .enc ∧ e.fam = f

/-- A decoder session of family `f` is open. -/
abbrev Decoding (f : Family) (e : Engine) : Prop := e.phase = .dec ∧ e.fam = f

/-- Everything above, each part where its session is open. -/
structure EngineInv (p : Params) (e : Engine) : Prop where
  ctx : CtxInv p e
  session : SessionInv e
  cabacEnc : Encoding .cabac e → CabacEncInv p e
  vp8Enc : Encoding .vp8 e → Vp8EncInv p e
  vp8Dec : Decoding .vp8 e → Vp8DecInv e
  ransEnc : Encoding .rans e → RansEncInv p e
  ransDec : Decoding .rans e → e.bitpos % 8 = 0
  fpaq0Enc : Encoding .fpaq0 e → IntervalInv e.fpaq0Enc.low e.fpaq0Enc.high ∧ e.sink.length % 8 = 0
  fpaq0Dec : Decoding .fpaq0 e → IntervalInv e.fpaq0Dec.low e.fpaq0Dec.high ∧ e.bitpos % 8 = 0
  lanesEnc : Encoding .fpaq0p e → LanesEncInv e
  lanesDec : Decoding .fpaq0p e → LanesDecInv e

/-! ### Whole sessions -/

/-- One coded symbol: the bit, its context (`none` for bypass) and, for FPAQ0P, its lane. -/
structure CodedSym where
  bit : Bool
  ctx : Option Nat
  lane : Nat
  deriving DecidableEq, Repr

/-- OPEN_ENC of a family, with `n` lanes for FPAQ0P. -/
def openEncInstr (f : Family) (n : Nat) : Instr :=
  match f with
  | .cabac => .cabacOpenEnc
  | .vp8 => .vp8OpenEnc
  | .rans => .ransOpenEnc
  | .fpaq0 => .fpaq0OpenEnc
  | .fpaq0p => .fpaq0pOpenEnc n

/-- OPEN_DEC of a family, with `n` lanes for FPAQ0P. -/
def openDecInstr (f : Family) (n : Nat) (eof : Bool) : Instr :=
  match f with
  | .cabac => .cabacOpenDec eof
  | .vp8 => .vp8OpenDec eof
  | .rans => .ransOpenDec eof
  | .fpaq0 => .fpaq0OpenDec eof
  | .fpaq0p => .fpaq0pOpenDec n eof

/-- FINISH of a family. -/
def finishInstr (f : Family) : Instr :=
  match f with
  | .cabac => .cabacFinish
  | .vp8 => .vp8Finish
  | .rans => .ransFinish
  | .fpaq0 => .fpaq0Finish
  | .fpaq0p => .fpaq0pFinish

/-- The PUT or PUT_BYPASS that codes a symbol. -/
def putInstr (f : Family) (y : CodedSym) : Instr :=
  match f, y.ctx with
  | .cabac, some c => .cabacPut y.bit c
  | .cabac, none => .cabacPutBypass y.bit
  | .vp8, some c => .vp8Put y.bit c
  | .vp8, none => .vp8PutBypass y.bit
  | .rans, some c => .ransPut y.bit c
  | .rans, none => .ransPutBypass y.bit
  | .fpaq0, some c => .fpaq0Put y.bit c
  | .fpaq0, none => .fpaq0PutBypass y.bit
  | .fpaq0p, some c => .fpaq0pPut y.lane y.bit c
  | .fpaq0p, none => .fpaq0pPutBypass y.lane y.bit

/-- The GET or GET_BYPASS that mirrors it (R401). -/
def getInstr (f : Family) (y : CodedSym) : Instr :=
  match f, y.ctx with
  | .cabac, some c => .cabacGet c
  | .cabac, none => .cabacGetBypass
  | .vp8, some c => .vp8Get c
  | .vp8, none => .vp8GetBypass
  | .rans, some c => .ransGet c
  | .rans, none => .ransGetBypass
  | .fpaq0, some c => .fpaq0Get c
  | .fpaq0, none => .fpaq0GetBypass
  | .fpaq0p, some c => .fpaq0pGet y.lane c
  | .fpaq0p, none => .fpaq0pGetBypass y.lane

/-- CTX_INIT of a family (R160, R165). -/
def ctxInitInstr (f : Family) (c : Nat) : Instr :=
  match f with
  | .cabac => .cabacCtxInit c
  | .vp8 => .vp8CtxInit c
  | .rans => .ransCtxInit c
  | .fpaq0 => .fpaq0CtxInit c
  | .fpaq0p => .fpaq0pCtxInit c

/-- CTX_INIT_ALL of a family (R161, R166). -/
def ctxInitAllInstr (f : Family) : Instr :=
  match f with
  | .cabac => .cabacCtxInitAll
  | .vp8 => .vp8CtxInitAll
  | .rans => .ransCtxInitAll
  | .fpaq0 => .fpaq0CtxInitAll
  | .fpaq0p => .fpaq0pCtxInitAll

/-- CTX_UPDATE of a family (R162, R167). -/
def ctxUpdateInstr (f : Family) (b : Bool) (c : Nat) : Instr :=
  match f with
  | .cabac => .cabacCtxUpdate b c
  | .vp8 => .vp8CtxUpdate b c
  | .rans => .ransCtxUpdate b c
  | .fpaq0 => .fpaq0CtxUpdate b c
  | .fpaq0p => .fpaq0pCtxUpdate b c

/-- CTX_READ of a family (R163, R168). -/
def ctxReadInstr (f : Family) (c : Nat) : Instr :=
  match f with
  | .cabac => .cabacCtxRead c
  | .vp8 => .vp8CtxRead c
  | .rans => .ransCtxRead c
  | .fpaq0 => .fpaq0CtxRead c
  | .fpaq0p => .fpaq0pCtxRead c

/-- The input bytes that the seeding reads of OPEN_DEC need (R54): 9 bits, 1 byte, 4 bytes, or 4 bytes a lane. -/
def seedBytes (f : Family) (n : Nat) : Nat :=
  match f with
  | .cabac => 2
  | .vp8 => 1
  | .rans => 4
  | .fpaq0 => 4
  | .fpaq0p => 4 * n

/-- The successful response to a symbol's GET or GET_BYPASS. -/
def getResponse (y : CodedSym) : Response :=
  ⟨.ok, opBits (match y.ctx with | some _ => .get | none => .getBypass), y.bit, 0, []⟩

/-- The commands of a family round-trip with `n` lanes: any sequence of symbols, encoded from OPEN_ENC to FINISH on an
engine and decoded again in explicit-EOF mode from the bytes the host then reads, gives back every bit in order, every
command with status OK, and the encoder's final contexts. -/
def RoundTrips (f : Family) (n : Nat) : Prop :=
  ∀ (s : State) (e : Engine) (syms : List CodedSym),
    s.engine? = some e → Unbounded s.params →
    (∀ y ∈ syms, y.lane < n ∧ ∀ c ∈ y.ctx, c < s.params.numCtx) →
    ∃ t1 e1 out t2 t3 e3,
      runAll (openEncInstr f n :: syms.map (putInstr f) ++ [finishInstr f]) s = .next t1 ∧
      t1.engine? = some e1 ∧ e1.readableOutput = some out ∧
      placeInput s.sel out t1 = .next t2 ∧
      runAll (openDecInstr f n true :: syms.map (getInstr f)) t2 = .next t3 ∧
      t3.engine? = some e3 ∧
      e3.responses.take syms.length = (syms.map getResponse).reverse ∧
      e3.phase = .dec ∧ e3.lastErr = .ok ∧
      ∀ c, ctxGet e3 c = ctxGet e1 c

end Sys2Proof.Machine
end

