-- ==== Sys2Proof/Certificates/Slice0/Obligations.lean ====
section
/-! DEFINITION. The statements about the model, for the provers. Each docstring names the rules of spec/ it formalises and,
where a clause rests on a choice of the model, the log entry that makes the choice. -/

open Sys2Proof Sys2Proof.Machine

/-! ### The command word -/

/-- R110, R120 to R122, R135: decoding the word of a well-formed command gives the command back, with every operand at
every value its field admits. -/
def Obligations.DecodeOfEncode : Prop :=
  ∀ i : Instr, i.WellFormed → decode (encode i) = .ok i

/-- R110, R120 to R122, R135: a word that decodes is the word of the command it decodes to, and that command is well
formed: no bit of a legal word is dropped, and no two words name one command. -/
def Obligations.EncodeOfDecode : Prop :=
  ∀ (w : Word) (i : Instr), decode w = .ok i → encode i = w ∧ i.WellFormed

/-- R131 (with the table of R122): exactly these words are illegal, and each raises ILLEGAL_COMMAND with no other effect
than that of R360. -/
def Obligations.IllegalWordsRaise : Prop :=
  ∀ w : Word,
    let fam := w.toNat / 2 ^ 28
    let op := w.toNat / 2 ^ 24 % 16
    let b := w.toNat / 2 ^ 23 % 2
    let l := w.toNat / 2 ^ 16 % 128
    let c := w.toNat % 2 ^ 16
    let illegal :=
      5 ≤ fam ∨ 13 ≤ op ∨ ((op = 4 ∨ op = 8) ∧ fam ≠ 0) ∨
      (b ≠ 0 ∧ op ∉ [1, 2, 3, 4, 11]) ∨ (l ≠ 0 ∧ ¬(fam = 4 ∧ op ∈ [0, 1, 2, 3, 6, 7])) ∨
      (c ≠ 0 ∧ op ∉ [2, 6, 9, 11, 12])
    ((∃ i, decode w = .ok i) ↔ ¬illegal) ∧
    (illegal → ∀ (s : State) (n : Nat) (rest : List HostAction) (e : Engine),
      s.host = .command n w :: rest → s.engines[n]? = some e →
      step s = .next (((s.setHost rest).setSel n).setEngines (s.engines.set n
        { e with
          phase := .faulted
          lastErr := .illegalCommand
          cmdIndex := e.cmdIndex + 1
          responses := ⟨.illegalCommand, BitVec.ofNat 4 op, false, 0, []⟩ :: e.responses })))

/-- R142: the worked encodings. -/
def Obligations.WorkedEncodings : Prop :=
  decode 0x02800005 = .ok (.cabacPut true 5) ∧
  decode 0x1600012C = .ok (.vp8Get 300) ∧
  decode 0x40030000 = .ok (.fpaq0pOpenEnc 4) ∧
  decode 0x42820007 = .ok (.fpaq0pPut 2 true 7) ∧
  decode 0x21800000 = .ok (.ransOpenDec true) ∧
  decode 0x0C000010 = .ok (.cabacCtxRead 16)

/-! ### The step, the host and the engines -/

/-- R130, R90 (the place of the command word is the model's, log entry 1): when the host's next action is a word that
decodes to a command, a step is that command's execution on the word's port, with the action taken off the list. The
second part says the same of `withFetchWord`. -/
def Obligations.StepRunsDecodedCommand : Prop :=
  (∀ (s : State) (n : Nat) (w : Word) (rest : List HostAction) (i : Instr),
    s.host = .command n w :: rest → decode w = .ok i → step s = exec i ((s.setHost rest).setSel n)) ∧
  (∀ (s : State) (w : Word) (i : Instr), decode w = .ok i → step (s.withFetchWord 32 w.toNat) = exec i s)

/-- R52, R390, R371: after power-on there are `NUM_ENGINES` engines, each in phase Idle with `cmd_index = 0` and
`last_err = 0`, on the port of its number; nothing else is claimed of them. -/
def Obligations.PowerOnState : Prop :=
  ∀ p : Params, (State.powerOn p).params = p ∧ (State.powerOn p).engines.length = p.numEngines ∧
    ∀ (n : Nat) (e : Engine), (State.powerOn p).engines[n]? = some e →
      e.id = n ∧ e.phase = .idle ∧ e.cmdIndex = 0 ∧ e.lastErr = .ok

/-- R373, R88, R89, R393: with no host action pending the core keeps all its state. The host may place an input at any
time, which touches the placed buffer only; reading an output is refused outside phase Finished and otherwise gives
the output; changing the input is refused from a decoder's OPEN_DEC to its next OPEN. (That the placed and
the latched buffer are two is the model's reading, log entry 7; that `dir` tells a latched input also in phase Faulted
before any OPEN, its choice, log entry 6.) -/
def Obligations.HostAccess : Prop :=
  ∀ s : State,
    (s.host = [] → step s = .next s) ∧
    ∀ (n : Nat) (rest : List HostAction) (e : Engine) (bytes : List Byte), s.engines[n]? = some e →
      (s.host = .placeInput n bytes :: rest →
        step s = .next ((s.setHost rest).setEngines (s.engines.set n { e with staged := bytes }))) ∧
      (s.host = .readOutput n :: rest → e.phase = .finished →
        step s = .next ((s.setHost rest).setReadBack e.output)) ∧
      (s.host = .readOutput n :: rest → e.phase ≠ .finished → step s = .refused .outputNotReadable) ∧
      (s.host = .overwriteInput n bytes :: rest →
        step s = if e.dir = .dec ∧ (e.phase = .dec ∨ e.phase = .faulted) then .refused .inputLatched
          else .next ((s.setHost rest).setEngines (s.engines.set n { e with staged := bytes })))

/-- R33, R35, R125, R351, R355: the status codes are 0 to 7; a command word on an engine's port always goes on; whatever
its outcome it counts once and returns one response, whose word carries the status that `last_err` then holds, the word's
OP, the bit and the packed descriptor. A bit comes from a GET, GET_BYPASS or GET_TERM only, a descriptor from CTX_READ
only, an output from FINISH or PUT_TERM 1 only; and a status other than OK puts the engine into phase Faulted and
returns nothing else. -/
def Obligations.EveryCommandReports : Prop :=
  [Status.ok, .outputFailure, .inputExhausted, .illegalCommand, .ctxRange, .laneRange, .counterOverflow,
    .queueOverflow].map (fun c => c.code.toNat) = [0, 1, 2, 3, 4, 5, 6, 7] ∧
  ∀ (s : State) (n : Nat) (w : Word) (rest : List HostAction) (e : Engine),
    s.host = .command n w :: rest → s.engines[n]? = some e →
    ∃ t e' r, step s = .next t ∧ t.engines[n]? = some e' ∧
      e'.cmdIndex = e.cmdIndex + 1 ∧ e'.responses = r :: e.responses ∧
      r.op = w.extractLsb' 24 4 ∧ r.status = e'.lastErr ∧
      r.word.toNat = e'.lastErr.code.toNat * 2 ^ 28 + w.toNat / 2 ^ 24 % 16 * 2 ^ 24 + r.bit.toNat * 2 ^ 23 + r.ctx.toNat ∧
      (r.bit = true → r.op.toNat ∈ [6, 7, 8]) ∧ (r.ctx ≠ 0 → r.op.toNat = 12) ∧
      (r.out ≠ [] → r.op.toNat = 5 ∨ (r.op.toNat = 4 ∧ w.getLsbD 23 = true)) ∧
      (r.status ≠ .ok → e'.phase = .faulted ∧ r.bit = false ∧ r.ctx = 0 ∧ r.out = [])

/-- R30, R371, R90: a command on one port leaves every other engine, the parameters and the number of engines as they
were, and what it does to its own engine depends on that engine and the parameters only. -/
def Obligations.EnginesIndependent : Prop :=
  ∀ (s s' : State) (n : Nat) (w : Word) (rest rest' : List HostAction) (t : State),
    s.host = .command n w :: rest → step s = .next t →
    t.params = s.params ∧ t.engines.length = s.engines.length ∧ t.host = rest ∧
    (∀ m, m ≠ n → t.engines[m]? = s.engines[m]?) ∧
    (s'.host = .command n w :: rest' → s'.params = s.params → s'.engines[n]? = s.engines[n]? →
      ∃ t', step s' = .next t' ∧ t'.engines[n]? = t.engines[n]?)

/-- R34, R76, R89: only OPEN_ENC and OPEN_DEC write an engine's family, direction, lane count and end-of-stream mode, or
its latched input. -/
def Obligations.OnlyOpenWritesConfiguration : Prop :=
  ∀ (s t : State) (n : Nat) (e e' : Engine),
    step s = .next t → s.engines[n]? = some e → t.engines[n]? = some e' →
    ¬(e'.fam = e.fam ∧ e'.dir = e.dir ∧ e'.laneCount = e.laneCount ∧ e'.eof = e.eof ∧ e'.src = e.src) →
    ∃ w rest i, s.host = .command n w :: rest ∧ decode w = .ok i ∧ (i.op = .openEnc ∨ i.op = .openDec)

/-! ### Errors -/

/-- R130, R360, R362: a command that is not legal in the engine's state raises the first of its errors in the order
phase and family, lane, context, and changes nothing else. -/
def Obligations.IllegalCommandHasNoOtherEffect : Prop :=
  ∀ (i : Instr) (s : State) (e : Engine), s.engine? = some e → ¬Legal s.params e i →
    ∃ code : Status,
      code = (if ¬(i.op = .openEnc ∨ i.op = .openDec ∨ (i.family = e.fam ∧ phaseFits e.phase i.op = true)) then
          .illegalCommand
        else if ¬∀ l ∈ laneOperand i, l < e.laneCount then .laneRange else .ctxRange) ∧
      exec i s = .next (s.withEngine
        { e with
          phase := .faulted
          lastErr := code
          cmdIndex := e.cmdIndex + 1
          responses := ⟨code, opBits i.op, false, 0, []⟩ :: e.responses })

/-- R392, R364: in phase Idle, and in phase Faulted, every command other than OPEN_ENC and OPEN_DEC raises
ILLEGAL_COMMAND and leaves the engine Faulted. -/
def Obligations.OnlyOpenLeavesIdleAndFaulted : Prop :=
  ∀ (i : Instr) (s : State) (e : Engine), s.engine? = some e → (e.phase = .idle ∨ e.phase = .faulted) →
    i.op ≠ .openEnc → i.op ≠ .openDec → ∃ t, Raises i s e .illegalCommand t

/-- R351, R353, R217, R249, R288, R319: with an `InMemory` sink, unbounded counters and queue, and zero-fill input, every
legal command of all 57 completes with status OK, whatever the registers and the input hold. This is where each
instruction completes. -/
def Obligations.PlainCommandsComplete : Prop :=
  ∀ (i : Instr) (s : State) (e : Engine), s.engine? = some e → Unbounded s.params → Legal s.params e i →
    ((i.op = .get ∨ i.op = .getBypass ∨ i.op = .getTerm) → e.eof = false) →
    (i.op = .openDec → i.fields.b = false) →
    ∃ r t, Completes i s e r t

/-! ### Opening a session -/

/-- R53, R391: OPEN_ENC of every family: the configuration, every context at its initial value, an empty sink and slot
buffer, the family's registers; the engine's number and the placed input are as they were. rANS `x` is left open (R53). That the
other families' registers stay as they were is the model's choice (log entry 9). -/
def Obligations.OpenEncoderState : Prop :=
  ∀ (f : Family) (n : Nat) (s : State) (e : Engine), s.engine? = some e → 1 ≤ n → n ≤ 128 →
    ∃ t, Completes (openEncInstr f n) s e .none t ∧
      t.phase = .enc ∧ t.fam = f ∧ t.dir = .enc ∧ t.eof = false ∧
      t.laneCount = (if f = .fpaq0p then n else 1) ∧
      (∀ c, ctxGet t c = initialCtx f) ∧ t.sink = [] ∧ (∀ a, Memory.lookup a t.slots = none) ∧
      t.id = e.id ∧ t.staged = e.staged ∧ t.offers = e.offers ∧
      t.cabacEnc = (if f = .cabac then ⟨0, 510, 0, true⟩ else e.cabacEnc) ∧
      t.vp8Enc = (if f = .vp8 then ⟨0, 255, 0, 0, false, 0⟩ else e.vp8Enc) ∧
      t.ransEnc.queue = (if f = .rans then [] else e.ransEnc.queue) ∧
      t.fpaq0Enc = (if f = .fpaq0 then ⟨0, 0xFFFFFFFF⟩ else e.fpaq0Enc) ∧
      t.lanesEnc = (if f = .fpaq0p then List.replicate n ⟨0, 0xFFFFFFFF, 0⟩ else e.lanesEnc) ∧
      t.cabacDec = e.cabacDec ∧ t.vp8Dec = e.vp8Dec ∧ t.ransDec = e.ransDec ∧ t.fpaq0Dec = e.fpaq0Dec ∧
      t.lanesDec = e.lanesDec

/-- R54, R210, R245, R282, R314, R330: OPEN_DEC of every family, in zero-fill mode or with enough input for the seed: it
latches the placed input, sets the configuration and every context, and seeds the family's registers, big-endian. -/
def Obligations.OpenDecoderSeeds : Prop :=
  ∀ (f : Family) (n : Nat) (eof : Bool) (s : State) (e : Engine), s.engine? = some e → 1 ≤ n → n ≤ 128 →
    (eof = false ∨ seedBytes f n ≤ e.staged.length) →
    ∃ t, Completes (openDecInstr f n eof) s e .none t ∧
      t.phase = .dec ∧ t.fam = f ∧ t.dir = .dec ∧ t.eof = eof ∧ t.src = e.staged ∧
      t.laneCount = (if f = .fpaq0p then n else 1) ∧ (∀ c, ctxGet t c = initialCtx f) ∧
      t = { e with
        phase := .dec
        fam := f
        dir := .dec
        laneCount := t.laneCount
        eof := eof
        lastErr := .ok
        cmdIndex := t.cmdIndex
        responses := t.responses
        ctx := t.ctx
        sink := t.sink
        slots := t.slots
        src := t.src
        bitpos := t.bitpos
        cabacDec := if f = .cabac then t.cabacDec else e.cabacDec
        vp8Dec := if f = .vp8 then t.vp8Dec else e.vp8Dec
        ransDec := if f = .rans then t.ransDec else e.ransDec
        fpaq0Dec := if f = .fpaq0 then t.fpaq0Dec else e.fpaq0Dec
        lanesDec := if f = .fpaq0p then t.lanesDec else e.lanesDec } ∧
      let byte := inputByte e.staged
      let word := fun a b c d : Nat => ((byte a * 256 + byte b) * 256 + byte c) * 256 + byte d
      match f with
      | .cabac => t.cabacDec.range = 510 ∧ t.cabacDec.offset.toNat = inputBits e.staged 0 9 ∧ t.bitpos = 9
      | .vp8 => t.vp8Dec.range = 255 ∧ t.vp8Dec.value.toNat = byte 0 ∧ t.bitpos = 8
      | .rans => t.ransDec.x.toNat = word 0 1 2 3 ∧ t.bitpos = 32
      | .fpaq0 => t.fpaq0Dec.low = 0 ∧ t.fpaq0Dec.high = 0xFFFFFFFF ∧
          t.fpaq0Dec.value.toNat = word 0 1 2 3 ∧ t.bitpos = 32
      | .fpaq0p => t.bitpos = 0 ∧ t.lanesDec.length = n ∧ ∀ i, i < n →
          (laneDec t i).low = 0 ∧ (laneDec t i).high = 0xFFFFFFFF ∧ (laneDec t i).k = 4 ∧
          (laneDec t i).value.toNat = word i (n + i) (2 * n + i) (3 * n + i)

/-- R353, R210, R245, R282, R314, R330: OPEN_DEC in explicit-EOF mode with less input than the seed needs raises
INPUT_EXHAUSTED. -/
def Obligations.OpenDecoderExhausts : Prop :=
  ∀ (f : Family) (n : Nat) (s : State) (e : Engine), s.engine? = some e → 1 ≤ n → n ≤ 128 →
    e.staged.length < seedBytes f n → ∃ t, Raises (openDecInstr f n true) s e .inputExhausted t

/-! ### Contexts -/

/-- R160, R161, R165, R166: CTX_INIT of every family sets its entry to the initial descriptor and CTX_INIT_ALL every
entry; nothing else changes but the command count and the response. -/
def Obligations.ContextInit : Prop :=
  ∀ (f : Family) (c : Nat) (s : State) (e : Engine), s.engine? = some e → EngineInv s.params e →
    f = e.fam → inSession e →
    (c < s.params.numCtx → ∃ t, Completes (ctxInitInstr f c) s e .none t ∧
      t = { e with ctx := t.ctx, lastErr := .ok, cmdIndex := t.cmdIndex, responses := t.responses } ∧
      ctxGet t c = initialCtx f ∧ ∀ a, a ≠ c → ctxGet t a = ctxGet e a) ∧
    (∃ t, Completes (ctxInitAllInstr f) s e .none t ∧
      t = { e with ctx := t.ctx, lastErr := .ok, cmdIndex := t.cmdIndex, responses := t.responses } ∧
      ∀ a, ctxGet t a = initialCtx f)

/-- R154, R162, R156, R167: CTX_UPDATE of every family. For CABAC the transition of R154 under either swap test; for the
others `p - ceil(p / 32)`, not below 1, after a one and `p + floor((256 - p) / 32)` after a zero. Nothing else
changes but the command count and the response. -/
def Obligations.ContextUpdate : Prop :=
  ∀ (f : Family) (b : Bool) (c : Nat) (s : State) (e : Engine), s.engine? = some e → EngineInv s.params e →
    f = e.fam → inSession e → c < s.params.numCtx →
    ∃ t, Completes (ctxUpdateInstr f b c) s e .none t ∧
      t = { e with ctx := t.ctx, lastErr := .ok, cmdIndex := t.cmdIndex, responses := t.responses } ∧
      (∀ a, a ≠ c → ctxGet t a = ctxGet e a) ∧
      let v := ctxGet e c
      let v' := (ctxGet t c).toNat
      if f = .cabac then
        let x := v.toNat % 64
        let mps := v.toNat / 64
        if b.toNat = mps then v' = mps * 64 + transIdxMPS x
        else
          let swap := if s.params.cabacSwapTest = .old then x = 0 else transIdxLPS x = 0
          v' = (if swap then 1 - mps else mps) * 64 + transIdxLPS x
      else v' = if b then max 1 (v.toNat - (v.toNat + 31) / 32) else v.toNat + (256 - v.toNat) / 32

/-- R163, R168, R41, R42: CTX_READ of every family returns the packed descriptor and changes nothing but the command
count and the response; it is legal in phases Enc, Dec and Finished. -/
def Obligations.ContextRead : Prop :=
  ∀ (f : Family) (c : Nat) (s : State) (e : Engine), s.engine? = some e → EngineInv s.params e →
    f = e.fam → inSession e → c < s.params.numCtx →
    ∃ t, Completes (ctxReadInstr f c) s e (.ofCtx (ctxGet e c)) t ∧
      t = { e with lastErr := .ok, cmdIndex := t.cmdIndex, responses := t.responses } ∧
      (f = .cabac → (ctxGet e c).toNat = (cabacCtxGet e c).mps.toNat * 2 ^ 6 + (cabacCtxGet e c).s.toNat)

/-- R157: what the rule derives of `ProbUpdate`: after a zero p does not fall and stays exactly from 225 on, so a run of
zeros drives p from 128 to 225 and no higher; after a one p falls, but stays at 1; and how the sequences from 128
begin. -/
def Obligations.UpdateProperties : Prop :=
  (∀ p : Byte, 1 ≤ p.toNat →
    p.toNat ≤ (probUpdate p false).toNat ∧ ((probUpdate p false) = p ↔ 225 ≤ p.toNat) ∧
    (2 ≤ p.toNat → (probUpdate p true).toNat < p.toNat) ∧ (p.toNat = 1 → probUpdate p true = 1)) ∧
  (∀ n : Nat, ((fun p => probUpdate p false)^[n] 128).toNat ≤ 225) ∧
  (∃ n : Nat, (fun p => probUpdate p false)^[n] 128 = 225) ∧
  [1, 2, 3, 4, 5].map (fun n => (fun p => probUpdate p false)^[n] 128) = [132, 135, 138, 141, 144] ∧
  [1, 2, 3, 4, 5].map (fun n => (fun p => probUpdate p true)^[n] 128) = [124, 120, 116, 112, 108]

/-- R153: every entry of the two transition tables is a state, no transition from a state other than 63 gives 63, and the
LPS sub-range is at least 6 but for state 63, where it is 2. So no sequence of updates from state 0 reaches 63. -/
def Obligations.TableProperties : Prop :=
  (∀ x, x < 64 → transIdxLPS x < 64 ∧ transIdxMPS x < 64 ∧ (x ≤ 62 → transIdxLPS x ≤ 38 ∧ transIdxMPS x ≤ 62)) ∧
  (∀ x q, x ≤ 62 → q < 4 → 6 ≤ rangeTabLPS x q) ∧ (∀ q, q < 4 → rangeTabLPS 63 q = 2) ∧
  (∀ (t : SwapTest) (bins : List Bool), (bins.foldl (cabacUpdate t) ⟨0, false⟩).s ≠ 63)

/-! ### Streams -/

/-- R77, R78: ReadByte at a byte-aligned cursor returns the next byte, or 0 past the end in zero-fill mode, and moves
the cursor by 8 bits; in explicit-EOF mode it raises INPUT_EXHAUSTED past the end. -/
def Obligations.ReadByteAligned : Prop :=
  ∀ e : Engine, e.bitpos % 8 = 0 →
    if e.bitpos / 8 < e.src.length ∨ e.eof = false then
      readByte e = .ok (e.src.getD (e.bitpos / 8) 0) { e with bitpos := e.bitpos + 8 }
    else readByte e = .raised .inputExhausted e

/-- R72, R74, R75: on an `InMemory` sink, bytes written at a byte boundary are the next complete bytes of the output, and
SinkClose pads the last byte with fewer than 8 zero bits; neither touches anything else. -/
def Obligations.SinkBytes : Prop :=
  ∀ (p : Params) (e : Engine), p.sinkMode = .inMemory →
    (∀ vs : List Byte, e.sink.length % 8 = 0 → ∃ t, writeBytes p vs e = .ok () t ∧
      t = { e with sink := t.sink } ∧ t.sink.length = e.sink.length + 8 * vs.length ∧
      completeBytes t.sink = completeBytes e.sink ++ vs) ∧
    (∃ t k, sinkClose p e = .ok () t ∧ k < 8 ∧ t = { e with sink := e.sink ++ List.replicate k false } ∧
      t.sink.length % 8 = 0)

/-! ### CABAC -/

/-- R189, R185 to R187, R154, R199: `cabac.put` as exact arithmetic. With `r1 = range - rLPS`, it selects `r1` above the
same code number (MPS) or `rLPS` above the code number plus `r1` (LPS), doubles both `n` times until the range is in
256 .. 510, counts the `n` passes, and updates the context. So the carry resolution loses nothing. -/
def Obligations.CabacPutExact : Prop :=
  ∀ (s : State) (e : Engine) (b : Bool) (c : Nat), s.engine? = some e → EngineInv s.params e →
    Unbounded s.params → Encoding .cabac e → c < s.params.numCtx →
    let ctx := cabacCtxGet e c
    let rLPS := rangeTabLPS ctx.s.toNat (e.cabacEnc.range.toNat / 2 ^ 6 % 4)
    let r1 := e.cabacEnc.range.toNat - rLPS
    ∃ t n, Completes (.cabacPut b c) s e .none t ∧ t.phase = .enc ∧
      t.cabacEnc.range.toNat = 2 ^ n * (if b = ctx.mps then r1 else rLPS) ∧
      256 ≤ t.cabacEnc.range.toNat ∧ t.cabacEnc.range.toNat ≤ 510 ∧
      n ≤ (if b = ctx.mps then 1 else 6) ∧
      cabacCode t = 2 ^ n * (cabacCode e + (if b = ctx.mps then 0 else r1)) ∧
      cabacShifts t = cabacShifts e + n ∧
      cabacCtxGet t c = cabacUpdate s.params.cabacSwapTest ctx b ∧ ∀ a, a ≠ c → ctxGet t a = ctxGet e a

/-- R190, R191, R199: `cabac.put_bypass` doubles the code number and adds `range` for a one; `cabac.put_term 0` takes 2
off the range and renormalizes, at most once. Neither touches a context. -/
def Obligations.CabacBypassAndTermExact : Prop :=
  ∀ (s : State) (e : Engine), s.engine? = some e → EngineInv s.params e → Unbounded s.params → Encoding .cabac e →
    (∀ b : Bool, ∃ t, Completes (.cabacPutBypass b) s e .none t ∧ t.phase = .enc ∧
      t.cabacEnc.range = e.cabacEnc.range ∧ t.ctx = e.ctx ∧
      cabacCode t = 2 * cabacCode e + (if b then e.cabacEnc.range.toNat else 0) ∧
      cabacShifts t = cabacShifts e + 1) ∧
    (∃ t n, Completes (.cabacPutTerm false) s e .none t ∧ t.phase = .enc ∧ t.ctx = e.ctx ∧ n ≤ 1 ∧
      t.cabacEnc.range.toNat = 2 ^ n * (e.cabacEnc.range.toNat - 2) ∧
      256 ≤ t.cabacEnc.range.toNat ∧ t.cabacEnc.range.toNat ≤ 510 ∧
      cabacCode t = 2 ^ n * cabacCode e ∧ cabacShifts t = cabacShifts e + n)

/-- R188, R191, R192, R75, R216: `cabac.finish` and `cabac.put_term 1` output the bits of
`2 * floor((code + range - 2) / 2) + 1`, 9 more of them than there were passes and bypass bins, padded with fewer than
8 zero bits to whole bytes; the engine is Finished and the host may read that output. -/
def Obligations.CabacFinishOutput : Prop :=
  ∀ (s : State) (e : Engine) (i : Instr), s.engine? = some e → EngineInv s.params e → Unbounded s.params →
    Encoding .cabac e → (i = .cabacFinish ∨ i = .cabacPutTerm true) →
    ∃ t out pad, Completes i s e (.ofOut out) t ∧ t.phase = .finished ∧ t.readableOutput = some out ∧
      t.ctx = e.ctx ∧ pad < 8 ∧ 8 * out.length = cabacShifts e + 9 + pad ∧
      bytesValue out = (2 * ((cabacCode e + e.cabacEnc.range.toNat - 2) / 2) + 1) * 2 ^ pad

/-- R211, R202, R154, R77, R353: `cabac.get` where the subtraction `range - rLPS` has a result: the bin is the
comparison's, the range is doubled `n` times until it is at least 256, and the offset takes `n` bits of input, truncated
to 32 bits. In explicit-EOF mode with fewer than `n` bits left it raises INPUT_EXHAUSTED instead. This covers the
unnormalized ranges that `get_term` leaves. -/
def Obligations.CabacGetResult : Prop :=
  ∀ (s : State) (e : Engine) (c : Nat), s.engine? = some e → EngineInv s.params e →
    Decoding .cabac e → c < s.params.numCtx →
    let ctx := cabacCtxGet e c
    let rLPS := rangeTabLPS ctx.s.toNat (e.cabacDec.range.toNat / 2 ^ 6 % 4)
    rLPS ≤ e.cabacDec.range.toNat →
    let r1 := e.cabacDec.range.toNat - rLPS
    let lps := decide (r1 ≤ e.cabacDec.offset.toNat)
    let bin := if lps then !ctx.mps else ctx.mps
    let range := if lps then rLPS else r1
    ∃ n, n ≤ 8 ∧ 256 ≤ 2 ^ n * range ∧ (n ≠ 0 → 2 ^ n * range ≤ 510) ∧
      if InputLeft e n then
        ∃ t, Completes (.cabacGet c) s e (.ofBit bin) t ∧ t.phase = .dec ∧ t.cabacDec.range.toNat = 2 ^ n * range ∧
          t.cabacDec.offset.toNat =
            (2 ^ n * (e.cabacDec.offset.toNat - (if lps then r1 else 0)) + inputBits e.src e.bitpos n) % 2 ^ 32 ∧
          t.bitpos = e.bitpos + n ∧
          cabacCtxGet t c = cabacUpdate s.params.cabacSwapTest ctx bin ∧ ∀ a, a ≠ c → ctxGet t a = ctxGet e a
      else ∃ t, Raises (.cabacGet c) s e .inputExhausted t

/-- R212, R77: `cabac.get_bypass` reads one bit of input, or raises INPUT_EXHAUSTED past the end in explicit-EOF mode;
the range and the contexts are unchanged. -/
def Obligations.CabacGetBypassResult : Prop :=
  ∀ (s : State) (e : Engine), s.engine? = some e → Decoding .cabac e →
    if e.bitpos < 8 * e.src.length ∨ e.eof = false then
      let o := (2 * e.cabacDec.offset.toNat + inputBit e.src e.bitpos) % 2 ^ 32
      let bin := decide (e.cabacDec.range.toNat ≤ o)
      ∃ t, Completes .cabacGetBypass s e (.ofBit bin) t ∧ t.phase = .dec ∧ t.bitpos = e.bitpos + 1 ∧
        t.cabacDec.range = e.cabacDec.range ∧ t.ctx = e.ctx ∧
        t.cabacDec.offset.toNat = if bin then o - e.cabacDec.range.toNat else o
    else ∃ t, Raises .cabacGetBypass s e .inputExhausted t

/-- R213, R202, R77, R353: `cabac.get_term` where the range is at least 2 (R213 gives no result below that, log entry 5):
bin 1 leaves `range - 2` unrenormalized and the phase Dec and reads no input; bin 0 renormalizes, with `n` bits of input,
and raises INPUT_EXHAUSTED instead in explicit-EOF mode with fewer than `n` bits left. -/
def Obligations.CabacGetTermResult : Prop :=
  ∀ (s : State) (e : Engine), s.engine? = some e → Decoding .cabac e → 2 ≤ e.cabacDec.range.toNat →
    let r := e.cabacDec.range.toNat - 2
    if r ≤ e.cabacDec.offset.toNat then
      ∃ t, Completes .cabacGetTerm s e (.ofBit true) t ∧ t.phase = .dec ∧ t.cabacDec.range.toNat = r ∧
        t.cabacDec.offset = e.cabacDec.offset ∧ t.bitpos = e.bitpos ∧ t.ctx = e.ctx
    else
      ∃ n, n ≤ 8 ∧ 256 ≤ 2 ^ n * r ∧ (n ≠ 0 → 2 ^ n * r ≤ 510) ∧
        if InputLeft e n then
          ∃ t, Completes .cabacGetTerm s e (.ofBit false) t ∧ t.phase = .dec ∧ t.ctx = e.ctx ∧
            t.cabacDec.range.toNat = 2 ^ n * r ∧ t.bitpos = e.bitpos + n ∧
            t.cabacDec.offset.toNat =
              (2 ^ n * e.cabacDec.offset.toNat + inputBits e.src e.bitpos n) % 2 ^ 32
        else ∃ t, Raises .cabacGetTerm s e .inputExhausted t

/-- R186, R187, R188, R190, R191, R192, R351: COUNTER_OVERFLOW of CABAC with `OUTSTANDING_W = w`. A `cabac.put_bypass`
whose new `low` straddles the carry position raises it exactly when the counter holds `2^w - 1`, and otherwise counts
one more, on any sink. On an `InMemory` sink, put_bypass, put (with its `n` RenormE passes), put_term 0 (with one pass
or none) and finish and put_term 1 (with the seven passes of the flush) raise it exactly when the passes that straddle
from the first one on are more than the counter has room for, and complete otherwise. -/
def Obligations.CabacCounterOverflow : Prop :=
  (∀ (s : State) (e : Engine) (b : Bool) (w : Nat), s.engine? = some e → s.params.outstandingW = some w →
    Encoding .cabac e →
    let low := 2 * e.cabacEnc.low.toNat + (if b then e.cabacEnc.range.toNat else 0)
    512 ≤ low → low < 1024 →
    if e.cabacEnc.outstanding = 2 ^ w - 1 then ∃ t, Raises (.cabacPutBypass b) s e .counterOverflow t
    else ∃ t, Completes (.cabacPutBypass b) s e .none t ∧
      t.cabacEnc.outstanding = e.cabacEnc.outstanding + 1 ∧ t.cabacEnc.low.toNat = low - 512 ∧ t.sink = e.sink) ∧
  ∀ (s : State) (e : Engine) (w : Nat), s.engine? = some e → EngineInv s.params e → s.params.sinkMode = .inMemory →
    s.params.outstandingW = some w → 16 ≤ w → Encoding .cabac e →
    let range := e.cabacEnc.range.toNat
    let low := e.cabacEnc.low.toNat
    let k := e.cabacEnc.outstanding
    (∀ b : Bool, let low := 2 * low + (if b then range else 0)
      if 512 ≤ low ∧ low < 1024 ∧ k = 2 ^ w - 1 then ∃ t, Raises (.cabacPutBypass b) s e .counterOverflow t
      else ∃ t, Completes (.cabacPutBypass b) s e .none t) ∧
    (∀ (b : Bool) (c : Nat), c < s.params.numCtx →
      let ctx := cabacCtxGet e c
      let rLPS := rangeTabLPS ctx.s.toNat (range / 2 ^ 6 % 4)
      let low := low + (if b = ctx.mps then 0 else range - rLPS)
      let range := if b = ctx.mps then range - rLPS else rLPS
      ∃ n, n ≤ 6 ∧ 256 ≤ 2 ^ n * range ∧ 2 ^ n * range ≤ 510 ∧
        if CounterShort w k low n then ∃ t, Raises (.cabacPut b c) s e .counterOverflow t
        else ∃ t, Completes (.cabacPut b c) s e .none t ∧ t.cabacEnc.range.toNat = 2 ^ n * range) ∧
    (if CounterShort w k low (if range - 2 < 256 then 1 else 0) then
        ∃ t, Raises (.cabacPutTerm false) s e .counterOverflow t
      else ∃ t, Completes (.cabacPutTerm false) s e .none t) ∧
    ∀ i : Instr, (i = .cabacFinish ∨ i = .cabacPutTerm true) →
      if CounterShort w k (low + (range - 2)) 7 then ∃ t, Raises i s e .counterOverflow t
      else ∃ t out, Completes i s e (.ofOut out) t ∧ t.phase = .finished

/-! ### VP8 -/

/-- R230, R300: the subintervals of VP8 and of Fpaq0 are not empty: Split is in 1 .. range - 1, and Mid in low .. high - 1
and equal to its formula on exact numbers. -/
def Obligations.SplitAndMidInside : Prop :=
  (∀ (range : Word) (p : Byte), 2 ≤ range.toNat → range.toNat ≤ 255 → 1 ≤ p.toNat →
    1 ≤ vp8Split range p ∧ vp8Split range p ≤ range.toNat - 1 ∧
    vp8Split range p = 1 + (range.toNat - 1) * p.toNat / 2 ^ 8) ∧
  (∀ (lo hi : Word) (p : Byte), lo.toNat ≤ hi.toNat → 1 ≤ p.toNat →
    (fpaq0Mid lo hi p).toNat = lo.toNat + (hi.toNat - lo.toNat) / 2 ^ 8 * p.toNat ∧
    (lo.toNat < hi.toNat → (fpaq0Mid lo hi p).toNat < hi.toNat))

/-- R234, R236, R238, R232, R233: `vp8.put` and `vp8.put_bypass` (p = 128) as exact arithmetic: the range becomes the
split (a zero) or the rest above the code number plus the split (a one), doubled `n` times until it is in 128 .. 255,
and the code number with it; `n` shifts are counted. PUT updates its context with the p read before coding, and
PUT_BYPASS none. So the byte deferral loses nothing. -/
def Obligations.Vp8PutExact : Prop :=
  ∀ (s : State) (e : Engine) (b : Bool) (ctx : Option Nat), s.engine? = some e → EngineInv s.params e →
    Unbounded s.params → Encoding .vp8 e → (∀ c ∈ ctx, c < s.params.numCtx) →
    let p : Byte := ctx.elim 128 (ctxGet e)
    let split := vp8Split e.vp8Enc.range p
    ∃ t n, Completes (putInstr .vp8 ⟨b, ctx, 0⟩) s e .none t ∧ t.phase = .enc ∧ n ≤ 7 ∧
      t.vp8Enc.range.toNat = 2 ^ n * (if b then e.vp8Enc.range.toNat - split else split) ∧
      128 ≤ t.vp8Enc.range.toNat ∧ t.vp8Enc.range.toNat ≤ 255 ∧
      vp8Code t = 2 ^ n * (vp8Code e + (if b then split else 0)) ∧
      8 * vp8FormedBytes t + t.vp8Enc.count.toNat = 8 * vp8FormedBytes e + e.vp8Enc.count.toNat + n ∧
      ∀ a, ctxGet t a = if ctx = some a then probUpdate p b else ctxGet e a

/-- R239, R240: `vp8.finish` outputs the code number, shifted to a whole number of bytes: one byte after those formed
when the shift count is 0, and two otherwise; the engine is Finished and the host may read that output. -/
def Obligations.Vp8FinishOutput : Prop :=
  ∀ (s : State) (e : Engine), s.engine? = some e → EngineInv s.params e → Unbounded s.params → Encoding .vp8 e →
    ∃ t out, Completes .vp8Finish s e (.ofOut out) t ∧ t.phase = .finished ∧ t.readableOutput = some out ∧
      t.ctx = e.ctx ∧
      out.length = vp8FormedBytes e + (if e.vp8Enc.count = 0 then 1 else 2) ∧
      bytesValue out = vp8Code e * 2 ^ ((8 - e.vp8Enc.count.toNat) % 8)

/-- R231, R232, R233, R234, R239, R351: COUNTER_OVERFLOW of VP8 with `OUTSTANDING_W = w` on an `InMemory` sink. put,
put_bypass (p = 128) and finish raise it exactly when the counter holds `2^w - 1`, a byte is pending, and the byte they
form next (put and put_bypass, with `n` shifts, only when the shift count reaches 8) is 0xFF with no carry; they complete
otherwise. -/
def Obligations.Vp8CounterOverflow : Prop :=
  ∀ (s : State) (e : Engine) (w : Nat), s.engine? = some e → EngineInv s.params e → s.params.sinkMode = .inMemory →
    s.params.outstandingW = some w → Encoding .vp8 e →
    let r := e.vp8Enc
    let full := r.pendingValid = true ∧ r.bitsOutstanding = 2 ^ w - 1
    let formed := fun low : Nat => low * 2 ^ (8 - r.count.toNat) / 2 ^ 8
    (∀ (b : Bool) (ctx : Option Nat), (∀ c ∈ ctx, c < s.params.numCtx) →
      let p : Byte := ctx.elim 128 (ctxGet e)
      let split := vp8Split r.range p
      let low := r.low.toNat + (if b then split else 0)
      let range := if b then r.range.toNat - split else split
      ∃ n, n ≤ 7 ∧ 128 ≤ 2 ^ n * range ∧ 2 ^ n * range ≤ 255 ∧
        if full ∧ 8 ≤ r.count.toNat + n ∧ formed low = 255 then
          ∃ t, Raises (putInstr .vp8 ⟨b, ctx, 0⟩) s e .counterOverflow t
        else ∃ t, Completes (putInstr .vp8 ⟨b, ctx, 0⟩) s e .none t ∧ t.vp8Enc.range.toNat = 2 ^ n * range) ∧
    if full ∧ formed r.low.toNat = 255 then ∃ t, Raises .vp8Finish s e .counterOverflow t
    else ∃ t out, Completes .vp8Finish s e (.ofOut out) t ∧ t.phase = .finished

/-- R242, R247, R248, R77, R353: `vp8.get` and `vp8.get_bypass` (p = 128): the bit is the comparison with the split, the
range is doubled `n` times until it is in 128 .. 255, and the value takes `n` bits of input, truncated to 32 bits. GET
updates its context, and GET_BYPASS none. In explicit-EOF mode with fewer than `n` bits left both raise
INPUT_EXHAUSTED instead. -/
def Obligations.Vp8GetResult : Prop :=
  ∀ (s : State) (e : Engine) (ctx : Option Nat), s.engine? = some e → EngineInv s.params e →
    Decoding .vp8 e → (∀ c ∈ ctx, c < s.params.numCtx) →
    let p : Byte := ctx.elim 128 (ctxGet e)
    let split := vp8Split e.vp8Dec.range p
    let bit := decide (split ≤ e.vp8Dec.value.toNat)
    let range := if bit then e.vp8Dec.range.toNat - split else split
    ∃ n, n ≤ 7 ∧ 128 ≤ 2 ^ n * range ∧ 2 ^ n * range ≤ 255 ∧
      if InputLeft e n then
        ∃ t, Completes (getInstr .vp8 ⟨bit, ctx, 0⟩) s e (.ofBit bit) t ∧ t.phase = .dec ∧
          t.vp8Dec.range.toNat = 2 ^ n * range ∧
          t.vp8Dec.value.toNat =
            (2 ^ n * (e.vp8Dec.value.toNat - (if bit then split else 0)) + inputBits e.src e.bitpos n) % 2 ^ 32 ∧
          t.bitpos = e.bitpos + n ∧
          ∀ a, ctxGet t a = if ctx = some a then probUpdate p bit else ctxGet e a
      else ∃ t, Raises (getInstr .vp8 ⟨bit, ctx, 0⟩) s e .inputExhausted t

/-! ### rANS -/

/-- R273, R274, R275: `rans.put` and `rans.put_bypass` (p = 128) append (bit, p) with the p read before the update, and
PUT then updates its context; a full queue raises QUEUE_OVERFLOW and leaves queue and contexts as they were. Nothing
is written. (That an execution error keeps the queue and the contexts is the model's choice, which R360 allows, log entry
10; that the register `x` stays as it was, which T9 leaves open, is its choice too, log entry 4.) -/
def Obligations.RansPutQueues : Prop :=
  ∀ (s : State) (e : Engine) (b : Bool) (ctx : Option Nat), s.engine? = some e → EngineInv s.params e →
    Encoding .rans e → (∀ c ∈ ctx, c < s.params.numCtx) →
    let p : Byte := ctx.elim 128 (ctxGet e)
    if s.params.ransQCap = some e.ransEnc.queue.length then
      ∃ t, Raises (putInstr .rans ⟨b, ctx, 0⟩) s e .queueOverflow t ∧ t.ransEnc = e.ransEnc ∧ t.ctx = e.ctx
    else
      ∃ t, Completes (putInstr .rans ⟨b, ctx, 0⟩) s e .none t ∧ t.phase = .enc ∧
        t.ransEnc.queue = e.ransEnc.queue ++ [(b, p)] ∧ t.sink = e.sink ∧
        ∀ a, ctxGet t a = if ctx = some a then probUpdate p b else ctxGet e a

/-- R277, R270, R271, R284, R287: for every p in 1 .. 255 and `x` in 2^16 .. 2^24 - 1, EncodeSym emits at most one byte
and keeps `x` in that interval; DecodeSym's step on the result gives the symbol and the `x` that EncodeSym divided,
which is below 2^16 exactly when a byte was emitted and is then completed by it. -/
def Obligations.RansStepInverse : Prop :=
  ∀ (b : Bool) (p : Byte) (x : Word), 1 ≤ p.toNat → 2 ^ 16 ≤ x.toNat → x.toNat < 2 ^ 24 →
    let r := encodeSym (b, p) (x, [])
    let d := decodeSymStep p r.1
    2 ^ 16 ≤ r.1.toNat ∧ r.1.toNat < 2 ^ 24 ∧ d.1 = b ∧
    ((r.2 = [] ∧ d.2 = x) ∨
      (∃ v : Byte, r.2 = [v] ∧ d.2.toNat < 2 ^ 16 ∧ d.2.toNat * 256 + v.toNat = x.toNat))

/-- R276, R271, R86: `rans.finish` runs EncodeSym over the queue from the last PUT to the first, from `x = 2^16`, and
outputs the final `x`, most significant byte first, and then the emitted bytes in reverse; the queue is emptied, the
engine is Finished and the host may read that output. An empty queue gives 00 01 00 00. (That the register `x` keeps the
final value afterwards is the model's choice, log entry 4.) -/
def Obligations.RansFinishOutput : Prop :=
  ∀ (s : State) (e : Engine), s.engine? = some e → EngineInv s.params e → Unbounded s.params → Encoding .rans e →
    let final := encodeSyms e.ransEnc.queue.reverse (0x10000, [])
    ∃ t out, Completes .ransFinish s e (.ofOut out) t ∧ t.phase = .finished ∧ t.readableOutput = some out ∧
      t.ctx = e.ctx ∧ t.ransEnc.queue = [] ∧ t.ransEnc.x = final.1 ∧
      2 ^ 16 ≤ final.1.toNat ∧ final.1.toNat < 2 ^ 24 ∧
      4 ≤ out.length ∧ out.length ≤ 4 + e.ransEnc.queue.length ∧
      bytesValue (out.take 4) = final.1.toNat ∧ out.drop 4 = final.2.reverse ∧
      (e.ransEnc.queue = [] → out = [0x00, 0x01, 0x00, 0x00])

/-- R284, R285, R286, R283, R77, R353: `rans.get` and `rans.get_bypass` (p = 128): the symbol is the comparison of the slot
with p, `x` becomes `f * (x >> 8) + slot - k`, and takes one byte of input when that is below 2^16; it stays at or
above 2^16 if it was. GET updates its context, and GET_BYPASS none. In explicit-EOF mode with no byte left for the
refill both raise INPUT_EXHAUSTED instead. -/
def Obligations.RansGetResult : Prop :=
  ∀ (s : State) (e : Engine) (ctx : Option Nat), s.engine? = some e → EngineInv s.params e →
    Decoding .rans e → (∀ c ∈ ctx, c < s.params.numCtx) →
    let p : Byte := ctx.elim 128 (ctxGet e)
    let slot := e.ransDec.x.toNat % 2 ^ 8
    let bit := decide (p.toNat ≤ slot)
    let x := (if bit then 256 - p.toNat else p.toNat) * (e.ransDec.x.toNat / 2 ^ 8) + slot -
      (if bit then p.toNat else 0)
    let n := if x < 2 ^ 16 then 8 else 0
    if InputLeft e n then
      ∃ t, Completes (getInstr .rans ⟨bit, ctx, 0⟩) s e (.ofBit bit) t ∧ t.phase = .dec ∧
        t.ransDec.x.toNat = (if x < 2 ^ 16 then x * 256 + inputByte e.src (e.bitpos / 8) else x) ∧
        t.bitpos = e.bitpos + n ∧
        (2 ^ 16 ≤ e.ransDec.x.toNat → 2 ^ 16 ≤ t.ransDec.x.toNat) ∧
        ∀ a, ctxGet t a = if ctx = some a then probUpdate p bit else ctxGet e a
    else ∃ t, Raises (getInstr .rans ⟨bit, ctx, 0⟩) s e .inputExhausted t

/-! ### Fpaq0 -/

/-- R301, R303, R306, R307: `fpaq0.put` and `fpaq0.put_bypass` (p = 128): the interval is cut at Mid, and its `n` equal
leading bytes are written and shifted out, ones coming into `high`. PUT updates its context, and PUT_BYPASS none. -/
def Obligations.Fpaq0PutExact : Prop :=
  ∀ (s : State) (e : Engine) (b : Bool) (ctx : Option Nat), s.engine? = some e → EngineInv s.params e →
    Unbounded s.params → Encoding .fpaq0 e → (∀ c ∈ ctx, c < s.params.numCtx) →
    let p : Byte := ctx.elim 128 (ctxGet e)
    let mid := (fpaq0Mid e.fpaq0Enc.low e.fpaq0Enc.high p).toNat
    let lo := if b then mid + 1 else e.fpaq0Enc.low.toNat
    let hi := if b then e.fpaq0Enc.high.toNat else mid
    ∃ t n, Completes (putInstr .fpaq0 ⟨b, ctx, 0⟩) s e .none t ∧ t.phase = .enc ∧ n ≤ 4 ∧
      lo / 256 ^ (4 - n) = hi / 256 ^ (4 - n) ∧
      bitsValue t.sink = bitsValue e.sink * 256 ^ n + hi / 256 ^ (4 - n) ∧
      t.sink.length = e.sink.length + 8 * n ∧
      t.fpaq0Enc.low.toNat = lo * 256 ^ n % 2 ^ 32 ∧
      t.fpaq0Enc.high.toNat = (hi * 256 ^ n + (256 ^ n - 1)) % 2 ^ 32 ∧
      topByte t.fpaq0Enc.low ≠ topByte t.fpaq0Enc.high ∧
      ∀ a, ctxGet t a = if ctx = some a then probUpdate p b else ctxGet e a

/-- R308, R82, R352: `fpaq0.finish` outputs the bytes written and then the four bytes of `low`, most significant first. On
an `External` sink whose environment refuses its next offer it raises OUTPUT_FAILURE instead; that the answer is the
constant `Config.sinkAccepts` of the offer's number, and `offers` the count of them, is the model's choice (log
entry 3). -/
def Obligations.Fpaq0FinishOutput : Prop :=
  ∀ (s : State) (e : Engine), s.engine? = some e → EngineInv s.params e → Encoding .fpaq0 e →
    (s.params.sinkMode = .inMemory →
      ∃ t out, Completes .fpaq0Finish s e (.ofOut out) t ∧ t.phase = .finished ∧ t.readableOutput = some out ∧
        t.ctx = e.ctx ∧ out.length = e.sink.length / 8 + 4 ∧ out.take (e.sink.length / 8) = completeBytes e.sink ∧
        bytesValue (out.drop (e.sink.length / 8)) = e.fpaq0Enc.low.toNat) ∧
    (s.params.sinkMode = .external →
      ∃ t, exec .fpaq0Finish s = .next (s.withEngine t) ∧
        (Config.sinkAccepts e.id e.offers = false →
          Raises .fpaq0Finish s e .outputFailure t ∧ t.offers = e.offers + 1))

/-- R316, R317, R318, R77, R353: `fpaq0.get` and `fpaq0.get_bypass` (p = 128): the bit is the comparison of the value with
Mid, the interval is cut there, and its `n` equal leading bytes are shifted out while the value takes `n` bytes of input.
GET updates its context, and GET_BYPASS none. In explicit-EOF mode with fewer than `n` bytes left both raise
INPUT_EXHAUSTED instead. -/
def Obligations.Fpaq0GetResult : Prop :=
  ∀ (s : State) (e : Engine) (ctx : Option Nat), s.engine? = some e → EngineInv s.params e →
    Decoding .fpaq0 e → (∀ c ∈ ctx, c < s.params.numCtx) →
    let p : Byte := ctx.elim 128 (ctxGet e)
    let mid := (fpaq0Mid e.fpaq0Dec.low e.fpaq0Dec.high p).toNat
    let bit := decide (mid < e.fpaq0Dec.value.toNat)
    let lo := if bit then mid + 1 else e.fpaq0Dec.low.toNat
    let hi := if bit then e.fpaq0Dec.high.toNat else mid
    ∃ n, EqualLeadingBytes lo hi n ∧
      if InputLeft e (8 * n) then
        ∃ t, Completes (getInstr .fpaq0 ⟨bit, ctx, 0⟩) s e (.ofBit bit) t ∧ t.phase = .dec ∧
          t.fpaq0Dec.low.toNat = lo * 256 ^ n % 2 ^ 32 ∧
          t.fpaq0Dec.high.toNat = (hi * 256 ^ n + (256 ^ n - 1)) % 2 ^ 32 ∧
          topByte t.fpaq0Dec.low ≠ topByte t.fpaq0Dec.high ∧
          t.fpaq0Dec.value.toNat =
            (e.fpaq0Dec.value.toNat * 256 ^ n + inputBits e.src e.bitpos (8 * n)) % 2 ^ 32 ∧
          t.bitpos = e.bitpos + 8 * n ∧
          ∀ a, ctxGet t a = if ctx = some a then probUpdate p bit else ctxGet e a
      else ∃ t, Raises (getInstr .fpaq0 ⟨bit, ctx, 0⟩) s e .inputExhausted t

/-! ### Fpaq0 parallel -/

/-- R321, R322, R324, R325, R80: `fpaq0p.put` and `fpaq0p.put_bypass` (p = 128) on lane `l`: the serial step on that lane's
interval, its `n` equal leading bytes going to positions `(k + j) * N + l`. Every other lane and position is as it
was. PUT updates its context, and PUT_BYPASS none. -/
def Obligations.Fpaq0pPutExact : Prop :=
  ∀ (s : State) (e : Engine) (l : Nat) (b : Bool) (ctx : Option Nat), s.engine? = some e → EngineInv s.params e →
    Encoding .fpaq0p e → l < e.laneCount → (∀ c ∈ ctx, c < s.params.numCtx) →
    let p : Byte := ctx.elim 128 (ctxGet e)
    let r := laneEnc e l
    let mid := (fpaq0Mid r.low r.high p).toNat
    let lo := if b then mid + 1 else r.low.toNat
    let hi := if b then r.high.toNat else mid
    ∃ t n, Completes (putInstr .fpaq0p ⟨b, ctx, l⟩) s e .none t ∧ t.phase = .enc ∧ n ≤ 4 ∧
      lo / 256 ^ (4 - n) = hi / 256 ^ (4 - n) ∧
      (laneEnc t l).k = r.k + n ∧ (laneEnc t l).low.toNat = lo * 256 ^ n % 2 ^ 32 ∧
      (laneEnc t l).high.toNat = (hi * 256 ^ n + (256 ^ n - 1)) % 2 ^ 32 ∧
      topByte (laneEnc t l).low ≠ topByte (laneEnc t l).high ∧
      (∀ i, i ≠ l → laneEnc t i = laneEnc e i) ∧
      (∀ j, j < n → Memory.lookup ((r.k + j) * e.laneCount + l) t.slots =
        some (BitVec.ofNat 8 (hi / 256 ^ (3 - j)))) ∧
      (∀ a, (∀ j, j < n → a ≠ (r.k + j) * e.laneCount + l) → Memory.lookup a t.slots = Memory.lookup a e.slots) ∧
      ∀ a, ctxGet t a = if ctx = some a then probUpdate p b else ctxGet e a

/-- R326, R80: `fpaq0p.finish` outputs `N` times the longest lane's byte count, its four flush bytes included; position
`j * N + i` holds lane `i`'s byte `j`: one written before, then the four bytes of its `low`, then the padding 0x00. -/
def Obligations.Fpaq0pFinishLayout : Prop :=
  ∀ (s : State) (e : Engine), s.engine? = some e → EngineInv s.params e → Unbounded s.params → Encoding .fpaq0p e →
    let m := (e.lanesEnc.map LaneEnc.k).foldl max 0 + 4
    ∃ t out, Completes .fpaq0pFinish s e (.ofOut out) t ∧ t.phase = .finished ∧ t.readableOutput = some out ∧
      t.ctx = e.ctx ∧ out.length = e.laneCount * m ∧
      ∀ i j, i < e.laneCount → j < m →
        let r := laneEnc e i
        out[j * e.laneCount + i]? = some (if j < r.k then slotByte e (j * e.laneCount + i)
          else if j < r.k + 4 then BitVec.ofNat 8 (r.low.toNat / 256 ^ (3 - (j - r.k))) else 0)

/-- R328, R331, R332, R333, R81, R353: `fpaq0p.get` and `fpaq0p.get_bypass` (p = 128) on lane `l`: the serial step on that
lane's registers, the value taking `n` bytes from positions `(k + j) * N + l`. Every other lane is as it was. GET updates
its context, and GET_BYPASS none. In explicit-EOF mode with the last of those positions past the end of the input both
raise INPUT_EXHAUSTED instead. -/
def Obligations.Fpaq0pGetResult : Prop :=
  ∀ (s : State) (e : Engine) (l : Nat) (ctx : Option Nat), s.engine? = some e → EngineInv s.params e →
    Decoding .fpaq0p e → l < e.laneCount → (∀ c ∈ ctx, c < s.params.numCtx) →
    let r := laneDec e l
    let p : Byte := ctx.elim 128 (ctxGet e)
    let mid := (fpaq0Mid r.low r.high p).toNat
    let bit := decide (mid < r.value.toNat)
    let lo := if bit then mid + 1 else r.low.toNat
    let hi := if bit then r.high.toNat else mid
    let next := fun n : Nat =>
      bytesValue ((List.range n).map fun j => e.src.getD ((r.k + j) * e.laneCount + l) 0)
    ∃ n, EqualLeadingBytes lo hi n ∧
      if n = 0 ∨ e.eof = false ∨ (r.k + (n - 1)) * e.laneCount + l < e.src.length then
        ∃ t, Completes (getInstr .fpaq0p ⟨bit, ctx, l⟩) s e (.ofBit bit) t ∧ t.phase = .dec ∧
          (laneDec t l).k = r.k + n ∧ (laneDec t l).low.toNat = lo * 256 ^ n % 2 ^ 32 ∧
          (laneDec t l).high.toNat = (hi * 256 ^ n + (256 ^ n - 1)) % 2 ^ 32 ∧
          topByte (laneDec t l).low ≠ topByte (laneDec t l).high ∧
          (laneDec t l).value.toNat = (r.value.toNat * 256 ^ n + next n) % 2 ^ 32 ∧
          (∀ i, i ≠ l → laneDec t i = laneDec e i) ∧ t.bitpos = e.bitpos ∧
          ∀ a, ctxGet t a = if ctx = some a then probUpdate p bit else ctxGet e a
      else ∃ t, Raises (getInstr .fpaq0p ⟨bit, ctx, l⟩) s e .inputExhausted t

/-! ### Frames -/

/-- R34, R48, R391 and the rules of the encoder commands: whatever its outcome, an encoder command (PUT, PUT_BYPASS,
PUT_TERM, FINISH) changes only its own family's encoder registers, its own output stream, the context entry a PUT
names, the offers answered, and the phase, last error, command count and responses. (After an execution error the rest
is the model's choice: R360 lets a model keep the partial values or replace them, log entry 10.) -/
def Obligations.EncoderFrame : Prop :=
  ∀ (i : Instr) (s : State) (e : Engine) (t : State), s.engine? = some e → EngineInv s.params e →
    (i.op = .put ∨ i.op = .putBypass ∨ i.op = .putTerm ∨ i.op = .finish) → exec i s = .next t →
    ∃ u, t = s.withEngine u ∧
      (∀ a, ctxOperand i ≠ some a → ctxGet u a = ctxGet e a) ∧
      u = { e with
        phase := u.phase
        lastErr := u.lastErr
        cmdIndex := u.cmdIndex
        responses := u.responses
        ctx := u.ctx
        offers := if i.family = .rans ∧ i.op ≠ .finish then e.offers else u.offers
        sink := if i.family = .fpaq0p ∨ (i.family = .rans ∧ i.op ≠ .finish) then e.sink else u.sink
        slots := if i.family = .fpaq0p then u.slots else e.slots
        cabacEnc := if i.family = .cabac then u.cabacEnc else e.cabacEnc
        vp8Enc := if i.family = .vp8 then u.vp8Enc else e.vp8Enc
        ransEnc := if i.family = .rans then u.ransEnc else e.ransEnc
        fpaq0Enc := if i.family = .fpaq0 then u.fpaq0Enc else e.fpaq0Enc
        lanesEnc := if i.family = .fpaq0p then u.lanesEnc else e.lanesEnc }

/-- R34, R48, R76, R81 and the rules of the decoder commands: whatever its outcome, a decoder command (GET, GET_BYPASS,
GET_TERM) changes only its own family's decoder registers, the cursor of its input (not for FPAQ0P), the context entry
a GET names, and the phase, last error, command count and responses; the input bytes never. (After an execution error
the rest is the model's choice: R360 lets a model keep the partial values or replace them, log entry 10.) -/
def Obligations.DecoderFrame : Prop :=
  ∀ (i : Instr) (s : State) (e : Engine) (t : State), s.engine? = some e → EngineInv s.params e →
    (i.op = .get ∨ i.op = .getBypass ∨ i.op = .getTerm) → exec i s = .next t →
    ∃ u, t = s.withEngine u ∧
      (∀ a, ctxOperand i ≠ some a → ctxGet u a = ctxGet e a) ∧
      u = { e with
        phase := u.phase
        lastErr := u.lastErr
        cmdIndex := u.cmdIndex
        responses := u.responses
        ctx := u.ctx
        bitpos := if i.family = .fpaq0p then e.bitpos else u.bitpos
        cabacDec := if i.family = .cabac then u.cabacDec else e.cabacDec
        vp8Dec := if i.family = .vp8 then u.vp8Dec else e.vp8Dec
        ransDec := if i.family = .rans then u.ransDec else e.ransDec
        fpaq0Dec := if i.family = .fpaq0 then u.fpaq0Dec else e.fpaq0Dec
        lanesDec := if i.family = .fpaq0p then u.lanesDec else e.lanesDec }

/-! ### Invariants -/

/-- R52 and the invariants' premises: every engine after power-on meets the whole invariant. -/
def Obligations.PowerOnMeetsInvariant : Prop :=
  ∀ (p : Params) (e : Engine), e ∈ (State.powerOn p).engines → EngineInv p e

/-- R41, R42, R48, R153, R157: every step keeps every engine's context memory canonical, within `NUM_CTX`, and at
descriptors that updates can reach (CABAC never state 63; p never 0 and never above 225). -/
def Obligations.StepKeepsContexts : Prop :=
  ∀ s t : State, (∀ e ∈ s.engines, CtxInv s.params e) → step s = .next t → ∀ e ∈ t.engines, CtxInv t.params e

/-- R32 to R35, R121, R360: every step keeps the control registers consistent: direction and phase, N in 1 .. 128 and 1
outside FPAQ0P, no end-of-stream mode in an encoder, phase Faulted exactly when the last error is not OK. -/
def Obligations.StepKeepsSession : Prop :=
  ∀ s t : State, (∀ e ∈ s.engines, SessionInv e) → step s = .next t → ∀ e ∈ t.engines, SessionInv e

/-- R199, R36, R186: every step keeps the registers of a CABAC encoder session in bounds: `256 <= range <= 510`,
`low + range <= 1024`, 510 and an empty sink before the first PutBit, and the counter below 2^OUTSTANDING_W. -/
def Obligations.StepKeepsCabacEncoder : Prop :=
  ∀ s t : State, (∀ e ∈ s.engines, Encoding .cabac e → CabacEncInv s.params e) →
    step s = .next t → ∀ e ∈ t.engines, Encoding .cabac e → CabacEncInv t.params e

/-- R237, R39, R38, R232: every step keeps the registers of a VP8 session in bounds: `low + range <= 510 * 2^count` in an
encoder, tighter before the first byte is formed, the pending byte never 0xFF, the sink byte-aligned; and the range in
128 .. 255 in both directions. -/
def Obligations.StepKeepsVp8 : Prop :=
  ∀ s t : State,
    (∀ e ∈ s.engines, (Encoding .vp8 e → Vp8EncInv s.params e) ∧ (Decoding .vp8 e → Vp8DecInv e)) →
    step s = .next t →
    ∀ e ∈ t.engines, (Encoding .vp8 e → Vp8EncInv t.params e) ∧ (Decoding .vp8 e → Vp8DecInv e)

/-- R40, R43, R282, R284: every step keeps the rANS queue's probabilities in 1 .. 225 and its length within `RANS_QCAP`,
and a rANS decoder's cursor byte-aligned. The probabilities come from the contexts, whose invariant is a premise. -/
def Obligations.StepKeepsRans : Prop :=
  ∀ s t : State,
    (∀ e ∈ s.engines, CtxInv s.params e ∧ (Encoding .rans e → RansEncInv s.params e) ∧
      (Decoding .rans e → e.bitpos % 8 = 0)) →
    step s = .next t →
    ∀ e ∈ t.engines, (Encoding .rans e → RansEncInv t.params e) ∧ (Decoding .rans e → e.bitpos % 8 = 0)

/-- R304, R303, R316, R44, R45: every step keeps `low <= high` with different top bytes in a serial Fpaq0 session of
either direction, and its stream byte-aligned. -/
def Obligations.StepKeepsFpaq0 : Prop :=
  ∀ s t : State,
    (∀ e ∈ s.engines,
      (Encoding .fpaq0 e → IntervalInv e.fpaq0Enc.low e.fpaq0Enc.high ∧ e.sink.length % 8 = 0) ∧
      (Decoding .fpaq0 e → IntervalInv e.fpaq0Dec.low e.fpaq0Dec.high ∧ e.bitpos % 8 = 0)) →
    step s = .next t →
    ∀ e ∈ t.engines,
      (Encoding .fpaq0 e → IntervalInv e.fpaq0Enc.low e.fpaq0Enc.high ∧ e.sink.length % 8 = 0) ∧
      (Decoding .fpaq0 e → IntervalInv e.fpaq0Dec.low e.fpaq0Dec.high ∧ e.bitpos % 8 = 0)

/-- R46, R47, R80, R321, R322: every step keeps one register set a lane, each with a good interval, in an FPAQ0P session
of either direction, and in an encoder the slot buffer written at exactly the positions the lanes' counters say. -/
def Obligations.StepKeepsLanes : Prop :=
  ∀ s t : State,
    (∀ e ∈ s.engines, SessionInv e ∧ (Encoding .fpaq0p e → LanesEncInv e) ∧
      (Decoding .fpaq0p e → LanesDecInv e)) →
    step s = .next t →
    ∀ e ∈ t.engines, (Encoding .fpaq0p e → LanesEncInv e) ∧ (Decoding .fpaq0p e → LanesDecInv e)

/-! ### Round trips -/

/-- R287, R288: rANS sessions round-trip, and a matched decode reads no byte past the end. -/
def Obligations.RansRoundTrip : Prop := RoundTrips .rans 1

/-- R315, R319: serial Fpaq0 sessions round-trip, and a matched decode reads no byte past the end. -/
def Obligations.Fpaq0RoundTrip : Prop := RoundTrips .fpaq0 1

/-- R246, R249: VP8 sessions round-trip, and a matched decode reads no bit past the end. -/
def Obligations.Vp8RoundTrip : Prop := RoundTrips .vp8 1

/-- R215, R216: CABAC sessions round-trip, and a matched decode reads no bit past the end. -/
def Obligations.CabacRoundTrip : Prop := RoundTrips .cabac 1

/-- R334: FPAQ0P sessions round-trip with any number of lanes and any balance of their lengths, and a matched decode reads
no position past the end. -/
def Obligations.Fpaq0pRoundTrip : Prop := ∀ n, 1 ≤ n → n ≤ 128 → RoundTrips .fpaq0p n
end

