-- ==== Sys2Proof/Laws/State.lean ====
section
/-! SUPPORT. What each update of State and of an engine does to each field. -/

namespace Sys2Proof.Machine

@[simp] theorem Engine.setPhase_id (e : Engine) (v : Phase) : (e.setPhase v).id = e.id := rfl
@[simp] theorem Engine.setPhase_phase (e : Engine) (v : Phase) : (e.setPhase v).phase = v := rfl
@[simp] theorem Engine.setPhase_cmdIndex (e : Engine) (v : Phase) : (e.setPhase v).cmdIndex = e.cmdIndex := rfl
@[simp] theorem Engine.setPhase_fam (e : Engine) (v : Phase) : (e.setPhase v).fam = e.fam := rfl
@[simp] theorem Engine.setPhase_dir (e : Engine) (v : Phase) : (e.setPhase v).dir = e.dir := rfl
@[simp] theorem Engine.setPhase_laneCount (e : Engine) (v : Phase) : (e.setPhase v).laneCount = e.laneCount := rfl
@[simp] theorem Engine.setPhase_eof (e : Engine) (v : Phase) : (e.setPhase v).eof = e.eof := rfl
@[simp] theorem Engine.setPhase_lastErr (e : Engine) (v : Phase) : (e.setPhase v).lastErr = e.lastErr := rfl
@[simp] theorem Engine.setPhase_cabacEnc (e : Engine) (v : Phase) : (e.setPhase v).cabacEnc = e.cabacEnc := rfl
@[simp] theorem Engine.setPhase_cabacDec (e : Engine) (v : Phase) : (e.setPhase v).cabacDec = e.cabacDec := rfl
@[simp] theorem Engine.setPhase_vp8Enc (e : Engine) (v : Phase) : (e.setPhase v).vp8Enc = e.vp8Enc := rfl
@[simp] theorem Engine.setPhase_vp8Dec (e : Engine) (v : Phase) : (e.setPhase v).vp8Dec = e.vp8Dec := rfl
@[simp] theorem Engine.setPhase_ransEnc (e : Engine) (v : Phase) : (e.setPhase v).ransEnc = e.ransEnc := rfl
@[simp] theorem Engine.setPhase_ransDec (e : Engine) (v : Phase) : (e.setPhase v).ransDec = e.ransDec := rfl
@[simp] theorem Engine.setPhase_fpaq0Enc (e : Engine) (v : Phase) : (e.setPhase v).fpaq0Enc = e.fpaq0Enc := rfl
@[simp] theorem Engine.setPhase_fpaq0Dec (e : Engine) (v : Phase) : (e.setPhase v).fpaq0Dec = e.fpaq0Dec := rfl
@[simp] theorem Engine.setPhase_lanesEnc (e : Engine) (v : Phase) : (e.setPhase v).lanesEnc = e.lanesEnc := rfl
@[simp] theorem Engine.setPhase_lanesDec (e : Engine) (v : Phase) : (e.setPhase v).lanesDec = e.lanesDec := rfl
@[simp] theorem Engine.setPhase_ctx (e : Engine) (v : Phase) : (e.setPhase v).ctx = e.ctx := rfl
@[simp] theorem Engine.setPhase_sink (e : Engine) (v : Phase) : (e.setPhase v).sink = e.sink := rfl
@[simp] theorem Engine.setPhase_slots (e : Engine) (v : Phase) : (e.setPhase v).slots = e.slots := rfl
@[simp] theorem Engine.setPhase_src (e : Engine) (v : Phase) : (e.setPhase v).src = e.src := rfl
@[simp] theorem Engine.setPhase_bitpos (e : Engine) (v : Phase) : (e.setPhase v).bitpos = e.bitpos := rfl
@[simp] theorem Engine.setPhase_staged (e : Engine) (v : Phase) : (e.setPhase v).staged = e.staged := rfl
@[simp] theorem Engine.setPhase_offers (e : Engine) (v : Phase) : (e.setPhase v).offers = e.offers := rfl
@[simp] theorem Engine.setPhase_responses (e : Engine) (v : Phase) : (e.setPhase v).responses = e.responses := rfl

@[simp] theorem Engine.setCmdIndex_id (e : Engine) (v : Nat) : (e.setCmdIndex v).id = e.id := rfl
@[simp] theorem Engine.setCmdIndex_phase (e : Engine) (v : Nat) : (e.setCmdIndex v).phase = e.phase := rfl
@[simp] theorem Engine.setCmdIndex_cmdIndex (e : Engine) (v : Nat) : (e.setCmdIndex v).cmdIndex = v := rfl
@[simp] theorem Engine.setCmdIndex_fam (e : Engine) (v : Nat) : (e.setCmdIndex v).fam = e.fam := rfl
@[simp] theorem Engine.setCmdIndex_dir (e : Engine) (v : Nat) : (e.setCmdIndex v).dir = e.dir := rfl
@[simp] theorem Engine.setCmdIndex_laneCount (e : Engine) (v : Nat) : (e.setCmdIndex v).laneCount = e.laneCount := rfl
@[simp] theorem Engine.setCmdIndex_eof (e : Engine) (v : Nat) : (e.setCmdIndex v).eof = e.eof := rfl
@[simp] theorem Engine.setCmdIndex_lastErr (e : Engine) (v : Nat) : (e.setCmdIndex v).lastErr = e.lastErr := rfl
@[simp] theorem Engine.setCmdIndex_cabacEnc (e : Engine) (v : Nat) : (e.setCmdIndex v).cabacEnc = e.cabacEnc := rfl
@[simp] theorem Engine.setCmdIndex_cabacDec (e : Engine) (v : Nat) : (e.setCmdIndex v).cabacDec = e.cabacDec := rfl
@[simp] theorem Engine.setCmdIndex_vp8Enc (e : Engine) (v : Nat) : (e.setCmdIndex v).vp8Enc = e.vp8Enc := rfl
@[simp] theorem Engine.setCmdIndex_vp8Dec (e : Engine) (v : Nat) : (e.setCmdIndex v).vp8Dec = e.vp8Dec := rfl
@[simp] theorem Engine.setCmdIndex_ransEnc (e : Engine) (v : Nat) : (e.setCmdIndex v).ransEnc = e.ransEnc := rfl
@[simp] theorem Engine.setCmdIndex_ransDec (e : Engine) (v : Nat) : (e.setCmdIndex v).ransDec = e.ransDec := rfl
@[simp] theorem Engine.setCmdIndex_fpaq0Enc (e : Engine) (v : Nat) : (e.setCmdIndex v).fpaq0Enc = e.fpaq0Enc := rfl
@[simp] theorem Engine.setCmdIndex_fpaq0Dec (e : Engine) (v : Nat) : (e.setCmdIndex v).fpaq0Dec = e.fpaq0Dec := rfl
@[simp] theorem Engine.setCmdIndex_lanesEnc (e : Engine) (v : Nat) : (e.setCmdIndex v).lanesEnc = e.lanesEnc := rfl
@[simp] theorem Engine.setCmdIndex_lanesDec (e : Engine) (v : Nat) : (e.setCmdIndex v).lanesDec = e.lanesDec := rfl
@[simp] theorem Engine.setCmdIndex_ctx (e : Engine) (v : Nat) : (e.setCmdIndex v).ctx = e.ctx := rfl
@[simp] theorem Engine.setCmdIndex_sink (e : Engine) (v : Nat) : (e.setCmdIndex v).sink = e.sink := rfl
@[simp] theorem Engine.setCmdIndex_slots (e : Engine) (v : Nat) : (e.setCmdIndex v).slots = e.slots := rfl
@[simp] theorem Engine.setCmdIndex_src (e : Engine) (v : Nat) : (e.setCmdIndex v).src = e.src := rfl
@[simp] theorem Engine.setCmdIndex_bitpos (e : Engine) (v : Nat) : (e.setCmdIndex v).bitpos = e.bitpos := rfl
@[simp] theorem Engine.setCmdIndex_staged (e : Engine) (v : Nat) : (e.setCmdIndex v).staged = e.staged := rfl
@[simp] theorem Engine.setCmdIndex_offers (e : Engine) (v : Nat) : (e.setCmdIndex v).offers = e.offers := rfl
@[simp] theorem Engine.setCmdIndex_responses (e : Engine) (v : Nat) : (e.setCmdIndex v).responses = e.responses := rfl

@[simp] theorem Engine.setFam_id (e : Engine) (v : Family) : (e.setFam v).id = e.id := rfl
@[simp] theorem Engine.setFam_phase (e : Engine) (v : Family) : (e.setFam v).phase = e.phase := rfl
@[simp] theorem Engine.setFam_cmdIndex (e : Engine) (v : Family) : (e.setFam v).cmdIndex = e.cmdIndex := rfl
@[simp] theorem Engine.setFam_fam (e : Engine) (v : Family) : (e.setFam v).fam = v := rfl
@[simp] theorem Engine.setFam_dir (e : Engine) (v : Family) : (e.setFam v).dir = e.dir := rfl
@[simp] theorem Engine.setFam_laneCount (e : Engine) (v : Family) : (e.setFam v).laneCount = e.laneCount := rfl
@[simp] theorem Engine.setFam_eof (e : Engine) (v : Family) : (e.setFam v).eof = e.eof := rfl
@[simp] theorem Engine.setFam_lastErr (e : Engine) (v : Family) : (e.setFam v).lastErr = e.lastErr := rfl
@[simp] theorem Engine.setFam_cabacEnc (e : Engine) (v : Family) : (e.setFam v).cabacEnc = e.cabacEnc := rfl
@[simp] theorem Engine.setFam_cabacDec (e : Engine) (v : Family) : (e.setFam v).cabacDec = e.cabacDec := rfl
@[simp] theorem Engine.setFam_vp8Enc (e : Engine) (v : Family) : (e.setFam v).vp8Enc = e.vp8Enc := rfl
@[simp] theorem Engine.setFam_vp8Dec (e : Engine) (v : Family) : (e.setFam v).vp8Dec = e.vp8Dec := rfl
@[simp] theorem Engine.setFam_ransEnc (e : Engine) (v : Family) : (e.setFam v).ransEnc = e.ransEnc := rfl
@[simp] theorem Engine.setFam_ransDec (e : Engine) (v : Family) : (e.setFam v).ransDec = e.ransDec := rfl
@[simp] theorem Engine.setFam_fpaq0Enc (e : Engine) (v : Family) : (e.setFam v).fpaq0Enc = e.fpaq0Enc := rfl
@[simp] theorem Engine.setFam_fpaq0Dec (e : Engine) (v : Family) : (e.setFam v).fpaq0Dec = e.fpaq0Dec := rfl
@[simp] theorem Engine.setFam_lanesEnc (e : Engine) (v : Family) : (e.setFam v).lanesEnc = e.lanesEnc := rfl
@[simp] theorem Engine.setFam_lanesDec (e : Engine) (v : Family) : (e.setFam v).lanesDec = e.lanesDec := rfl
@[simp] theorem Engine.setFam_ctx (e : Engine) (v : Family) : (e.setFam v).ctx = e.ctx := rfl
@[simp] theorem Engine.setFam_sink (e : Engine) (v : Family) : (e.setFam v).sink = e.sink := rfl
@[simp] theorem Engine.setFam_slots (e : Engine) (v : Family) : (e.setFam v).slots = e.slots := rfl
@[simp] theorem Engine.setFam_src (e : Engine) (v : Family) : (e.setFam v).src = e.src := rfl
@[simp] theorem Engine.setFam_bitpos (e : Engine) (v : Family) : (e.setFam v).bitpos = e.bitpos := rfl
@[simp] theorem Engine.setFam_staged (e : Engine) (v : Family) : (e.setFam v).staged = e.staged := rfl
@[simp] theorem Engine.setFam_offers (e : Engine) (v : Family) : (e.setFam v).offers = e.offers := rfl
@[simp] theorem Engine.setFam_responses (e : Engine) (v : Family) : (e.setFam v).responses = e.responses := rfl

@[simp] theorem Engine.setDir_id (e : Engine) (v : Dir) : (e.setDir v).id = e.id := rfl
@[simp] theorem Engine.setDir_phase (e : Engine) (v : Dir) : (e.setDir v).phase = e.phase := rfl
@[simp] theorem Engine.setDir_cmdIndex (e : Engine) (v : Dir) : (e.setDir v).cmdIndex = e.cmdIndex := rfl
@[simp] theorem Engine.setDir_fam (e : Engine) (v : Dir) : (e.setDir v).fam = e.fam := rfl
@[simp] theorem Engine.setDir_dir (e : Engine) (v : Dir) : (e.setDir v).dir = v := rfl
@[simp] theorem Engine.setDir_laneCount (e : Engine) (v : Dir) : (e.setDir v).laneCount = e.laneCount := rfl
@[simp] theorem Engine.setDir_eof (e : Engine) (v : Dir) : (e.setDir v).eof = e.eof := rfl
@[simp] theorem Engine.setDir_lastErr (e : Engine) (v : Dir) : (e.setDir v).lastErr = e.lastErr := rfl
@[simp] theorem Engine.setDir_cabacEnc (e : Engine) (v : Dir) : (e.setDir v).cabacEnc = e.cabacEnc := rfl
@[simp] theorem Engine.setDir_cabacDec (e : Engine) (v : Dir) : (e.setDir v).cabacDec = e.cabacDec := rfl
@[simp] theorem Engine.setDir_vp8Enc (e : Engine) (v : Dir) : (e.setDir v).vp8Enc = e.vp8Enc := rfl
@[simp] theorem Engine.setDir_vp8Dec (e : Engine) (v : Dir) : (e.setDir v).vp8Dec = e.vp8Dec := rfl
@[simp] theorem Engine.setDir_ransEnc (e : Engine) (v : Dir) : (e.setDir v).ransEnc = e.ransEnc := rfl
@[simp] theorem Engine.setDir_ransDec (e : Engine) (v : Dir) : (e.setDir v).ransDec = e.ransDec := rfl
@[simp] theorem Engine.setDir_fpaq0Enc (e : Engine) (v : Dir) : (e.setDir v).fpaq0Enc = e.fpaq0Enc := rfl
@[simp] theorem Engine.setDir_fpaq0Dec (e : Engine) (v : Dir) : (e.setDir v).fpaq0Dec = e.fpaq0Dec := rfl
@[simp] theorem Engine.setDir_lanesEnc (e : Engine) (v : Dir) : (e.setDir v).lanesEnc = e.lanesEnc := rfl
@[simp] theorem Engine.setDir_lanesDec (e : Engine) (v : Dir) : (e.setDir v).lanesDec = e.lanesDec := rfl
@[simp] theorem Engine.setDir_ctx (e : Engine) (v : Dir) : (e.setDir v).ctx = e.ctx := rfl
@[simp] theorem Engine.setDir_sink (e : Engine) (v : Dir) : (e.setDir v).sink = e.sink := rfl
@[simp] theorem Engine.setDir_slots (e : Engine) (v : Dir) : (e.setDir v).slots = e.slots := rfl
@[simp] theorem Engine.setDir_src (e : Engine) (v : Dir) : (e.setDir v).src = e.src := rfl
@[simp] theorem Engine.setDir_bitpos (e : Engine) (v : Dir) : (e.setDir v).bitpos = e.bitpos := rfl
@[simp] theorem Engine.setDir_staged (e : Engine) (v : Dir) : (e.setDir v).staged = e.staged := rfl
@[simp] theorem Engine.setDir_offers (e : Engine) (v : Dir) : (e.setDir v).offers = e.offers := rfl
@[simp] theorem Engine.setDir_responses (e : Engine) (v : Dir) : (e.setDir v).responses = e.responses := rfl

@[simp] theorem Engine.setLaneCount_id (e : Engine) (v : Nat) : (e.setLaneCount v).id = e.id := rfl
@[simp] theorem Engine.setLaneCount_phase (e : Engine) (v : Nat) : (e.setLaneCount v).phase = e.phase := rfl
@[simp] theorem Engine.setLaneCount_cmdIndex (e : Engine) (v : Nat) : (e.setLaneCount v).cmdIndex = e.cmdIndex := rfl
@[simp] theorem Engine.setLaneCount_fam (e : Engine) (v : Nat) : (e.setLaneCount v).fam = e.fam := rfl
@[simp] theorem Engine.setLaneCount_dir (e : Engine) (v : Nat) : (e.setLaneCount v).dir = e.dir := rfl
@[simp] theorem Engine.setLaneCount_laneCount (e : Engine) (v : Nat) : (e.setLaneCount v).laneCount = v := rfl
@[simp] theorem Engine.setLaneCount_eof (e : Engine) (v : Nat) : (e.setLaneCount v).eof = e.eof := rfl
@[simp] theorem Engine.setLaneCount_lastErr (e : Engine) (v : Nat) : (e.setLaneCount v).lastErr = e.lastErr := rfl
@[simp] theorem Engine.setLaneCount_cabacEnc (e : Engine) (v : Nat) : (e.setLaneCount v).cabacEnc = e.cabacEnc := rfl
@[simp] theorem Engine.setLaneCount_cabacDec (e : Engine) (v : Nat) : (e.setLaneCount v).cabacDec = e.cabacDec := rfl
@[simp] theorem Engine.setLaneCount_vp8Enc (e : Engine) (v : Nat) : (e.setLaneCount v).vp8Enc = e.vp8Enc := rfl
@[simp] theorem Engine.setLaneCount_vp8Dec (e : Engine) (v : Nat) : (e.setLaneCount v).vp8Dec = e.vp8Dec := rfl
@[simp] theorem Engine.setLaneCount_ransEnc (e : Engine) (v : Nat) : (e.setLaneCount v).ransEnc = e.ransEnc := rfl
@[simp] theorem Engine.setLaneCount_ransDec (e : Engine) (v : Nat) : (e.setLaneCount v).ransDec = e.ransDec := rfl
@[simp] theorem Engine.setLaneCount_fpaq0Enc (e : Engine) (v : Nat) : (e.setLaneCount v).fpaq0Enc = e.fpaq0Enc := rfl
@[simp] theorem Engine.setLaneCount_fpaq0Dec (e : Engine) (v : Nat) : (e.setLaneCount v).fpaq0Dec = e.fpaq0Dec := rfl
@[simp] theorem Engine.setLaneCount_lanesEnc (e : Engine) (v : Nat) : (e.setLaneCount v).lanesEnc = e.lanesEnc := rfl
@[simp] theorem Engine.setLaneCount_lanesDec (e : Engine) (v : Nat) : (e.setLaneCount v).lanesDec = e.lanesDec := rfl
@[simp] theorem Engine.setLaneCount_ctx (e : Engine) (v : Nat) : (e.setLaneCount v).ctx = e.ctx := rfl
@[simp] theorem Engine.setLaneCount_sink (e : Engine) (v : Nat) : (e.setLaneCount v).sink = e.sink := rfl
@[simp] theorem Engine.setLaneCount_slots (e : Engine) (v : Nat) : (e.setLaneCount v).slots = e.slots := rfl
@[simp] theorem Engine.setLaneCount_src (e : Engine) (v : Nat) : (e.setLaneCount v).src = e.src := rfl
@[simp] theorem Engine.setLaneCount_bitpos (e : Engine) (v : Nat) : (e.setLaneCount v).bitpos = e.bitpos := rfl
@[simp] theorem Engine.setLaneCount_staged (e : Engine) (v : Nat) : (e.setLaneCount v).staged = e.staged := rfl
@[simp] theorem Engine.setLaneCount_offers (e : Engine) (v : Nat) : (e.setLaneCount v).offers = e.offers := rfl
@[simp] theorem Engine.setLaneCount_responses (e : Engine) (v : Nat) : (e.setLaneCount v).responses = e.responses := rfl

@[simp] theorem Engine.setEof_id (e : Engine) (v : Bool) : (e.setEof v).id = e.id := rfl
@[simp] theorem Engine.setEof_phase (e : Engine) (v : Bool) : (e.setEof v).phase = e.phase := rfl
@[simp] theorem Engine.setEof_cmdIndex (e : Engine) (v : Bool) : (e.setEof v).cmdIndex = e.cmdIndex := rfl
@[simp] theorem Engine.setEof_fam (e : Engine) (v : Bool) : (e.setEof v).fam = e.fam := rfl
@[simp] theorem Engine.setEof_dir (e : Engine) (v : Bool) : (e.setEof v).dir = e.dir := rfl
@[simp] theorem Engine.setEof_laneCount (e : Engine) (v : Bool) : (e.setEof v).laneCount = e.laneCount := rfl
@[simp] theorem Engine.setEof_eof (e : Engine) (v : Bool) : (e.setEof v).eof = v := rfl
@[simp] theorem Engine.setEof_lastErr (e : Engine) (v : Bool) : (e.setEof v).lastErr = e.lastErr := rfl
@[simp] theorem Engine.setEof_cabacEnc (e : Engine) (v : Bool) : (e.setEof v).cabacEnc = e.cabacEnc := rfl
@[simp] theorem Engine.setEof_cabacDec (e : Engine) (v : Bool) : (e.setEof v).cabacDec = e.cabacDec := rfl
@[simp] theorem Engine.setEof_vp8Enc (e : Engine) (v : Bool) : (e.setEof v).vp8Enc = e.vp8Enc := rfl
@[simp] theorem Engine.setEof_vp8Dec (e : Engine) (v : Bool) : (e.setEof v).vp8Dec = e.vp8Dec := rfl
@[simp] theorem Engine.setEof_ransEnc (e : Engine) (v : Bool) : (e.setEof v).ransEnc = e.ransEnc := rfl
@[simp] theorem Engine.setEof_ransDec (e : Engine) (v : Bool) : (e.setEof v).ransDec = e.ransDec := rfl
@[simp] theorem Engine.setEof_fpaq0Enc (e : Engine) (v : Bool) : (e.setEof v).fpaq0Enc = e.fpaq0Enc := rfl
@[simp] theorem Engine.setEof_fpaq0Dec (e : Engine) (v : Bool) : (e.setEof v).fpaq0Dec = e.fpaq0Dec := rfl
@[simp] theorem Engine.setEof_lanesEnc (e : Engine) (v : Bool) : (e.setEof v).lanesEnc = e.lanesEnc := rfl
@[simp] theorem Engine.setEof_lanesDec (e : Engine) (v : Bool) : (e.setEof v).lanesDec = e.lanesDec := rfl
@[simp] theorem Engine.setEof_ctx (e : Engine) (v : Bool) : (e.setEof v).ctx = e.ctx := rfl
@[simp] theorem Engine.setEof_sink (e : Engine) (v : Bool) : (e.setEof v).sink = e.sink := rfl
@[simp] theorem Engine.setEof_slots (e : Engine) (v : Bool) : (e.setEof v).slots = e.slots := rfl
@[simp] theorem Engine.setEof_src (e : Engine) (v : Bool) : (e.setEof v).src = e.src := rfl
@[simp] theorem Engine.setEof_bitpos (e : Engine) (v : Bool) : (e.setEof v).bitpos = e.bitpos := rfl
@[simp] theorem Engine.setEof_staged (e : Engine) (v : Bool) : (e.setEof v).staged = e.staged := rfl
@[simp] theorem Engine.setEof_offers (e : Engine) (v : Bool) : (e.setEof v).offers = e.offers := rfl
@[simp] theorem Engine.setEof_responses (e : Engine) (v : Bool) : (e.setEof v).responses = e.responses := rfl

@[simp] theorem Engine.setLastErr_id (e : Engine) (v : Status) : (e.setLastErr v).id = e.id := rfl
@[simp] theorem Engine.setLastErr_phase (e : Engine) (v : Status) : (e.setLastErr v).phase = e.phase := rfl
@[simp] theorem Engine.setLastErr_cmdIndex (e : Engine) (v : Status) : (e.setLastErr v).cmdIndex = e.cmdIndex := rfl
@[simp] theorem Engine.setLastErr_fam (e : Engine) (v : Status) : (e.setLastErr v).fam = e.fam := rfl
@[simp] theorem Engine.setLastErr_dir (e : Engine) (v : Status) : (e.setLastErr v).dir = e.dir := rfl
@[simp] theorem Engine.setLastErr_laneCount (e : Engine) (v : Status) : (e.setLastErr v).laneCount = e.laneCount := rfl
@[simp] theorem Engine.setLastErr_eof (e : Engine) (v : Status) : (e.setLastErr v).eof = e.eof := rfl
@[simp] theorem Engine.setLastErr_lastErr (e : Engine) (v : Status) : (e.setLastErr v).lastErr = v := rfl
@[simp] theorem Engine.setLastErr_cabacEnc (e : Engine) (v : Status) : (e.setLastErr v).cabacEnc = e.cabacEnc := rfl
@[simp] theorem Engine.setLastErr_cabacDec (e : Engine) (v : Status) : (e.setLastErr v).cabacDec = e.cabacDec := rfl
@[simp] theorem Engine.setLastErr_vp8Enc (e : Engine) (v : Status) : (e.setLastErr v).vp8Enc = e.vp8Enc := rfl
@[simp] theorem Engine.setLastErr_vp8Dec (e : Engine) (v : Status) : (e.setLastErr v).vp8Dec = e.vp8Dec := rfl
@[simp] theorem Engine.setLastErr_ransEnc (e : Engine) (v : Status) : (e.setLastErr v).ransEnc = e.ransEnc := rfl
@[simp] theorem Engine.setLastErr_ransDec (e : Engine) (v : Status) : (e.setLastErr v).ransDec = e.ransDec := rfl
@[simp] theorem Engine.setLastErr_fpaq0Enc (e : Engine) (v : Status) : (e.setLastErr v).fpaq0Enc = e.fpaq0Enc := rfl
@[simp] theorem Engine.setLastErr_fpaq0Dec (e : Engine) (v : Status) : (e.setLastErr v).fpaq0Dec = e.fpaq0Dec := rfl
@[simp] theorem Engine.setLastErr_lanesEnc (e : Engine) (v : Status) : (e.setLastErr v).lanesEnc = e.lanesEnc := rfl
@[simp] theorem Engine.setLastErr_lanesDec (e : Engine) (v : Status) : (e.setLastErr v).lanesDec = e.lanesDec := rfl
@[simp] theorem Engine.setLastErr_ctx (e : Engine) (v : Status) : (e.setLastErr v).ctx = e.ctx := rfl
@[simp] theorem Engine.setLastErr_sink (e : Engine) (v : Status) : (e.setLastErr v).sink = e.sink := rfl
@[simp] theorem Engine.setLastErr_slots (e : Engine) (v : Status) : (e.setLastErr v).slots = e.slots := rfl
@[simp] theorem Engine.setLastErr_src (e : Engine) (v : Status) : (e.setLastErr v).src = e.src := rfl
@[simp] theorem Engine.setLastErr_bitpos (e : Engine) (v : Status) : (e.setLastErr v).bitpos = e.bitpos := rfl
@[simp] theorem Engine.setLastErr_staged (e : Engine) (v : Status) : (e.setLastErr v).staged = e.staged := rfl
@[simp] theorem Engine.setLastErr_offers (e : Engine) (v : Status) : (e.setLastErr v).offers = e.offers := rfl
@[simp] theorem Engine.setLastErr_responses (e : Engine) (v : Status) : (e.setLastErr v).responses = e.responses := rfl

@[simp] theorem Engine.setCabacEnc_id (e : Engine) (v : CabacEnc) : (e.setCabacEnc v).id = e.id := rfl
@[simp] theorem Engine.setCabacEnc_phase (e : Engine) (v : CabacEnc) : (e.setCabacEnc v).phase = e.phase := rfl
@[simp] theorem Engine.setCabacEnc_cmdIndex (e : Engine) (v : CabacEnc) : (e.setCabacEnc v).cmdIndex = e.cmdIndex := rfl
@[simp] theorem Engine.setCabacEnc_fam (e : Engine) (v : CabacEnc) : (e.setCabacEnc v).fam = e.fam := rfl
@[simp] theorem Engine.setCabacEnc_dir (e : Engine) (v : CabacEnc) : (e.setCabacEnc v).dir = e.dir := rfl
@[simp] theorem Engine.setCabacEnc_laneCount (e : Engine) (v : CabacEnc) : (e.setCabacEnc v).laneCount = e.laneCount := rfl
@[simp] theorem Engine.setCabacEnc_eof (e : Engine) (v : CabacEnc) : (e.setCabacEnc v).eof = e.eof := rfl
@[simp] theorem Engine.setCabacEnc_lastErr (e : Engine) (v : CabacEnc) : (e.setCabacEnc v).lastErr = e.lastErr := rfl
@[simp] theorem Engine.setCabacEnc_cabacEnc (e : Engine) (v : CabacEnc) : (e.setCabacEnc v).cabacEnc = v := rfl
@[simp] theorem Engine.setCabacEnc_cabacDec (e : Engine) (v : CabacEnc) : (e.setCabacEnc v).cabacDec = e.cabacDec := rfl
@[simp] theorem Engine.setCabacEnc_vp8Enc (e : Engine) (v : CabacEnc) : (e.setCabacEnc v).vp8Enc = e.vp8Enc := rfl
@[simp] theorem Engine.setCabacEnc_vp8Dec (e : Engine) (v : CabacEnc) : (e.setCabacEnc v).vp8Dec = e.vp8Dec := rfl
@[simp] theorem Engine.setCabacEnc_ransEnc (e : Engine) (v : CabacEnc) : (e.setCabacEnc v).ransEnc = e.ransEnc := rfl
@[simp] theorem Engine.setCabacEnc_ransDec (e : Engine) (v : CabacEnc) : (e.setCabacEnc v).ransDec = e.ransDec := rfl
@[simp] theorem Engine.setCabacEnc_fpaq0Enc (e : Engine) (v : CabacEnc) : (e.setCabacEnc v).fpaq0Enc = e.fpaq0Enc := rfl
@[simp] theorem Engine.setCabacEnc_fpaq0Dec (e : Engine) (v : CabacEnc) : (e.setCabacEnc v).fpaq0Dec = e.fpaq0Dec := rfl
@[simp] theorem Engine.setCabacEnc_lanesEnc (e : Engine) (v : CabacEnc) : (e.setCabacEnc v).lanesEnc = e.lanesEnc := rfl
@[simp] theorem Engine.setCabacEnc_lanesDec (e : Engine) (v : CabacEnc) : (e.setCabacEnc v).lanesDec = e.lanesDec := rfl
@[simp] theorem Engine.setCabacEnc_ctx (e : Engine) (v : CabacEnc) : (e.setCabacEnc v).ctx = e.ctx := rfl
@[simp] theorem Engine.setCabacEnc_sink (e : Engine) (v : CabacEnc) : (e.setCabacEnc v).sink = e.sink := rfl
@[simp] theorem Engine.setCabacEnc_slots (e : Engine) (v : CabacEnc) : (e.setCabacEnc v).slots = e.slots := rfl
@[simp] theorem Engine.setCabacEnc_src (e : Engine) (v : CabacEnc) : (e.setCabacEnc v).src = e.src := rfl
@[simp] theorem Engine.setCabacEnc_bitpos (e : Engine) (v : CabacEnc) : (e.setCabacEnc v).bitpos = e.bitpos := rfl
@[simp] theorem Engine.setCabacEnc_staged (e : Engine) (v : CabacEnc) : (e.setCabacEnc v).staged = e.staged := rfl
@[simp] theorem Engine.setCabacEnc_offers (e : Engine) (v : CabacEnc) : (e.setCabacEnc v).offers = e.offers := rfl
@[simp] theorem Engine.setCabacEnc_responses (e : Engine) (v : CabacEnc) : (e.setCabacEnc v).responses = e.responses := rfl

@[simp] theorem Engine.setCabacDec_id (e : Engine) (v : CabacDec) : (e.setCabacDec v).id = e.id := rfl
@[simp] theorem Engine.setCabacDec_phase (e : Engine) (v : CabacDec) : (e.setCabacDec v).phase = e.phase := rfl
@[simp] theorem Engine.setCabacDec_cmdIndex (e : Engine) (v : CabacDec) : (e.setCabacDec v).cmdIndex = e.cmdIndex := rfl
@[simp] theorem Engine.setCabacDec_fam (e : Engine) (v : CabacDec) : (e.setCabacDec v).fam = e.fam := rfl
@[simp] theorem Engine.setCabacDec_dir (e : Engine) (v : CabacDec) : (e.setCabacDec v).dir = e.dir := rfl
@[simp] theorem Engine.setCabacDec_laneCount (e : Engine) (v : CabacDec) : (e.setCabacDec v).laneCount = e.laneCount := rfl
@[simp] theorem Engine.setCabacDec_eof (e : Engine) (v : CabacDec) : (e.setCabacDec v).eof = e.eof := rfl
@[simp] theorem Engine.setCabacDec_lastErr (e : Engine) (v : CabacDec) : (e.setCabacDec v).lastErr = e.lastErr := rfl
@[simp] theorem Engine.setCabacDec_cabacEnc (e : Engine) (v : CabacDec) : (e.setCabacDec v).cabacEnc = e.cabacEnc := rfl
@[simp] theorem Engine.setCabacDec_cabacDec (e : Engine) (v : CabacDec) : (e.setCabacDec v).cabacDec = v := rfl
@[simp] theorem Engine.setCabacDec_vp8Enc (e : Engine) (v : CabacDec) : (e.setCabacDec v).vp8Enc = e.vp8Enc := rfl
@[simp] theorem Engine.setCabacDec_vp8Dec (e : Engine) (v : CabacDec) : (e.setCabacDec v).vp8Dec = e.vp8Dec := rfl
@[simp] theorem Engine.setCabacDec_ransEnc (e : Engine) (v : CabacDec) : (e.setCabacDec v).ransEnc = e.ransEnc := rfl
@[simp] theorem Engine.setCabacDec_ransDec (e : Engine) (v : CabacDec) : (e.setCabacDec v).ransDec = e.ransDec := rfl
@[simp] theorem Engine.setCabacDec_fpaq0Enc (e : Engine) (v : CabacDec) : (e.setCabacDec v).fpaq0Enc = e.fpaq0Enc := rfl
@[simp] theorem Engine.setCabacDec_fpaq0Dec (e : Engine) (v : CabacDec) : (e.setCabacDec v).fpaq0Dec = e.fpaq0Dec := rfl
@[simp] theorem Engine.setCabacDec_lanesEnc (e : Engine) (v : CabacDec) : (e.setCabacDec v).lanesEnc = e.lanesEnc := rfl
@[simp] theorem Engine.setCabacDec_lanesDec (e : Engine) (v : CabacDec) : (e.setCabacDec v).lanesDec = e.lanesDec := rfl
@[simp] theorem Engine.setCabacDec_ctx (e : Engine) (v : CabacDec) : (e.setCabacDec v).ctx = e.ctx := rfl
@[simp] theorem Engine.setCabacDec_sink (e : Engine) (v : CabacDec) : (e.setCabacDec v).sink = e.sink := rfl
@[simp] theorem Engine.setCabacDec_slots (e : Engine) (v : CabacDec) : (e.setCabacDec v).slots = e.slots := rfl
@[simp] theorem Engine.setCabacDec_src (e : Engine) (v : CabacDec) : (e.setCabacDec v).src = e.src := rfl
@[simp] theorem Engine.setCabacDec_bitpos (e : Engine) (v : CabacDec) : (e.setCabacDec v).bitpos = e.bitpos := rfl
@[simp] theorem Engine.setCabacDec_staged (e : Engine) (v : CabacDec) : (e.setCabacDec v).staged = e.staged := rfl
@[simp] theorem Engine.setCabacDec_offers (e : Engine) (v : CabacDec) : (e.setCabacDec v).offers = e.offers := rfl
@[simp] theorem Engine.setCabacDec_responses (e : Engine) (v : CabacDec) : (e.setCabacDec v).responses = e.responses := rfl

@[simp] theorem Engine.setVp8Enc_id (e : Engine) (v : Vp8Enc) : (e.setVp8Enc v).id = e.id := rfl
@[simp] theorem Engine.setVp8Enc_phase (e : Engine) (v : Vp8Enc) : (e.setVp8Enc v).phase = e.phase := rfl
@[simp] theorem Engine.setVp8Enc_cmdIndex (e : Engine) (v : Vp8Enc) : (e.setVp8Enc v).cmdIndex = e.cmdIndex := rfl
@[simp] theorem Engine.setVp8Enc_fam (e : Engine) (v : Vp8Enc) : (e.setVp8Enc v).fam = e.fam := rfl
@[simp] theorem Engine.setVp8Enc_dir (e : Engine) (v : Vp8Enc) : (e.setVp8Enc v).dir = e.dir := rfl
@[simp] theorem Engine.setVp8Enc_laneCount (e : Engine) (v : Vp8Enc) : (e.setVp8Enc v).laneCount = e.laneCount := rfl
@[simp] theorem Engine.setVp8Enc_eof (e : Engine) (v : Vp8Enc) : (e.setVp8Enc v).eof = e.eof := rfl
@[simp] theorem Engine.setVp8Enc_lastErr (e : Engine) (v : Vp8Enc) : (e.setVp8Enc v).lastErr = e.lastErr := rfl
@[simp] theorem Engine.setVp8Enc_cabacEnc (e : Engine) (v : Vp8Enc) : (e.setVp8Enc v).cabacEnc = e.cabacEnc := rfl
@[simp] theorem Engine.setVp8Enc_cabacDec (e : Engine) (v : Vp8Enc) : (e.setVp8Enc v).cabacDec = e.cabacDec := rfl
@[simp] theorem Engine.setVp8Enc_vp8Enc (e : Engine) (v : Vp8Enc) : (e.setVp8Enc v).vp8Enc = v := rfl
@[simp] theorem Engine.setVp8Enc_vp8Dec (e : Engine) (v : Vp8Enc) : (e.setVp8Enc v).vp8Dec = e.vp8Dec := rfl
@[simp] theorem Engine.setVp8Enc_ransEnc (e : Engine) (v : Vp8Enc) : (e.setVp8Enc v).ransEnc = e.ransEnc := rfl
@[simp] theorem Engine.setVp8Enc_ransDec (e : Engine) (v : Vp8Enc) : (e.setVp8Enc v).ransDec = e.ransDec := rfl
@[simp] theorem Engine.setVp8Enc_fpaq0Enc (e : Engine) (v : Vp8Enc) : (e.setVp8Enc v).fpaq0Enc = e.fpaq0Enc := rfl
@[simp] theorem Engine.setVp8Enc_fpaq0Dec (e : Engine) (v : Vp8Enc) : (e.setVp8Enc v).fpaq0Dec = e.fpaq0Dec := rfl
@[simp] theorem Engine.setVp8Enc_lanesEnc (e : Engine) (v : Vp8Enc) : (e.setVp8Enc v).lanesEnc = e.lanesEnc := rfl
@[simp] theorem Engine.setVp8Enc_lanesDec (e : Engine) (v : Vp8Enc) : (e.setVp8Enc v).lanesDec = e.lanesDec := rfl
@[simp] theorem Engine.setVp8Enc_ctx (e : Engine) (v : Vp8Enc) : (e.setVp8Enc v).ctx = e.ctx := rfl
@[simp] theorem Engine.setVp8Enc_sink (e : Engine) (v : Vp8Enc) : (e.setVp8Enc v).sink = e.sink := rfl
@[simp] theorem Engine.setVp8Enc_slots (e : Engine) (v : Vp8Enc) : (e.setVp8Enc v).slots = e.slots := rfl
@[simp] theorem Engine.setVp8Enc_src (e : Engine) (v : Vp8Enc) : (e.setVp8Enc v).src = e.src := rfl
@[simp] theorem Engine.setVp8Enc_bitpos (e : Engine) (v : Vp8Enc) : (e.setVp8Enc v).bitpos = e.bitpos := rfl
@[simp] theorem Engine.setVp8Enc_staged (e : Engine) (v : Vp8Enc) : (e.setVp8Enc v).staged = e.staged := rfl
@[simp] theorem Engine.setVp8Enc_offers (e : Engine) (v : Vp8Enc) : (e.setVp8Enc v).offers = e.offers := rfl
@[simp] theorem Engine.setVp8Enc_responses (e : Engine) (v : Vp8Enc) : (e.setVp8Enc v).responses = e.responses := rfl

@[simp] theorem Engine.setVp8Dec_id (e : Engine) (v : Vp8Dec) : (e.setVp8Dec v).id = e.id := rfl
@[simp] theorem Engine.setVp8Dec_phase (e : Engine) (v : Vp8Dec) : (e.setVp8Dec v).phase = e.phase := rfl
@[simp] theorem Engine.setVp8Dec_cmdIndex (e : Engine) (v : Vp8Dec) : (e.setVp8Dec v).cmdIndex = e.cmdIndex := rfl
@[simp] theorem Engine.setVp8Dec_fam (e : Engine) (v : Vp8Dec) : (e.setVp8Dec v).fam = e.fam := rfl
@[simp] theorem Engine.setVp8Dec_dir (e : Engine) (v : Vp8Dec) : (e.setVp8Dec v).dir = e.dir := rfl
@[simp] theorem Engine.setVp8Dec_laneCount (e : Engine) (v : Vp8Dec) : (e.setVp8Dec v).laneCount = e.laneCount := rfl
@[simp] theorem Engine.setVp8Dec_eof (e : Engine) (v : Vp8Dec) : (e.setVp8Dec v).eof = e.eof := rfl
@[simp] theorem Engine.setVp8Dec_lastErr (e : Engine) (v : Vp8Dec) : (e.setVp8Dec v).lastErr = e.lastErr := rfl
@[simp] theorem Engine.setVp8Dec_cabacEnc (e : Engine) (v : Vp8Dec) : (e.setVp8Dec v).cabacEnc = e.cabacEnc := rfl
@[simp] theorem Engine.setVp8Dec_cabacDec (e : Engine) (v : Vp8Dec) : (e.setVp8Dec v).cabacDec = e.cabacDec := rfl
@[simp] theorem Engine.setVp8Dec_vp8Enc (e : Engine) (v : Vp8Dec) : (e.setVp8Dec v).vp8Enc = e.vp8Enc := rfl
@[simp] theorem Engine.setVp8Dec_vp8Dec (e : Engine) (v : Vp8Dec) : (e.setVp8Dec v).vp8Dec = v := rfl
@[simp] theorem Engine.setVp8Dec_ransEnc (e : Engine) (v : Vp8Dec) : (e.setVp8Dec v).ransEnc = e.ransEnc := rfl
@[simp] theorem Engine.setVp8Dec_ransDec (e : Engine) (v : Vp8Dec) : (e.setVp8Dec v).ransDec = e.ransDec := rfl
@[simp] theorem Engine.setVp8Dec_fpaq0Enc (e : Engine) (v : Vp8Dec) : (e.setVp8Dec v).fpaq0Enc = e.fpaq0Enc := rfl
@[simp] theorem Engine.setVp8Dec_fpaq0Dec (e : Engine) (v : Vp8Dec) : (e.setVp8Dec v).fpaq0Dec = e.fpaq0Dec := rfl
@[simp] theorem Engine.setVp8Dec_lanesEnc (e : Engine) (v : Vp8Dec) : (e.setVp8Dec v).lanesEnc = e.lanesEnc := rfl
@[simp] theorem Engine.setVp8Dec_lanesDec (e : Engine) (v : Vp8Dec) : (e.setVp8Dec v).lanesDec = e.lanesDec := rfl
@[simp] theorem Engine.setVp8Dec_ctx (e : Engine) (v : Vp8Dec) : (e.setVp8Dec v).ctx = e.ctx := rfl
@[simp] theorem Engine.setVp8Dec_sink (e : Engine) (v : Vp8Dec) : (e.setVp8Dec v).sink = e.sink := rfl
@[simp] theorem Engine.setVp8Dec_slots (e : Engine) (v : Vp8Dec) : (e.setVp8Dec v).slots = e.slots := rfl
@[simp] theorem Engine.setVp8Dec_src (e : Engine) (v : Vp8Dec) : (e.setVp8Dec v).src = e.src := rfl
@[simp] theorem Engine.setVp8Dec_bitpos (e : Engine) (v : Vp8Dec) : (e.setVp8Dec v).bitpos = e.bitpos := rfl
@[simp] theorem Engine.setVp8Dec_staged (e : Engine) (v : Vp8Dec) : (e.setVp8Dec v).staged = e.staged := rfl
@[simp] theorem Engine.setVp8Dec_offers (e : Engine) (v : Vp8Dec) : (e.setVp8Dec v).offers = e.offers := rfl
@[simp] theorem Engine.setVp8Dec_responses (e : Engine) (v : Vp8Dec) : (e.setVp8Dec v).responses = e.responses := rfl

@[simp] theorem Engine.setRansEnc_id (e : Engine) (v : RansEnc) : (e.setRansEnc v).id = e.id := rfl
@[simp] theorem Engine.setRansEnc_phase (e : Engine) (v : RansEnc) : (e.setRansEnc v).phase = e.phase := rfl
@[simp] theorem Engine.setRansEnc_cmdIndex (e : Engine) (v : RansEnc) : (e.setRansEnc v).cmdIndex = e.cmdIndex := rfl
@[simp] theorem Engine.setRansEnc_fam (e : Engine) (v : RansEnc) : (e.setRansEnc v).fam = e.fam := rfl
@[simp] theorem Engine.setRansEnc_dir (e : Engine) (v : RansEnc) : (e.setRansEnc v).dir = e.dir := rfl
@[simp] theorem Engine.setRansEnc_laneCount (e : Engine) (v : RansEnc) : (e.setRansEnc v).laneCount = e.laneCount := rfl
@[simp] theorem Engine.setRansEnc_eof (e : Engine) (v : RansEnc) : (e.setRansEnc v).eof = e.eof := rfl
@[simp] theorem Engine.setRansEnc_lastErr (e : Engine) (v : RansEnc) : (e.setRansEnc v).lastErr = e.lastErr := rfl
@[simp] theorem Engine.setRansEnc_cabacEnc (e : Engine) (v : RansEnc) : (e.setRansEnc v).cabacEnc = e.cabacEnc := rfl
@[simp] theorem Engine.setRansEnc_cabacDec (e : Engine) (v : RansEnc) : (e.setRansEnc v).cabacDec = e.cabacDec := rfl
@[simp] theorem Engine.setRansEnc_vp8Enc (e : Engine) (v : RansEnc) : (e.setRansEnc v).vp8Enc = e.vp8Enc := rfl
@[simp] theorem Engine.setRansEnc_vp8Dec (e : Engine) (v : RansEnc) : (e.setRansEnc v).vp8Dec = e.vp8Dec := rfl
@[simp] theorem Engine.setRansEnc_ransEnc (e : Engine) (v : RansEnc) : (e.setRansEnc v).ransEnc = v := rfl
@[simp] theorem Engine.setRansEnc_ransDec (e : Engine) (v : RansEnc) : (e.setRansEnc v).ransDec = e.ransDec := rfl
@[simp] theorem Engine.setRansEnc_fpaq0Enc (e : Engine) (v : RansEnc) : (e.setRansEnc v).fpaq0Enc = e.fpaq0Enc := rfl
@[simp] theorem Engine.setRansEnc_fpaq0Dec (e : Engine) (v : RansEnc) : (e.setRansEnc v).fpaq0Dec = e.fpaq0Dec := rfl
@[simp] theorem Engine.setRansEnc_lanesEnc (e : Engine) (v : RansEnc) : (e.setRansEnc v).lanesEnc = e.lanesEnc := rfl
@[simp] theorem Engine.setRansEnc_lanesDec (e : Engine) (v : RansEnc) : (e.setRansEnc v).lanesDec = e.lanesDec := rfl
@[simp] theorem Engine.setRansEnc_ctx (e : Engine) (v : RansEnc) : (e.setRansEnc v).ctx = e.ctx := rfl
@[simp] theorem Engine.setRansEnc_sink (e : Engine) (v : RansEnc) : (e.setRansEnc v).sink = e.sink := rfl
@[simp] theorem Engine.setRansEnc_slots (e : Engine) (v : RansEnc) : (e.setRansEnc v).slots = e.slots := rfl
@[simp] theorem Engine.setRansEnc_src (e : Engine) (v : RansEnc) : (e.setRansEnc v).src = e.src := rfl
@[simp] theorem Engine.setRansEnc_bitpos (e : Engine) (v : RansEnc) : (e.setRansEnc v).bitpos = e.bitpos := rfl
@[simp] theorem Engine.setRansEnc_staged (e : Engine) (v : RansEnc) : (e.setRansEnc v).staged = e.staged := rfl
@[simp] theorem Engine.setRansEnc_offers (e : Engine) (v : RansEnc) : (e.setRansEnc v).offers = e.offers := rfl
@[simp] theorem Engine.setRansEnc_responses (e : Engine) (v : RansEnc) : (e.setRansEnc v).responses = e.responses := rfl

@[simp] theorem Engine.setRansDec_id (e : Engine) (v : RansDec) : (e.setRansDec v).id = e.id := rfl
@[simp] theorem Engine.setRansDec_phase (e : Engine) (v : RansDec) : (e.setRansDec v).phase = e.phase := rfl
@[simp] theorem Engine.setRansDec_cmdIndex (e : Engine) (v : RansDec) : (e.setRansDec v).cmdIndex = e.cmdIndex := rfl
@[simp] theorem Engine.setRansDec_fam (e : Engine) (v : RansDec) : (e.setRansDec v).fam = e.fam := rfl
@[simp] theorem Engine.setRansDec_dir (e : Engine) (v : RansDec) : (e.setRansDec v).dir = e.dir := rfl
@[simp] theorem Engine.setRansDec_laneCount (e : Engine) (v : RansDec) : (e.setRansDec v).laneCount = e.laneCount := rfl
@[simp] theorem Engine.setRansDec_eof (e : Engine) (v : RansDec) : (e.setRansDec v).eof = e.eof := rfl
@[simp] theorem Engine.setRansDec_lastErr (e : Engine) (v : RansDec) : (e.setRansDec v).lastErr = e.lastErr := rfl
@[simp] theorem Engine.setRansDec_cabacEnc (e : Engine) (v : RansDec) : (e.setRansDec v).cabacEnc = e.cabacEnc := rfl
@[simp] theorem Engine.setRansDec_cabacDec (e : Engine) (v : RansDec) : (e.setRansDec v).cabacDec = e.cabacDec := rfl
@[simp] theorem Engine.setRansDec_vp8Enc (e : Engine) (v : RansDec) : (e.setRansDec v).vp8Enc = e.vp8Enc := rfl
@[simp] theorem Engine.setRansDec_vp8Dec (e : Engine) (v : RansDec) : (e.setRansDec v).vp8Dec = e.vp8Dec := rfl
@[simp] theorem Engine.setRansDec_ransEnc (e : Engine) (v : RansDec) : (e.setRansDec v).ransEnc = e.ransEnc := rfl
@[simp] theorem Engine.setRansDec_ransDec (e : Engine) (v : RansDec) : (e.setRansDec v).ransDec = v := rfl
@[simp] theorem Engine.setRansDec_fpaq0Enc (e : Engine) (v : RansDec) : (e.setRansDec v).fpaq0Enc = e.fpaq0Enc := rfl
@[simp] theorem Engine.setRansDec_fpaq0Dec (e : Engine) (v : RansDec) : (e.setRansDec v).fpaq0Dec = e.fpaq0Dec := rfl
@[simp] theorem Engine.setRansDec_lanesEnc (e : Engine) (v : RansDec) : (e.setRansDec v).lanesEnc = e.lanesEnc := rfl
@[simp] theorem Engine.setRansDec_lanesDec (e : Engine) (v : RansDec) : (e.setRansDec v).lanesDec = e.lanesDec := rfl
@[simp] theorem Engine.setRansDec_ctx (e : Engine) (v : RansDec) : (e.setRansDec v).ctx = e.ctx := rfl
@[simp] theorem Engine.setRansDec_sink (e : Engine) (v : RansDec) : (e.setRansDec v).sink = e.sink := rfl
@[simp] theorem Engine.setRansDec_slots (e : Engine) (v : RansDec) : (e.setRansDec v).slots = e.slots := rfl
@[simp] theorem Engine.setRansDec_src (e : Engine) (v : RansDec) : (e.setRansDec v).src = e.src := rfl
@[simp] theorem Engine.setRansDec_bitpos (e : Engine) (v : RansDec) : (e.setRansDec v).bitpos = e.bitpos := rfl
@[simp] theorem Engine.setRansDec_staged (e : Engine) (v : RansDec) : (e.setRansDec v).staged = e.staged := rfl
@[simp] theorem Engine.setRansDec_offers (e : Engine) (v : RansDec) : (e.setRansDec v).offers = e.offers := rfl
@[simp] theorem Engine.setRansDec_responses (e : Engine) (v : RansDec) : (e.setRansDec v).responses = e.responses := rfl

@[simp] theorem Engine.setFpaq0Enc_id (e : Engine) (v : Fpaq0Enc) : (e.setFpaq0Enc v).id = e.id := rfl
@[simp] theorem Engine.setFpaq0Enc_phase (e : Engine) (v : Fpaq0Enc) : (e.setFpaq0Enc v).phase = e.phase := rfl
@[simp] theorem Engine.setFpaq0Enc_cmdIndex (e : Engine) (v : Fpaq0Enc) : (e.setFpaq0Enc v).cmdIndex = e.cmdIndex := rfl
@[simp] theorem Engine.setFpaq0Enc_fam (e : Engine) (v : Fpaq0Enc) : (e.setFpaq0Enc v).fam = e.fam := rfl
@[simp] theorem Engine.setFpaq0Enc_dir (e : Engine) (v : Fpaq0Enc) : (e.setFpaq0Enc v).dir = e.dir := rfl
@[simp] theorem Engine.setFpaq0Enc_laneCount (e : Engine) (v : Fpaq0Enc) : (e.setFpaq0Enc v).laneCount = e.laneCount := rfl
@[simp] theorem Engine.setFpaq0Enc_eof (e : Engine) (v : Fpaq0Enc) : (e.setFpaq0Enc v).eof = e.eof := rfl
@[simp] theorem Engine.setFpaq0Enc_lastErr (e : Engine) (v : Fpaq0Enc) : (e.setFpaq0Enc v).lastErr = e.lastErr := rfl
@[simp] theorem Engine.setFpaq0Enc_cabacEnc (e : Engine) (v : Fpaq0Enc) : (e.setFpaq0Enc v).cabacEnc = e.cabacEnc := rfl
@[simp] theorem Engine.setFpaq0Enc_cabacDec (e : Engine) (v : Fpaq0Enc) : (e.setFpaq0Enc v).cabacDec = e.cabacDec := rfl
@[simp] theorem Engine.setFpaq0Enc_vp8Enc (e : Engine) (v : Fpaq0Enc) : (e.setFpaq0Enc v).vp8Enc = e.vp8Enc := rfl
@[simp] theorem Engine.setFpaq0Enc_vp8Dec (e : Engine) (v : Fpaq0Enc) : (e.setFpaq0Enc v).vp8Dec = e.vp8Dec := rfl
@[simp] theorem Engine.setFpaq0Enc_ransEnc (e : Engine) (v : Fpaq0Enc) : (e.setFpaq0Enc v).ransEnc = e.ransEnc := rfl
@[simp] theorem Engine.setFpaq0Enc_ransDec (e : Engine) (v : Fpaq0Enc) : (e.setFpaq0Enc v).ransDec = e.ransDec := rfl
@[simp] theorem Engine.setFpaq0Enc_fpaq0Enc (e : Engine) (v : Fpaq0Enc) : (e.setFpaq0Enc v).fpaq0Enc = v := rfl
@[simp] theorem Engine.setFpaq0Enc_fpaq0Dec (e : Engine) (v : Fpaq0Enc) : (e.setFpaq0Enc v).fpaq0Dec = e.fpaq0Dec := rfl
@[simp] theorem Engine.setFpaq0Enc_lanesEnc (e : Engine) (v : Fpaq0Enc) : (e.setFpaq0Enc v).lanesEnc = e.lanesEnc := rfl
@[simp] theorem Engine.setFpaq0Enc_lanesDec (e : Engine) (v : Fpaq0Enc) : (e.setFpaq0Enc v).lanesDec = e.lanesDec := rfl
@[simp] theorem Engine.setFpaq0Enc_ctx (e : Engine) (v : Fpaq0Enc) : (e.setFpaq0Enc v).ctx = e.ctx := rfl
@[simp] theorem Engine.setFpaq0Enc_sink (e : Engine) (v : Fpaq0Enc) : (e.setFpaq0Enc v).sink = e.sink := rfl
@[simp] theorem Engine.setFpaq0Enc_slots (e : Engine) (v : Fpaq0Enc) : (e.setFpaq0Enc v).slots = e.slots := rfl
@[simp] theorem Engine.setFpaq0Enc_src (e : Engine) (v : Fpaq0Enc) : (e.setFpaq0Enc v).src = e.src := rfl
@[simp] theorem Engine.setFpaq0Enc_bitpos (e : Engine) (v : Fpaq0Enc) : (e.setFpaq0Enc v).bitpos = e.bitpos := rfl
@[simp] theorem Engine.setFpaq0Enc_staged (e : Engine) (v : Fpaq0Enc) : (e.setFpaq0Enc v).staged = e.staged := rfl
@[simp] theorem Engine.setFpaq0Enc_offers (e : Engine) (v : Fpaq0Enc) : (e.setFpaq0Enc v).offers = e.offers := rfl
@[simp] theorem Engine.setFpaq0Enc_responses (e : Engine) (v : Fpaq0Enc) : (e.setFpaq0Enc v).responses = e.responses := rfl

@[simp] theorem Engine.setFpaq0Dec_id (e : Engine) (v : Fpaq0Dec) : (e.setFpaq0Dec v).id = e.id := rfl
@[simp] theorem Engine.setFpaq0Dec_phase (e : Engine) (v : Fpaq0Dec) : (e.setFpaq0Dec v).phase = e.phase := rfl
@[simp] theorem Engine.setFpaq0Dec_cmdIndex (e : Engine) (v : Fpaq0Dec) : (e.setFpaq0Dec v).cmdIndex = e.cmdIndex := rfl
@[simp] theorem Engine.setFpaq0Dec_fam (e : Engine) (v : Fpaq0Dec) : (e.setFpaq0Dec v).fam = e.fam := rfl
@[simp] theorem Engine.setFpaq0Dec_dir (e : Engine) (v : Fpaq0Dec) : (e.setFpaq0Dec v).dir = e.dir := rfl
@[simp] theorem Engine.setFpaq0Dec_laneCount (e : Engine) (v : Fpaq0Dec) : (e.setFpaq0Dec v).laneCount = e.laneCount := rfl
@[simp] theorem Engine.setFpaq0Dec_eof (e : Engine) (v : Fpaq0Dec) : (e.setFpaq0Dec v).eof = e.eof := rfl
@[simp] theorem Engine.setFpaq0Dec_lastErr (e : Engine) (v : Fpaq0Dec) : (e.setFpaq0Dec v).lastErr = e.lastErr := rfl
@[simp] theorem Engine.setFpaq0Dec_cabacEnc (e : Engine) (v : Fpaq0Dec) : (e.setFpaq0Dec v).cabacEnc = e.cabacEnc := rfl
@[simp] theorem Engine.setFpaq0Dec_cabacDec (e : Engine) (v : Fpaq0Dec) : (e.setFpaq0Dec v).cabacDec = e.cabacDec := rfl
@[simp] theorem Engine.setFpaq0Dec_vp8Enc (e : Engine) (v : Fpaq0Dec) : (e.setFpaq0Dec v).vp8Enc = e.vp8Enc := rfl
@[simp] theorem Engine.setFpaq0Dec_vp8Dec (e : Engine) (v : Fpaq0Dec) : (e.setFpaq0Dec v).vp8Dec = e.vp8Dec := rfl
@[simp] theorem Engine.setFpaq0Dec_ransEnc (e : Engine) (v : Fpaq0Dec) : (e.setFpaq0Dec v).ransEnc = e.ransEnc := rfl
@[simp] theorem Engine.setFpaq0Dec_ransDec (e : Engine) (v : Fpaq0Dec) : (e.setFpaq0Dec v).ransDec = e.ransDec := rfl
@[simp] theorem Engine.setFpaq0Dec_fpaq0Enc (e : Engine) (v : Fpaq0Dec) : (e.setFpaq0Dec v).fpaq0Enc = e.fpaq0Enc := rfl
@[simp] theorem Engine.setFpaq0Dec_fpaq0Dec (e : Engine) (v : Fpaq0Dec) : (e.setFpaq0Dec v).fpaq0Dec = v := rfl
@[simp] theorem Engine.setFpaq0Dec_lanesEnc (e : Engine) (v : Fpaq0Dec) : (e.setFpaq0Dec v).lanesEnc = e.lanesEnc := rfl
@[simp] theorem Engine.setFpaq0Dec_lanesDec (e : Engine) (v : Fpaq0Dec) : (e.setFpaq0Dec v).lanesDec = e.lanesDec := rfl
@[simp] theorem Engine.setFpaq0Dec_ctx (e : Engine) (v : Fpaq0Dec) : (e.setFpaq0Dec v).ctx = e.ctx := rfl
@[simp] theorem Engine.setFpaq0Dec_sink (e : Engine) (v : Fpaq0Dec) : (e.setFpaq0Dec v).sink = e.sink := rfl
@[simp] theorem Engine.setFpaq0Dec_slots (e : Engine) (v : Fpaq0Dec) : (e.setFpaq0Dec v).slots = e.slots := rfl
@[simp] theorem Engine.setFpaq0Dec_src (e : Engine) (v : Fpaq0Dec) : (e.setFpaq0Dec v).src = e.src := rfl
@[simp] theorem Engine.setFpaq0Dec_bitpos (e : Engine) (v : Fpaq0Dec) : (e.setFpaq0Dec v).bitpos = e.bitpos := rfl
@[simp] theorem Engine.setFpaq0Dec_staged (e : Engine) (v : Fpaq0Dec) : (e.setFpaq0Dec v).staged = e.staged := rfl
@[simp] theorem Engine.setFpaq0Dec_offers (e : Engine) (v : Fpaq0Dec) : (e.setFpaq0Dec v).offers = e.offers := rfl
@[simp] theorem Engine.setFpaq0Dec_responses (e : Engine) (v : Fpaq0Dec) : (e.setFpaq0Dec v).responses = e.responses := rfl

@[simp] theorem Engine.setLanesEnc_id (e : Engine) (v : List LaneEnc) : (e.setLanesEnc v).id = e.id := rfl
@[simp] theorem Engine.setLanesEnc_phase (e : Engine) (v : List LaneEnc) : (e.setLanesEnc v).phase = e.phase := rfl
@[simp] theorem Engine.setLanesEnc_cmdIndex (e : Engine) (v : List LaneEnc) : (e.setLanesEnc v).cmdIndex = e.cmdIndex := rfl
@[simp] theorem Engine.setLanesEnc_fam (e : Engine) (v : List LaneEnc) : (e.setLanesEnc v).fam = e.fam := rfl
@[simp] theorem Engine.setLanesEnc_dir (e : Engine) (v : List LaneEnc) : (e.setLanesEnc v).dir = e.dir := rfl
@[simp] theorem Engine.setLanesEnc_laneCount (e : Engine) (v : List LaneEnc) : (e.setLanesEnc v).laneCount = e.laneCount := rfl
@[simp] theorem Engine.setLanesEnc_eof (e : Engine) (v : List LaneEnc) : (e.setLanesEnc v).eof = e.eof := rfl
@[simp] theorem Engine.setLanesEnc_lastErr (e : Engine) (v : List LaneEnc) : (e.setLanesEnc v).lastErr = e.lastErr := rfl
@[simp] theorem Engine.setLanesEnc_cabacEnc (e : Engine) (v : List LaneEnc) : (e.setLanesEnc v).cabacEnc = e.cabacEnc := rfl
@[simp] theorem Engine.setLanesEnc_cabacDec (e : Engine) (v : List LaneEnc) : (e.setLanesEnc v).cabacDec = e.cabacDec := rfl
@[simp] theorem Engine.setLanesEnc_vp8Enc (e : Engine) (v : List LaneEnc) : (e.setLanesEnc v).vp8Enc = e.vp8Enc := rfl
@[simp] theorem Engine.setLanesEnc_vp8Dec (e : Engine) (v : List LaneEnc) : (e.setLanesEnc v).vp8Dec = e.vp8Dec := rfl
@[simp] theorem Engine.setLanesEnc_ransEnc (e : Engine) (v : List LaneEnc) : (e.setLanesEnc v).ransEnc = e.ransEnc := rfl
@[simp] theorem Engine.setLanesEnc_ransDec (e : Engine) (v : List LaneEnc) : (e.setLanesEnc v).ransDec = e.ransDec := rfl
@[simp] theorem Engine.setLanesEnc_fpaq0Enc (e : Engine) (v : List LaneEnc) : (e.setLanesEnc v).fpaq0Enc = e.fpaq0Enc := rfl
@[simp] theorem Engine.setLanesEnc_fpaq0Dec (e : Engine) (v : List LaneEnc) : (e.setLanesEnc v).fpaq0Dec = e.fpaq0Dec := rfl
@[simp] theorem Engine.setLanesEnc_lanesEnc (e : Engine) (v : List LaneEnc) : (e.setLanesEnc v).lanesEnc = v := rfl
@[simp] theorem Engine.setLanesEnc_lanesDec (e : Engine) (v : List LaneEnc) : (e.setLanesEnc v).lanesDec = e.lanesDec := rfl
@[simp] theorem Engine.setLanesEnc_ctx (e : Engine) (v : List LaneEnc) : (e.setLanesEnc v).ctx = e.ctx := rfl
@[simp] theorem Engine.setLanesEnc_sink (e : Engine) (v : List LaneEnc) : (e.setLanesEnc v).sink = e.sink := rfl
@[simp] theorem Engine.setLanesEnc_slots (e : Engine) (v : List LaneEnc) : (e.setLanesEnc v).slots = e.slots := rfl
@[simp] theorem Engine.setLanesEnc_src (e : Engine) (v : List LaneEnc) : (e.setLanesEnc v).src = e.src := rfl
@[simp] theorem Engine.setLanesEnc_bitpos (e : Engine) (v : List LaneEnc) : (e.setLanesEnc v).bitpos = e.bitpos := rfl
@[simp] theorem Engine.setLanesEnc_staged (e : Engine) (v : List LaneEnc) : (e.setLanesEnc v).staged = e.staged := rfl
@[simp] theorem Engine.setLanesEnc_offers (e : Engine) (v : List LaneEnc) : (e.setLanesEnc v).offers = e.offers := rfl
@[simp] theorem Engine.setLanesEnc_responses (e : Engine) (v : List LaneEnc) : (e.setLanesEnc v).responses = e.responses := rfl

@[simp] theorem Engine.setLanesDec_id (e : Engine) (v : List LaneDec) : (e.setLanesDec v).id = e.id := rfl
@[simp] theorem Engine.setLanesDec_phase (e : Engine) (v : List LaneDec) : (e.setLanesDec v).phase = e.phase := rfl
@[simp] theorem Engine.setLanesDec_cmdIndex (e : Engine) (v : List LaneDec) : (e.setLanesDec v).cmdIndex = e.cmdIndex := rfl
@[simp] theorem Engine.setLanesDec_fam (e : Engine) (v : List LaneDec) : (e.setLanesDec v).fam = e.fam := rfl
@[simp] theorem Engine.setLanesDec_dir (e : Engine) (v : List LaneDec) : (e.setLanesDec v).dir = e.dir := rfl
@[simp] theorem Engine.setLanesDec_laneCount (e : Engine) (v : List LaneDec) : (e.setLanesDec v).laneCount = e.laneCount := rfl
@[simp] theorem Engine.setLanesDec_eof (e : Engine) (v : List LaneDec) : (e.setLanesDec v).eof = e.eof := rfl
@[simp] theorem Engine.setLanesDec_lastErr (e : Engine) (v : List LaneDec) : (e.setLanesDec v).lastErr = e.lastErr := rfl
@[simp] theorem Engine.setLanesDec_cabacEnc (e : Engine) (v : List LaneDec) : (e.setLanesDec v).cabacEnc = e.cabacEnc := rfl
@[simp] theorem Engine.setLanesDec_cabacDec (e : Engine) (v : List LaneDec) : (e.setLanesDec v).cabacDec = e.cabacDec := rfl
@[simp] theorem Engine.setLanesDec_vp8Enc (e : Engine) (v : List LaneDec) : (e.setLanesDec v).vp8Enc = e.vp8Enc := rfl
@[simp] theorem Engine.setLanesDec_vp8Dec (e : Engine) (v : List LaneDec) : (e.setLanesDec v).vp8Dec = e.vp8Dec := rfl
@[simp] theorem Engine.setLanesDec_ransEnc (e : Engine) (v : List LaneDec) : (e.setLanesDec v).ransEnc = e.ransEnc := rfl
@[simp] theorem Engine.setLanesDec_ransDec (e : Engine) (v : List LaneDec) : (e.setLanesDec v).ransDec = e.ransDec := rfl
@[simp] theorem Engine.setLanesDec_fpaq0Enc (e : Engine) (v : List LaneDec) : (e.setLanesDec v).fpaq0Enc = e.fpaq0Enc := rfl
@[simp] theorem Engine.setLanesDec_fpaq0Dec (e : Engine) (v : List LaneDec) : (e.setLanesDec v).fpaq0Dec = e.fpaq0Dec := rfl
@[simp] theorem Engine.setLanesDec_lanesEnc (e : Engine) (v : List LaneDec) : (e.setLanesDec v).lanesEnc = e.lanesEnc := rfl
@[simp] theorem Engine.setLanesDec_lanesDec (e : Engine) (v : List LaneDec) : (e.setLanesDec v).lanesDec = v := rfl
@[simp] theorem Engine.setLanesDec_ctx (e : Engine) (v : List LaneDec) : (e.setLanesDec v).ctx = e.ctx := rfl
@[simp] theorem Engine.setLanesDec_sink (e : Engine) (v : List LaneDec) : (e.setLanesDec v).sink = e.sink := rfl
@[simp] theorem Engine.setLanesDec_slots (e : Engine) (v : List LaneDec) : (e.setLanesDec v).slots = e.slots := rfl
@[simp] theorem Engine.setLanesDec_src (e : Engine) (v : List LaneDec) : (e.setLanesDec v).src = e.src := rfl
@[simp] theorem Engine.setLanesDec_bitpos (e : Engine) (v : List LaneDec) : (e.setLanesDec v).bitpos = e.bitpos := rfl
@[simp] theorem Engine.setLanesDec_staged (e : Engine) (v : List LaneDec) : (e.setLanesDec v).staged = e.staged := rfl
@[simp] theorem Engine.setLanesDec_offers (e : Engine) (v : List LaneDec) : (e.setLanesDec v).offers = e.offers := rfl
@[simp] theorem Engine.setLanesDec_responses (e : Engine) (v : List LaneDec) : (e.setLanesDec v).responses = e.responses := rfl

@[simp] theorem Engine.setCtx_id (e : Engine) (v : Memory) : (e.setCtx v).id = e.id := rfl
@[simp] theorem Engine.setCtx_phase (e : Engine) (v : Memory) : (e.setCtx v).phase = e.phase := rfl
@[simp] theorem Engine.setCtx_cmdIndex (e : Engine) (v : Memory) : (e.setCtx v).cmdIndex = e.cmdIndex := rfl
@[simp] theorem Engine.setCtx_fam (e : Engine) (v : Memory) : (e.setCtx v).fam = e.fam := rfl
@[simp] theorem Engine.setCtx_dir (e : Engine) (v : Memory) : (e.setCtx v).dir = e.dir := rfl
@[simp] theorem Engine.setCtx_laneCount (e : Engine) (v : Memory) : (e.setCtx v).laneCount = e.laneCount := rfl
@[simp] theorem Engine.setCtx_eof (e : Engine) (v : Memory) : (e.setCtx v).eof = e.eof := rfl
@[simp] theorem Engine.setCtx_lastErr (e : Engine) (v : Memory) : (e.setCtx v).lastErr = e.lastErr := rfl
@[simp] theorem Engine.setCtx_cabacEnc (e : Engine) (v : Memory) : (e.setCtx v).cabacEnc = e.cabacEnc := rfl
@[simp] theorem Engine.setCtx_cabacDec (e : Engine) (v : Memory) : (e.setCtx v).cabacDec = e.cabacDec := rfl
@[simp] theorem Engine.setCtx_vp8Enc (e : Engine) (v : Memory) : (e.setCtx v).vp8Enc = e.vp8Enc := rfl
@[simp] theorem Engine.setCtx_vp8Dec (e : Engine) (v : Memory) : (e.setCtx v).vp8Dec = e.vp8Dec := rfl
@[simp] theorem Engine.setCtx_ransEnc (e : Engine) (v : Memory) : (e.setCtx v).ransEnc = e.ransEnc := rfl
@[simp] theorem Engine.setCtx_ransDec (e : Engine) (v : Memory) : (e.setCtx v).ransDec = e.ransDec := rfl
@[simp] theorem Engine.setCtx_fpaq0Enc (e : Engine) (v : Memory) : (e.setCtx v).fpaq0Enc = e.fpaq0Enc := rfl
@[simp] theorem Engine.setCtx_fpaq0Dec (e : Engine) (v : Memory) : (e.setCtx v).fpaq0Dec = e.fpaq0Dec := rfl
@[simp] theorem Engine.setCtx_lanesEnc (e : Engine) (v : Memory) : (e.setCtx v).lanesEnc = e.lanesEnc := rfl
@[simp] theorem Engine.setCtx_lanesDec (e : Engine) (v : Memory) : (e.setCtx v).lanesDec = e.lanesDec := rfl
@[simp] theorem Engine.setCtx_ctx (e : Engine) (v : Memory) : (e.setCtx v).ctx = v := rfl
@[simp] theorem Engine.setCtx_sink (e : Engine) (v : Memory) : (e.setCtx v).sink = e.sink := rfl
@[simp] theorem Engine.setCtx_slots (e : Engine) (v : Memory) : (e.setCtx v).slots = e.slots := rfl
@[simp] theorem Engine.setCtx_src (e : Engine) (v : Memory) : (e.setCtx v).src = e.src := rfl
@[simp] theorem Engine.setCtx_bitpos (e : Engine) (v : Memory) : (e.setCtx v).bitpos = e.bitpos := rfl
@[simp] theorem Engine.setCtx_staged (e : Engine) (v : Memory) : (e.setCtx v).staged = e.staged := rfl
@[simp] theorem Engine.setCtx_offers (e : Engine) (v : Memory) : (e.setCtx v).offers = e.offers := rfl
@[simp] theorem Engine.setCtx_responses (e : Engine) (v : Memory) : (e.setCtx v).responses = e.responses := rfl

@[simp] theorem Engine.setSink_id (e : Engine) (v : List Bool) : (e.setSink v).id = e.id := rfl
@[simp] theorem Engine.setSink_phase (e : Engine) (v : List Bool) : (e.setSink v).phase = e.phase := rfl
@[simp] theorem Engine.setSink_cmdIndex (e : Engine) (v : List Bool) : (e.setSink v).cmdIndex = e.cmdIndex := rfl
@[simp] theorem Engine.setSink_fam (e : Engine) (v : List Bool) : (e.setSink v).fam = e.fam := rfl
@[simp] theorem Engine.setSink_dir (e : Engine) (v : List Bool) : (e.setSink v).dir = e.dir := rfl
@[simp] theorem Engine.setSink_laneCount (e : Engine) (v : List Bool) : (e.setSink v).laneCount = e.laneCount := rfl
@[simp] theorem Engine.setSink_eof (e : Engine) (v : List Bool) : (e.setSink v).eof = e.eof := rfl
@[simp] theorem Engine.setSink_lastErr (e : Engine) (v : List Bool) : (e.setSink v).lastErr = e.lastErr := rfl
@[simp] theorem Engine.setSink_cabacEnc (e : Engine) (v : List Bool) : (e.setSink v).cabacEnc = e.cabacEnc := rfl
@[simp] theorem Engine.setSink_cabacDec (e : Engine) (v : List Bool) : (e.setSink v).cabacDec = e.cabacDec := rfl
@[simp] theorem Engine.setSink_vp8Enc (e : Engine) (v : List Bool) : (e.setSink v).vp8Enc = e.vp8Enc := rfl
@[simp] theorem Engine.setSink_vp8Dec (e : Engine) (v : List Bool) : (e.setSink v).vp8Dec = e.vp8Dec := rfl
@[simp] theorem Engine.setSink_ransEnc (e : Engine) (v : List Bool) : (e.setSink v).ransEnc = e.ransEnc := rfl
@[simp] theorem Engine.setSink_ransDec (e : Engine) (v : List Bool) : (e.setSink v).ransDec = e.ransDec := rfl
@[simp] theorem Engine.setSink_fpaq0Enc (e : Engine) (v : List Bool) : (e.setSink v).fpaq0Enc = e.fpaq0Enc := rfl
@[simp] theorem Engine.setSink_fpaq0Dec (e : Engine) (v : List Bool) : (e.setSink v).fpaq0Dec = e.fpaq0Dec := rfl
@[simp] theorem Engine.setSink_lanesEnc (e : Engine) (v : List Bool) : (e.setSink v).lanesEnc = e.lanesEnc := rfl
@[simp] theorem Engine.setSink_lanesDec (e : Engine) (v : List Bool) : (e.setSink v).lanesDec = e.lanesDec := rfl
@[simp] theorem Engine.setSink_ctx (e : Engine) (v : List Bool) : (e.setSink v).ctx = e.ctx := rfl
@[simp] theorem Engine.setSink_sink (e : Engine) (v : List Bool) : (e.setSink v).sink = v := rfl
@[simp] theorem Engine.setSink_slots (e : Engine) (v : List Bool) : (e.setSink v).slots = e.slots := rfl
@[simp] theorem Engine.setSink_src (e : Engine) (v : List Bool) : (e.setSink v).src = e.src := rfl
@[simp] theorem Engine.setSink_bitpos (e : Engine) (v : List Bool) : (e.setSink v).bitpos = e.bitpos := rfl
@[simp] theorem Engine.setSink_staged (e : Engine) (v : List Bool) : (e.setSink v).staged = e.staged := rfl
@[simp] theorem Engine.setSink_offers (e : Engine) (v : List Bool) : (e.setSink v).offers = e.offers := rfl
@[simp] theorem Engine.setSink_responses (e : Engine) (v : List Bool) : (e.setSink v).responses = e.responses := rfl

@[simp] theorem Engine.setSlots_id (e : Engine) (v : Memory) : (e.setSlots v).id = e.id := rfl
@[simp] theorem Engine.setSlots_phase (e : Engine) (v : Memory) : (e.setSlots v).phase = e.phase := rfl
@[simp] theorem Engine.setSlots_cmdIndex (e : Engine) (v : Memory) : (e.setSlots v).cmdIndex = e.cmdIndex := rfl
@[simp] theorem Engine.setSlots_fam (e : Engine) (v : Memory) : (e.setSlots v).fam = e.fam := rfl
@[simp] theorem Engine.setSlots_dir (e : Engine) (v : Memory) : (e.setSlots v).dir = e.dir := rfl
@[simp] theorem Engine.setSlots_laneCount (e : Engine) (v : Memory) : (e.setSlots v).laneCount = e.laneCount := rfl
@[simp] theorem Engine.setSlots_eof (e : Engine) (v : Memory) : (e.setSlots v).eof = e.eof := rfl
@[simp] theorem Engine.setSlots_lastErr (e : Engine) (v : Memory) : (e.setSlots v).lastErr = e.lastErr := rfl
@[simp] theorem Engine.setSlots_cabacEnc (e : Engine) (v : Memory) : (e.setSlots v).cabacEnc = e.cabacEnc := rfl
@[simp] theorem Engine.setSlots_cabacDec (e : Engine) (v : Memory) : (e.setSlots v).cabacDec = e.cabacDec := rfl
@[simp] theorem Engine.setSlots_vp8Enc (e : Engine) (v : Memory) : (e.setSlots v).vp8Enc = e.vp8Enc := rfl
@[simp] theorem Engine.setSlots_vp8Dec (e : Engine) (v : Memory) : (e.setSlots v).vp8Dec = e.vp8Dec := rfl
@[simp] theorem Engine.setSlots_ransEnc (e : Engine) (v : Memory) : (e.setSlots v).ransEnc = e.ransEnc := rfl
@[simp] theorem Engine.setSlots_ransDec (e : Engine) (v : Memory) : (e.setSlots v).ransDec = e.ransDec := rfl
@[simp] theorem Engine.setSlots_fpaq0Enc (e : Engine) (v : Memory) : (e.setSlots v).fpaq0Enc = e.fpaq0Enc := rfl
@[simp] theorem Engine.setSlots_fpaq0Dec (e : Engine) (v : Memory) : (e.setSlots v).fpaq0Dec = e.fpaq0Dec := rfl
@[simp] theorem Engine.setSlots_lanesEnc (e : Engine) (v : Memory) : (e.setSlots v).lanesEnc = e.lanesEnc := rfl
@[simp] theorem Engine.setSlots_lanesDec (e : Engine) (v : Memory) : (e.setSlots v).lanesDec = e.lanesDec := rfl
@[simp] theorem Engine.setSlots_ctx (e : Engine) (v : Memory) : (e.setSlots v).ctx = e.ctx := rfl
@[simp] theorem Engine.setSlots_sink (e : Engine) (v : Memory) : (e.setSlots v).sink = e.sink := rfl
@[simp] theorem Engine.setSlots_slots (e : Engine) (v : Memory) : (e.setSlots v).slots = v := rfl
@[simp] theorem Engine.setSlots_src (e : Engine) (v : Memory) : (e.setSlots v).src = e.src := rfl
@[simp] theorem Engine.setSlots_bitpos (e : Engine) (v : Memory) : (e.setSlots v).bitpos = e.bitpos := rfl
@[simp] theorem Engine.setSlots_staged (e : Engine) (v : Memory) : (e.setSlots v).staged = e.staged := rfl
@[simp] theorem Engine.setSlots_offers (e : Engine) (v : Memory) : (e.setSlots v).offers = e.offers := rfl
@[simp] theorem Engine.setSlots_responses (e : Engine) (v : Memory) : (e.setSlots v).responses = e.responses := rfl

@[simp] theorem Engine.setSrc_id (e : Engine) (v : List Byte) : (e.setSrc v).id = e.id := rfl
@[simp] theorem Engine.setSrc_phase (e : Engine) (v : List Byte) : (e.setSrc v).phase = e.phase := rfl
@[simp] theorem Engine.setSrc_cmdIndex (e : Engine) (v : List Byte) : (e.setSrc v).cmdIndex = e.cmdIndex := rfl
@[simp] theorem Engine.setSrc_fam (e : Engine) (v : List Byte) : (e.setSrc v).fam = e.fam := rfl
@[simp] theorem Engine.setSrc_dir (e : Engine) (v : List Byte) : (e.setSrc v).dir = e.dir := rfl
@[simp] theorem Engine.setSrc_laneCount (e : Engine) (v : List Byte) : (e.setSrc v).laneCount = e.laneCount := rfl
@[simp] theorem Engine.setSrc_eof (e : Engine) (v : List Byte) : (e.setSrc v).eof = e.eof := rfl
@[simp] theorem Engine.setSrc_lastErr (e : Engine) (v : List Byte) : (e.setSrc v).lastErr = e.lastErr := rfl
@[simp] theorem Engine.setSrc_cabacEnc (e : Engine) (v : List Byte) : (e.setSrc v).cabacEnc = e.cabacEnc := rfl
@[simp] theorem Engine.setSrc_cabacDec (e : Engine) (v : List Byte) : (e.setSrc v).cabacDec = e.cabacDec := rfl
@[simp] theorem Engine.setSrc_vp8Enc (e : Engine) (v : List Byte) : (e.setSrc v).vp8Enc = e.vp8Enc := rfl
@[simp] theorem Engine.setSrc_vp8Dec (e : Engine) (v : List Byte) : (e.setSrc v).vp8Dec = e.vp8Dec := rfl
@[simp] theorem Engine.setSrc_ransEnc (e : Engine) (v : List Byte) : (e.setSrc v).ransEnc = e.ransEnc := rfl
@[simp] theorem Engine.setSrc_ransDec (e : Engine) (v : List Byte) : (e.setSrc v).ransDec = e.ransDec := rfl
@[simp] theorem Engine.setSrc_fpaq0Enc (e : Engine) (v : List Byte) : (e.setSrc v).fpaq0Enc = e.fpaq0Enc := rfl
@[simp] theorem Engine.setSrc_fpaq0Dec (e : Engine) (v : List Byte) : (e.setSrc v).fpaq0Dec = e.fpaq0Dec := rfl
@[simp] theorem Engine.setSrc_lanesEnc (e : Engine) (v : List Byte) : (e.setSrc v).lanesEnc = e.lanesEnc := rfl
@[simp] theorem Engine.setSrc_lanesDec (e : Engine) (v : List Byte) : (e.setSrc v).lanesDec = e.lanesDec := rfl
@[simp] theorem Engine.setSrc_ctx (e : Engine) (v : List Byte) : (e.setSrc v).ctx = e.ctx := rfl
@[simp] theorem Engine.setSrc_sink (e : Engine) (v : List Byte) : (e.setSrc v).sink = e.sink := rfl
@[simp] theorem Engine.setSrc_slots (e : Engine) (v : List Byte) : (e.setSrc v).slots = e.slots := rfl
@[simp] theorem Engine.setSrc_src (e : Engine) (v : List Byte) : (e.setSrc v).src = v := rfl
@[simp] theorem Engine.setSrc_bitpos (e : Engine) (v : List Byte) : (e.setSrc v).bitpos = e.bitpos := rfl
@[simp] theorem Engine.setSrc_staged (e : Engine) (v : List Byte) : (e.setSrc v).staged = e.staged := rfl
@[simp] theorem Engine.setSrc_offers (e : Engine) (v : List Byte) : (e.setSrc v).offers = e.offers := rfl
@[simp] theorem Engine.setSrc_responses (e : Engine) (v : List Byte) : (e.setSrc v).responses = e.responses := rfl

@[simp] theorem Engine.setBitpos_id (e : Engine) (v : Nat) : (e.setBitpos v).id = e.id := rfl
@[simp] theorem Engine.setBitpos_phase (e : Engine) (v : Nat) : (e.setBitpos v).phase = e.phase := rfl
@[simp] theorem Engine.setBitpos_cmdIndex (e : Engine) (v : Nat) : (e.setBitpos v).cmdIndex = e.cmdIndex := rfl
@[simp] theorem Engine.setBitpos_fam (e : Engine) (v : Nat) : (e.setBitpos v).fam = e.fam := rfl
@[simp] theorem Engine.setBitpos_dir (e : Engine) (v : Nat) : (e.setBitpos v).dir = e.dir := rfl
@[simp] theorem Engine.setBitpos_laneCount (e : Engine) (v : Nat) : (e.setBitpos v).laneCount = e.laneCount := rfl
@[simp] theorem Engine.setBitpos_eof (e : Engine) (v : Nat) : (e.setBitpos v).eof = e.eof := rfl
@[simp] theorem Engine.setBitpos_lastErr (e : Engine) (v : Nat) : (e.setBitpos v).lastErr = e.lastErr := rfl
@[simp] theorem Engine.setBitpos_cabacEnc (e : Engine) (v : Nat) : (e.setBitpos v).cabacEnc = e.cabacEnc := rfl
@[simp] theorem Engine.setBitpos_cabacDec (e : Engine) (v : Nat) : (e.setBitpos v).cabacDec = e.cabacDec := rfl
@[simp] theorem Engine.setBitpos_vp8Enc (e : Engine) (v : Nat) : (e.setBitpos v).vp8Enc = e.vp8Enc := rfl
@[simp] theorem Engine.setBitpos_vp8Dec (e : Engine) (v : Nat) : (e.setBitpos v).vp8Dec = e.vp8Dec := rfl
@[simp] theorem Engine.setBitpos_ransEnc (e : Engine) (v : Nat) : (e.setBitpos v).ransEnc = e.ransEnc := rfl
@[simp] theorem Engine.setBitpos_ransDec (e : Engine) (v : Nat) : (e.setBitpos v).ransDec = e.ransDec := rfl
@[simp] theorem Engine.setBitpos_fpaq0Enc (e : Engine) (v : Nat) : (e.setBitpos v).fpaq0Enc = e.fpaq0Enc := rfl
@[simp] theorem Engine.setBitpos_fpaq0Dec (e : Engine) (v : Nat) : (e.setBitpos v).fpaq0Dec = e.fpaq0Dec := rfl
@[simp] theorem Engine.setBitpos_lanesEnc (e : Engine) (v : Nat) : (e.setBitpos v).lanesEnc = e.lanesEnc := rfl
@[simp] theorem Engine.setBitpos_lanesDec (e : Engine) (v : Nat) : (e.setBitpos v).lanesDec = e.lanesDec := rfl
@[simp] theorem Engine.setBitpos_ctx (e : Engine) (v : Nat) : (e.setBitpos v).ctx = e.ctx := rfl
@[simp] theorem Engine.setBitpos_sink (e : Engine) (v : Nat) : (e.setBitpos v).sink = e.sink := rfl
@[simp] theorem Engine.setBitpos_slots (e : Engine) (v : Nat) : (e.setBitpos v).slots = e.slots := rfl
@[simp] theorem Engine.setBitpos_src (e : Engine) (v : Nat) : (e.setBitpos v).src = e.src := rfl
@[simp] theorem Engine.setBitpos_bitpos (e : Engine) (v : Nat) : (e.setBitpos v).bitpos = v := rfl
@[simp] theorem Engine.setBitpos_staged (e : Engine) (v : Nat) : (e.setBitpos v).staged = e.staged := rfl
@[simp] theorem Engine.setBitpos_offers (e : Engine) (v : Nat) : (e.setBitpos v).offers = e.offers := rfl
@[simp] theorem Engine.setBitpos_responses (e : Engine) (v : Nat) : (e.setBitpos v).responses = e.responses := rfl

@[simp] theorem Engine.setStaged_id (e : Engine) (v : List Byte) : (e.setStaged v).id = e.id := rfl
@[simp] theorem Engine.setStaged_phase (e : Engine) (v : List Byte) : (e.setStaged v).phase = e.phase := rfl
@[simp] theorem Engine.setStaged_cmdIndex (e : Engine) (v : List Byte) : (e.setStaged v).cmdIndex = e.cmdIndex := rfl
@[simp] theorem Engine.setStaged_fam (e : Engine) (v : List Byte) : (e.setStaged v).fam = e.fam := rfl
@[simp] theorem Engine.setStaged_dir (e : Engine) (v : List Byte) : (e.setStaged v).dir = e.dir := rfl
@[simp] theorem Engine.setStaged_laneCount (e : Engine) (v : List Byte) : (e.setStaged v).laneCount = e.laneCount := rfl
@[simp] theorem Engine.setStaged_eof (e : Engine) (v : List Byte) : (e.setStaged v).eof = e.eof := rfl
@[simp] theorem Engine.setStaged_lastErr (e : Engine) (v : List Byte) : (e.setStaged v).lastErr = e.lastErr := rfl
@[simp] theorem Engine.setStaged_cabacEnc (e : Engine) (v : List Byte) : (e.setStaged v).cabacEnc = e.cabacEnc := rfl
@[simp] theorem Engine.setStaged_cabacDec (e : Engine) (v : List Byte) : (e.setStaged v).cabacDec = e.cabacDec := rfl
@[simp] theorem Engine.setStaged_vp8Enc (e : Engine) (v : List Byte) : (e.setStaged v).vp8Enc = e.vp8Enc := rfl
@[simp] theorem Engine.setStaged_vp8Dec (e : Engine) (v : List Byte) : (e.setStaged v).vp8Dec = e.vp8Dec := rfl
@[simp] theorem Engine.setStaged_ransEnc (e : Engine) (v : List Byte) : (e.setStaged v).ransEnc = e.ransEnc := rfl
@[simp] theorem Engine.setStaged_ransDec (e : Engine) (v : List Byte) : (e.setStaged v).ransDec = e.ransDec := rfl
@[simp] theorem Engine.setStaged_fpaq0Enc (e : Engine) (v : List Byte) : (e.setStaged v).fpaq0Enc = e.fpaq0Enc := rfl
@[simp] theorem Engine.setStaged_fpaq0Dec (e : Engine) (v : List Byte) : (e.setStaged v).fpaq0Dec = e.fpaq0Dec := rfl
@[simp] theorem Engine.setStaged_lanesEnc (e : Engine) (v : List Byte) : (e.setStaged v).lanesEnc = e.lanesEnc := rfl
@[simp] theorem Engine.setStaged_lanesDec (e : Engine) (v : List Byte) : (e.setStaged v).lanesDec = e.lanesDec := rfl
@[simp] theorem Engine.setStaged_ctx (e : Engine) (v : List Byte) : (e.setStaged v).ctx = e.ctx := rfl
@[simp] theorem Engine.setStaged_sink (e : Engine) (v : List Byte) : (e.setStaged v).sink = e.sink := rfl
@[simp] theorem Engine.setStaged_slots (e : Engine) (v : List Byte) : (e.setStaged v).slots = e.slots := rfl
@[simp] theorem Engine.setStaged_src (e : Engine) (v : List Byte) : (e.setStaged v).src = e.src := rfl
@[simp] theorem Engine.setStaged_bitpos (e : Engine) (v : List Byte) : (e.setStaged v).bitpos = e.bitpos := rfl
@[simp] theorem Engine.setStaged_staged (e : Engine) (v : List Byte) : (e.setStaged v).staged = v := rfl
@[simp] theorem Engine.setStaged_offers (e : Engine) (v : List Byte) : (e.setStaged v).offers = e.offers := rfl
@[simp] theorem Engine.setStaged_responses (e : Engine) (v : List Byte) : (e.setStaged v).responses = e.responses := rfl

@[simp] theorem Engine.setOffers_id (e : Engine) (v : Nat) : (e.setOffers v).id = e.id := rfl
@[simp] theorem Engine.setOffers_phase (e : Engine) (v : Nat) : (e.setOffers v).phase = e.phase := rfl
@[simp] theorem Engine.setOffers_cmdIndex (e : Engine) (v : Nat) : (e.setOffers v).cmdIndex = e.cmdIndex := rfl
@[simp] theorem Engine.setOffers_fam (e : Engine) (v : Nat) : (e.setOffers v).fam = e.fam := rfl
@[simp] theorem Engine.setOffers_dir (e : Engine) (v : Nat) : (e.setOffers v).dir = e.dir := rfl
@[simp] theorem Engine.setOffers_laneCount (e : Engine) (v : Nat) : (e.setOffers v).laneCount = e.laneCount := rfl
@[simp] theorem Engine.setOffers_eof (e : Engine) (v : Nat) : (e.setOffers v).eof = e.eof := rfl
@[simp] theorem Engine.setOffers_lastErr (e : Engine) (v : Nat) : (e.setOffers v).lastErr = e.lastErr := rfl
@[simp] theorem Engine.setOffers_cabacEnc (e : Engine) (v : Nat) : (e.setOffers v).cabacEnc = e.cabacEnc := rfl
@[simp] theorem Engine.setOffers_cabacDec (e : Engine) (v : Nat) : (e.setOffers v).cabacDec = e.cabacDec := rfl
@[simp] theorem Engine.setOffers_vp8Enc (e : Engine) (v : Nat) : (e.setOffers v).vp8Enc = e.vp8Enc := rfl
@[simp] theorem Engine.setOffers_vp8Dec (e : Engine) (v : Nat) : (e.setOffers v).vp8Dec = e.vp8Dec := rfl
@[simp] theorem Engine.setOffers_ransEnc (e : Engine) (v : Nat) : (e.setOffers v).ransEnc = e.ransEnc := rfl
@[simp] theorem Engine.setOffers_ransDec (e : Engine) (v : Nat) : (e.setOffers v).ransDec = e.ransDec := rfl
@[simp] theorem Engine.setOffers_fpaq0Enc (e : Engine) (v : Nat) : (e.setOffers v).fpaq0Enc = e.fpaq0Enc := rfl
@[simp] theorem Engine.setOffers_fpaq0Dec (e : Engine) (v : Nat) : (e.setOffers v).fpaq0Dec = e.fpaq0Dec := rfl
@[simp] theorem Engine.setOffers_lanesEnc (e : Engine) (v : Nat) : (e.setOffers v).lanesEnc = e.lanesEnc := rfl
@[simp] theorem Engine.setOffers_lanesDec (e : Engine) (v : Nat) : (e.setOffers v).lanesDec = e.lanesDec := rfl
@[simp] theorem Engine.setOffers_ctx (e : Engine) (v : Nat) : (e.setOffers v).ctx = e.ctx := rfl
@[simp] theorem Engine.setOffers_sink (e : Engine) (v : Nat) : (e.setOffers v).sink = e.sink := rfl
@[simp] theorem Engine.setOffers_slots (e : Engine) (v : Nat) : (e.setOffers v).slots = e.slots := rfl
@[simp] theorem Engine.setOffers_src (e : Engine) (v : Nat) : (e.setOffers v).src = e.src := rfl
@[simp] theorem Engine.setOffers_bitpos (e : Engine) (v : Nat) : (e.setOffers v).bitpos = e.bitpos := rfl
@[simp] theorem Engine.setOffers_staged (e : Engine) (v : Nat) : (e.setOffers v).staged = e.staged := rfl
@[simp] theorem Engine.setOffers_offers (e : Engine) (v : Nat) : (e.setOffers v).offers = v := rfl
@[simp] theorem Engine.setOffers_responses (e : Engine) (v : Nat) : (e.setOffers v).responses = e.responses := rfl

@[simp] theorem Engine.setResponses_id (e : Engine) (v : List Response) : (e.setResponses v).id = e.id := rfl
@[simp] theorem Engine.setResponses_phase (e : Engine) (v : List Response) : (e.setResponses v).phase = e.phase := rfl
@[simp] theorem Engine.setResponses_cmdIndex (e : Engine) (v : List Response) : (e.setResponses v).cmdIndex = e.cmdIndex := rfl
@[simp] theorem Engine.setResponses_fam (e : Engine) (v : List Response) : (e.setResponses v).fam = e.fam := rfl
@[simp] theorem Engine.setResponses_dir (e : Engine) (v : List Response) : (e.setResponses v).dir = e.dir := rfl
@[simp] theorem Engine.setResponses_laneCount (e : Engine) (v : List Response) : (e.setResponses v).laneCount = e.laneCount := rfl
@[simp] theorem Engine.setResponses_eof (e : Engine) (v : List Response) : (e.setResponses v).eof = e.eof := rfl
@[simp] theorem Engine.setResponses_lastErr (e : Engine) (v : List Response) : (e.setResponses v).lastErr = e.lastErr := rfl
@[simp] theorem Engine.setResponses_cabacEnc (e : Engine) (v : List Response) : (e.setResponses v).cabacEnc = e.cabacEnc := rfl
@[simp] theorem Engine.setResponses_cabacDec (e : Engine) (v : List Response) : (e.setResponses v).cabacDec = e.cabacDec := rfl
@[simp] theorem Engine.setResponses_vp8Enc (e : Engine) (v : List Response) : (e.setResponses v).vp8Enc = e.vp8Enc := rfl
@[simp] theorem Engine.setResponses_vp8Dec (e : Engine) (v : List Response) : (e.setResponses v).vp8Dec = e.vp8Dec := rfl
@[simp] theorem Engine.setResponses_ransEnc (e : Engine) (v : List Response) : (e.setResponses v).ransEnc = e.ransEnc := rfl
@[simp] theorem Engine.setResponses_ransDec (e : Engine) (v : List Response) : (e.setResponses v).ransDec = e.ransDec := rfl
@[simp] theorem Engine.setResponses_fpaq0Enc (e : Engine) (v : List Response) : (e.setResponses v).fpaq0Enc = e.fpaq0Enc := rfl
@[simp] theorem Engine.setResponses_fpaq0Dec (e : Engine) (v : List Response) : (e.setResponses v).fpaq0Dec = e.fpaq0Dec := rfl
@[simp] theorem Engine.setResponses_lanesEnc (e : Engine) (v : List Response) : (e.setResponses v).lanesEnc = e.lanesEnc := rfl
@[simp] theorem Engine.setResponses_lanesDec (e : Engine) (v : List Response) : (e.setResponses v).lanesDec = e.lanesDec := rfl
@[simp] theorem Engine.setResponses_ctx (e : Engine) (v : List Response) : (e.setResponses v).ctx = e.ctx := rfl
@[simp] theorem Engine.setResponses_sink (e : Engine) (v : List Response) : (e.setResponses v).sink = e.sink := rfl
@[simp] theorem Engine.setResponses_slots (e : Engine) (v : List Response) : (e.setResponses v).slots = e.slots := rfl
@[simp] theorem Engine.setResponses_src (e : Engine) (v : List Response) : (e.setResponses v).src = e.src := rfl
@[simp] theorem Engine.setResponses_bitpos (e : Engine) (v : List Response) : (e.setResponses v).bitpos = e.bitpos := rfl
@[simp] theorem Engine.setResponses_staged (e : Engine) (v : List Response) : (e.setResponses v).staged = e.staged := rfl
@[simp] theorem Engine.setResponses_offers (e : Engine) (v : List Response) : (e.setResponses v).offers = e.offers := rfl
@[simp] theorem Engine.setResponses_responses (e : Engine) (v : List Response) : (e.setResponses v).responses = v := rfl

@[simp] theorem State.setEngines_params (s : State) (v : List Engine) : (s.setEngines v).params = s.params := rfl
@[simp] theorem State.setEngines_engines (s : State) (v : List Engine) : (s.setEngines v).engines = v := rfl
@[simp] theorem State.setEngines_sel (s : State) (v : List Engine) : (s.setEngines v).sel = s.sel := rfl
@[simp] theorem State.setEngines_host (s : State) (v : List Engine) : (s.setEngines v).host = s.host := rfl
@[simp] theorem State.setEngines_readBack (s : State) (v : List Engine) : (s.setEngines v).readBack = s.readBack := rfl

@[simp] theorem State.setSel_params (s : State) (v : Nat) : (s.setSel v).params = s.params := rfl
@[simp] theorem State.setSel_engines (s : State) (v : Nat) : (s.setSel v).engines = s.engines := rfl
@[simp] theorem State.setSel_sel (s : State) (v : Nat) : (s.setSel v).sel = v := rfl
@[simp] theorem State.setSel_host (s : State) (v : Nat) : (s.setSel v).host = s.host := rfl
@[simp] theorem State.setSel_readBack (s : State) (v : Nat) : (s.setSel v).readBack = s.readBack := rfl

@[simp] theorem State.setHost_params (s : State) (v : List HostAction) : (s.setHost v).params = s.params := rfl
@[simp] theorem State.setHost_engines (s : State) (v : List HostAction) : (s.setHost v).engines = s.engines := rfl
@[simp] theorem State.setHost_sel (s : State) (v : List HostAction) : (s.setHost v).sel = s.sel := rfl
@[simp] theorem State.setHost_host (s : State) (v : List HostAction) : (s.setHost v).host = v := rfl
@[simp] theorem State.setHost_readBack (s : State) (v : List HostAction) : (s.setHost v).readBack = s.readBack := rfl

@[simp] theorem State.setReadBack_params (s : State) (v : List Byte) : (s.setReadBack v).params = s.params := rfl
@[simp] theorem State.setReadBack_engines (s : State) (v : List Byte) : (s.setReadBack v).engines = s.engines := rfl
@[simp] theorem State.setReadBack_sel (s : State) (v : List Byte) : (s.setReadBack v).sel = s.sel := rfl
@[simp] theorem State.setReadBack_host (s : State) (v : List Byte) : (s.setReadBack v).host = s.host := rfl
@[simp] theorem State.setReadBack_readBack (s : State) (v : List Byte) : (s.setReadBack v).readBack = v := rfl

end Sys2Proof.Machine
end

