-- ==== Sys2Proof/Laws/Exec.lean ====
section
/-! SUPPORT. Every command runs in one frame: `exec_eq` gives its rule as a function, so that a statement about all commands
splits the frame once. Then what the frame, the error's entry and a step do. -/

namespace Sys2Proof.Machine

open Sys2Proof

/-- The rule of a command, inside the frame of `runCommand`. -/
def instrBody (i : Instr) : Params → Engine → Res Reply :=
  match i with
  | .cabacOpenEnc => fun _ e => .ok .none ((openEncoder .cabac 1 e).setCabacEnc ⟨0, 510, 0, true⟩)
  | .cabacOpenDec eof => cabacOpenDecBody eof
  | .cabacPut b c => cabacPutBody b c
  | .cabacPutBypass b => cabacPutBypassBody b
  | .cabacPutTerm b => cabacPutTermBody b
  | .cabacFinish => cabacTerminate
  | .cabacGet c => cabacGetBody c
  | .cabacGetBypass => cabacGetBypassBody
  | .cabacGetTerm => cabacGetTermBody
  | .cabacCtxInit c => fun _ e => .ok .none (ctxSet e c (initialCtx .cabac))
  | .cabacCtxInitAll => fun _ e => .ok .none (ctxReset e)
  | .cabacCtxUpdate b c => fun p e => .ok .none (cabacCtxUpdate p c b e)
  | .cabacCtxRead c => fun _ e => .ok (.ofCtx (ctxGet e c)) e
  | .vp8OpenEnc => fun _ e => .ok .none ((openEncoder .vp8 1 e).setVp8Enc ⟨0, 255, 0, 0, false, 0⟩)
  | .vp8OpenDec eof => vp8OpenDecBody eof
  | .vp8Put b c => vp8PutBody b c
  | .vp8PutBypass b => vp8PutBypassBody b
  | .vp8Finish => vp8FinishBody
  | .vp8Get c => vp8GetBody c
  | .vp8GetBypass => vp8GetBypassBody
  | .vp8CtxInit c => fun _ e => .ok .none (ctxSet e c (initialCtx .vp8))
  | .vp8CtxInitAll => fun _ e => .ok .none (ctxReset e)
  | .vp8CtxUpdate b c => fun _ e => .ok .none (probCtxUpdate c b e)
  | .vp8CtxRead c => fun _ e => .ok (.ofCtx (ctxGet e c)) e
  | .ransOpenEnc => ransOpenEncBody
  | .ransOpenDec eof => ransOpenDecBody eof
  | .ransPut b c => ransPutBody b c
  | .ransPutBypass b => ransPutBypassBody b
  | .ransFinish => ransFinishBody
  | .ransGet c => ransGetBody c
  | .ransGetBypass => ransGetBypassBody
  | .ransCtxInit c => fun _ e => .ok .none (ctxSet e c (initialCtx .rans))
  | .ransCtxInitAll => fun _ e => .ok .none (ctxReset e)
  | .ransCtxUpdate b c => fun _ e => .ok .none (probCtxUpdate c b e)
  | .ransCtxRead c => fun _ e => .ok (.ofCtx (ctxGet e c)) e
  | .fpaq0OpenEnc => fun _ e => .ok .none ((openEncoder .fpaq0 1 e).setFpaq0Enc ⟨0, 0xFFFFFFFF⟩)
  | .fpaq0OpenDec eof => fpaq0OpenDecBody eof
  | .fpaq0Put b c => fpaq0PutBody b c
  | .fpaq0PutBypass b => fpaq0PutBypassBody b
  | .fpaq0Finish => fpaq0FinishBody
  | .fpaq0Get c => fpaq0GetBody c
  | .fpaq0GetBypass => fpaq0GetBypassBody
  | .fpaq0CtxInit c => fun _ e => .ok .none (ctxSet e c (initialCtx .fpaq0))
  | .fpaq0CtxInitAll => fun _ e => .ok .none (ctxReset e)
  | .fpaq0CtxUpdate b c => fun _ e => .ok .none (probCtxUpdate c b e)
  | .fpaq0CtxRead c => fun _ e => .ok (.ofCtx (ctxGet e c)) e
  | .fpaq0pOpenEnc n =>
    fun _ e => .ok .none ((openEncoder .fpaq0p n e).setLanesEnc (List.replicate n ⟨0, 0xFFFFFFFF, 0⟩))
  | .fpaq0pOpenDec n eof => fpaq0pOpenDecBody n eof
  | .fpaq0pPut l b c => fpaq0pPutBody l b c
  | .fpaq0pPutBypass l b => fpaq0pPutBypassBody l b
  | .fpaq0pFinish => fpaq0pFinishBody
  | .fpaq0pGet l c => fpaq0pGetBody l c
  | .fpaq0pGetBypass l => fpaq0pGetBypassBody l
  | .fpaq0pCtxInit c => fun _ e => .ok .none (ctxSet e c (initialCtx .fpaq0p))
  | .fpaq0pCtxInitAll => fun _ e => .ok .none (ctxReset e)
  | .fpaq0pCtxUpdate b c => fun _ e => .ok .none (probCtxUpdate c b e)
  | .fpaq0pCtxRead c => fun _ e => .ok (.ofCtx (ctxGet e c)) e

/-- Every command is its rule in the frame of R130. -/
theorem exec_eq (i : Instr) (s : State) :
    exec i s = runCommand i.family i.op (laneOperand i) (ctxOperand i) (instrBody i) s := by
  cases i <;> rfl

/-- A command on an engine that exists: the rule where the checks pass, else the error they name. -/
theorem runCommand_engine {s : State} {e : Engine} (h : s.engine? = some e) (f : Family) (o : Op) (l c : Option Nat)
    (body : Params → Engine → Res Reply) :
    runCommand f o l c body s = .next (s.withEngine
      (if checkCommand s.params e f o l c = .ok then settle o (body s.params e)
       else raiseErr (opBits o) (checkCommand s.params e f o l c) e)) := by
  simp only [runCommand, h]
  split <;> rfl

/-- A command on a port that does not exist faults. -/
theorem runCommand_noEngine {s : State} (h : s.engine? = none) (f : Family) (o : Op) (l c : Option Nat)
    (body : Params → Engine → Res Reply) : runCommand f o l c body s = .fault .noSuchEngine := by
  simp only [runCommand, h]

/-- Every command on an engine that exists goes on, and changes that engine only. -/
theorem exec_engine {s : State} {e : Engine} (h : s.engine? = some e) (i : Instr) :
    exec i s = .next (s.withEngine
      (if checkCommand s.params e i.family i.op (laneOperand i) (ctxOperand i) = .ok
       then settle i.op (instrBody i s.params e)
       else raiseErr (opBits i.op) (checkCommand s.params e i.family i.op (laneOperand i) (ctxOperand i)) e)) := by
  rw [exec_eq, runCommand_engine h]

/-- A command that goes on ran on an engine that exists. -/
theorem engine_of_exec_next {i : Instr} {s t : State} (h : exec i s = .next t) : ∃ e, s.engine? = some e := by
  cases he : s.engine? with
  | some e => exact ⟨e, rfl⟩
  | none => rw [exec_eq, runCommand_noEngine he] at h; cases h

/-! ### The selected engine -/

/-- The selected engine after it was replaced. -/
theorem engine?_withEngine {s : State} {e : Engine} (h : s.engine? = some e) (t : Engine) :
    (s.withEngine t).engine? = some t := by
  have hlt : s.sel < s.engines.length := (List.getElem?_eq_some_iff.mp h).1
  simp [State.engine?, State.withEngine, State.setEngines, hlt]

/-- Any other engine after the selected one was replaced. -/
theorem engines_withEngine_ne {s : State} {n : Nat} (h : n ≠ s.sel) (t : Engine) :
    (s.withEngine t).engines[n]? = s.engines[n]? := by
  simp [State.withEngine, State.setEngines, h.symm]

/-- Replacing the selected engine changes only the list of engines. -/
theorem withEngine_eq (s : State) (t : Engine) :
    s.withEngine t = { s with engines := s.engines.set s.sel t } := rfl

@[simp] theorem withEngine_params (s : State) (t : Engine) : (s.withEngine t).params = s.params := rfl
@[simp] theorem withEngine_sel (s : State) (t : Engine) : (s.withEngine t).sel = s.sel := rfl
@[simp] theorem withEngine_host (s : State) (t : Engine) : (s.withEngine t).host = s.host := rfl
@[simp] theorem withEngine_readBack (s : State) (t : Engine) : (s.withEngine t).readBack = s.readBack := rfl

/-- The engines after the selected one was replaced are the new one and the other old ones. -/
theorem mem_withEngine {s : State} {t e : Engine} (h : e ∈ (s.withEngine t).engines) : e = t ∨ e ∈ s.engines :=
  (List.mem_or_eq_of_mem_set h).symm

/-! ### The end of a command -/

/-- What taking an exception changes (R360). -/
theorem raiseErr_eq (op : BitVec 4) (code : Status) (e : Engine) :
    raiseErr op code e =
      { e with
        phase := .faulted
        lastErr := code
        cmdIndex := e.cmdIndex + 1
        responses := ⟨code, op, false, 0, []⟩ :: e.responses } := rfl

/-- What completing a command changes (R21, R35). -/
theorem completeCmd_eq (op : BitVec 4) (r : Reply) (e : Engine) :
    completeCmd op r e =
      { e with
        lastErr := .ok
        cmdIndex := e.cmdIndex + 1
        responses := ⟨.ok, op, r.bit, r.ctx, r.out⟩ :: e.responses } := rfl

@[simp] theorem settle_ok (o : Op) (r : Reply) (e : Engine) : settle o (.ok r e) = completeCmd (opBits o) r e := rfl
@[simp] theorem settle_raised (o : Op) (c : Status) (e : Engine) :
    settle o (.raised c e) = raiseErr (opBits o) c e := rfl

/-- What every OPEN sets (R53, R54). -/
theorem openSession_eq (f : Family) (d : Dir) (n : Nat) (eof : Bool) (src : List Byte) (e : Engine) :
    openSession f d n eof src e =
      { e with
        phase := match d with | .enc => .enc | .dec => .dec
        fam := f
        dir := d
        laneCount := n
        eof := eof
        ctx := []
        sink := []
        slots := []
        src := src
        bitpos := 0 } := rfl

/-- FINISH ends in phase Finished with the output as its reply. -/
theorem finishSession_eq (e : Engine) :
    finishSession e = .ok (.ofOut (e.setPhase .finished).output) (e.setPhase .finished) := rfl

/-- The order of the checks of R130: phase and family, lane, context. -/
theorem checkCommand_eq_ok {p : Params} {e : Engine} {f : Family} {o : Op} {l c : Option Nat} :
    checkCommand p e f o l c = .ok ↔
      legalNow e f o = true ∧ (∀ x ∈ l, x < e.laneCount) ∧ (∀ x ∈ c, x < p.numCtx) := by
  unfold checkCommand
  cases h : legalNow e f o <;> cases l <;> cases c <;> simp <;> split <;> try split
  all_goals simp_all

/-! ### A step -/

/-- With no host action pending the machine keeps its state (R373). -/
theorem step_nil {s : State} (h : s.host = []) : step s = .next s := by simp only [step, h]

/-- A step takes the host's next action. -/
theorem step_cons {s : State} {a : HostAction} {rest : List HostAction} (h : s.host = a :: rest) :
    step s = takeAction a (s.setHost rest) := by simp only [step, h]

/-- Everything a step can do: wait, execute a command word, raise ILLEGAL_COMMAND for another word, place an input, or
hand out an output. -/
theorem step_cases {s t : State} (h : step s = .next t) :
    (s.host = [] ∧ t = s) ∨
    (∃ n w rest i, s.host = .command n w :: rest ∧ decode w = .ok i ∧ exec i ((s.setHost rest).setSel n) = .next t) ∨
    (∃ n w rest e err, s.host = .command n w :: rest ∧ decode w = .error err ∧ s.engines[n]? = some e ∧
      t = ((s.setHost rest).setSel n).withEngine (raiseErr (w.extractLsb' 24 4) .illegalCommand e)) ∨
    (∃ n bs rest e, (s.host = .placeInput n bs :: rest ∨ s.host = .overwriteInput n bs :: rest ∧ inputLatched e = false) ∧
      s.engines[n]? = some e ∧ t = (s.setHost rest).setEngines (s.engines.set n (e.setStaged bs))) ∨
    (∃ n rest e, s.host = .readOutput n :: rest ∧ s.engines[n]? = some e ∧ e.phase = .finished ∧
      t = (s.setHost rest).setReadBack e.output) := by
  cases hs : s.host with
  | nil => rw [step_nil hs] at h; exact .inl ⟨rfl, by injection h with h; exact h.symm⟩
  | cons a rest =>
    rw [step_cons hs] at h
    right
    cases a with
    | command n w =>
      simp only [takeAction, issueWord] at h
      cases hd : decode w with
      | ok i => rw [hd] at h; exact .inl ⟨n, w, rest, i, rfl, hd, h⟩
      | error err =>
        rw [hd] at h
        simp only [illegalWord] at h
        cases he : ((s.setHost rest).setSel n).engine? with
        | none => rw [he] at h; cases h
        | some e =>
          rw [he] at h
          injection h with h
          exact .inr (.inl ⟨n, w, rest, e, err, rfl, hd, he, h.symm⟩)
    | placeInput n bs =>
      simp only [takeAction, placeInput] at h
      cases he : (s.setHost rest).engines[n]? with
      | none => rw [he] at h; cases h
      | some e =>
        rw [he] at h
        injection h with h
        exact .inr (.inr (.inl ⟨n, bs, rest, e, .inl rfl, he, h.symm⟩))
    | overwriteInput n bs =>
      simp only [takeAction, overwriteInput] at h
      cases he : (s.setHost rest).engines[n]? with
      | none => rw [he] at h; cases h
      | some e =>
        simp only [he] at h
        split at h
        · cases h
        · next hl =>
          simp only [placeInput, he] at h
          injection h with h
          exact .inr (.inr (.inl ⟨n, bs, rest, e, .inr ⟨rfl, by simpa using hl⟩, he, h.symm⟩))
    | readOutput n =>
      simp only [takeAction, readOutput] at h
      cases he : (s.setHost rest).engines[n]? with
      | none => rw [he] at h; cases h
      | some e =>
        simp only [he, Engine.readableOutput] at h
        by_cases hp : e.phase = .finished
        · simp only [hp, if_true] at h
          injection h with h
          exact .inr (.inr (.inr ⟨n, rest, e, rfl, he, hp, h.symm⟩))
        · simp only [hp, if_false] at h; cases h

end Sys2Proof.Machine
end

