-- ==== Sys2Proof/Laws/Memory.lean ====
section
/-! SUPPORT. The laws of sparse memories: what a read gives after a write, that every operation keeps the canonical form,
that equal memories are equal data, and the same of context entries and slots. -/

namespace Sys2Proof.Machine

open Sys2Proof

/-- A lookup after `insertCell` gives the new byte at its address and the old answer elsewhere. -/
theorem lookup_insertCell (a a' : Nat) (v : Byte) (m : Memory) :
    Memory.lookup a' (Memory.insertCell a v m) = if a' = a then some v else Memory.lookup a' m := by
  induction m with
  | nil => simp only [Memory.insertCell, Memory.lookup, eq_comm]
  | cons c m ih =>
    by_cases h' : a' = a
    · subst h'
      simp only [Memory.insertCell]
      split
      · simp [Memory.lookup]
      · split
        · simp [Memory.lookup]
        · next hne => rw [Memory.lookup, if_neg (fun h => hne h.symm), ih, if_pos rfl, if_pos trivial]
    · rw [if_neg h'] at ih ⊢
      simp only [Memory.insertCell]
      split
      · rw [Memory.lookup, if_neg (fun h => h' h.symm)]
      · split
        · next _ heq =>
          rw [Memory.lookup, if_neg (fun h => h' h.symm), Memory.lookup, if_neg (fun h => h' (h.symm.trans heq.symm))]
        · rw [Memory.lookup, Memory.lookup, ih]

/-- In a memory whose addresses all lie above `a`, nothing is listed at `a`. -/
theorem lookup_eq_none_of_lt {a : Nat} {m : Memory} (h : ∀ c ∈ m, a < c.1) : Memory.lookup a m = none := by
  induction m with
  | nil => rfl
  | cons c m ih =>
    have := h c (by simp)
    rw [Memory.lookup, if_neg (by omega)]
    exact ih fun x hx => h x (by simp [hx])

/-- A lookup after `erase` gives nothing at its address and the old answer elsewhere. -/
theorem lookup_erase (a a' : Nat) {m : Memory} (h : m.Pairwise (fun x y => x.1 < y.1)) :
    Memory.lookup a' (Memory.erase a m) = if a' = a then none else Memory.lookup a' m := by
  induction m with
  | nil => simp [Memory.erase, Memory.lookup]
  | cons c m ih =>
    obtain ⟨hc, hm⟩ := List.pairwise_cons.mp h
    simp only [Memory.erase]
    split
    · next hca =>
      split
      · subst a' a; exact lookup_eq_none_of_lt hc
      · rw [Memory.lookup, if_neg (by omega)]
    · next hca =>
      simp only [Memory.lookup, ih hm]
      split <;> split <;> first | rfl | omega

/-- The entries of a memory after `insertCell`. -/
theorem mem_insertCell {a : Nat} {v : Byte} {m : Memory} {c : Host.Cell}
    (h : c ∈ Memory.insertCell a v m) : c = (a, v) ∨ c ∈ m := by
  induction m with
  | nil => simpa [Memory.insertCell] using h
  | cons x m ih =>
    simp only [Memory.insertCell] at h
    split at h
    · simpa using h
    · split at h
      · simp only [List.mem_cons] at h ⊢; tauto
      · simp only [List.mem_cons] at h ⊢
        rcases h with h | h
        · tauto
        · rcases ih h with h | h <;> tauto

/-- The entries of a memory after `erase` were there before. -/
theorem mem_of_mem_erase {a : Nat} {m : Memory} {c : Host.Cell} (h : c ∈ Memory.erase a m) : c ∈ m := by
  induction m with
  | nil => simp [Memory.erase] at h
  | cons x m ih =>
    simp only [Memory.erase] at h
    split at h
    · simp [h]
    · simp only [List.mem_cons] at h ⊢; tauto

/-- `insertCell` keeps the canonical form when the byte is not what an unlisted address reads as. -/
theorem wf_insertCell {d : Option Byte} {m : Memory} (a : Nat) {v : Byte} (hv : d ≠ some v)
    (h : Memory.wf d m) : Memory.wf d (Memory.insertCell a v m) := by
  refine ⟨?_, fun c hc => ?_⟩
  · obtain ⟨h, -⟩ := h
    induction m with
    | nil => simp [Memory.insertCell]
    | cons c m ih =>
      obtain ⟨hc, hm⟩ := List.pairwise_cons.mp h
      simp only [Memory.insertCell]
      split
      · next hlt =>
        refine List.pairwise_cons.mpr ⟨fun x hx => ?_, h⟩
        rcases List.mem_cons.mp hx with rfl | hx
        · exact hlt
        · exact hlt.trans (hc x hx)
      · split
        · next _ heq => exact List.pairwise_cons.mpr ⟨fun x hx => by have := hc x hx; simp; omega, hm⟩
        · refine List.pairwise_cons.mpr ⟨fun x hx => ?_, ih hm⟩
          rcases mem_insertCell hx with rfl | hx
          · simp; omega
          · exact hc x hx
  · rcases mem_insertCell hc with rfl | hc
    · exact hv
    · exact h.2 c hc

/-- `erase` keeps the canonical form. -/
theorem wf_erase {d : Option Byte} {m : Memory} (a : Nat) (h : Memory.wf d m) : Memory.wf d (Memory.erase a m) := by
  refine ⟨?_, fun c hc => h.2 c (mem_of_mem_erase hc)⟩
  obtain ⟨h, -⟩ := h
  induction m with
  | nil => simp [Memory.erase]
  | cons c m ih =>
    obtain ⟨hc, hm⟩ := List.pairwise_cons.mp h
    simp only [Memory.erase]
    split
    · exact hm
    · exact List.pairwise_cons.mpr ⟨fun x hx => hc x (mem_of_mem_erase hx), ih hm⟩

/-- A write keeps the canonical form. -/
theorem wf_write {d : Option Byte} {m : Memory} (a : Nat) (v : Byte) (h : Memory.wf d m) :
    Memory.wf d (Memory.write d m a v) := by
  unfold Memory.write
  split
  · exact wf_erase a h
  · next hv => exact wf_insertCell a hv h

/-- A memory with nothing listed is in canonical form. -/
theorem wf_nil (d : Option Byte) : Memory.wf d [] :=
  ⟨List.Pairwise.nil, by simp⟩

/-- An unlisted memory reads as its default everywhere. -/
@[simp] theorem read_nil (d : Option Byte) (a : Nat) : Memory.read d [] a = d := by simp [Memory.read, Memory.lookup]

/-- A read after a write gives the byte written at its address, and what it gave before elsewhere. -/
theorem read_write {d : Option Byte} {m : Memory} (a a' : Nat) (v : Byte) (h : Memory.wf d m) :
    Memory.read d (Memory.write d m a v) a' = if a' = a then some v else Memory.read d m a' := by
  unfold Memory.write Memory.read
  split
  · next hd =>
    rw [lookup_erase a a' h.1]
    split <;> simp [hd]
  · rw [lookup_insertCell]
    split <;> simp

/-- An entry of a canonical memory is what a lookup at its address gives. -/
theorem lookup_of_mem {m : Memory} (h : m.Pairwise (fun x y => x.1 < y.1)) {c : Host.Cell} (hc : c ∈ m) :
    Memory.lookup c.1 m = some c.2 := by
  induction m with
  | nil => simp at hc
  | cons x m ih =>
    obtain ⟨hx, hm⟩ := List.pairwise_cons.mp h
    rcases List.mem_cons.mp hc with rfl | hc
    · simp [Memory.lookup]
    · have := hx c hc
      rw [Memory.lookup, if_neg (by omega), ih hm hc]

/-- What a lookup gives is an entry. -/
theorem mem_of_lookup {m : Memory} {a : Nat} {v : Byte} (h : Memory.lookup a m = some v) : (a, v) ∈ m := by
  induction m with
  | nil => simp [Memory.lookup] at h
  | cons x m ih =>
    rw [Memory.lookup] at h
    split at h
    · next hx => simp only [Option.some.injEq] at h; subst hx h; simp
    · simp [ih h]

/-- Canonical memories with the same lookups are equal data. -/
theorem memory_ext {m m' : Memory} (h : m.Pairwise (fun x y => x.1 < y.1)) (h' : m'.Pairwise (fun x y => x.1 < y.1))
    (hl : ∀ a, Memory.lookup a m = Memory.lookup a m') : m = m' := by
  have key : ∀ c, c ∈ m ↔ c ∈ m' := fun c =>
    ⟨fun hc => mem_of_lookup (by rw [← hl, lookup_of_mem h hc]), fun hc => mem_of_lookup (by rw [hl, lookup_of_mem h' hc])⟩
  have irr : ∀ {l : Memory}, l.Pairwise (fun x y => x.1 < y.1) → l.Nodup :=
    fun hl => hl.imp fun h e => by rw [e] at h; omega
  exact ((List.perm_ext_iff_of_nodup (irr h) (irr h')).mpr key).eq_of_pairwise
    (fun a b _ _ h1 h2 => absurd h1 (by omega)) h h'

/-! ### Context entries and slots -/

/-- A context read after a context write: the byte written at its entry, and what it was before elsewhere. -/
theorem ctxGet_ctxSet {e : Engine} (c c' : Nat) (v : Byte) (h : Memory.wf (some (initialCtx e.fam)) e.ctx) :
    ctxGet (ctxSet e c v) c' = if c' = c then v else ctxGet e c' := by
  have := read_write c c' v h
  simp only [ctxGet, ctxSet, Engine.setCtx, this]
  split <;> rfl

/-- A context write keeps the context memory canonical. -/
theorem wf_ctxSet {e : Engine} (c : Nat) (v : Byte) (h : Memory.wf (some (initialCtx e.fam)) e.ctx) :
    Memory.wf (some (initialCtx (ctxSet e c v).fam)) (ctxSet e c v).ctx := wf_write c v h

/-- After `ctxReset` every entry is initial. -/
@[simp] theorem ctxGet_ctxReset (e : Engine) (c : Nat) : ctxGet (ctxReset e) c = initialCtx e.fam := by
  simp [ctxGet, ctxReset, Engine.setCtx]

/-- A slot read back after a slot write. -/
theorem slotByte_slotWrite {e : Engine} (pos pos' : Nat) (v : Byte) (h : Memory.wf none e.slots) :
    slotByte (slotWrite pos v e) pos' = if pos' = pos then v else slotByte e pos' := by
  have := read_write pos pos' v h
  simp only [slotByte, slotWrite, Engine.setSlots, this]
  split <;> rfl

/-- A slot write keeps the slot buffer canonical. -/
theorem wf_slotWrite {e : Engine} (pos : Nat) (v : Byte) (h : Memory.wf none e.slots) :
    Memory.wf none (slotWrite pos v e).slots := wf_write pos v h

/-- Every memory of the machine after reset is in canonical form. -/
theorem reset_wf : ∀ e ∈ State.reset.engines,
    Memory.wf (some (initialCtx e.fam)) e.ctx ∧ Memory.wf none e.slots := by decide

end Sys2Proof.Machine
end

