-- ==== Sys2Proof/Laws/Ops.lean ====
section
/-! SUPPORT. For each shared operation what it can do: its value and its whole effect, to be cited instead of unfolding it.
A frame lemma says it of every outcome, by way of `Res.engine`. -/

namespace Sys2Proof.Machine

open Sys2Proof

/-- The engine an outcome leaves, whether it went on or raised an error. -/
def Res.engine {α : Type} : Res α → Engine
  | .ok _ e => e
  | .raised _ e => e

@[simp] theorem Res.engine_ok {α : Type} (a : α) (e : Engine) : (Res.ok a e).engine = e := rfl
@[simp] theorem Res.engine_raised {α : Type} (c : Status) (e : Engine) : (Res.raised c e : Res α).engine = e := rfl

/-! ### The range registers -/

@[simp] theorem CabacEnc.range_toNat (r : CabacEnc) : r.range.toNat = r.range9.toNat := by
  have := r.range9.isLt
  simp only [CabacEnc.range, BitVec.toNat_setWidth]
  omega

@[simp] theorem CabacEnc.setRange_range9 (r : CabacEnc) (v : Word) : (r.setRange v).range9.toNat = v.toNat % 2 ^ 9 := by
  simp [CabacEnc.setRange]

/-- A value of 9 bits is kept whole. -/
theorem CabacEnc.range_setRange (r : CabacEnc) (v : Word) (h : v.toNat < 2 ^ 9) : (r.setRange v).range = v :=
  BitVec.eq_of_toNat_eq (by rw [range_toNat, setRange_range9, Nat.mod_eq_of_lt h])

theorem CabacEnc.range_lt (r : CabacEnc) : r.range.toNat < 2 ^ 9 := r.range_toNat ▸ r.range9.isLt
@[simp] theorem CabacEnc.setRange_low (r : CabacEnc) (v : Word) : (r.setRange v).low = r.low := rfl
@[simp] theorem CabacEnc.setRange_outstanding (r : CabacEnc) (v : Word) : (r.setRange v).outstanding = r.outstanding := rfl
@[simp] theorem CabacEnc.setRange_firstBit (r : CabacEnc) (v : Word) : (r.setRange v).firstBit = r.firstBit := rfl

@[simp] theorem CabacDec.range_toNat (r : CabacDec) : r.range.toNat = r.range9.toNat := by
  have := r.range9.isLt
  simp only [CabacDec.range, BitVec.toNat_setWidth]
  omega

@[simp] theorem CabacDec.setRange_range9 (r : CabacDec) (v : Word) : (r.setRange v).range9.toNat = v.toNat % 2 ^ 9 := by
  simp [CabacDec.setRange]

/-- A value of 9 bits is kept whole. -/
theorem CabacDec.range_setRange (r : CabacDec) (v : Word) (h : v.toNat < 2 ^ 9) : (r.setRange v).range = v :=
  BitVec.eq_of_toNat_eq (by rw [range_toNat, setRange_range9, Nat.mod_eq_of_lt h])

theorem CabacDec.range_lt (r : CabacDec) : r.range.toNat < 2 ^ 9 := r.range_toNat ▸ r.range9.isLt
@[simp] theorem CabacDec.setRange_offset (r : CabacDec) (v : Word) : (r.setRange v).offset = r.offset := rfl

@[simp] theorem Vp8Enc.range_toNat (r : Vp8Enc) : r.range.toNat = r.range8.toNat := by
  have := r.range8.isLt
  simp only [Vp8Enc.range, BitVec.toNat_setWidth]
  omega

@[simp] theorem Vp8Enc.setRange_range8 (r : Vp8Enc) (v : Word) : (r.setRange v).range8.toNat = v.toNat % 2 ^ 8 := by
  simp [Vp8Enc.setRange]

/-- A value of 8 bits is kept whole. -/
theorem Vp8Enc.range_setRange (r : Vp8Enc) (v : Word) (h : v.toNat < 2 ^ 8) : (r.setRange v).range = v :=
  BitVec.eq_of_toNat_eq (by rw [range_toNat, setRange_range8, Nat.mod_eq_of_lt h])

theorem Vp8Enc.range_lt (r : Vp8Enc) : r.range.toNat < 2 ^ 8 := r.range_toNat ▸ r.range8.isLt
@[simp] theorem Vp8Enc.setRange_low (r : Vp8Enc) (v : Word) : (r.setRange v).low = r.low := rfl
@[simp] theorem Vp8Enc.setRange_count (r : Vp8Enc) (v : Word) : (r.setRange v).count = r.count := rfl
@[simp] theorem Vp8Enc.setRange_pendingByte (r : Vp8Enc) (v : Word) : (r.setRange v).pendingByte = r.pendingByte := rfl
@[simp] theorem Vp8Enc.setRange_pendingValid (r : Vp8Enc) (v : Word) : (r.setRange v).pendingValid = r.pendingValid := rfl
@[simp] theorem Vp8Enc.setRange_bitsOutstanding (r : Vp8Enc) (v : Word) : (r.setRange v).bitsOutstanding = r.bitsOutstanding := rfl

@[simp] theorem Vp8Dec.range_toNat (r : Vp8Dec) : r.range.toNat = r.range8.toNat := by
  have := r.range8.isLt
  simp only [Vp8Dec.range, BitVec.toNat_setWidth]
  omega

@[simp] theorem Vp8Dec.setRange_range8 (r : Vp8Dec) (v : Word) : (r.setRange v).range8.toNat = v.toNat % 2 ^ 8 := by
  simp [Vp8Dec.setRange]

/-- A value of 8 bits is kept whole. -/
theorem Vp8Dec.range_setRange (r : Vp8Dec) (v : Word) (h : v.toNat < 2 ^ 8) : (r.setRange v).range = v :=
  BitVec.eq_of_toNat_eq (by rw [range_toNat, setRange_range8, Nat.mod_eq_of_lt h])

theorem Vp8Dec.range_lt (r : Vp8Dec) : r.range.toNat < 2 ^ 8 := r.range_toNat ▸ r.range8.isLt
@[simp] theorem Vp8Dec.setRange_value (r : Vp8Dec) (v : Word) : (r.setRange v).value = r.value := rfl

/-! ### Sequencing -/

@[simp] theorem andThen_ok {α β : Type} (a : α) (e : Engine) (f : α → Engine → Res β) :
    (Res.ok a e).andThen f = f a e := rfl

@[simp] theorem andThen_raised {α β : Type} (c : Status) (e : Engine) (f : α → Engine → Res β) :
    (Res.raised c e : Res α).andThen f = .raised c e := rfl

/-- A sequence goes on exactly when both of its parts do. -/
theorem andThen_eq_ok {α β : Type} {r : Res α} {f : α → Engine → Res β} {b : β} {e : Engine} :
    r.andThen f = .ok b e ↔ ∃ a e₁, r = .ok a e₁ ∧ f a e₁ = .ok b e := by
  cases r <;> simp

/-- A sequence raises an error exactly when its first part does, or its second part after it. -/
theorem andThen_eq_raised {α β : Type} {r : Res α} {f : α → Engine → Res β} {c : Status} {e : Engine} :
    r.andThen f = .raised c e ↔ r = .raised c e ∨ ∃ a e₁, r = .ok a e₁ ∧ f a e₁ = .raised c e := by
  cases r <;> simp

/-- Sequencing is associative. -/
theorem andThen_assoc {α β γ : Type} (r : Res α) (f : α → Engine → Res β) (g : β → Engine → Res γ) :
    (r.andThen f).andThen g = r.andThen fun a e => (f a e).andThen g := by
  cases r <;> rfl

/-- A relation between engines that each part of a sequence keeps is kept by the sequence. -/
theorem andThen_engine {α β : Type} {R : Engine → Engine → Prop} (trans : ∀ {a b c}, R a b → R b c → R a c)
    {e : Engine} {r : Res α} {f : α → Engine → Res β} (hr : R e r.engine) (hf : ∀ a e₁, R e₁ (f a e₁).engine) :
    R e (r.andThen f).engine := by
  cases r with
  | ok a e₁ => exact trans hr (hf a e₁)
  | raised c e₁ => exact hr

/-! ### The sink -/

/-- An `InMemory` sink accepts every offer (R82). -/
@[simp] theorem offerByte_inMemory {p : Params} (h : p.sinkMode = .inMemory) (e : Engine) :
    offerByte p e = .ok () e := by simp [offerByte, h]

/-- An `External` sink counts the offer and takes the environment's answer (R82). -/
theorem offerByte_external {p : Params} (h : p.sinkMode = .external) (e : Engine) :
    offerByte p e = if Config.sinkAccepts e.id e.offers then .ok () (e.setOffers (e.offers + 1))
      else .raised .outputFailure (e.setOffers (e.offers + 1)) := by simp [offerByte, h]

/-- Only the sink's bits and the number of offers may differ. -/
def SinkOnly (e t : Engine) : Prop := ∃ bs n, t = { e with sink := bs, offers := n }

theorem SinkOnly.refl (e : Engine) : SinkOnly e e := ⟨e.sink, e.offers, rfl⟩

theorem SinkOnly.trans {a b c : Engine} (h : SinkOnly a b) (h' : SinkOnly b c) : SinkOnly a c := by
  obtain ⟨bs, n, rfl⟩ := h
  obtain ⟨bs', n', rfl⟩ := h'
  exact ⟨bs', n', rfl⟩

/-- Whatever its outcome, an offer touches the number of offers only. -/
theorem offerByte_frame (p : Params) (e : Engine) : ∃ n, (offerByte p e).engine = e.setOffers n := by
  unfold offerByte
  split
  · exact ⟨e.offers, rfl⟩
  · split <;> exact ⟨_, rfl⟩

/-- Whatever its outcome, WriteBit touches the sink only (R73). -/
theorem writeBit_frame (p : Params) (b : Bool) (e : Engine) : SinkOnly e (writeBit p b e).engine := by
  unfold writeBit
  dsimp only
  split
  · obtain ⟨n, h⟩ := offerByte_frame p (e.setSink (e.sink ++ [b]))
    exact ⟨_, n, h⟩
  · exact ⟨_, e.offers, rfl⟩

theorem writeBits_frame (p : Params) (bs : List Bool) (e : Engine) : SinkOnly e (writeBits p bs e).engine := by
  induction bs generalizing e with
  | nil => exact .refl e
  | cons b bs ih => exact andThen_engine (R := SinkOnly) SinkOnly.trans (writeBit_frame p b e) fun _ e₁ => ih e₁

theorem writeByte_frame (p : Params) (v : Byte) (e : Engine) : SinkOnly e (writeByte p v e).engine :=
  writeBits_frame p _ e

theorem writeBytes_frame (p : Params) (vs : List Byte) (e : Engine) : SinkOnly e (writeBytes p vs e).engine := by
  induction vs generalizing e with
  | nil => exact .refl e
  | cons v vs ih => exact andThen_engine (R := SinkOnly) SinkOnly.trans (writeByte_frame p v e) fun _ e₁ => ih e₁

theorem sinkClose_frame (p : Params) (e : Engine) : SinkOnly e (sinkClose p e).engine := writeBits_frame p _ e

/-- On an `InMemory` sink WriteBit appends its bit and nothing else happens (R73). -/
@[simp] theorem writeBit_inMemory {p : Params} (h : p.sinkMode = .inMemory) (b : Bool) (e : Engine) :
    writeBit p b e = .ok () (e.setSink (e.sink ++ [b])) := by simp [writeBit, h]

@[simp] theorem writeBits_inMemory {p : Params} (h : p.sinkMode = .inMemory) (bs : List Bool) (e : Engine) :
    writeBits p bs e = .ok () (e.setSink (e.sink ++ bs)) := by
  induction bs generalizing e with
  | nil => simp [writeBits, Engine.setSink]
  | cons b bs ih => simp [writeBits, h, ih, Engine.setSink]

@[simp] theorem writeByte_inMemory {p : Params} (h : p.sinkMode = .inMemory) (v : Byte) (e : Engine) :
    writeByte p v e = .ok () (e.setSink (e.sink ++ byteBits v)) := writeBits_inMemory h _ e

@[simp] theorem writeBytes_inMemory {p : Params} (h : p.sinkMode = .inMemory) (vs : List Byte) (e : Engine) :
    writeBytes p vs e = .ok () (e.setSink (e.sink ++ vs.flatMap byteBits)) := by
  induction vs generalizing e with
  | nil => simp [writeBytes, Engine.setSink]
  | cons v vs ih => simp [writeBytes, h, ih, Engine.setSink]

@[simp] theorem sinkClose_inMemory {p : Params} (h : p.sinkMode = .inMemory) (e : Engine) :
    sinkClose p e = .ok () (e.setSink (e.sink ++ List.replicate ((8 - e.sink.length % 8) % 8) false)) :=
  writeBits_inMemory h _ e

@[simp] theorem offerBytes_inMemory {p : Params} (h : p.sinkMode = .inMemory) (n : Nat) (e : Engine) :
    offerBytes p n e = .ok () e := by
  induction n with
  | zero => rfl
  | succ n ih => simp [offerBytes, h, ih]

/-- Whatever its outcome, a run of offers touches the number of offers only. -/
theorem offerBytes_frame (p : Params) (n : Nat) (e : Engine) : ∃ k, (offerBytes p n e).engine = e.setOffers k := by
  induction n generalizing e with
  | zero => exact ⟨e.offers, rfl⟩
  | succ n ih =>
    obtain ⟨k, hk⟩ := offerByte_frame p e
    rw [offerBytes]
    cases h : offerByte p e with
    | ok a e₁ =>
      rw [h] at hk
      obtain ⟨k', hk'⟩ := ih e₁
      simp only [Res.engine_ok] at hk
      exact ⟨k', by rw [andThen_ok, hk', hk]; rfl⟩
    | raised c e₁ => exact ⟨k, by rw [h] at hk; exact hk⟩

/-- The bits of a byte in stream order make the byte again (R72). -/
theorem byteOfBits_byteBits (v : Byte) :
    byteOfBits (v.getLsbD 7) (v.getLsbD 6) (v.getLsbD 5) (v.getLsbD 4) (v.getLsbD 3) (v.getLsbD 2) (v.getLsbD 1)
      (v.getLsbD 0) = v := by
  revert v; decide

/-- The complete bytes of the bits of a list of bytes are that list (R72, R74). -/
theorem completeBytes_flatMap (vs : List Byte) : completeBytes (vs.flatMap byteBits) = vs := by
  induction vs with
  | nil => rfl
  | cons v vs ih =>
    show completeBytes (byteBits v ++ vs.flatMap byteBits) = v :: vs
    simp only [byteBits, List.cons_append, List.nil_append, completeBytes, ih, byteOfBits_byteBits]

/-! ### The source -/

/-- Whatever its outcome, ReadBit touches the cursor only, which moves by one bit unless an error is raised (R77). -/
theorem readBit_frame (e : Engine) :
    (∃ b, readBit e = .ok b (e.setBitpos (e.bitpos + 1))) ∨ readBit e = .raised .inputExhausted e := by
  unfold readBit
  split
  · exact .inl ⟨_, rfl⟩
  · split
    · exact .inr rfl
    · exact .inl ⟨_, rfl⟩

/-- ReadBit goes on inside the input, and in zero-fill mode everywhere (R77). -/
theorem readBit_ok {e : Engine} (h : e.bitpos < 8 * e.src.length ∨ e.eof = false) :
    readBit e = .ok (srcBit e e.bitpos) (e.setBitpos (e.bitpos + 1)) := by
  unfold readBit
  split
  · rfl
  · next hn =>
    rcases h with h | h
    · exact absurd h hn
    · have : e.src.length ≤ e.bitpos / 8 := by omega
      simp [h, srcBit, this, List.getD_eq_getElem?_getD]

/-- Only the cursor may differ. -/
def CursorOnly (e t : Engine) : Prop := ∃ n, t = e.setBitpos n

theorem CursorOnly.refl (e : Engine) : CursorOnly e e := ⟨e.bitpos, rfl⟩

theorem CursorOnly.trans {a b c : Engine} (h : CursorOnly a b) (h' : CursorOnly b c) : CursorOnly a c := by
  obtain ⟨n, rfl⟩ := h
  obtain ⟨n', rfl⟩ := h'
  exact ⟨n', rfl⟩

theorem readBit_cursorOnly (e : Engine) : CursorOnly e (readBit e).engine := by
  rcases readBit_frame e with ⟨b, h⟩ | h
  · exact ⟨e.bitpos + 1, by rw [h]; rfl⟩
  · exact ⟨e.bitpos, by rw [h]; rfl⟩

theorem readByteLoop_frame (n : Nat) (v : Byte) (e : Engine) : CursorOnly e (readByteLoop n v e).engine := by
  induction n generalizing v e with
  | zero => exact .refl e
  | succ n ih => exact andThen_engine (R := CursorOnly) CursorOnly.trans (readBit_cursorOnly e) fun b e₁ => ih _ e₁

/-- Whatever its outcome, ReadByte touches the cursor only (R78). -/
theorem readByte_frame (e : Engine) : CursorOnly e (readByte e).engine := readByteLoop_frame 8 0 e

/-- Whatever its outcome, SlotRead changes nothing (R81). -/
theorem slotRead_frame (pos : Nat) (e : Engine) : (slotRead pos e).engine = e := by
  unfold slotRead
  split
  · rfl
  · split <;> rfl

/-- SlotRead goes on inside the input, and in zero-fill mode everywhere (R81). -/
theorem slotRead_ok {pos : Nat} {e : Engine} (h : pos < e.src.length ∨ e.eof = false) :
    slotRead pos e = .ok (e.src.getD pos 0) e := by
  unfold slotRead
  split
  · rfl
  · next hn =>
    rcases h with h | h
    · exact absurd h hn
    · have : e.src.length ≤ pos := by omega
      simp [h, this, List.getD_eq_getElem?_getD]

/-! ### CABAC -/

/-- Only the CABAC encoder registers and the sink may differ. -/
def CabacEncOnly (e t : Engine) : Prop := ∃ r bs n, t = { e with cabacEnc := r, sink := bs, offers := n }

theorem CabacEncOnly.refl (e : Engine) : CabacEncOnly e e := ⟨e.cabacEnc, e.sink, e.offers, rfl⟩

theorem CabacEncOnly.trans {a b c : Engine} (h : CabacEncOnly a b) (h' : CabacEncOnly b c) : CabacEncOnly a c := by
  obtain ⟨r, bs, n, rfl⟩ := h
  obtain ⟨r', bs', n', rfl⟩ := h'
  exact ⟨r', bs', n', rfl⟩

theorem SinkOnly.cabacEncOnly {e t : Engine} (h : SinkOnly e t) : CabacEncOnly e t := by
  obtain ⟨bs, n, rfl⟩ := h
  exact ⟨e.cabacEnc, bs, n, rfl⟩

theorem setCabacEnc_frame (e : Engine) (r : CabacEnc) : CabacEncOnly e (e.setCabacEnc r) :=
  ⟨r, e.sink, e.offers, rfl⟩

theorem drainOutstanding_frame (p : Params) (b : Bool) (n : Nat) (e : Engine) :
    CabacEncOnly e (drainOutstanding p b n e).engine := by
  induction n generalizing e with
  | zero => exact .refl e
  | succ n ih =>
    exact andThen_engine (R := CabacEncOnly) CabacEncOnly.trans (writeBit_frame p b e).cabacEncOnly fun _ e₁ =>
      (setCabacEnc_frame e₁ _).trans (ih _)

/-- Whatever its outcome, PutBit touches the CABAC encoder registers and the sink only (R185). -/
theorem putBit_frame (p : Params) (b : Bool) (e : Engine) : CabacEncOnly e (putBit p b e).engine := by
  unfold putBit
  refine andThen_engine (R := CabacEncOnly) CabacEncOnly.trans ?_ fun _ e₁ => drainOutstanding_frame p _ _ e₁
  split
  · exact setCabacEnc_frame e _
  · exact (writeBit_frame p b e).cabacEncOnly

theorem incOutstanding_frame (p : Params) (e : Engine) : CabacEncOnly e (incOutstanding p e).engine := by
  unfold incOutstanding
  split
  · exact .refl e
  · exact setCabacEnc_frame e _

theorem renormEClassify_frame (p : Params) (e : Engine) : CabacEncOnly e (renormEClassify p e).engine := by
  unfold renormEClassify
  dsimp only
  split
  · exact putBit_frame p false e
  · split
    · exact (setCabacEnc_frame e _).trans (putBit_frame p true _)
    · exact (setCabacEnc_frame e _).trans (incOutstanding_frame p _)

/-- Whatever its outcome, RenormE touches the CABAC encoder registers and the sink only (R187). -/
theorem cabacRenormE_frame (p : Params) (n : Nat) (e : Engine) : CabacEncOnly e (cabacRenormE p n e).engine := by
  induction n generalizing e with
  | zero => exact .refl e
  | succ n ih =>
    rw [cabacRenormE]
    split
    · exact andThen_engine (R := CabacEncOnly) CabacEncOnly.trans (renormEClassify_frame p e) fun _ e₁ =>
        (setCabacEnc_frame e₁ _).trans (ih _)
    · exact .refl e

/-- Whatever its outcome, EncodeFlush touches the CABAC encoder registers and the sink only (R188). -/
theorem encodeFlush_frame (p : Params) (e : Engine) : CabacEncOnly e (encodeFlush p e).engine := by
  unfold encodeFlush
  refine CabacEncOnly.trans (setCabacEnc_frame e (e.cabacEnc.setRange 2)) ?_
  refine andThen_engine (R := CabacEncOnly) CabacEncOnly.trans (cabacRenormE_frame p _ _) fun _ e₁ => ?_
  refine andThen_engine (R := CabacEncOnly) CabacEncOnly.trans (putBit_frame p _ e₁) fun _ e₂ => ?_
  exact andThen_engine (R := CabacEncOnly) CabacEncOnly.trans (writeBit_frame p _ e₂).cabacEncOnly fun _ e₃ =>
    (writeBit_frame p _ e₃).cabacEncOnly

/-- Only the CABAC decoder registers and the cursor may differ. -/
def CabacDecOnly (e t : Engine) : Prop := ∃ r n, t = { e with cabacDec := r, bitpos := n }

theorem CabacDecOnly.refl (e : Engine) : CabacDecOnly e e := ⟨e.cabacDec, e.bitpos, rfl⟩

theorem CabacDecOnly.trans {a b c : Engine} (h : CabacDecOnly a b) (h' : CabacDecOnly b c) : CabacDecOnly a c := by
  obtain ⟨r, n, rfl⟩ := h
  obtain ⟨r', n', rfl⟩ := h'
  exact ⟨r', n', rfl⟩

theorem CursorOnly.cabacDecOnly {e t : Engine} (h : CursorOnly e t) : CabacDecOnly e t := by
  obtain ⟨n, rfl⟩ := h
  exact ⟨e.cabacDec, n, rfl⟩

theorem offsetShift_frame (e : Engine) : CabacDecOnly e (offsetShift e).engine :=
  andThen_engine (R := CabacDecOnly) CabacDecOnly.trans (readBit_cursorOnly e).cabacDecOnly fun _ e₁ => ⟨_, e₁.bitpos, rfl⟩

theorem offsetSeed_frame (n : Nat) (e : Engine) : CabacDecOnly e (offsetSeed n e).engine := by
  induction n generalizing e with
  | zero => exact .refl e
  | succ n ih => exact andThen_engine (R := CabacDecOnly) CabacDecOnly.trans (offsetShift_frame e) fun _ e₁ => ih e₁

/-- Whatever its outcome, RenormD touches the CABAC decoder registers and the cursor only (R202). -/
theorem cabacRenormD_frame (n : Nat) (e : Engine) : CabacDecOnly e (cabacRenormD n e).engine := by
  induction n generalizing e with
  | zero => exact .refl e
  | succ n ih =>
    rw [cabacRenormD]
    split
    · refine andThen_engine (R := CabacDecOnly) CabacDecOnly.trans ?_ fun _ e₁ => ih e₁
      exact CabacDecOnly.trans ⟨_, e.bitpos, rfl⟩ (offsetShift_frame _)
    · exact .refl e

/-! ### VP8 -/

/-- Only the VP8 encoder registers and the sink may differ. -/
def Vp8EncOnly (e t : Engine) : Prop := ∃ r bs n, t = { e with vp8Enc := r, sink := bs, offers := n }

theorem Vp8EncOnly.refl (e : Engine) : Vp8EncOnly e e := ⟨e.vp8Enc, e.sink, e.offers, rfl⟩

theorem Vp8EncOnly.trans {a b c : Engine} (h : Vp8EncOnly a b) (h' : Vp8EncOnly b c) : Vp8EncOnly a c := by
  obtain ⟨r, bs, n, rfl⟩ := h
  obtain ⟨r', bs', n', rfl⟩ := h'
  exact ⟨r', bs', n', rfl⟩

theorem SinkOnly.vp8EncOnly {e t : Engine} (h : SinkOnly e t) : Vp8EncOnly e t := by
  obtain ⟨bs, n, rfl⟩ := h
  exact ⟨e.vp8Enc, bs, n, rfl⟩

theorem setVp8Enc_frame (e : Engine) (r : Vp8Enc) : Vp8EncOnly e (e.setVp8Enc r) := ⟨r, e.sink, e.offers, rfl⟩

theorem releaseBytes_frame (p : Params) (first fill : Byte) (e : Engine) :
    Vp8EncOnly e (releaseBytes p first fill e).engine := (writeBytes_frame p _ e).vp8EncOnly

theorem incBytesOutstanding_frame (p : Params) (e : Engine) : Vp8EncOnly e (incBytesOutstanding p e).engine := by
  unfold incBytesOutstanding
  split
  · exact .refl e
  · exact setVp8Enc_frame e _

/-- Whatever its outcome, FormByte touches the VP8 encoder registers and the sink only (R232). -/
theorem formByte_frame (p : Params) (e : Engine) : Vp8EncOnly e (formByte p e).engine := by
  have rel : ∀ first fill v e₁, Vp8EncOnly e₁
      ((releaseBytes p first fill e₁).andThen fun _ e₂ => .ok () (setPending v e₂)).engine := fun first fill v e₁ =>
    andThen_engine (R := Vp8EncOnly) Vp8EncOnly.trans (releaseBytes_frame p first fill e₁) fun _ e₂ => setVp8Enc_frame e₂ _
  unfold formByte
  refine Vp8EncOnly.trans (setVp8Enc_frame e { e.vp8Enc with low := e.vp8Enc.low &&& 255 }) ?_
  dsimp only
  split
  · exact rel _ _ _ _
  · split
    · exact setVp8Enc_frame _ _
    · split
      · exact incBytesOutstanding_frame p _
      · exact rel _ _ _ _

/-- Whatever its outcome, Shift touches the VP8 encoder registers and the sink only (R233). -/
theorem vp8Shift_frame (p : Params) (e : Engine) : Vp8EncOnly e (vp8Shift p e).engine := by
  simp only [vp8Shift]
  split
  · exact (setVp8Enc_frame e _).trans (formByte_frame p _)
  · exact setVp8Enc_frame e _

theorem vp8Shifts_frame (p : Params) (n : Nat) (e : Engine) : Vp8EncOnly e (vp8Shifts p n e).engine := by
  induction n generalizing e with
  | zero => exact .refl e
  | succ n ih => exact andThen_engine (R := Vp8EncOnly) Vp8EncOnly.trans (vp8Shift_frame p e) fun _ e₁ => ih e₁

theorem vp8RenormE_frame (p : Params) (n : Nat) (e : Engine) : Vp8EncOnly e (vp8RenormE p n e).engine := by
  induction n generalizing e with
  | zero => exact .refl e
  | succ n ih =>
    rw [vp8RenormE]
    split
    · exact andThen_engine (R := Vp8EncOnly) Vp8EncOnly.trans ((setVp8Enc_frame e _).trans (vp8Shift_frame p _)) fun _ e₁ => ih e₁
    · exact .refl e

/-- Whatever its outcome, EncodeBool touches the VP8 encoder registers and the sink only (R234). -/
theorem encodeBool_frame (p : Params) (b : Bool) (prob : Byte) (e : Engine) :
    Vp8EncOnly e (encodeBool p b prob e).engine := (setVp8Enc_frame e _).trans (vp8RenormE_frame p _ _)

/-- Only the VP8 decoder registers and the cursor may differ. -/
def Vp8DecOnly (e t : Engine) : Prop := ∃ r n, t = { e with vp8Dec := r, bitpos := n }

theorem Vp8DecOnly.refl (e : Engine) : Vp8DecOnly e e := ⟨e.vp8Dec, e.bitpos, rfl⟩

theorem Vp8DecOnly.trans {a b c : Engine} (h : Vp8DecOnly a b) (h' : Vp8DecOnly b c) : Vp8DecOnly a c := by
  obtain ⟨r, n, rfl⟩ := h
  obtain ⟨r', n', rfl⟩ := h'
  exact ⟨r', n', rfl⟩

theorem setVp8Dec_frame (e : Engine) (r : Vp8Dec) : Vp8DecOnly e (e.setVp8Dec r) := ⟨r, e.bitpos, rfl⟩

theorem CursorOnly.vp8DecOnly {e t : Engine} (h : CursorOnly e t) : Vp8DecOnly e t := by
  obtain ⟨n, rfl⟩ := h
  exact ⟨e.vp8Dec, n, rfl⟩

theorem vp8RenormD_frame (n : Nat) (e : Engine) : Vp8DecOnly e (vp8RenormD n e).engine := by
  induction n generalizing e with
  | zero => exact .refl e
  | succ n ih =>
    rw [vp8RenormD]
    split
    · exact andThen_engine (R := Vp8DecOnly) Vp8DecOnly.trans ((setVp8Dec_frame e _).trans (readBit_cursorOnly _).vp8DecOnly)
        fun _ e₁ => (setVp8Dec_frame e₁ _).trans (ih _)
    · exact .refl e

/-- Whatever its outcome, DecodeBool touches the VP8 decoder registers and the cursor only (R242). -/
theorem decodeBool_frame (prob : Byte) (e : Engine) : Vp8DecOnly e (decodeBool prob e).engine :=
  andThen_engine (R := Vp8DecOnly) Vp8DecOnly.trans ((setVp8Dec_frame e _).trans (vp8RenormD_frame _ _)) fun _ e₁ => .refl e₁

/-! ### rANS -/

/-- Enqueue appends one pair, or raises QUEUE_OVERFLOW and changes nothing (R273). -/
theorem enqueue_cases (p : Params) (s : Bool) (prob : Byte) (e : Engine) :
    (p.ransQCap = some e.ransEnc.queue.length ∧ enqueue p s prob e = .raised .queueOverflow e) ∨
    (p.ransQCap ≠ some e.ransEnc.queue.length ∧
      enqueue p s prob e = .ok () (e.setRansEnc { e.ransEnc with queue := e.ransEnc.queue ++ [(s, prob)] })) := by
  unfold enqueue
  split
  · next h => exact .inl ⟨h, rfl⟩
  · next h => exact .inr ⟨h, rfl⟩

/-- Only the rANS decoder register and the cursor may differ. -/
def RansDecOnly (e t : Engine) : Prop := ∃ r n, t = { e with ransDec := r, bitpos := n }

theorem RansDecOnly.refl (e : Engine) : RansDecOnly e e := ⟨e.ransDec, e.bitpos, rfl⟩

theorem RansDecOnly.trans {a b c : Engine} (h : RansDecOnly a b) (h' : RansDecOnly b c) : RansDecOnly a c := by
  obtain ⟨r, n, rfl⟩ := h
  obtain ⟨r', n', rfl⟩ := h'
  exact ⟨r', n', rfl⟩

theorem setRansDec_frame (e : Engine) (r : RansDec) : RansDecOnly e (e.setRansDec r) := ⟨r, e.bitpos, rfl⟩

theorem CursorOnly.ransDecOnly {e t : Engine} (h : CursorOnly e t) : RansDecOnly e t := by
  obtain ⟨n, rfl⟩ := h
  exact ⟨e.ransDec, n, rfl⟩

/-- Whatever its outcome, DecodeSym touches the rANS decoder register and the cursor only (R284). -/
theorem decodeSym_frame (p : Byte) (e : Engine) : RansDecOnly e (decodeSym p e).engine := by
  unfold decodeSym
  refine RansDecOnly.trans (setRansDec_frame e ⟨(decodeSymStep p e.ransDec.x).2⟩) ?_
  dsimp only
  split
  · exact andThen_engine (R := RansDecOnly) RansDecOnly.trans (readByte_frame _).ransDecOnly fun _ e₁ =>
      setRansDec_frame e₁ _
  · exact .refl _

theorem ransSeed_frame (n : Nat) (e : Engine) : RansDecOnly e (ransSeed n e).engine := by
  induction n generalizing e with
  | zero => exact .refl e
  | succ n ih =>
    exact andThen_engine (R := RansDecOnly) RansDecOnly.trans (readByte_frame e).ransDecOnly fun _ e₁ =>
      (setRansDec_frame e₁ _).trans (ih _)

/-! ### Fpaq0 -/

/-- Only the Fpaq0 encoder registers and the sink may differ. -/
def Fpaq0EncOnly (e t : Engine) : Prop := ∃ r bs n, t = { e with fpaq0Enc := r, sink := bs, offers := n }

theorem Fpaq0EncOnly.refl (e : Engine) : Fpaq0EncOnly e e := ⟨e.fpaq0Enc, e.sink, e.offers, rfl⟩

theorem Fpaq0EncOnly.trans {a b c : Engine} (h : Fpaq0EncOnly a b) (h' : Fpaq0EncOnly b c) : Fpaq0EncOnly a c := by
  obtain ⟨r, bs, n, rfl⟩ := h
  obtain ⟨r', bs', n', rfl⟩ := h'
  exact ⟨r', bs', n', rfl⟩

theorem setFpaq0Enc_frame (e : Engine) (r : Fpaq0Enc) : Fpaq0EncOnly e (e.setFpaq0Enc r) :=
  ⟨r, e.sink, e.offers, rfl⟩

theorem SinkOnly.fpaq0EncOnly {e t : Engine} (h : SinkOnly e t) : Fpaq0EncOnly e t := by
  obtain ⟨bs, n, rfl⟩ := h
  exact ⟨e.fpaq0Enc, bs, n, rfl⟩

theorem fpaq0RenormE_frame (p : Params) (n : Nat) (e : Engine) : Fpaq0EncOnly e (fpaq0RenormE p n e).engine := by
  induction n generalizing e with
  | zero => exact .refl e
  | succ n ih =>
    rw [fpaq0RenormE]
    split
    · exact andThen_engine (R := Fpaq0EncOnly) Fpaq0EncOnly.trans (writeByte_frame p _ e).fpaq0EncOnly fun _ e₁ =>
        (setFpaq0Enc_frame e₁ _).trans (ih _)
    · exact .refl e

/-- Whatever its outcome, EncodeBit with RenormE touches the Fpaq0 encoder registers and the sink only (R301, R303). -/
theorem fpaq0Encode_frame (p : Params) (b : Bool) (prob : Byte) (e : Engine) :
    Fpaq0EncOnly e (fpaq0Encode p b prob e).engine := (setFpaq0Enc_frame e _).trans (fpaq0RenormE_frame p _ _)

/-- Only the Fpaq0 decoder registers and the cursor may differ. -/
def Fpaq0DecOnly (e t : Engine) : Prop := ∃ r n, t = { e with fpaq0Dec := r, bitpos := n }

theorem Fpaq0DecOnly.refl (e : Engine) : Fpaq0DecOnly e e := ⟨e.fpaq0Dec, e.bitpos, rfl⟩

theorem Fpaq0DecOnly.trans {a b c : Engine} (h : Fpaq0DecOnly a b) (h' : Fpaq0DecOnly b c) : Fpaq0DecOnly a c := by
  obtain ⟨r, n, rfl⟩ := h
  obtain ⟨r', n', rfl⟩ := h'
  exact ⟨r', n', rfl⟩

theorem setFpaq0Dec_frame (e : Engine) (r : Fpaq0Dec) : Fpaq0DecOnly e (e.setFpaq0Dec r) := ⟨r, e.bitpos, rfl⟩

theorem CursorOnly.fpaq0DecOnly {e t : Engine} (h : CursorOnly e t) : Fpaq0DecOnly e t := by
  obtain ⟨n, rfl⟩ := h
  exact ⟨e.fpaq0Dec, n, rfl⟩

theorem fpaq0RenormD_frame (n : Nat) (e : Engine) : Fpaq0DecOnly e (fpaq0RenormD n e).engine := by
  induction n generalizing e with
  | zero => exact .refl e
  | succ n ih =>
    rw [fpaq0RenormD]
    split
    · exact andThen_engine (R := Fpaq0DecOnly) Fpaq0DecOnly.trans ((setFpaq0Dec_frame e _).trans (readByte_frame _).fpaq0DecOnly)
        fun _ e₁ => (setFpaq0Dec_frame e₁ _).trans (ih _)
    · exact .refl e

/-- Whatever its outcome, DecodeBit touches the Fpaq0 decoder registers and the cursor only (R316). -/
theorem fpaq0DecodeBit_frame (prob : Byte) (e : Engine) : Fpaq0DecOnly e (fpaq0DecodeBit prob e).engine :=
  andThen_engine (R := Fpaq0DecOnly) Fpaq0DecOnly.trans ((setFpaq0Dec_frame e _).trans (fpaq0RenormD_frame _ _)) fun _ e₁ => .refl e₁

theorem fpaq0Seed_frame (n : Nat) (e : Engine) : Fpaq0DecOnly e (fpaq0Seed n e).engine := by
  induction n generalizing e with
  | zero => exact .refl e
  | succ n ih =>
    exact andThen_engine (R := Fpaq0DecOnly) Fpaq0DecOnly.trans (readByte_frame e).fpaq0DecOnly fun _ e₁ =>
      (setFpaq0Dec_frame e₁ _).trans (ih _)

/-! ### Fpaq0 parallel -/

/-- Only the lane encoders and the slot buffer may differ. -/
def LanesEncOnly (e t : Engine) : Prop := ∃ ls m, t = { e with lanesEnc := ls, slots := m }

theorem LanesEncOnly.refl (e : Engine) : LanesEncOnly e e := ⟨e.lanesEnc, e.slots, rfl⟩

theorem LanesEncOnly.trans {a b c : Engine} (h : LanesEncOnly a b) (h' : LanesEncOnly b c) : LanesEncOnly a c := by
  obtain ⟨ls, m, rfl⟩ := h
  obtain ⟨ls', m', rfl⟩ := h'
  exact ⟨ls', m', rfl⟩

theorem laneEmit_frame (i : Nat) (v : Byte) (e : Engine) : LanesEncOnly e (laneEmit i v e) := ⟨_, _, rfl⟩

theorem setLaneEnc_frame (e : Engine) (i : Nat) (r : LaneEnc) : LanesEncOnly e (setLaneEnc e i r) :=
  ⟨_, e.slots, rfl⟩

theorem laneEmitAll_frame (i : Nat) (vs : List Byte) (e : Engine) : LanesEncOnly e (laneEmitAll i vs e) := by
  induction vs generalizing e with
  | nil => exact .refl e
  | cons v vs ih => exact (laneEmit_frame i v e).trans (ih _)

theorem laneRenormE_frame (i n : Nat) (e : Engine) : LanesEncOnly e (laneRenormE i n e) := by
  induction n generalizing e with
  | zero => exact .refl e
  | succ n ih =>
    rw [laneRenormE]
    dsimp only
    split
    · exact ((laneEmit_frame i _ e).trans (setLaneEnc_frame _ i _)).trans (ih _)
    · exact .refl e

/-- LaneEncode touches the lane encoders and the slot buffer only (R322). -/
theorem laneEncode_frame (i : Nat) (b : Bool) (prob : Byte) (e : Engine) :
    LanesEncOnly e (laneEncode i b prob e) := (setLaneEnc_frame e i _).trans (laneRenormE_frame i _ _)

theorem flushLanes_frame (is : List Nat) (e : Engine) : LanesEncOnly e (flushLanes is e) := by
  induction is generalizing e with
  | nil => exact .refl e
  | cons i is ih => exact (laneEmitAll_frame i _ e).trans (ih _)

/-- Only the lane decoders may differ. -/
def LanesDecOnly (e t : Engine) : Prop := ∃ ls, t = e.setLanesDec ls

theorem LanesDecOnly.refl (e : Engine) : LanesDecOnly e e := ⟨e.lanesDec, rfl⟩

theorem LanesDecOnly.trans {a b c : Engine} (h : LanesDecOnly a b) (h' : LanesDecOnly b c) : LanesDecOnly a c := by
  obtain ⟨ls, rfl⟩ := h
  obtain ⟨ls', rfl⟩ := h'
  exact ⟨ls', rfl⟩

theorem setLaneDec_frame (e : Engine) (i : Nat) (r : LaneDec) : LanesDecOnly e (setLaneDec e i r) := ⟨_, rfl⟩

theorem slotRead_lanesDecOnly (pos : Nat) (e : Engine) : LanesDecOnly e (slotRead pos e).engine := by
  rw [slotRead_frame]; exact .refl e

/-- Whatever its outcome, LaneRead touches the lane decoders only (R328). -/
theorem laneRead_frame (i : Nat) (e : Engine) : LanesDecOnly e (laneRead i e).engine :=
  andThen_engine (R := LanesDecOnly) LanesDecOnly.trans (slotRead_lanesDecOnly _ e) fun _ e₁ =>
    setLaneDec_frame e₁ i _

theorem laneRefill_frame (i : Nat) (e : Engine) : LanesDecOnly e (laneRefill i e).engine :=
  andThen_engine (R := LanesDecOnly) LanesDecOnly.trans (laneRead_frame i e) fun _ e₁ => setLaneDec_frame e₁ i _

theorem laneRenormD_frame (i n : Nat) (e : Engine) : LanesDecOnly e (laneRenormD i n e).engine := by
  induction n generalizing e with
  | zero => exact .refl e
  | succ n ih =>
    simp only [laneRenormD]
    split
    · exact andThen_engine (R := LanesDecOnly) LanesDecOnly.trans ((setLaneDec_frame e i _).trans (laneRefill_frame i _))
        fun _ e₁ => ih e₁
    · exact .refl e

/-- Whatever its outcome, LaneDecode touches the lane decoders only (R331). -/
theorem laneDecode_frame (i : Nat) (prob : Byte) (e : Engine) : LanesDecOnly e (laneDecode i prob e).engine :=
  andThen_engine (R := LanesDecOnly) LanesDecOnly.trans ((setLaneDec_frame e i _).trans (laneRenormD_frame i _ _)) fun _ e₁ => .refl e₁

theorem laneSeed_frame (i n : Nat) (e : Engine) : LanesDecOnly e (laneSeed i n e).engine := by
  induction n generalizing e with
  | zero => exact .refl e
  | succ n ih => exact andThen_engine (R := LanesDecOnly) LanesDecOnly.trans (laneRefill_frame i e) fun _ e₁ => ih e₁

theorem seedLanes_frame (is : List Nat) (e : Engine) : LanesDecOnly e (seedLanes is e).engine := by
  induction is generalizing e with
  | nil => exact .refl e
  | cons i is ih => exact andThen_engine (R := LanesDecOnly) LanesDecOnly.trans (laneSeed_frame i 4 e) fun _ e₁ => ih e₁

end Sys2Proof.Machine
end

