-- ==== Sys2Proof/Laws/PerInstr.lean ====
section
/-! SUPPORT. What holds of every command as syntax, one lemma a constructor: the fields it is encoded with. -/

theorem Sys2Proof.Laws.zero_lt_lanes : 0 < 128 := by decide

theorem Sys2Proof.Laws.zero_lt_indices : 0 < 65536 := by decide

namespace Sys2Proof.Laws.EncodingFields

open Sys2Proof

/-- The fields of a well-formed command are in the ranges of the word (R110, R120, R121), name its family and operation,
are zero where R122 says so, and give the command back. -/
def Statement (i : Instr) : Prop :=
  i.WellFormed →
    i.fields.fam = i.family.code ∧ i.fields.op = i.op.code ∧ i.fields.l < 128 ∧ i.fields.c < 65536 ∧
    i.fields.unusedZero i.family i.op = true ∧
    Instr.ofFields i.family i.op i.fields.b i.fields.l i.fields.c = some i

theorem cabacOpenEnc : Statement .cabacOpenEnc := by
  unfold Statement; decide

theorem cabacOpenDec (eof : Bool) : Statement (.cabacOpenDec eof) := 
  fun _ => by cases eof <;> decide

theorem cabacPut (b : Bool) (c : Nat) : Statement (.cabacPut b c) := by
  intro h
  have h : c < 65536 := by simpa [Instr.WellFormed, Instr.wellFormed, ctxIndexFits, laneFits] using h
  exact ⟨rfl, rfl, zero_lt_lanes, h, rfl, rfl⟩

theorem cabacPutBypass (b : Bool) : Statement (.cabacPutBypass b) := 
  fun _ => by cases b <;> decide

theorem cabacPutTerm (b : Bool) : Statement (.cabacPutTerm b) := 
  fun _ => by cases b <;> decide

theorem cabacFinish : Statement .cabacFinish := by
  unfold Statement; decide

theorem cabacGet (c : Nat) : Statement (.cabacGet c) := by
  intro h
  have h : c < 65536 := by simpa [Instr.WellFormed, Instr.wellFormed, ctxIndexFits, laneFits] using h
  exact ⟨rfl, rfl, zero_lt_lanes, h, rfl, rfl⟩

theorem cabacGetBypass : Statement .cabacGetBypass := by
  unfold Statement; decide

theorem cabacGetTerm : Statement .cabacGetTerm := by
  unfold Statement; decide

theorem cabacCtxInit (c : Nat) : Statement (.cabacCtxInit c) := by
  intro h
  have h : c < 65536 := by simpa [Instr.WellFormed, Instr.wellFormed, ctxIndexFits, laneFits] using h
  exact ⟨rfl, rfl, zero_lt_lanes, h, rfl, rfl⟩

theorem cabacCtxInitAll : Statement .cabacCtxInitAll := by
  unfold Statement; decide

theorem cabacCtxUpdate (b : Bool) (c : Nat) : Statement (.cabacCtxUpdate b c) := by
  intro h
  have h : c < 65536 := by simpa [Instr.WellFormed, Instr.wellFormed, ctxIndexFits, laneFits] using h
  exact ⟨rfl, rfl, zero_lt_lanes, h, rfl, rfl⟩

theorem cabacCtxRead (c : Nat) : Statement (.cabacCtxRead c) := by
  intro h
  have h : c < 65536 := by simpa [Instr.WellFormed, Instr.wellFormed, ctxIndexFits, laneFits] using h
  exact ⟨rfl, rfl, zero_lt_lanes, h, rfl, rfl⟩

theorem vp8OpenEnc : Statement .vp8OpenEnc := by
  unfold Statement; decide

theorem vp8OpenDec (eof : Bool) : Statement (.vp8OpenDec eof) := 
  fun _ => by cases eof <;> decide

theorem vp8Put (b : Bool) (c : Nat) : Statement (.vp8Put b c) := by
  intro h
  have h : c < 65536 := by simpa [Instr.WellFormed, Instr.wellFormed, ctxIndexFits, laneFits] using h
  exact ⟨rfl, rfl, zero_lt_lanes, h, rfl, rfl⟩

theorem vp8PutBypass (b : Bool) : Statement (.vp8PutBypass b) := 
  fun _ => by cases b <;> decide

theorem vp8Finish : Statement .vp8Finish := by
  unfold Statement; decide

theorem vp8Get (c : Nat) : Statement (.vp8Get c) := by
  intro h
  have h : c < 65536 := by simpa [Instr.WellFormed, Instr.wellFormed, ctxIndexFits, laneFits] using h
  exact ⟨rfl, rfl, zero_lt_lanes, h, rfl, rfl⟩

theorem vp8GetBypass : Statement .vp8GetBypass := by
  unfold Statement; decide

theorem vp8CtxInit (c : Nat) : Statement (.vp8CtxInit c) := by
  intro h
  have h : c < 65536 := by simpa [Instr.WellFormed, Instr.wellFormed, ctxIndexFits, laneFits] using h
  exact ⟨rfl, rfl, zero_lt_lanes, h, rfl, rfl⟩

theorem vp8CtxInitAll : Statement .vp8CtxInitAll := by
  unfold Statement; decide

theorem vp8CtxUpdate (b : Bool) (c : Nat) : Statement (.vp8CtxUpdate b c) := by
  intro h
  have h : c < 65536 := by simpa [Instr.WellFormed, Instr.wellFormed, ctxIndexFits, laneFits] using h
  exact ⟨rfl, rfl, zero_lt_lanes, h, rfl, rfl⟩

theorem vp8CtxRead (c : Nat) : Statement (.vp8CtxRead c) := by
  intro h
  have h : c < 65536 := by simpa [Instr.WellFormed, Instr.wellFormed, ctxIndexFits, laneFits] using h
  exact ⟨rfl, rfl, zero_lt_lanes, h, rfl, rfl⟩

theorem ransOpenEnc : Statement .ransOpenEnc := by
  unfold Statement; decide

theorem ransOpenDec (eof : Bool) : Statement (.ransOpenDec eof) := 
  fun _ => by cases eof <;> decide

theorem ransPut (b : Bool) (c : Nat) : Statement (.ransPut b c) := by
  intro h
  have h : c < 65536 := by simpa [Instr.WellFormed, Instr.wellFormed, ctxIndexFits, laneFits] using h
  exact ⟨rfl, rfl, zero_lt_lanes, h, rfl, rfl⟩

theorem ransPutBypass (b : Bool) : Statement (.ransPutBypass b) := 
  fun _ => by cases b <;> decide

theorem ransFinish : Statement .ransFinish := by
  unfold Statement; decide

theorem ransGet (c : Nat) : Statement (.ransGet c) := by
  intro h
  have h : c < 65536 := by simpa [Instr.WellFormed, Instr.wellFormed, ctxIndexFits, laneFits] using h
  exact ⟨rfl, rfl, zero_lt_lanes, h, rfl, rfl⟩

theorem ransGetBypass : Statement .ransGetBypass := by
  unfold Statement; decide

theorem ransCtxInit (c : Nat) : Statement (.ransCtxInit c) := by
  intro h
  have h : c < 65536 := by simpa [Instr.WellFormed, Instr.wellFormed, ctxIndexFits, laneFits] using h
  exact ⟨rfl, rfl, zero_lt_lanes, h, rfl, rfl⟩

theorem ransCtxInitAll : Statement .ransCtxInitAll := by
  unfold Statement; decide

theorem ransCtxUpdate (b : Bool) (c : Nat) : Statement (.ransCtxUpdate b c) := by
  intro h
  have h : c < 65536 := by simpa [Instr.WellFormed, Instr.wellFormed, ctxIndexFits, laneFits] using h
  exact ⟨rfl, rfl, zero_lt_lanes, h, rfl, rfl⟩

theorem ransCtxRead (c : Nat) : Statement (.ransCtxRead c) := by
  intro h
  have h : c < 65536 := by simpa [Instr.WellFormed, Instr.wellFormed, ctxIndexFits, laneFits] using h
  exact ⟨rfl, rfl, zero_lt_lanes, h, rfl, rfl⟩

theorem fpaq0OpenEnc : Statement .fpaq0OpenEnc := by
  unfold Statement; decide

theorem fpaq0OpenDec (eof : Bool) : Statement (.fpaq0OpenDec eof) := 
  fun _ => by cases eof <;> decide

theorem fpaq0Put (b : Bool) (c : Nat) : Statement (.fpaq0Put b c) := by
  intro h
  have h : c < 65536 := by simpa [Instr.WellFormed, Instr.wellFormed, ctxIndexFits, laneFits] using h
  exact ⟨rfl, rfl, zero_lt_lanes, h, rfl, rfl⟩

theorem fpaq0PutBypass (b : Bool) : Statement (.fpaq0PutBypass b) := 
  fun _ => by cases b <;> decide

theorem fpaq0Finish : Statement .fpaq0Finish := by
  unfold Statement; decide

theorem fpaq0Get (c : Nat) : Statement (.fpaq0Get c) := by
  intro h
  have h : c < 65536 := by simpa [Instr.WellFormed, Instr.wellFormed, ctxIndexFits, laneFits] using h
  exact ⟨rfl, rfl, zero_lt_lanes, h, rfl, rfl⟩

theorem fpaq0GetBypass : Statement .fpaq0GetBypass := by
  unfold Statement; decide

theorem fpaq0CtxInit (c : Nat) : Statement (.fpaq0CtxInit c) := by
  intro h
  have h : c < 65536 := by simpa [Instr.WellFormed, Instr.wellFormed, ctxIndexFits, laneFits] using h
  exact ⟨rfl, rfl, zero_lt_lanes, h, rfl, rfl⟩

theorem fpaq0CtxInitAll : Statement .fpaq0CtxInitAll := by
  unfold Statement; decide

theorem fpaq0CtxUpdate (b : Bool) (c : Nat) : Statement (.fpaq0CtxUpdate b c) := by
  intro h
  have h : c < 65536 := by simpa [Instr.WellFormed, Instr.wellFormed, ctxIndexFits, laneFits] using h
  exact ⟨rfl, rfl, zero_lt_lanes, h, rfl, rfl⟩

theorem fpaq0CtxRead (c : Nat) : Statement (.fpaq0CtxRead c) := by
  intro h
  have h : c < 65536 := by simpa [Instr.WellFormed, Instr.wellFormed, ctxIndexFits, laneFits] using h
  exact ⟨rfl, rfl, zero_lt_lanes, h, rfl, rfl⟩

theorem fpaq0pOpenEnc (n : Nat) : Statement (.fpaq0pOpenEnc n) := by
  intro h
  simp only [Instr.WellFormed, Instr.wellFormed, decide_eq_true_eq, laneCountFits] at h
  refine ⟨rfl, rfl, by simp only [Instr.fields]; omega, zero_lt_indices, ?_, ?_⟩
  · simp [Instr.fields, CmdFields.unusedZero, Op.usesB, Op.usesL, Op.usesC, Instr.family, Instr.op]
  · simp only [Instr.fields, Instr.family, Instr.op, Instr.ofFields, Nat.sub_add_cancel h.1]

theorem fpaq0pOpenDec (n : Nat) (eof : Bool) : Statement (.fpaq0pOpenDec n eof) := by
  intro h
  simp only [Instr.WellFormed, Instr.wellFormed, decide_eq_true_eq, laneCountFits] at h
  refine ⟨rfl, rfl, by simp only [Instr.fields]; omega, zero_lt_indices, ?_, ?_⟩
  · simp [Instr.fields, CmdFields.unusedZero, Op.usesB, Op.usesL, Op.usesC, Instr.family, Instr.op]
  · simp only [Instr.fields, Instr.family, Instr.op, Instr.ofFields, Nat.sub_add_cancel h.1]

theorem fpaq0pPut (l : Nat) (b : Bool) (c : Nat) : Statement (.fpaq0pPut l b c) := by
  intro h
  have h : l < 128 ∧ c < 65536 := by simpa [Instr.WellFormed, Instr.wellFormed, ctxIndexFits, laneFits] using h
  exact ⟨rfl, rfl, h.1, h.2, rfl, rfl⟩

theorem fpaq0pPutBypass (l : Nat) (b : Bool) : Statement (.fpaq0pPutBypass l b) := by
  intro h
  have h : l < 128 := by simpa [Instr.WellFormed, Instr.wellFormed, ctxIndexFits, laneFits] using h
  exact ⟨rfl, rfl, h, zero_lt_indices, rfl, rfl⟩

theorem fpaq0pFinish : Statement .fpaq0pFinish := by
  unfold Statement; decide

theorem fpaq0pGet (l : Nat) (c : Nat) : Statement (.fpaq0pGet l c) := by
  intro h
  have h : l < 128 ∧ c < 65536 := by simpa [Instr.WellFormed, Instr.wellFormed, ctxIndexFits, laneFits] using h
  exact ⟨rfl, rfl, h.1, h.2, rfl, rfl⟩

theorem fpaq0pGetBypass (l : Nat) : Statement (.fpaq0pGetBypass l) := by
  intro h
  have h : l < 128 := by simpa [Instr.WellFormed, Instr.wellFormed, ctxIndexFits, laneFits] using h
  exact ⟨rfl, rfl, h, zero_lt_indices, rfl, rfl⟩

theorem fpaq0pCtxInit (c : Nat) : Statement (.fpaq0pCtxInit c) := by
  intro h
  have h : c < 65536 := by simpa [Instr.WellFormed, Instr.wellFormed, ctxIndexFits, laneFits] using h
  exact ⟨rfl, rfl, zero_lt_lanes, h, rfl, rfl⟩

theorem fpaq0pCtxInitAll : Statement .fpaq0pCtxInitAll := by
  unfold Statement; decide

theorem fpaq0pCtxUpdate (b : Bool) (c : Nat) : Statement (.fpaq0pCtxUpdate b c) := by
  intro h
  have h : c < 65536 := by simpa [Instr.WellFormed, Instr.wellFormed, ctxIndexFits, laneFits] using h
  exact ⟨rfl, rfl, zero_lt_lanes, h, rfl, rfl⟩

theorem fpaq0pCtxRead (c : Nat) : Statement (.fpaq0pCtxRead c) := by
  intro h
  have h : c < 65536 := by simpa [Instr.WellFormed, Instr.wellFormed, ctxIndexFits, laneFits] using h
  exact ⟨rfl, rfl, zero_lt_lanes, h, rfl, rfl⟩

end Sys2Proof.Laws.EncodingFields
end

