-- ==== Sys2Proof/Tests/Slice0.lean ====
section
/-! SUPPORT. Tests: ill-formed terms the checks refuse, one written-out word for every constructor, one-step tests with the
expected values of spec/95_test_vectors.md, and for each statement with hypotheses a state that meets them. -/

namespace Sys2Proof.Tests

open Sys2Proof Sys2Proof.Machine

/-! ### WellFormed refuses (R120, R121) -/

theorem test_wf_ctx_index : (Instr.cabacPut true 65535).wellFormed = true ∧ (Instr.cabacPut true 65536).wellFormed = false ∧
    (Instr.vp8Get 65536).wellFormed = false ∧ (Instr.ransCtxInit 65536).wellFormed = false ∧
    (Instr.fpaq0CtxUpdate true 65536).wellFormed = false ∧ (Instr.fpaq0pCtxRead 65536).wellFormed = false := by decide

theorem test_wf_lane : (Instr.fpaq0pPutBypass 127 true).wellFormed = true ∧
    (Instr.fpaq0pPutBypass 128 true).wellFormed = false ∧ (Instr.fpaq0pPut 128 true 0).wellFormed = false ∧
    (Instr.fpaq0pGet 0 65536).wellFormed = false ∧ (Instr.fpaq0pGetBypass 128).wellFormed = false := by decide

theorem test_wf_lane_count : (Instr.fpaq0pOpenEnc 128).wellFormed = true ∧ (Instr.fpaq0pOpenEnc 0).wellFormed = false ∧
    (Instr.fpaq0pOpenEnc 129).wellFormed = false ∧ (Instr.fpaq0pOpenDec 0 true).wellFormed = false ∧
    (Instr.fpaq0pOpenDec 129 false).wellFormed = false := by decide

/-! ### Decoding: words written out from R110, R112, R122 and R135 -/

/-- Field by field, FAM OP B L C, one command of each family (R110). -/
theorem test_decode_fields :
    decode (0b0000#4 ++ 0b0010#4 ++ 0b1#1 ++ 0b0000000#7 ++ 0b0000000000000101#16) = .ok (.cabacPut true 5) ∧
    decode (0b0001#4 ++ 0b0110#4 ++ 0b0#1 ++ 0b0000000#7 ++ 0b0000000100101100#16) = .ok (.vp8Get 300) ∧
    decode (0b0010#4 ++ 0b0001#4 ++ 0b1#1 ++ 0b0000000#7 ++ 0b0000000000000000#16) = .ok (.ransOpenDec true) ∧
    decode (0b0011#4 ++ 0b1011#4 ++ 0b1#1 ++ 0b0000000#7 ++ 0b0000000000000111#16) = .ok (.fpaq0CtxUpdate true 7) ∧
    decode (0b0100#4 ++ 0b0010#4 ++ 0b1#1 ++ 0b0000010#7 ++ 0b0000000000000111#16) = .ok (.fpaq0pPut 2 true 7) := by
  decide

theorem test_decode_cabac :
    decode 0x00000000 = .ok .cabacOpenEnc ∧ decode 0x01800000 = .ok (.cabacOpenDec true) ∧
    decode 0x0280FFFF = .ok (.cabacPut true 0xFFFF) ∧ decode 0x03800000 = .ok (.cabacPutBypass true) ∧
    decode 0x04800000 = .ok (.cabacPutTerm true) ∧ decode 0x05000000 = .ok .cabacFinish ∧
    decode 0x06000005 = .ok (.cabacGet 5) ∧ decode 0x07000000 = .ok .cabacGetBypass ∧
    decode 0x08000000 = .ok .cabacGetTerm ∧ decode 0x09008001 = .ok (.cabacCtxInit 0x8001) ∧
    decode 0x0A000000 = .ok .cabacCtxInitAll ∧ decode 0x0B800009 = .ok (.cabacCtxUpdate true 9) ∧
    decode 0x0C000010 = .ok (.cabacCtxRead 16) := by decide

theorem test_decode_vp8 :
    decode 0x10000000 = .ok .vp8OpenEnc ∧ decode 0x11000000 = .ok (.vp8OpenDec false) ∧
    decode 0x12000001 = .ok (.vp8Put false 1) ∧ decode 0x13800000 = .ok (.vp8PutBypass true) ∧
    decode 0x15000000 = .ok .vp8Finish ∧ decode 0x1600012C = .ok (.vp8Get 300) ∧
    decode 0x17000000 = .ok .vp8GetBypass ∧ decode 0x19000002 = .ok (.vp8CtxInit 2) ∧
    decode 0x1A000000 = .ok .vp8CtxInitAll ∧ decode 0x1B000003 = .ok (.vp8CtxUpdate false 3) ∧
    decode 0x1C00FFFE = .ok (.vp8CtxRead 0xFFFE) := by decide

theorem test_decode_rans :
    decode 0x20000000 = .ok .ransOpenEnc ∧ decode 0x21800000 = .ok (.ransOpenDec true) ∧
    decode 0x22800003 = .ok (.ransPut true 3) ∧ decode 0x23000000 = .ok (.ransPutBypass false) ∧
    decode 0x25000000 = .ok .ransFinish ∧ decode 0x26000003 = .ok (.ransGet 3) ∧
    decode 0x27000000 = .ok .ransGetBypass ∧ decode 0x29000004 = .ok (.ransCtxInit 4) ∧
    decode 0x2A000000 = .ok .ransCtxInitAll ∧ decode 0x2B800005 = .ok (.ransCtxUpdate true 5) ∧
    decode 0x2C000003 = .ok (.ransCtxRead 3) := by decide

theorem test_decode_fpaq0 :
    decode 0x30000000 = .ok .fpaq0OpenEnc ∧ decode 0x31000000 = .ok (.fpaq0OpenDec false) ∧
    decode 0x32800007 = .ok (.fpaq0Put true 7) ∧ decode 0x33800000 = .ok (.fpaq0PutBypass true) ∧
    decode 0x35000000 = .ok .fpaq0Finish ∧ decode 0x36000007 = .ok (.fpaq0Get 7) ∧
    decode 0x37000000 = .ok .fpaq0GetBypass ∧ decode 0x39000001 = .ok (.fpaq0CtxInit 1) ∧
    decode 0x3A000000 = .ok .fpaq0CtxInitAll ∧ decode 0x3B800007 = .ok (.fpaq0CtxUpdate true 7) ∧
    decode 0x3C000007 = .ok (.fpaq0CtxRead 7) := by decide

theorem test_decode_fpaq0p :
    decode 0x40030000 = .ok (.fpaq0pOpenEnc 4) ∧ decode 0x41810000 = .ok (.fpaq0pOpenDec 2 true) ∧
    decode 0x42820007 = .ok (.fpaq0pPut 2 true 7) ∧ decode 0x437F0000 = .ok (.fpaq0pPutBypass 127 false) ∧
    decode 0x45000000 = .ok .fpaq0pFinish ∧ decode 0x46010001 = .ok (.fpaq0pGet 1 1) ∧
    decode 0x47010000 = .ok (.fpaq0pGetBypass 1) ∧ decode 0x49000002 = .ok (.fpaq0pCtxInit 2) ∧
    decode 0x4A000000 = .ok .fpaq0pCtxInitAll ∧ decode 0x4B000003 = .ok (.fpaq0pCtxUpdate false 3) ∧
    decode 0x4C000001 = .ok (.fpaq0pCtxRead 1) := by decide

/-- The illegal words of spec/95_test_vectors.md section 8. -/
theorem test_decode_illegal :
    decode 0x55000000 = .error .reservedFamily ∧ decode 0x0D000000 = .error .reservedOperation ∧
    decode 0x14800000 = .error .termNotCabac ∧ decode 0x18000000 = .error .termNotCabac ∧
    decode 0x05800000 = .error .unusedFieldNonZero ∧ decode 0x02010000 = .error .unusedFieldNonZero ∧
    decode 0x0A000001 = .error .unusedFieldNonZero ∧ decode 0x10010000 = .error .unusedFieldNonZero := by decide

/-- The host's two entry points evaluate in the kernel. -/
theorem test_decodeTableWord : decodeTableWord 32 0x42820007 = some (.fpaq0pPut 2 true 7) ∧
    decodeTableWord 32 0x55000000 = none := by decide

/-! ### Small states -/

/-- A machine of one engine. -/
def machine (p : Params) (e : Engine) : State := { State.powerOn p with engines := [e] }

/-- An engine right after OPEN_ENC of a family, with two lanes for FPAQ0P (R53). -/
def encoder (f : Family) : Engine :=
  { Engine.powerOn 0 with
    phase := .enc
    fam := f
    laneCount := if f = .fpaq0p then 2 else 1
    cabacEnc := ⟨0, 510, 0, true⟩
    vp8Enc := ⟨0, 255, 0, 0, false, 0⟩
    fpaq0Enc := ⟨0, 0xFFFFFFFF⟩
    lanesEnc := if f = .fpaq0p then [⟨0, 0xFFFFFFFF, 0⟩, ⟨0, 0xFFFFFFFF, 0⟩] else [] }

/-- An engine in a decoder session of a family, its registers and cursor as OPEN_DEC sets them (R54). -/
def decoder (f : Family) (eof : Bool) (src : List Byte) : Engine :=
  { Engine.powerOn 0 with
    phase := .dec
    fam := f
    dir := .dec
    eof := eof
    src := src
    staged := src
    bitpos := match f with | .cabac => 9 | .vp8 => 8 | .rans => 32 | .fpaq0 => 32 | .fpaq0p => 0
    laneCount := if f = .fpaq0p then 2 else 1
    cabacDec := ⟨510, 509⟩
    vp8Dec := ⟨255, 128⟩
    ransDec := ⟨0x00020080⟩
    fpaq0Dec := ⟨0, 0xFFFFFFFF, 0x7FFFFF81⟩
    lanesDec := if f = .fpaq0p then [⟨0, 0xFFFFFFFF, 0x7FFFFF81, 4⟩, ⟨0, 0xFFFFFFFF, 0, 4⟩] else [] }

/-- The engine a command leaves on a machine of one engine. -/
def after (i : Instr) (p : Params) (e : Engine) : Engine :=
  match exec i (machine p e) with
  | .next t => t.engines.headD e
  | _ => e

/-- The fixed part of the response to a command. -/
def respond (i : Instr) (p : Params) (e : Engine) : Word :=
  ((after i p e).responses.headD ⟨.ok, 0, false, 0, []⟩).word

/-- The output a command returns. -/
def outOf (i : Instr) (p : Params) (e : Engine) : List Byte :=
  ((after i p e).responses.headD ⟨.ok, 0, false, 0, []⟩).out

/-! ### One step each, expected values from spec/95_test_vectors.md and the rules' examples -/

/-- R181 -/
theorem test_cabac_open_enc : (after .cabacOpenEnc .default (decoder .vp8 true [1])).cabacEnc = ⟨0, 510, 0, true⟩ := by
  decide

/-- V2.30 -/
theorem test_cabac_open_dec :
    (after (.cabacOpenDec false) .default { encoder .vp8 with staged := [0xFE, 0x80] }).cabacDec = ⟨510, 509⟩ := by
  decide

/-- V2.1 -/
theorem test_cabac_put_mps : (after (.cabacPut false 3) .default (encoder .cabac)).cabacEnc = ⟨0, 270, 0, true⟩ := by
  decide

/-- V2.2 -/
theorem test_cabac_put_lps : (after (.cabacPut true 3) .default (encoder .cabac)).cabacEnc = ⟨28, 480, 1, true⟩ := by
  decide

/-- V2.6 -/
theorem test_cabac_put_bypass : (after (.cabacPutBypass true) .default (encoder .cabac)).cabacEnc = ⟨510, 510, 0, false⟩ := by
  decide

/-- V2.10 -/
theorem test_cabac_put_term_0 : (after (.cabacPutTerm false) .default (encoder .cabac)).cabacEnc = ⟨0, 508, 0, true⟩ := by
  decide

/-- V2.24 -/
theorem test_cabac_put_term_1 : outOf (.cabacPutTerm true) .default (encoder .cabac) = [0xFE, 0x80] := by decide

/-- V2.20 -/
theorem test_cabac_finish : outOf .cabacFinish .default (encoder .cabac) = [0xFE, 0x80] := by decide

/-- V2.32 -/
theorem test_cabac_get :
    (after (.cabacGet 3) .default (decoder .cabac false [0xFE, 0xC0])).cabacDec = ⟨480, 479⟩ ∧
    respond (.cabacGet 3) .default (decoder .cabac false [0xFE, 0xC0]) = 0x06800000 := by decide

/-- V2.34: the first bypass bin on BF 38, whose seed is 382. -/
theorem test_cabac_get_bypass :
    (after .cabacGetBypass .default { decoder .cabac false [0xBF, 0x38] with cabacDec := ⟨510, 382⟩ }).cabacDec =
      ⟨510, 254⟩ := by decide

/-- V2.31 -/
theorem test_cabac_get_term : respond .cabacGetTerm .default (decoder .cabac false [0xFE, 0x80]) = 0x08800000 := by
  decide

/-- R160: an entry at (s 1, mps 1) back to initial. -/
theorem test_cabac_ctx_init : ctxGet (after (.cabacCtxInit 3) .default { encoder .cabac with ctx := [(3, 0x41)] }) 3 = 0 := by
  decide

/-- R161 -/
theorem test_cabac_ctx_init_all :
    (after .cabacCtxInitAll .default { encoder .cabac with ctx := [(3, 0x41), (9, 2)] }).ctx = [] := by decide

/-- R154: an LPS in state 1 under both swap tests (spec/95_test_vectors.md section 7). -/
theorem test_cabac_ctx_update :
    ctxGet (after (.cabacCtxUpdate true 9) .default { encoder .cabac with ctx := [(9, 1)] }) 9 = 0 ∧
    ctxGet (after (.cabacCtxUpdate true 9) { Params.default with cabacSwapTest := .new }
      { encoder .cabac with ctx := [(9, 1)] }) 9 = 0x40 := by decide

/-- P1 line 7 -/
theorem test_cabac_ctx_read : respond (.cabacCtxRead 5) .default { encoder .cabac with ctx := [(5, 1)] } = 0x0C000001 := by
  decide

/-- R235 -/
theorem test_vp8_open_enc : (after .vp8OpenEnc .default (decoder .vp8 true [1])).vp8Enc = ⟨0, 255, 0, 0, false, 0⟩ := by
  decide

/-- V3.20 -/
theorem test_vp8_open_dec :
    (after (.vp8OpenDec false) .default { encoder .vp8 with staged := [0xB2, 0x1B, 0] }).vp8Dec = ⟨255, 178⟩ := by decide

/-- V3.2 -/
theorem test_vp8_put : (after (.vp8Put true 3) .default (encoder .vp8)).vp8Enc = ⟨256, 254, 1, 0, false, 0⟩ ∧
    ctxGet (after (.vp8Put true 3) .default (encoder .vp8)) 3 = 124 := by decide

/-- P3 line 17: an assembled 0xFF becomes outstanding. -/
theorem test_vp8_put_bypass :
    (after (.vp8PutBypass false) .default { encoder .vp8 with vp8Enc := ⟨32736, 236, 7, 0x2B, true, 0⟩ }).vp8Enc =
      ⟨192, 236, 0, 0x2B, true, 1⟩ := by decide

/-- P3 line 20: the carry turns 0x2B into 0x2C and the outstanding 0xFF into 0x00. -/
theorem test_vp8_finish :
    outOf .vp8Finish .default { encoder .vp8 with vp8Enc := ⟨726, 130, 1, 0x2B, true, 1⟩ } = [0x2C, 0, 0x6B, 0] := by
  decide

/-- V3.22 -/
theorem test_vp8_get : (after (.vp8Get 3) .default (decoder .vp8 false [0x80, 0])).vp8Dec = ⟨254, 0⟩ ∧
    respond (.vp8Get 3) .default (decoder .vp8 false [0x80, 0]) = 0x06800000 := by decide

/-- P4 line 7 -/
theorem test_vp8_get_bypass :
    (after .vp8GetBypass .default
      { decoder .vp8 false [0x2C, 0, 0x6B, 0] with vp8Dec := ⟨248, 120⟩, bitpos := 13 }).vp8Dec = ⟨248, 240⟩ ∧
    respond .vp8GetBypass .default
      { decoder .vp8 false [0x2C, 0, 0x6B, 0] with vp8Dec := ⟨248, 120⟩, bitpos := 13 } = 0x07000000 := by decide

/-- R167: p = 33, b = 1 gives 31; p = 224, b = 0 gives 225. -/
theorem test_vp8_ctx_update :
    ctxGet (after (.vp8CtxUpdate true 0) .default { encoder .vp8 with ctx := [(0, 33)] }) 0 = 31 ∧
    ctxGet (after (.vp8CtxUpdate false 0) .default { encoder .vp8 with ctx := [(0, 224)] }) 0 = 225 := by decide

/-- R165, R166, R168 -/
theorem test_vp8_ctx : (after (.vp8CtxInit 0) .default { encoder .vp8 with ctx := [(0, 33)] }).ctx = [] ∧
    (after .vp8CtxInitAll .default { encoder .vp8 with ctx := [(0, 33), (4, 5)] }).ctx = [] ∧
    respond (.vp8CtxRead 0) .default (encoder .vp8) = 0x0C000080 := by decide

/-- R53: the queue; x is a free value. -/
theorem test_rans_open_enc : (after .ransOpenEnc .default (decoder .rans true [1])).ransEnc.queue = [] := by decide

/-- P6 line 1 -/
theorem test_rans_open_dec :
    (after (.ransOpenDec true) .default { encoder .rans with staged := [0, 0x11, 0x0B, 0x5B] }).ransDec = ⟨0x00110B5B⟩ := by
  decide

/-- R274 -/
theorem test_rans_put : (after (.ransPut true 3) .default (encoder .rans)).ransEnc.queue = [(true, 128)] ∧
    ctxGet (after (.ransPut true 3) .default (encoder .rans)) 3 = 124 := by decide

/-- V9.20: a full queue. -/
theorem test_rans_put_full :
    respond (.ransPut true 0) { Params.default with ransQCap := some 2 }
      { encoder .rans with ransEnc := ⟨[(true, 128), (false, 128)], 0⟩ } = 0x72000000 := by decide

/-- R275 -/
theorem test_rans_put_bypass : (after (.ransPutBypass true) .default (encoder .rans)).ransEnc.queue = [(true, 128)] := by
  decide

/-- V4.3 -/
theorem test_rans_finish :
    outOf .ransFinish .default
      { encoder .rans with ransEnc := ⟨[(false, 128), (true, 132), (true, 127), (false, 123)], 0⟩ } =
      [0x00, 0x11, 0x0B, 0x5B] := by decide

/-- R285 -/
theorem test_rans_get : (after (.ransGet 3) .default (decoder .rans false [0, 2, 0, 0x80])).ransDec = ⟨0x10000⟩ ∧
    respond (.ransGet 3) .default (decoder .rans false [0, 2, 0, 0x80]) = 0x06800000 := by decide

/-- V4.4: the first of the three bypass bits of 00 08 02 80. -/
theorem test_rans_get_bypass :
    respond .ransGetBypass .default { decoder .rans true [0, 8, 2, 0x80] with ransDec := ⟨0x00080280⟩ } = 0x07800000 := by
  decide

theorem test_rans_ctx : ctxGet (after (.ransCtxUpdate true 0) .default (encoder .rans)) 0 = 124 ∧
    (after (.ransCtxInit 0) .default { encoder .rans with ctx := [(0, 33)] }).ctx = [] ∧
    (after .ransCtxInitAll .default { encoder .rans with ctx := [(0, 33), (4, 5)] }).ctx = [] ∧
    respond (.ransCtxRead 3) .default { encoder .rans with ctx := [(3, 127)] } = 0x0C00007F := by decide

/-- R305 -/
theorem test_fpaq0_open_enc : (after .fpaq0OpenEnc .default (decoder .rans true [1])).fpaq0Enc = ⟨0, 0xFFFFFFFF⟩ := by
  decide

/-- V5.30 -/
theorem test_fpaq0_open_dec :
    (after (.fpaq0OpenDec false) .default { encoder .rans with staged := [0x7F, 0xFF, 0xFF, 0x81] }).fpaq0Dec =
      ⟨0, 0xFFFFFFFF, 0x7FFFFF81⟩ := by decide

/-- V5.1 -/
theorem test_fpaq0_put : (after (.fpaq0Put false 3) .default (encoder .fpaq0)).fpaq0Enc = ⟨0, 0x7FFFFF80⟩ := by decide

/-- V5.4: EncodeBit(0, p = 1) writes one byte. -/
theorem test_fpaq0_put_renorm :
    (after (.fpaq0Put false 3) .default { encoder .fpaq0 with ctx := [(3, 1)] }).fpaq0Enc = ⟨0, 0xFFFFFFFF⟩ ∧
    (after (.fpaq0Put false 3) .default { encoder .fpaq0 with ctx := [(3, 1)] }).sink = List.replicate 8 false := by decide

/-- V5.3 -/
theorem test_fpaq0_put_bypass :
    (after (.fpaq0PutBypass true) .default (encoder .fpaq0)).fpaq0Enc = ⟨0x7FFFFF81, 0xFFFFFFFF⟩ := by decide

/-- V5.21 -/
theorem test_fpaq0_finish :
    outOf .fpaq0Finish .default { encoder .fpaq0 with fpaq0Enc := ⟨0x7FFFFF81, 0xFFFFFFFF⟩ } = [0x7F, 0xFF, 0xFF, 0x81] := by
  decide

/-- V5.30 -/
theorem test_fpaq0_get : respond (.fpaq0Get 3) .default (decoder .fpaq0 true [0x7F, 0xFF, 0xFF, 0x81]) = 0x06800000 ∧
    (after (.fpaq0Get 3) .default (decoder .fpaq0 true [0x7F, 0xFF, 0xFF, 0x81])).fpaq0Dec.low = 0x7FFFFF81 := by decide

/-- V5.30 -/
theorem test_fpaq0_get_bypass :
    respond .fpaq0GetBypass .default (decoder .fpaq0 true [0x7F, 0xFF, 0xFF, 0x81]) = 0x07800000 := by decide

theorem test_fpaq0_ctx : ctxGet (after (.fpaq0CtxUpdate true 7) .default (encoder .fpaq0)) 7 = 124 ∧
    (after (.fpaq0CtxInit 0) .default { encoder .fpaq0 with ctx := [(0, 33)] }).ctx = [] ∧
    (after .fpaq0CtxInitAll .default { encoder .fpaq0 with ctx := [(0, 33), (4, 5)] }).ctx = [] ∧
    respond (.fpaq0CtxRead 7) .default { encoder .fpaq0 with ctx := [(7, 120)] } = 0x0C000078 := by decide

/-- R323 -/
theorem test_fpaq0p_open_enc :
    (after (.fpaq0pOpenEnc 2) .default (decoder .rans true [1])).lanesEnc =
      [⟨0, 0xFFFFFFFF, 0⟩, ⟨0, 0xFFFFFFFF, 0⟩] := by decide

/-- P8 line 1 -/
theorem test_fpaq0p_open_dec :
    (after (.fpaq0pOpenDec 2 true) .default
      { encoder .rans with staged := [0x7F, 0, 0xFF, 0, 0xFF, 0, 0x81, 0] }).lanesDec =
      [⟨0, 0xFFFFFFFF, 0x7FFFFF81, 4⟩, ⟨0, 0xFFFFFFFF, 0, 4⟩] := by decide

/-- V9.19: one byte short. -/
theorem test_fpaq0p_open_dec_short :
    respond (.fpaq0pOpenDec 2 true) .default { encoder .rans with staged := [0x7F, 0, 0xFF, 0, 0xFF, 0, 0x81] } =
      0x21000000 := by decide

/-- P7 line 3: lane 1 moves, lane 0 does not. -/
theorem test_fpaq0p_put :
    (after (.fpaq0pPut 1 false 1) .default (encoder .fpaq0p)).lanesEnc =
      [⟨0, 0xFFFFFFFF, 0⟩, ⟨0, 0x7FFFFF80, 0⟩] := by decide

/-- R321: the byte of lane 1 with k = 3 goes to position 3 * 2 + 1. -/
theorem test_fpaq0p_put_emit :
    (after (.fpaq0pPut 1 false 1) .default
      { encoder .fpaq0p with ctx := [(1, 1)], lanesEnc := [⟨0, 0xFFFFFFFF, 0⟩, ⟨0, 0xFFFFFFFF, 3⟩] }).slots = [(7, 0)] := by
  decide

theorem test_fpaq0p_put_bypass :
    (after (.fpaq0pPutBypass 0 true) .default (encoder .fpaq0p)).lanesEnc =
      [⟨0x7FFFFF81, 0xFFFFFFFF, 0⟩, ⟨0, 0xFFFFFFFF, 0⟩] := by decide

/-- P7 line 4 -/
theorem test_fpaq0p_finish :
    outOf .fpaq0pFinish .default
      { encoder .fpaq0p with lanesEnc := [⟨0x7FFFFF81, 0xFFFFFFFF, 0⟩, ⟨0, 0x7FFFFF80, 0⟩] } =
      [0x7F, 0, 0xFF, 0, 0xFF, 0, 0x81, 0] := by decide

/-- P8 lines 2 and 3 -/
theorem test_fpaq0p_get : respond (.fpaq0pGet 0 0) .default (decoder .fpaq0p true []) = 0x06800000 ∧
    respond (.fpaq0pGet 1 1) .default (decoder .fpaq0p true []) = 0x06000000 := by decide

theorem test_fpaq0p_get_bypass : respond (.fpaq0pGetBypass 0) .default (decoder .fpaq0p true []) = 0x07800000 := by
  decide

theorem test_fpaq0p_ctx : ctxGet (after (.fpaq0pCtxUpdate false 1) .default (encoder .fpaq0p)) 1 = 132 ∧
    (after (.fpaq0pCtxInit 0) .default { encoder .fpaq0p with ctx := [(0, 33)] }).ctx = [] ∧
    (after .fpaq0pCtxInitAll .default { encoder .fpaq0p with ctx := [(0, 33), (4, 5)] }).ctx = [] ∧
    respond (.fpaq0pCtxRead 1) .default { encoder .fpaq0p with ctx := [(1, 132)] } = 0x0C000084 := by decide

/-- V9.6, V9.7, V9.8: which error is reported. -/
theorem test_error_priority :
    respond (.fpaq0pPut 9 true 2000) .default (encoder .fpaq0p) = 0x52000000 ∧
    respond (.cabacGet 0xFFFF) .default (encoder .cabac) = 0x36000000 ∧
    respond (.cabacPut true 1024) .default (encoder .cabac) = 0x42000000 := by decide

/-- V9.1 and the host's entry point: the word runs as the first command after reset. -/
theorem test_step_first_command :
    (match step (State.reset.withFetchWord 32 0x55000000) with
      | .next t => t.engines.map fun e => (e.phase, e.lastErr, e.cmdIndex, e.responses.map Response.word)
      | _ => []) = [(.faulted, .illegalCommand, 1, [0x35000000])] ∧
    (match step (State.reset.withFetchWord 32 0x00000000) with
      | .next t => t.engines.map fun e => (e.phase, e.cabacEnc)
      | _ => []) = [(.enc, ⟨0, 510, 0, true⟩)] := by decide

/-- R88, R89: the two refusals of the host. -/
theorem test_host_refused :
    step { machine .default (decoder .cabac true []) with host := [.overwriteInput 0 [1]] } matches .refused .inputLatched ∧
    step { machine .default (encoder .cabac) with host := [.readOutput 0] } matches .refused .outputNotReadable := by
  decide

/-! ### States that meet the hypotheses of the statements -/

/-- An engine after OPEN_ENC meets the invariant. -/
theorem encoder_inv (f : Family) : EngineInv .default (encoder f) where
  ctx := by cases f <;> decide
  session := by cases f <;> decide
  cabacEnc := by cases f <;> decide
  vp8Enc := by
    rintro ⟨-, h⟩
    cases h
    exact ⟨by decide, by decide, by simp [encoder], fun _ => ⟨by simp [encoder], rfl, rfl⟩, by simp [encoder],
      by simp [encoder, Engine.powerOn], by simp [Params.default]⟩
  vp8Dec := by cases f <;> decide
  ransEnc := by rintro ⟨-, h⟩; cases h; exact ⟨by simp [encoder, Engine.powerOn], by simp [Params.default], rfl⟩
  ransDec := by cases f <;> decide
  fpaq0Enc := by cases f <;> decide
  fpaq0Dec := by cases f <;> decide
  lanesEnc := by
    rintro ⟨-, hf⟩
    cases hf
    refine ⟨rfl, by decide, ⟨List.Pairwise.nil, by simp [encoder, Engine.powerOn]⟩, fun a => ?_⟩
    rcases Nat.mod_two_eq_zero_or_one a with h | h <;>
      simp [encoder, Engine.powerOn, Memory.lookup, laneEnc, h]
  lanesDec := by cases f <;> decide

/-- An engine in a decoder session meets the invariant, whatever its input. -/
theorem decoder_inv (f : Family) (eof : Bool) (src : List Byte) : EngineInv .default (decoder f eof src) where
  ctx := by cases f <;> exact ⟨⟨List.Pairwise.nil, by simp [decoder, Engine.powerOn]⟩, by simp [decoder, Engine.powerOn]⟩
  session := by cases f <;> simp [decoder, Engine.powerOn, SessionInv, inSession]
  cabacEnc := by rintro ⟨h, -⟩; cases h
  vp8Enc := by rintro ⟨h, -⟩; cases h
  vp8Dec := fun _ => ⟨(by decide : 128 ≤ (255 : Word).toNat), (by decide : (255 : Word).toNat ≤ 255)⟩
  ransEnc := by rintro ⟨h, -⟩; cases h
  ransDec := by rintro ⟨-, h⟩; cases h; simp [decoder]
  fpaq0Enc := by rintro ⟨h, -⟩; cases h
  fpaq0Dec := by rintro ⟨-, h⟩; cases h; exact ⟨(by decide : IntervalInv 0 0xFFFFFFFF), by simp [decoder]⟩
  lanesEnc := by rintro ⟨h, -⟩; cases h
  lanesDec := by rintro ⟨-, h⟩; cases h; exact ⟨rfl, by simp [decoder, IntervalInv, topByte]⟩

/-- A machine of one engine with host actions pending. -/
def pending (p : Params) (e : Engine) (h : List HostAction) : State := (machine p e).setHost h

theorem witness_DecodeOfEncode : (Instr.fpaq0pPut 127 true 65535).WellFormed ∧ (Instr.fpaq0pOpenDec 128 true).WellFormed ∧
    (Instr.fpaq0pOpenEnc 1).WellFormed ∧ Instr.cabacFinish.WellFormed := by decide

theorem witness_EncodeOfDecode : decode 0x42FFFFFF = .ok (.fpaq0pPut 127 true 65535) := by decide

theorem witness_IllegalWordsRaise : ∃ (s : State) (e : Engine),
    s.host = .command 0 0x50000000 :: [] ∧ s.engines[0]? = some e ∧ 5 ≤ (0x50000000#32).toNat / 2 ^ 28 ∧
    decode 0x0D000000 = .error .reservedOperation ∧ decode 0x14000000 = .error .termNotCabac ∧
    decode 0x05800000 = .error .unusedFieldNonZero ∧ decode 0x45010000 = .error .unusedFieldNonZero ∧
    decode 0x03000001 = .error .unusedFieldNonZero :=
  ⟨pending .default (encoder .vp8) [.command 0 0x50000000], encoder .vp8, rfl, rfl, by decide⟩

theorem witness_StepRunsDecodedCommand :
    (pending .default (encoder .vp8) [.command 0 0x12800001]).host = .command 0 0x12800001 :: [] ∧
    decode 0x12800001 = .ok (.vp8Put true 1) := ⟨rfl, by decide⟩

theorem witness_PowerOnState : (State.powerOn { Params.default with numEngines := 3 }).engines[2]? = some (Engine.powerOn 2) :=
  rfl

theorem witness_HostAccess :
    (machine .default (encoder .vp8)).host = [] ∧
    ({ encoder .vp8 with phase := .finished } : Engine).phase = .finished ∧ (encoder .vp8).phase ≠ .finished ∧
    (decoder .vp8 true []).dir = .dec ∧ (decoder .vp8 true []).phase = .dec ∧
    (pending .default (encoder .vp8) [.readOutput 0]).engines[0]? = some (encoder .vp8) := by
  refine ⟨rfl, rfl, by decide, rfl, rfl, rfl⟩

/-- A word that raises, and one that returns an output. -/
theorem witness_EveryCommandReports : (∃ (s : State) (e : Engine),
      s.host = .command 0 0xFFFFFFFF :: [] ∧ s.engines[0]? = some e) ∧
    ∃ (s : State) (e : Engine), s.host = .command 0 0x04800000 :: [] ∧ s.engines[0]? = some e ∧
      outOf (.cabacPutTerm true) .default e ≠ [] :=
  ⟨⟨pending .default (encoder .vp8) [.command 0 0xFFFFFFFF], encoder .vp8, rfl, rfl⟩,
    pending .default (encoder .cabac) [.command 0 0x04800000], encoder .cabac, rfl, rfl, by decide⟩

theorem witness_EnginesIndependent : ∃ s s' t : State, s.host = .command 0 0x13800000 :: [] ∧ step s = .next t ∧
    s'.host = .command 0 0x13800000 :: [.readOutput 0] ∧ s'.params = s.params ∧ s'.engines[0]? = s.engines[0]? :=
  ⟨pending .default (encoder .vp8) [.command 0 0x13800000],
    pending .default (encoder .vp8) [.command 0 0x13800000, .readOutput 0], _, rfl, rfl, rfl, rfl, rfl⟩

theorem witness_OnlyOpenWritesConfiguration : ∃ (s t : State) (e e' : Engine),
    step s = .next t ∧ s.engines[0]? = some e ∧ t.engines[0]? = some e' ∧ e'.fam ≠ e.fam :=
  ⟨pending .default (encoder .vp8) [.command 0 0x30000000], _, encoder .vp8, _, rfl, rfl, rfl, by decide⟩

theorem witness_IllegalCommandHasNoOtherEffect : (machine .default (encoder .fpaq0p)).engine? = some (encoder .fpaq0p) ∧
    ¬Legal .default (encoder .fpaq0p) (.fpaq0pPut 2 true 0) ∧ ¬Legal .default (encoder .fpaq0p) (.fpaq0pPut 1 true 1024) ∧
    ¬Legal .default (encoder .fpaq0p) (.fpaq0pGet 0 0) ∧ ¬Legal .default (encoder .fpaq0p) (.vp8Put true 0) := by
  refine ⟨rfl, ?_, ?_, ?_, ?_⟩ <;>
    simp [Legal, encoder, laneOperand, ctxOperand, phaseFits, Instr.op, Instr.family, Params.default]

theorem witness_OnlyOpenLeavesIdleAndFaulted : (Engine.powerOn 0).phase = .idle ∧
    (raiseErr 0 .ctxRange (encoder .vp8)).phase = .faulted ∧ Instr.vp8Finish.op ≠ .openEnc ∧ Instr.vp8Finish.op ≠ .openDec := by
  decide

/-- A legal command of each kind of operation, of every family. -/
theorem witness_PlainCommandsComplete (f : Family) : Unbounded .default ∧
    Legal .default (encoder f) (putInstr f ⟨true, some 1023, 0⟩) ∧ Legal .default (encoder f) (finishInstr f) ∧
    Legal .default (decoder f false []) (getInstr f ⟨true, none, 0⟩) ∧ (decoder f false []).eof = false ∧
    Legal .default (encoder f) (openDecInstr f 1 false) ∧ Legal .default (decoder f true []) (openEncInstr f 128) ∧
    Legal .default (encoder f) (ctxUpdateInstr f true 0) := by
  refine ⟨by decide, ?_⟩
  cases f <;>
    simp [Legal, encoder, decoder, putInstr, finishInstr, getInstr, openDecInstr, openEncInstr, ctxUpdateInstr, laneOperand,
      ctxOperand, phaseFits, Instr.op, Instr.family, Params.default]

/-- The CABAC operations the other families lack. -/
theorem witness_PlainCommandsComplete_term : Legal .default (encoder .cabac) (.cabacPutTerm true) ∧
    Legal .default (decoder .cabac false []) .cabacGetTerm := by
  simp [Legal, encoder, decoder, laneOperand, ctxOperand, phaseFits, Instr.op, Instr.family]

theorem witness_OpenEncoderState : (machine .default (Engine.powerOn 0)).engine? = some (Engine.powerOn 0) ∧
    1 ≤ 128 ∧ 128 ≤ 128 := ⟨rfl, by decide⟩

/-- Exactly the bytes the seed needs, for every family. -/
theorem witness_OpenDecoderSeeds (f : Family) : ∃ (s : State) (e : Engine), s.engine? = some e ∧
    seedBytes f 2 ≤ e.staged.length ∧ seedBytes f 2 = e.staged.length :=
  ⟨machine .default { Engine.powerOn 0 with staged := List.replicate (seedBytes f 2) 7 },
    { Engine.powerOn 0 with staged := List.replicate (seedBytes f 2) 7 }, rfl, by simp, by simp⟩

/-- One byte less than the seed needs, for every family. -/
theorem witness_OpenDecoderExhausts (f : Family) : ∃ (s : State) (e : Engine), s.engine? = some e ∧
    e.staged.length + 1 = seedBytes f 2 ∧ e.staged.length < seedBytes f 2 := by
  refine ⟨machine .default { Engine.powerOn 0 with staged := List.replicate (seedBytes f 2 - 1) 7 },
    { Engine.powerOn 0 with staged := List.replicate (seedBytes f 2 - 1) 7 }, rfl, ?_⟩
  cases f <;> simp [seedBytes]

/-- For ContextInit, ContextUpdate and ContextRead: the last entry, in a session of each family. -/
theorem witness_Context (f : Family) : EngineInv .default (encoder f) ∧ f = (encoder f).fam ∧ inSession (encoder f) ∧
    1023 < Params.default.numCtx := ⟨encoder_inv f, rfl, .inl rfl, by decide⟩

/-- For ContextUpdate with CABAC: an MPS, an LPS in state 0, and one in state 1, where the swap tests differ. -/
theorem witness_ContextUpdate_cabac : CtxInv .default { encoder .cabac with ctx := [(9, 0x41)] } ∧
    (cabacCtxGet { encoder .cabac with ctx := [(9, 0x41)] } 9).mps = true ∧
    (cabacCtxGet { encoder .cabac with ctx := [(9, 0x41)] } 9).s = 1 ∧ (cabacCtxGet (encoder .cabac) 9).s = 0 := by decide

/-- Inside the input, at its end in zero-fill mode, and at its end in explicit-EOF mode. -/
theorem witness_ReadByteAligned : (decoder .vp8 true [1, 2]).bitpos % 8 = 0 ∧
    (decoder .vp8 true [1, 2]).bitpos / 8 < (decoder .vp8 true [1, 2]).src.length ∧
    (decoder .vp8 false [1]).eof = false ∧
    ¬((decoder .vp8 true [1]).bitpos / 8 < (decoder .vp8 true [1]).src.length ∨ (decoder .vp8 true [1]).eof = false) := by
  decide

theorem witness_SinkBytes : Params.default.sinkMode = .inMemory ∧ (encoder .vp8).sink.length % 8 = 0 := by decide

/-- For CabacPutExact, CabacBypassAndTermExact and CabacFinishOutput. -/
theorem witness_CabacEncoder : EngineInv .default (encoder .cabac) ∧ Unbounded .default ∧ Encoding .cabac (encoder .cabac) ∧
    1023 < Params.default.numCtx := ⟨encoder_inv .cabac, by decide, by decide, by decide⟩

/-- For CabacGetResult: the sub-range is below the range; one input completes and one is too short. -/
theorem witness_CabacGetResult (src : List Byte) : EngineInv .default (decoder .cabac true src) ∧
    Decoding .cabac (decoder .cabac true src) ∧ rangeTabLPS 0 (510 / 2 ^ 6 % 4) ≤ 510 ∧
    (after (.cabacGet 0) .default (decoder .cabac true [0xFE, 0x80])).lastErr = .ok ∧
    (after (.cabacGet 0) .default (decoder .cabac true [0xFE])).lastErr = .inputExhausted ∧
    (after (.cabacGet 0) .default (decoder .cabac false [])).lastErr = .ok :=
  ⟨decoder_inv _ _ _, ⟨rfl, rfl⟩, by decide, by decide, by decide, by decide⟩

/-- For CabacGetBypassResult: the last bit of the input, and the end in either mode. -/
theorem witness_CabacGetBypassResult :
    (let e := { decoder .cabac true [0xFE, 0x80] with bitpos := 15 }; e.bitpos < 8 * e.src.length) ∧
    (decoder .cabac false []).eof = false ∧
    ¬((decoder .cabac true [0]).bitpos < 8 * (decoder .cabac true [0]).src.length ∨ (decoder .cabac true [0]).eof = false) := by
  decide

/-- For CabacGetTermResult: bin 1 with no input left, bin 0 with the last bit and with none left, and the least range. -/
theorem witness_CabacGetTermResult :
    (let e := decoder .cabac true []; Decoding .cabac e ∧ e.cabacDec.range.toNat - 2 ≤ e.cabacDec.offset.toNat ∧
      (after .cabacGetTerm .default e).lastErr = .ok) ∧
    (let e := { decoder .cabac true [0, 0] with cabacDec := ⟨257, 0⟩, bitpos := 15 };
      Decoding .cabac e ∧ InputLeft e 1 ∧ (after .cabacGetTerm .default e).lastErr = .ok) ∧
    (let e := { decoder .cabac true [0, 0] with cabacDec := ⟨257, 0⟩, bitpos := 16 };
      Decoding .cabac e ∧ ¬InputLeft e 1 ∧ (after .cabacGetTerm .default e).lastErr = .inputExhausted) ∧
    2 ≤ ({ decoder .cabac false [] with cabacDec := ⟨2, 0⟩ } : Engine).cabacDec.range.toNat := by
  decide

/-- The parameters with a counter of 16 bits. -/
def wide16 : Params := { Params.default with outstandingW := some 16 }

/-- A CABAC encoder whose next pass straddles the carry position, with a counter that holds `k`. -/
def straddling (k : Nat) : Engine := { encoder .cabac with cabacEnc := ⟨256, 256, k, false⟩ }

theorem straddling_inv (k : Nat) (h : k < 2 ^ 16) : EngineInv wide16 (straddling k) where
  ctx := (encoder_inv .cabac).ctx
  session := (encoder_inv .cabac).session
  cabacEnc := fun _ => ⟨by simp [straddling], by simp [straddling], by simp [straddling], by simp [straddling],
    by simpa [wide16, straddling] using h⟩
  vp8Enc := by rintro ⟨-, h⟩; cases h
  vp8Dec := by rintro ⟨-, h⟩; cases h
  ransEnc := by rintro ⟨-, h⟩; cases h
  ransDec := by rintro ⟨-, h⟩; cases h
  fpaq0Enc := by rintro ⟨-, h⟩; cases h
  fpaq0Dec := by rintro ⟨-, h⟩; cases h
  lanesEnc := by rintro ⟨-, h⟩; cases h
  lanesDec := by rintro ⟨-, h⟩; cases h

/-- For CabacCounterOverflow: with a full counter each command overflows, with room for one each completes or (finish)
is short until there is room for seven. -/
theorem witness_CabacCounterOverflow : wide16.outstandingW = some 16 ∧ wide16.sinkMode = .inMemory ∧
    EngineInv wide16 (straddling 65535) ∧ EngineInv wide16 (straddling 65534) ∧ Encoding .cabac (straddling 65535) ∧
    ([.cabacPutBypass false, .cabacPut false 0, .cabacPut true 1023, .cabacPutTerm false, .cabacPutTerm true,
      .cabacFinish].map fun i => (after i wide16 (straddling 65535)).lastErr) = List.replicate 6 .counterOverflow ∧
    ([.cabacPutBypass false, .cabacPut false 0, .cabacPut true 1023, .cabacPutTerm false, .cabacFinish].map fun i =>
      (after i wide16 (straddling 65534)).lastErr) = [.ok, .ok, .ok, .ok, .counterOverflow] ∧
    CounterShort 16 65529 (256 + (256 - 2)) 7 ∧ ¬CounterShort 16 65528 (256 + (256 - 2)) 7 :=
  ⟨rfl, rfl, straddling_inv _ (by decide), straddling_inv _ (by decide), by decide, by decide, by decide, by decide,
    by decide⟩

theorem witness_SplitAndMidInside : 2 ≤ (2#32).toNat ∧ (255#32).toNat ≤ 255 ∧ 1 ≤ (1#8).toNat ∧
    (0#32).toNat ≤ (0#32).toNat ∧ (0#32).toNat < (1#32).toNat := by decide

/-- For Vp8PutExact and Vp8FinishOutput: with a context, with none, and with bytes deferred. -/
theorem witness_Vp8Encoder : EngineInv .default (encoder .vp8) ∧ Unbounded .default ∧ Encoding .vp8 (encoder .vp8) ∧
    (∀ c ∈ some 1023, c < Params.default.numCtx) ∧ (∀ c ∈ (none : Option Nat), c < Params.default.numCtx) :=
  ⟨encoder_inv .vp8, by decide, by decide, by decide, by decide⟩

/-- One input completes and one is too short by one bit. -/
theorem witness_Vp8GetResult (src : List Byte) : EngineInv .default (decoder .vp8 true src) ∧
    Decoding .vp8 (decoder .vp8 true src) ∧ (∀ c ∈ some 1023, c < Params.default.numCtx) ∧
    (after (.vp8Get 1023) .default (decoder .vp8 true [0x80, 0])).lastErr = .ok ∧
    (after .vp8GetBypass .default (decoder .vp8 true [0x80])).lastErr = .inputExhausted ∧
    (after .vp8GetBypass .default (decoder .vp8 false [])).lastErr = .ok :=
  ⟨decoder_inv _ _ _, ⟨rfl, rfl⟩, by decide, by decide, by decide, by decide⟩

/-- A VP8 encoder with a pending byte whose next shift forms 0xFF, with a counter that holds `k`. -/
def deferring (k : Nat) : Engine := { encoder .vp8 with vp8Enc := ⟨0x7F80, 128, 7, 0xB2, true, k⟩ }

theorem deferring_inv (k : Nat) (h : k < 2 ^ 16) : EngineInv wide16 (deferring k) where
  ctx := (encoder_inv .vp8).ctx
  session := (encoder_inv .vp8).session
  cabacEnc := by rintro ⟨-, h⟩; cases h
  vp8Enc := fun _ => ⟨by simp [deferring], by simp [deferring], by simp [deferring], by simp [deferring],
    by simp [deferring], by simp [deferring, encoder, Engine.powerOn], by simpa [wide16, deferring] using h⟩
  vp8Dec := by rintro ⟨h, -⟩; cases h
  ransEnc := by rintro ⟨-, h⟩; cases h
  ransDec := by rintro ⟨-, h⟩; cases h
  fpaq0Enc := by rintro ⟨-, h⟩; cases h
  fpaq0Dec := by rintro ⟨-, h⟩; cases h
  lanesEnc := by rintro ⟨-, h⟩; cases h
  lanesDec := by rintro ⟨-, h⟩; cases h

/-- For Vp8CounterOverflow: a full counter overflows, and one with room for one completes. -/
theorem witness_Vp8CounterOverflow : EngineInv wide16 (deferring 65535) ∧ EngineInv wide16 (deferring 65534) ∧
    Encoding .vp8 (deferring 65535) ∧ 0x7F80 * 2 ^ (8 - 7) / 2 ^ 8 = 255 ∧
    ([.vp8PutBypass false, .vp8Put false 1023, .vp8Finish].map fun i =>
      (after i wide16 (deferring 65535)).lastErr) = List.replicate 3 .counterOverflow ∧
    ([.vp8PutBypass false, .vp8Put false 1023].map fun i =>
      (after i wide16 (deferring 65534)).lastErr) = [.ok, .ok] :=
  ⟨deferring_inv _ (by decide), deferring_inv _ (by decide), by decide, by decide, by decide, by decide⟩

/-- For RansPutQueues and RansFinishOutput: an empty queue, and one that is full. -/
theorem witness_RansEncoder : EngineInv .default (encoder .rans) ∧ Unbounded .default ∧ Encoding .rans (encoder .rans) ∧
    (∀ c ∈ some 1023, c < Params.default.numCtx) ∧ (encoder .rans).ransEnc.queue = [] ∧
    RansEncInv { Params.default with ransQCap := some 1 } { encoder .rans with ransEnc := ⟨[(true, 225)], 0⟩ } :=
  ⟨encoder_inv .rans, by decide, by decide, by decide, rfl, by simp, by simp, rfl⟩

/-- Both ends of the interval of `x` and of p; the second emits, the first does not. -/
theorem witness_RansStepInverse : 1 ≤ (1#8).toNat ∧ 1 ≤ (255#8).toNat ∧ 2 ^ 16 ≤ (0x10000#32).toNat ∧
    (0x10000#32).toNat < 2 ^ 24 ∧ (0xFFFFFF#32).toNat < 2 ^ 24 ∧ (encodeSym (true, 128) (0x10000, [])).2 = [] ∧
    (encodeSym (true, 255) (0xFFFFFF, [])).2 = [0xFF] := by decide

/-- A decoder in explicit-EOF mode whose next rANS, Fpaq0 or FPAQ0P bypass symbol needs one byte of input. -/
def refilling (f : Family) (src : List Byte) : Engine :=
  { decoder f true src with
    ransDec := ⟨0x00010080⟩
    fpaq0Dec := ⟨0x01000000, 0x02FFFFFF, 0x01000000⟩
    lanesDec := List.replicate 2 ⟨0x01000000, 0x02FFFFFF, 0x01000000, 4⟩ }

theorem refilling_inv (src : List Byte) (f : Family) : EngineInv .default (refilling f src) where
  ctx := (decoder_inv f true src).ctx
  session := (decoder_inv f true src).session
  cabacEnc := by rintro ⟨h, -⟩; cases h
  vp8Enc := by rintro ⟨h, -⟩; cases h
  vp8Dec := (decoder_inv f true src).vp8Dec
  ransEnc := by rintro ⟨h, -⟩; cases h
  ransDec := (decoder_inv f true src).ransDec
  fpaq0Enc := by rintro ⟨h, -⟩; cases h
  fpaq0Dec := fun h => ⟨(by decide : IntervalInv 0x01000000 0x02FFFFFF), ((decoder_inv f true src).fpaq0Dec h).2⟩
  lanesEnc := by rintro ⟨h, -⟩; cases h
  lanesDec := by rintro ⟨-, h⟩; cases h; exact ⟨rfl, by simp [refilling, IntervalInv, topByte]⟩

/-- No refill with no input left, a refill of the last byte, and one past it. -/
theorem witness_RansGetResult (src : List Byte) : EngineInv .default (refilling .rans src) ∧
    Decoding .rans (refilling .rans src) ∧ (∀ c ∈ some 1023, c < Params.default.numCtx) ∧
    (after .ransGetBypass .default (decoder .rans true [0, 2, 0, 0x80])).lastErr = .ok ∧
    (after (.ransGet 1023) .default (refilling .rans [0, 1, 0, 0x80, 0])).lastErr = .ok ∧
    (after .ransGetBypass .default (refilling .rans [0, 1, 0, 0x80])).lastErr = .inputExhausted :=
  ⟨refilling_inv _ _, ⟨rfl, rfl⟩, by decide, by decide, by decide, by decide⟩

/-- For Fpaq0PutExact and Fpaq0FinishOutput, which has a clause for each kind of sink. -/
theorem witness_Fpaq0Encoder : EngineInv .default (encoder .fpaq0) ∧ Unbounded .default ∧ Encoding .fpaq0 (encoder .fpaq0) ∧
    (∀ c ∈ some 1023, c < Params.default.numCtx) ∧ Params.default.sinkMode = .inMemory ∧
    EngineInv { Params.default with sinkMode := .external } (encoder .fpaq0) := by
  have h := encoder_inv .fpaq0
  exact ⟨h, by decide, by decide, by decide, rfl, ⟨h.ctx, h.session, h.cabacEnc, h.vp8Enc, h.vp8Dec, h.ransEnc, h.ransDec,
    h.fpaq0Enc, h.fpaq0Dec, h.lanesEnc, h.lanesDec⟩⟩

/-- No refill with no input left, a refill of the last byte, and one past it. -/
theorem witness_Fpaq0GetResult (src : List Byte) : EngineInv .default (refilling .fpaq0 src) ∧
    Decoding .fpaq0 (refilling .fpaq0 src) ∧ (∀ c ∈ some 1023, c < Params.default.numCtx) ∧
    EqualLeadingBytes 0x01000000 0x01FFFF80 1 ∧ EqualLeadingBytes 0x01000000 0x01000000 4 ∧
    (after .fpaq0GetBypass .default (decoder .fpaq0 true [1, 2, 3, 4])).lastErr = .ok ∧
    (after (.fpaq0Get 1023) .default (refilling .fpaq0 [1, 0, 0, 0, 5])).lastErr = .ok ∧
    (after .fpaq0GetBypass .default (refilling .fpaq0 [1, 0, 0, 0])).lastErr = .inputExhausted :=
  ⟨refilling_inv _ _, ⟨rfl, rfl⟩, by decide, by decide, by decide, by decide, by decide, by decide⟩

/-- For Fpaq0pPutExact and Fpaq0pFinishLayout: the first and the last lane. -/
theorem witness_Fpaq0pEncoder : EngineInv .default (encoder .fpaq0p) ∧ Unbounded .default ∧
    Encoding .fpaq0p (encoder .fpaq0p) ∧ 0 < (encoder .fpaq0p).laneCount ∧ 1 < (encoder .fpaq0p).laneCount ∧
    (∀ c ∈ some 1023, c < Params.default.numCtx) := ⟨encoder_inv .fpaq0p, by decide, by decide, by decide, by decide, by decide⟩

/-- For Fpaq0pGetResult: lane 1 of two with its next position the last of the input, and one past it. -/
theorem witness_Fpaq0pGetResult (src : List Byte) : EngineInv .default (refilling .fpaq0p src) ∧
    Decoding .fpaq0p (refilling .fpaq0p src) ∧ 1 < (refilling .fpaq0p src).laneCount ∧
    (∀ c ∈ some 1023, c < Params.default.numCtx) ∧
    (after (.fpaq0pGetBypass 1) .default (decoder .fpaq0p true [])).lastErr = .ok ∧
    (after (.fpaq0pGet 1 1023) .default (refilling .fpaq0p (List.replicate 10 9))).lastErr = .ok ∧
    (after (.fpaq0pGetBypass 1) .default (refilling .fpaq0p (List.replicate 9 9))).lastErr = .inputExhausted :=
  ⟨refilling_inv _ _, ⟨rfl, rfl⟩, (by decide : 1 < 2), by decide, by decide, by decide, by decide⟩

/-- Each command of the encoder and of the decoder frames goes on. -/
theorem witness_Frames : (∃ t, exec (.cabacPutTerm true) (machine .default (encoder .cabac)) = .next t) ∧
    (∃ t, exec (.ransPutBypass true) (machine .default (encoder .rans)) = .next t) ∧
    (∃ t, exec .cabacGetTerm (machine .default (decoder .cabac true [])) = .next t) := ⟨⟨_, rfl⟩, ⟨_, rfl⟩, ⟨_, rfl⟩⟩

theorem witness_PowerOnMeetsInvariant : Engine.powerOn 0 ∈ (State.powerOn .default).engines := by decide

/-- For StepKeepsContexts and StepKeepsSession: a PUT that writes a context. -/
theorem witness_StepKeeps : ∃ s t : State, (∀ e ∈ s.engines, CtxInv s.params e ∧ SessionInv e) ∧ step s = .next t ∧
    t.engines.map Engine.ctx = [[(3, 124)]] :=
  ⟨pending .default (encoder .vp8) [.command 0 0x12800003], _,
    fun e he => by cases List.mem_singleton.mp he; exact ⟨(encoder_inv .vp8).ctx, (encoder_inv .vp8).session⟩, rfl,
    by decide⟩

/-- For the invariants of one family: a PUT_BYPASS in an encoder session, or a GET_BYPASS in a decoder session, of the
family, from an engine that meets the whole invariant. -/
theorem witness_StepKeepsFamily : ∀ f : Family, ∃ (s t s' t' : State),
    (∀ e ∈ s.engines, EngineInv s.params e ∧ Encoding f e) ∧ step s = .next t ∧
    (∀ e ∈ s'.engines, EngineInv s'.params e ∧ Decoding f e) ∧ step s' = .next t' := by
  intro f
  have key : ∀ f : Family, ∃ t t',
      step (pending .default (encoder f) [.command 0 (encode (putInstr f ⟨true, none, 0⟩))]) = .next t ∧
      step (pending .default (decoder f false []) [.command 0 (encode (getInstr f ⟨true, none, 0⟩))]) = .next t' := by
    intro f; cases f <;> exact ⟨_, _, rfl, rfl⟩
  obtain ⟨t, t', h, h'⟩ := key f
  exact ⟨_, t, _, t', fun e he => by cases List.mem_singleton.mp he; exact ⟨encoder_inv f, rfl, rfl⟩, h,
    fun e he => by cases List.mem_singleton.mp he; exact ⟨decoder_inv f false [], rfl, rfl⟩, h'⟩

/-- For the five round trips: two symbols, one with a context, on lane 0. -/
theorem witness_RoundTrips : (machine .default (Engine.powerOn 0)).engine? = some (Engine.powerOn 0) ∧ Unbounded .default ∧
    ∀ y ∈ [CodedSym.mk true (some 3) 0, CodedSym.mk false none 0], y.lane < 1 ∧ ∀ c ∈ y.ctx, c < Params.default.numCtx := by
  refine ⟨rfl, by decide, by decide⟩

end Sys2Proof.Tests
end

section
/-! SUPPORT. A step seen from one engine: what a command word does to the engine on its port as a function of the
parameters and that engine, what the word's fields say of the command it decodes to, and the induction principle for
the invariants of an engine. -/

namespace Sys2Proof

/-! ### The command a word decodes to -/

/-- A FAM code names the family that has it. -/
theorem Family.code_of_ofCode {n : Nat} {f : Family} (h : Family.ofCode n = some f) : f.code = n := by
  unfold Family.ofCode at h
  split at h <;> cases h <;> rfl

/-- An OP code names the operation that has it. -/
theorem Op.code_of_ofCode {n : Nat} {o : Op} (h : Op.ofCode n = some o) : o.code = n := by
  unfold Op.ofCode at h
  split at h <;> cases h <;> rfl

/-- The command made of a family, an operation and operands has that family and that operation. -/
theorem Instr.family_op_of_ofFields {f : Family} {o : Op} {b : Bool} {l c : Nat} {i : Instr}
    (h : Instr.ofFields f o b l c = some i) : i.family = f ∧ i.op = o := by
  cases f <;> cases o <;> cases h <;> exact ⟨rfl, rfl⟩

/-- A command whose operands come from fields of 7 and 16 bits is well formed (R120, R121). -/
theorem Instr.wellFormed_of_ofFields {f : Family} {o : Op} {b : Bool} {l c : Nat} {i : Instr}
    (h : Instr.ofFields f o b l c = some i) (hl : l < 128) (hc : c < 65536) : i.WellFormed := by
  cases f <;> cases o <;> cases h <;>
    simp [Instr.WellFormed, Instr.wellFormed, hl, hc]

/-- What a decoded word says of its command: its fields name the family, the operation and the operands, and the fields
that R122 marks 0 are zero. -/
theorem decode_eq_ok {w : Word} {i : Instr} (h : decode w = .ok i) :
    Family.ofCode (CmdFields.ofWord w).fam = some i.family ∧ Op.ofCode (CmdFields.ofWord w).op = some i.op ∧
    Instr.ofFields i.family i.op (CmdFields.ofWord w).b (CmdFields.ofWord w).l (CmdFields.ofWord w).c = some i ∧
    (CmdFields.ofWord w).unusedZero i.family i.op = true := by
  simp only [decode] at h
  split at h
  · cases h
  · cases h
  · next f o hf ho =>
    split at h
    · cases h
    · next i' hi =>
      split at h
      · next hz =>
        cases h
        obtain ⟨rfl, rfl⟩ := Instr.family_op_of_ofFields hi
        exact ⟨hf, ho, hi, hz⟩
      · cases h

/-- A word decodes to well-formed commands only. -/
theorem wellFormed_of_decode {w : Word} {i : Instr} (h : decode w = .ok i) : i.WellFormed := by
  obtain ⟨-, -, hi, -⟩ := decode_eq_ok h
  exact Instr.wellFormed_of_ofFields hi (BitVec.isLt _) (BitVec.isLt _)

end Sys2Proof

namespace Sys2Proof.Machine

open Sys2Proof

/-- The OP field of a word is the OP of the command it decodes to. -/
theorem opBits_of_decode {w : Word} {i : Instr} (h : decode w = .ok i) : opBits i.op = w.extractLsb' 24 4 := by
  obtain ⟨-, ho, -, -⟩ := decode_eq_ok h
  rw [opBits, Op.code_of_ofCode ho, CmdFields.ofWord, BitVec.ofNat_toNat, BitVec.setWidth_eq]

/-- The bit of a decoded PUT_TERM is bit 23 of its word. -/
theorem putTerm_bit_of_decode {w : Word} {b : Bool} (h : decode w = .ok (.cabacPutTerm b)) : w.getLsbD 23 = b := by
  obtain ⟨-, -, hi, -⟩ := decode_eq_ok h
  injection hi with hi
  injection hi

/-! ### A command word on one engine -/

/-- What a command does to the engine it is issued on: its rule where the checks of R130 pass, else the error they name. -/
def commandEffect (p : Params) (i : Instr) (e : Engine) : Engine :=
  if checkCommand p e i.family i.op (laneOperand i) (ctxOperand i) = .ok then settle i.op (instrBody i p e)
  else raiseErr (opBits i.op) (checkCommand p e i.family i.op (laneOperand i) (ctxOperand i)) e

/-- What a command word does to the engine on its port. -/
def wordEffect (p : Params) (w : Word) (e : Engine) : Engine :=
  match decode w with
  | .ok i => commandEffect p i e
  | .error _ => raiseErr (w.extractLsb' 24 4) .illegalCommand e

theorem exec_eq_commandEffect {s : State} {e : Engine} (h : s.engine? = some e) (i : Instr) :
    exec i s = .next (s.withEngine (commandEffect s.params i e)) := exec_engine h i

theorem commandEffect_legal {p : Params} {i : Instr} {e : Engine}
    (h : checkCommand p e i.family i.op (laneOperand i) (ctxOperand i) = .ok) :
    commandEffect p i e = settle i.op (instrBody i p e) := if_pos h

theorem commandEffect_illegal {p : Params} {i : Instr} {e : Engine}
    (h : checkCommand p e i.family i.op (laneOperand i) (ctxOperand i) ≠ .ok) :
    commandEffect p i e =
      raiseErr (opBits i.op) (checkCommand p e i.family i.op (laneOperand i) (ctxOperand i)) e := if_neg h

theorem wordEffect_ok {w : Word} {i : Instr} (h : decode w = .ok i) (p : Params) (e : Engine) :
    wordEffect p w e = commandEffect p i e := by rw [wordEffect, h]

theorem wordEffect_error {w : Word} {err : DecodeError} (h : decode w = .error err) (p : Params) (e : Engine) :
    wordEffect p w e = raiseErr (w.extractLsb' 24 4) .illegalCommand e := by rw [wordEffect, h]

/-- A command word on the port of an engine takes the word off the host's list, and replaces that engine by what the word
makes of it. -/
theorem step_command {s : State} {n : Nat} {w : Word} {rest : List HostAction} {e : Engine}
    (hs : s.host = .command n w :: rest) (he : s.engines[n]? = some e) :
    step s = .next (((s.setHost rest).setSel n).withEngine (wordEffect s.params w e)) := by
  have hsel : ((s.setHost rest).setSel n).engine? = some e := he
  rw [step_cons hs, takeAction, issueWord, wordEffect]
  cases hd : decode w with
  | ok i => simpa using exec_eq_commandEffect hsel i
  | error err => simp only [illegalWord, hsel]

/-- A command word on a port that does not exist faults. -/
theorem step_command_noEngine {s : State} {n : Nat} {w : Word} {rest : List HostAction}
    (hs : s.host = .command n w :: rest) (he : s.engines[n]? = none) : step s = .fault .noSuchEngine := by
  have hsel : ((s.setHost rest).setSel n).engine? = none := he
  rw [step_cons hs, takeAction, issueWord]
  cases decode w with
  | ok i => simp only [exec_eq, runCommand_noEngine hsel]
  | error err => simp only [illegalWord, hsel]

/-- A command word that goes on was issued on the port of an engine. -/
theorem engine_of_step_command {s t : State} {n : Nat} {w : Word} {rest : List HostAction}
    (hs : s.host = .command n w :: rest) (h : step s = .next t) :
    ∃ e, s.engines[n]? = some e ∧ t = ((s.setHost rest).setSel n).withEngine (wordEffect s.params w e) := by
  cases he : s.engines[n]? with
  | none => rw [step_command_noEngine hs he] at h; cases h
  | some e =>
    rw [step_command hs he] at h
    injection h with h
    exact ⟨e, rfl, h.symm⟩

/-! ### A step on one engine -/

/-- What a step can do to the engine `e` on port `n`: nothing, place an input, or take a command word. -/
inductive EngineStep (s : State) (n : Nat) (e : Engine) : Engine → Prop
  | keep : EngineStep s n e e
  | place (bs : List Byte) : EngineStep s n e (e.setStaged bs)
  | word (w : Word) (rest : List HostAction) (hs : s.host = .command n w :: rest) :
      EngineStep s n e (wordEffect s.params w e)

/-- The engines of a list in which one was replaced: the new one at its place, the old ones elsewhere. -/
theorem getElem?_set_cases {α : Type} {l : List α} {n m : Nat} {a x y : α} (hn : l[n]? = some a)
    (h : (l.set n x)[m]? = some y) : (m = n ∧ y = x) ∨ (m ≠ n ∧ l[m]? = some y) := by
  obtain ⟨hlt, -⟩ := List.getElem?_eq_some_iff.mp hn
  by_cases hm : m = n
  · subst hm
    rw [List.getElem?_set_self hlt] at h
    exact .inl ⟨rfl, by injection h with h; exact h.symm⟩
  · rw [List.getElem?_set_ne (Ne.symm hm)] at h
    exact .inr ⟨hm, h⟩

/-- A command word changes no parameter, and of the engines that on its port only. -/
theorem engineStep_of_command {s t : State} {n : Nat} {w : Word} {rest : List HostAction}
    (hs : s.host = .command n w :: rest) (h : step s = .next t) :
    t.params = s.params ∧
    ∀ (m : Nat) (e' : Engine), t.engines[m]? = some e' → ∃ e, s.engines[m]? = some e ∧ EngineStep s m e e' := by
  obtain ⟨e, he, rfl⟩ := engine_of_step_command hs h
  refine ⟨rfl, fun m e' he' => ?_⟩
  rcases getElem?_set_cases he he' with ⟨rfl, rfl⟩ | ⟨-, he'⟩
  · exact ⟨e, he, .word w rest hs⟩
  · exact ⟨e', he', .keep⟩

/-- A step changes no parameter, and each engine of the next state comes from the one on the same port. -/
theorem engineStep_of_step {s t : State} (h : step s = .next t) :
    t.params = s.params ∧
    ∀ (m : Nat) (e' : Engine), t.engines[m]? = some e' → ∃ e, s.engines[m]? = some e ∧ EngineStep s m e e' := by
  rcases step_cases h with ⟨-, rfl⟩ | ⟨n, w, rest, i, hs, -, -⟩ | ⟨n, w, rest, e, err, hs, -, -, -⟩ |
    ⟨n, bs, rest, e, -, he, rfl⟩ | ⟨n, rest, e, -, -, -, rfl⟩
  · exact ⟨rfl, fun m e' he' => ⟨e', he', .keep⟩⟩
  · exact engineStep_of_command hs h
  · exact engineStep_of_command hs h
  · refine ⟨rfl, fun m e' he' => ?_⟩
    rcases getElem?_set_cases he he' with ⟨rfl, rfl⟩ | ⟨-, he'⟩
    · exact ⟨e, he, .place bs⟩
    · exact ⟨e', he', .keep⟩
  · exact ⟨rfl, fun m e' he' => ⟨e', he', .keep⟩⟩

/-- The induction principle of the engines' invariants: where `P` gives `Q` for the engine as it is, with another input
placed, after an error and after every legal command, a step from engines that meet `P` leaves engines that meet `Q`. -/
theorem step_keeps {P Q : Params → Engine → Prop}
    (keep : ∀ p e, P p e → Q p e)
    (place : ∀ p e bs, P p e → Q p (e.setStaged bs))
    (raise : ∀ p e op code, code ≠ .ok → P p e → Q p (raiseErr op code e))
    (command : ∀ p e i, i.WellFormed → checkCommand p e i.family i.op (laneOperand i) (ctxOperand i) = .ok → P p e →
      Q p (settle i.op (instrBody i p e)))
    {s t : State} (hP : ∀ e ∈ s.engines, P s.params e) (h : step s = .next t) : ∀ e ∈ t.engines, Q t.params e := by
  intro e' he'
  obtain ⟨hp, heng⟩ := engineStep_of_step h
  obtain ⟨m, hm⟩ := List.mem_iff_getElem?.mp he'
  obtain ⟨e, he, hstep⟩ := heng m e' hm
  have hPe := hP e (List.mem_of_getElem? he)
  rw [hp]
  cases hstep with
  | keep => exact keep _ _ hPe
  | place bs => exact place _ _ bs hPe
  | word w rest hs =>
    cases hd : decode w with
    | error err =>
      rw [wordEffect_error hd]
      exact raise _ _ _ _ (by decide) hPe
    | ok i =>
      rw [wordEffect_ok hd]
      by_cases hc : checkCommand s.params e i.family i.op (laneOperand i) (ctxOperand i) = .ok
      · rw [commandEffect_legal hc]
        exact command _ _ i (wellFormed_of_decode hd) hc hPe
      · rw [commandEffect_illegal hc]
        exact raise _ _ _ _ hc hPe

end Sys2Proof.Machine
end

section
/-! SUPPORT. Every error that a command raises has a code other than OK: no procedure of the model raises OK. -/

namespace Sys2Proof.Machine

open Sys2Proof

/-- An outcome that is an error names a status other than OK (R351). -/
def Res.NamesError {α : Type} : Res α → Prop
  | .ok _ _ => True
  | .raised c _ => c ≠ .ok

@[simp] theorem namesError_ok {α : Type} (a : α) (e : Engine) : (Res.ok a e).NamesError := trivial

@[simp] theorem namesError_raised {α : Type} (c : Status) (e : Engine) :
    (Res.raised c e : Res α).NamesError ↔ c ≠ .ok := .rfl

/-- A sequence names an error where each of its parts does. -/
theorem namesError_andThen {α β : Type} {r : Res α} {f : α → Engine → Res β} (hr : r.NamesError)
    (hf : ∀ a e, (f a e).NamesError) : (r.andThen f).NamesError := by
  cases r with
  | ok a e => exact hf a e
  | raised c e => exact hr

/-! ### The streams -/

theorem offerByte_namesError (p : Params) (e : Engine) : (offerByte p e).NamesError := by
  unfold offerByte
  split
  · trivial
  · split <;> simp

theorem writeBit_namesError (p : Params) (b : Bool) (e : Engine) : (writeBit p b e).NamesError := by
  unfold writeBit
  dsimp only
  split
  · exact offerByte_namesError p _
  · trivial

theorem writeBits_namesError (p : Params) (bs : List Bool) (e : Engine) : (writeBits p bs e).NamesError := by
  induction bs generalizing e with
  | nil => trivial
  | cons b bs ih => exact namesError_andThen (writeBit_namesError p b e) fun _ => ih

theorem writeBytes_namesError (p : Params) (vs : List Byte) (e : Engine) : (writeBytes p vs e).NamesError := by
  induction vs generalizing e with
  | nil => trivial
  | cons v vs ih => exact namesError_andThen (writeBits_namesError p _ e) fun _ => ih

theorem offerBytes_namesError (p : Params) (n : Nat) (e : Engine) : (offerBytes p n e).NamesError := by
  induction n generalizing e with
  | zero => trivial
  | succ n ih => exact namesError_andThen (offerByte_namesError p e) fun _ => ih

theorem readBit_namesError (e : Engine) : (readBit e).NamesError := by
  rcases readBit_frame e with ⟨b, h⟩ | h <;> simp [h]

theorem readByteLoop_namesError (n : Nat) (v : Byte) (e : Engine) : (readByteLoop n v e).NamesError := by
  induction n generalizing v e with
  | zero => trivial
  | succ n ih => exact namesError_andThen (readBit_namesError e) fun _ => ih _

theorem readByte_namesError (e : Engine) : (readByte e).NamesError := readByteLoop_namesError 8 0 e

theorem slotRead_namesError (pos : Nat) (e : Engine) : (slotRead pos e).NamesError := by
  unfold slotRead
  split
  · trivial
  · split <;> simp

/-! ### CABAC -/

theorem drainOutstanding_namesError (p : Params) (b : Bool) (n : Nat) (e : Engine) :
    (drainOutstanding p b n e).NamesError := by
  induction n generalizing e with
  | zero => trivial
  | succ n ih => exact namesError_andThen (writeBit_namesError p b e) fun _ _ => ih _

theorem putBit_namesError (p : Params) (b : Bool) (e : Engine) : (putBit p b e).NamesError := by
  refine namesError_andThen ?_ fun _ _ => drainOutstanding_namesError p _ _ _
  split
  · trivial
  · exact writeBit_namesError p b e

theorem incOutstanding_namesError (p : Params) (e : Engine) : (incOutstanding p e).NamesError := by
  unfold incOutstanding
  split <;> simp

theorem cabacRenormE_namesError (p : Params) (n : Nat) (e : Engine) : (cabacRenormE p n e).NamesError := by
  have classify : ∀ e, (renormEClassify p e).NamesError := fun e => by
    unfold renormEClassify
    dsimp only
    split
    · exact putBit_namesError p _ _
    · split
      · exact putBit_namesError p _ _
      · exact incOutstanding_namesError p _
  induction n generalizing e with
  | zero => trivial
  | succ n ih =>
    rw [cabacRenormE]
    split
    · exact namesError_andThen (classify e) fun _ _ => ih _
    · trivial

theorem encodeFlush_namesError (p : Params) (e : Engine) : (encodeFlush p e).NamesError :=
  namesError_andThen (cabacRenormE_namesError p _ _) fun _ _ =>
    namesError_andThen (putBit_namesError p _ _) fun _ _ =>
      namesError_andThen (writeBit_namesError p _ _) fun _ _ => writeBit_namesError p _ _

theorem cabacTerminate_namesError (p : Params) (e : Engine) : (cabacTerminate p e).NamesError :=
  namesError_andThen (encodeFlush_namesError p _) fun _ _ =>
    namesError_andThen (writeBits_namesError p _ _) fun _ _ => trivial

theorem cabacPutBypassBody_namesError (b : Bool) (p : Params) (e : Engine) : (cabacPutBypassBody b p e).NamesError := by
  unfold cabacPutBypassBody
  dsimp only
  generalize (if b then _ else _ : Word) = low
  refine namesError_andThen ?_ fun _ _ => trivial
  split
  · exact namesError_andThen (putBit_namesError p _ _) fun _ _ => trivial
  · split
    · exact putBit_namesError p _ _
    · exact incOutstanding_namesError p _

theorem cabacPutTermBody_namesError (b : Bool) (p : Params) (e : Engine) : (cabacPutTermBody b p e).NamesError := by
  unfold cabacPutTermBody
  split
  · exact cabacTerminate_namesError p e
  · exact namesError_andThen (cabacRenormE_namesError p _ _) fun _ _ => trivial

theorem offsetShift_namesError (e : Engine) : (offsetShift e).NamesError :=
  namesError_andThen (readBit_namesError e) fun _ _ => trivial

theorem offsetSeed_namesError (n : Nat) (e : Engine) : (offsetSeed n e).NamesError := by
  induction n generalizing e with
  | zero => trivial
  | succ n ih => exact namesError_andThen (offsetShift_namesError e) fun _ => ih

theorem cabacRenormD_namesError (n : Nat) (e : Engine) : (cabacRenormD n e).NamesError := by
  induction n generalizing e with
  | zero => trivial
  | succ n ih =>
    rw [cabacRenormD]
    split
    · exact namesError_andThen (offsetShift_namesError _) fun _ => ih
    · trivial

theorem cabacGetBypassBody_namesError (p : Params) (e : Engine) : (cabacGetBypassBody p e).NamesError :=
  namesError_andThen (offsetShift_namesError e) fun _ _ => by dsimp only; split <;> trivial

theorem cabacGetTermBody_namesError (p : Params) (e : Engine) : (cabacGetTermBody p e).NamesError := by
  unfold cabacGetTermBody
  dsimp only
  split
  · trivial
  · exact namesError_andThen (cabacRenormD_namesError _ _) fun _ _ => trivial

/-! ### VP8 -/

theorem formByte_namesError (p : Params) (e : Engine) : (formByte p e).NamesError := by
  unfold formByte
  dsimp only
  split
  · exact namesError_andThen (writeBytes_namesError p _ _) fun _ _ => trivial
  · split
    · trivial
    · split
      · unfold incBytesOutstanding
        split <;> simp
      · exact namesError_andThen (writeBytes_namesError p _ _) fun _ _ => trivial

theorem vp8Shift_namesError (p : Params) (e : Engine) : (vp8Shift p e).NamesError := by
  simp only [vp8Shift]
  split
  · exact formByte_namesError p _
  · trivial

theorem vp8Shifts_namesError (p : Params) (n : Nat) (e : Engine) : (vp8Shifts p n e).NamesError := by
  induction n generalizing e with
  | zero => trivial
  | succ n ih => exact namesError_andThen (vp8Shift_namesError p e) fun _ => ih

theorem encodeBool_namesError (p : Params) (b : Bool) (prob : Byte) (e : Engine) :
    (encodeBool p b prob e).NamesError := by
  have renorm : ∀ n e, (vp8RenormE p n e).NamesError := fun n => by
    induction n with
    | zero => exact fun _ => trivial
    | succ n ih =>
      intro e
      rw [vp8RenormE]
      split
      · exact namesError_andThen (vp8Shift_namesError p _) fun _ => ih
      · trivial
  exact renorm _ _

theorem vp8FinishBody_namesError (p : Params) (e : Engine) : (vp8FinishBody p e).NamesError := by
  refine namesError_andThen (vp8Shifts_namesError p _ _) fun _ _ => namesError_andThen ?_ fun _ _ =>
    namesError_andThen (writeBits_namesError p _ _) fun _ _ => trivial
  split
  · exact writeBytes_namesError p _ _
  · trivial

theorem decodeBool_namesError (prob : Byte) (e : Engine) : (decodeBool prob e).NamesError := by
  have renorm : ∀ n e, (vp8RenormD n e).NamesError := fun n => by
    induction n with
    | zero => exact fun _ => trivial
    | succ n ih =>
      intro e
      rw [vp8RenormD]
      split
      · exact namesError_andThen (readBit_namesError _) fun _ _ => ih _
      · trivial
  exact namesError_andThen (renorm _ _) fun _ _ => trivial

/-! ### rANS -/

theorem enqueue_namesError (p : Params) (s : Bool) (prob : Byte) (e : Engine) : (enqueue p s prob e).NamesError := by
  rcases enqueue_cases p s prob e with ⟨-, h⟩ | ⟨-, h⟩ <;> simp [h]

theorem decodeSym_namesError (prob : Byte) (e : Engine) : (decodeSym prob e).NamesError := by
  unfold decodeSym
  dsimp only
  split
  · exact namesError_andThen (readByte_namesError _) fun _ _ => trivial
  · trivial

theorem ransSeed_namesError (n : Nat) (e : Engine) : (ransSeed n e).NamesError := by
  induction n generalizing e with
  | zero => trivial
  | succ n ih => exact namesError_andThen (readByte_namesError e) fun _ _ => ih _

/-! ### Fpaq0 -/

theorem fpaq0Encode_namesError (p : Params) (b : Bool) (prob : Byte) (e : Engine) :
    (fpaq0Encode p b prob e).NamesError := by
  have renorm : ∀ n e, (fpaq0RenormE p n e).NamesError := fun n => by
    induction n with
    | zero => exact fun _ => trivial
    | succ n ih =>
      intro e
      rw [fpaq0RenormE]
      split
      · exact namesError_andThen (writeBits_namesError p _ _) fun _ _ => ih _
      · trivial
  exact renorm _ _

theorem fpaq0DecodeBit_namesError (prob : Byte) (e : Engine) : (fpaq0DecodeBit prob e).NamesError := by
  have renorm : ∀ n e, (fpaq0RenormD n e).NamesError := fun n => by
    induction n with
    | zero => exact fun _ => trivial
    | succ n ih =>
      intro e
      rw [fpaq0RenormD]
      split
      · exact namesError_andThen (readByte_namesError _) fun _ _ => ih _
      · trivial
  exact namesError_andThen (renorm _ _) fun _ _ => trivial

theorem fpaq0Seed_namesError (n : Nat) (e : Engine) : (fpaq0Seed n e).NamesError := by
  induction n generalizing e with
  | zero => trivial
  | succ n ih => exact namesError_andThen (readByte_namesError e) fun _ _ => ih _

/-! ### Fpaq0 parallel -/

theorem laneRefill_namesError (i : Nat) (e : Engine) : (laneRefill i e).NamesError :=
  namesError_andThen (namesError_andThen (slotRead_namesError _ e) fun _ _ => trivial) fun _ _ => trivial

theorem laneDecode_namesError (i : Nat) (prob : Byte) (e : Engine) : (laneDecode i prob e).NamesError := by
  have renorm : ∀ n e, (laneRenormD i n e).NamesError := fun n => by
    induction n with
    | zero => exact fun _ => trivial
    | succ n ih =>
      intro e
      simp only [laneRenormD]
      split
      · exact namesError_andThen (laneRefill_namesError i _) fun _ => ih
      · trivial
  exact namesError_andThen (renorm _ _) fun _ _ => trivial

theorem laneSeed_namesError (i n : Nat) (e : Engine) : (laneSeed i n e).NamesError := by
  induction n generalizing e with
  | zero => trivial
  | succ n ih => exact namesError_andThen (laneRefill_namesError i e) fun _ => ih

theorem seedLanes_namesError (is : List Nat) (e : Engine) : (seedLanes is e).NamesError := by
  induction is generalizing e with
  | nil => trivial
  | cons i is ih => exact namesError_andThen (laneSeed_namesError i 4 e) fun _ => ih

/-! ### Every command -/

/-- An execution error has a code other than OK (R351, R360). -/
theorem instrBody_namesError (i : Instr) (p : Params) (e : Engine) : (instrBody i p e).NamesError := by
  cases i with
  | cabacOpenDec => exact namesError_andThen (offsetSeed_namesError _ _) fun _ _ => trivial
  | cabacPut => exact namesError_andThen (cabacRenormE_namesError p _ _) fun _ _ => trivial
  | cabacPutBypass b => exact cabacPutBypassBody_namesError b p e
  | cabacPutTerm b => exact cabacPutTermBody_namesError b p e
  | cabacFinish => exact cabacTerminate_namesError p e
  | cabacGet => exact namesError_andThen (cabacRenormD_namesError _ _) fun _ _ => trivial
  | cabacGetBypass => exact cabacGetBypassBody_namesError p e
  | cabacGetTerm => exact cabacGetTermBody_namesError p e
  | vp8OpenDec => exact namesError_andThen (readByte_namesError _) fun _ _ => trivial
  | vp8Put | vp8PutBypass => exact namesError_andThen (encodeBool_namesError p _ _ _) fun _ _ => trivial
  | vp8Finish => exact vp8FinishBody_namesError p e
  | vp8Get | vp8GetBypass => exact namesError_andThen (decodeBool_namesError _ _) fun _ _ => trivial
  | ransOpenDec => exact namesError_andThen (ransSeed_namesError _ _) fun _ _ => trivial
  | ransPut | ransPutBypass => exact namesError_andThen (enqueue_namesError p _ _ _) fun _ _ => trivial
  | ransFinish =>
    exact namesError_andThen (writeBytes_namesError p _ _) fun _ _ =>
      namesError_andThen (writeBits_namesError p _ _) fun _ _ => trivial
  | ransGet | ransGetBypass => exact namesError_andThen (decodeSym_namesError _ _) fun _ _ => trivial
  | fpaq0OpenDec => exact namesError_andThen (fpaq0Seed_namesError _ _) fun _ _ => trivial
  | fpaq0Put | fpaq0PutBypass => exact namesError_andThen (fpaq0Encode_namesError p _ _ _) fun _ _ => trivial
  | fpaq0Finish =>
    exact namesError_andThen (writeBytes_namesError p _ _) fun _ _ =>
      namesError_andThen (writeBits_namesError p _ _) fun _ _ => trivial
  | fpaq0Get | fpaq0GetBypass => exact namesError_andThen (fpaq0DecodeBit_namesError _ _) fun _ _ => trivial
  | fpaq0pOpenDec => exact namesError_andThen (seedLanes_namesError _ _) fun _ _ => trivial
  | fpaq0pFinish => exact namesError_andThen (offerBytes_namesError p _ _) fun _ _ => trivial
  | fpaq0pGet | fpaq0pGetBypass => exact namesError_andThen (laneDecode_namesError _ _ _) fun _ _ => trivial
  | _ => trivial

end Sys2Proof.Machine
end

section
/-! SUPPORT. What a whole command changes, by kind: an encoder or decoder command its family's registers and stream, a
context command no register, an OPEN the configuration and its family's registers; and for each the context entry that
it may write. -/

namespace Sys2Proof.Machine

open Sys2Proof

/-! ### What is kept -/

/-- The control registers, the contexts, the latched input and the responses are the same; coder registers, streams and
slots may differ. -/
structure SameControl (e t : Engine) : Prop where
  phase : t.phase = e.phase
  cmdIndex : t.cmdIndex = e.cmdIndex
  fam : t.fam = e.fam
  dir : t.dir = e.dir
  laneCount : t.laneCount = e.laneCount
  eof : t.eof = e.eof
  ctx : t.ctx = e.ctx
  src : t.src = e.src
  responses : t.responses = e.responses

theorem SameControl.refl (e : Engine) : SameControl e e := ⟨rfl, rfl, rfl, rfl, rfl, rfl, rfl, rfl, rfl⟩

/-- Only the rANS queue may differ. -/
def RansQueueOnly (e t : Engine) : Prop := ∃ q, t = e.setRansEnc { e.ransEnc with queue := q }

/-- Only the rANS encoder registers and the sink may differ. -/
def RansEncOnly (e t : Engine) : Prop := ∃ r bs n, t = { e with ransEnc := r, sink := bs, offers := n }

/-- Only the lane encoders, the slot buffer and the number of offers may differ. -/
def LanesOutOnly (e t : Engine) : Prop := ∃ ls m n, t = { e with lanesEnc := ls, slots := m, offers := n }

/-- What an encoder operation `o` of family `f` may change besides a context entry and the phase. -/
def EncoderOnly (f : Family) (o : Op) (e t : Engine) : Prop :=
  match f, o with
  | .cabac, _ => CabacEncOnly e t
  | .vp8, _ => Vp8EncOnly e t
  | .rans, .finish => RansEncOnly e t
  | .rans, _ => RansQueueOnly e t
  | .fpaq0, _ => Fpaq0EncOnly e t
  | .fpaq0p, _ => LanesOutOnly e t

/-- What a decoder operation of family `f` may change besides a context entry. -/
def DecoderOnly (f : Family) (e t : Engine) : Prop :=
  match f with
  | .cabac => CabacDecOnly e t
  | .vp8 => Vp8DecOnly e t
  | .rans => RansDecOnly e t
  | .fpaq0 => Fpaq0DecOnly e t
  | .fpaq0p => LanesDecOnly e t

theorem EncoderOnly.refl (f : Family) (o : Op) (e : Engine) : EncoderOnly f o e e := by
  unfold EncoderOnly
  split
  · exact .refl e
  · exact .refl e
  · exact ⟨e.ransEnc, e.sink, e.offers, rfl⟩
  · exact ⟨e.ransEnc.queue, rfl⟩
  · exact .refl e
  · exact ⟨e.lanesEnc, e.slots, e.offers, rfl⟩

theorem DecoderOnly.refl (f : Family) (e : Engine) : DecoderOnly f e e := by
  cases f
  · exact CabacDecOnly.refl e
  · exact Vp8DecOnly.refl e
  · exact RansDecOnly.refl e
  · exact Fpaq0DecOnly.refl e
  · exact LanesDecOnly.refl e

theorem EncoderOnly.sameControl {f : Family} {o : Op} {e t : Engine} (h : EncoderOnly f o e t) : SameControl e t := by
  unfold EncoderOnly at h
  split at h
  case h_4 => obtain ⟨_, rfl⟩ := h; constructor <;> rfl
  all_goals obtain ⟨_, _, _, rfl⟩ := h; constructor <;> rfl

theorem DecoderOnly.sameControl {f : Family} {e t : Engine} (h : DecoderOnly f e t) : SameControl e t := by
  cases f with
  | fpaq0p => obtain ⟨_, rfl⟩ := h; constructor <;> rfl
  | _ => obtain ⟨_, _, rfl⟩ := h; constructor <;> rfl

/-! ### The context entry and the phase -/

/-- The packed descriptor that an update of family `f` makes of another (R154, R156). -/
def nextCtx (p : Params) (f : Family) (v : Byte) (b : Bool) : Byte :=
  match f with
  | .cabac => (cabacUpdate p.cabacSwapTest (CabacCtx.unpack v) b).pack
  | .vp8 | .rans | .fpaq0 | .fpaq0p => probUpdate v b

/-- What a command other than an OPEN can make of the context memory: nothing, one entry initial or updated, or all of
them initial (R48). -/
inductive CtxEffect (p : Params) (i : Instr) (e : Engine) : Memory → Prop
  | kept : CtxEffect p i e e.ctx
  | written (c : Nat) (v : Byte) (hc : ctxOperand i = some c)
      (hv : v = initialCtx i.family ∨ ∃ b, v = nextCtx p i.family (ctxGet e c) b) :
      CtxEffect p i e (Memory.write (some (initialCtx e.fam)) e.ctx c v)
  | cleared (h : i.op = .ctxInitAll) : CtxEffect p i e []

/-- The phases a command other than an OPEN can end in without an error: its own, or Finished for the two operations
that end an encoder session. -/
def EndPhase (i : Instr) (e : Engine) (ph : Phase) : Prop :=
  ph = e.phase ∨ (ph = .finished ∧ (i.op = .finish ∨ i.op = .putTerm))

/-- A change within `R`, one of the context memory and one of the phase. -/
def Coded (R : Engine → Engine → Prop) (p : Params) (i : Instr) (e u : Engine) : Prop :=
  ∃ t m ph, R e t ∧ CtxEffect p i e m ∧ EndPhase i e ph ∧ u = (t.setCtx m).setPhase ph

section
variable {R : Engine → Engine → Prop} {p : Params} {i : Instr} {e : Engine}

/-- A change within `R` alone. -/
theorem coded_of_sameControl {t : Engine} (h : R e t) (hs : SameControl e t) : Coded R p i e t :=
  ⟨t, e.ctx, e.phase, h, .kept, .inl rfl, by rw [← hs.ctx, ← hs.phase]; rfl⟩

/-- A procedure within `R` followed by a reply: PUT_BYPASS, GET_BYPASS. -/
theorem coded_reply {α : Type} {r : Res α} (f : α → Reply) (hR : ∀ t, R e t → SameControl e t) (h : R e r.engine) :
    Coded R p i e (r.andThen fun a t => .ok (f a) t).engine := by
  cases r <;> exact coded_of_sameControl h (hR _ h)

/-- A procedure within `R` followed by the update of the operand's context entry and a reply: PUT and GET of the
probability families. -/
theorem coded_update {α : Type} {r : Res α} {c : Nat} (f : α → Reply) (b : α → Bool) (hR : ∀ t, R e t → SameControl e t)
    (h : R e r.engine) (hc : ctxOperand i = some c) (hf : i.family ≠ .cabac) :
    Coded R p i e (r.andThen fun a t => .ok (f a) (ctxSet t c (probUpdate (ctxGet e c) (b a)))).engine := by
  have next : ∀ b, probUpdate (ctxGet e c) b = nextCtx p i.family (ctxGet e c) b := fun b => by
    unfold nextCtx
    split
    · contradiction
    all_goals rfl
  cases r with
  | raised code t => exact coded_of_sameControl h (hR _ h)
  | ok a t =>
    have hs := hR _ h
    refine ⟨t, _, e.phase, h, .written c _ hc (.inr ⟨b a, next _⟩), .inl rfl, ?_⟩
    simp only [Res.engine_ok] at hs
    rw [andThen_ok, Res.engine_ok, ctxSet, hs.fam, hs.ctx, ← hs.phase]
    rfl

/-- A procedure within `R` followed by the end of the session. -/
theorem coded_finish {r : Res Unit} (hR : ∀ t, R e t → SameControl e t) (h : R e r.engine)
    (hi : i.op = .finish ∨ i.op = .putTerm) :
    Coded R p i e (r.andThen fun _ t => finishSession t).engine := by
  cases r with
  | raised code t => exact coded_of_sameControl h (hR _ h)
  | ok a t => exact ⟨t, e.ctx, .finished, h, .kept, .inr ⟨rfl, hi⟩, by rw [← (hR _ h).ctx]; rfl⟩

end

/-! ### CABAC -/

/-- The terminating bin of value 1 up to the end of the session (R191, R192). -/
theorem cabacTerminate_eq (p : Params) (e : Engine) :
    ∃ r : Res Unit, cabacTerminate p e = r.andThen (fun _ t => finishSession t) ∧ CabacEncOnly e r.engine := by
  refine ⟨_, (andThen_assoc _ _ _).symm, ?_⟩
  refine andThen_engine (R := CabacEncOnly) CabacEncOnly.trans ?_ fun _ e₁ => (sinkClose_frame p e₁).cabacEncOnly
  exact ((setCabacEnc_frame e _).trans (setCabacEnc_frame _ _)).trans (encodeFlush_frame p _)

theorem cabacPutBypassBody_frame (b : Bool) (p : Params) (e : Engine) :
    CabacEncOnly e (cabacPutBypassBody b p e).engine := by
  unfold cabacPutBypassBody
  dsimp only
  generalize (if b then _ else _ : Word) = low
  refine andThen_engine (R := CabacEncOnly) CabacEncOnly.trans ?_ fun _ e₁ => .refl e₁
  refine CabacEncOnly.trans (setCabacEnc_frame e { e.cabacEnc with low := low }) ?_
  split
  · exact andThen_engine (R := CabacEncOnly) CabacEncOnly.trans (putBit_frame p true _) fun _ e₁ => setCabacEnc_frame e₁ _
  · split
    · exact putBit_frame p false _
    · exact (setCabacEnc_frame _ _).trans (incOutstanding_frame p _)

theorem cabacGetBypassBody_frame (p : Params) (e : Engine) : CabacDecOnly e (cabacGetBypassBody p e).engine := by
  refine andThen_engine (R := CabacDecOnly) CabacDecOnly.trans (offsetShift_frame e) fun _ e₁ => ?_
  dsimp only
  split
  · exact ⟨_, e₁.bitpos, rfl⟩
  · exact .refl e₁

theorem cabacGetTermBody_frame (p : Params) (e : Engine) : CabacDecOnly e (cabacGetTermBody p e).engine := by
  unfold cabacGetTermBody
  dsimp only
  refine CabacDecOnly.trans ⟨_, e.bitpos, rfl⟩
    (b := e.setCabacDec (e.cabacDec.setRange (rangeSub e.cabacDec.range 2))) ?_
  split
  · exact .refl _
  · exact andThen_engine (R := CabacDecOnly) CabacDecOnly.trans (cabacRenormD_frame _ _) fun _ e₁ => .refl e₁

/-- A context update followed by a procedure on the encoder registers (R189). -/
theorem coded_cabacPut (p : Params) (b : Bool) (c : Nat) (e : Engine) :
    Coded CabacEncOnly p (.cabacPut b c) e (cabacPutBody b c p e).engine := by
  have h : CabacEncOnly _ (cabacPutBody b c p e).engine :=
    andThen_engine (R := CabacEncOnly) CabacEncOnly.trans (cabacRenormE_frame p _ _) fun _ e₁ => .refl e₁
  obtain ⟨r, bs, n, hr⟩ := h
  exact ⟨{ e with cabacEnc := r, sink := bs, offers := n }, _, e.phase, ⟨r, bs, n, rfl⟩,
    .written c _ rfl (.inr ⟨b, rfl⟩), .inl rfl, hr⟩

/-- A context update followed by a procedure on the decoder registers (R211). -/
theorem coded_cabacGet (p : Params) (c : Nat) (e : Engine) :
    Coded CabacDecOnly p (.cabacGet c) e (cabacGetBody c p e).engine := by
  have h : CabacDecOnly _ (cabacGetBody c p e).engine :=
    andThen_engine (R := CabacDecOnly) CabacDecOnly.trans (cabacRenormD_frame _ _) fun _ e₁ => .refl e₁
  obtain ⟨r, n, hr⟩ := h
  exact ⟨{ e with cabacDec := r, bitpos := n }, _, e.phase, ⟨r, n, rfl⟩, .written c _ rfl (.inr ⟨_, rfl⟩), .inl rfl, hr⟩

/-! ### The other families -/

theorem vp8FinishBody_eq (p : Params) (e : Engine) :
    ∃ r : Res Unit, vp8FinishBody p e = r.andThen (fun _ t => finishSession t) ∧ Vp8EncOnly e r.engine := by
  refine ⟨_, ((andThen_assoc _ _ _).trans (congrArg _ (funext₂ fun _ _ => andThen_assoc _ _ _))).symm, ?_⟩
  refine andThen_engine (R := Vp8EncOnly) Vp8EncOnly.trans (vp8Shifts_frame p _ e) fun _ e₁ => ?_
  refine andThen_engine (R := Vp8EncOnly) Vp8EncOnly.trans ?_ fun _ e₂ => (sinkClose_frame p e₂).vp8EncOnly
  split
  · exact releaseBytes_frame p _ _ e₁
  · exact .refl e₁

theorem RansEncOnly.trans {a b c : Engine} (h : RansEncOnly a b) (h' : RansEncOnly b c) : RansEncOnly a c := by
  obtain ⟨r, bs, n, rfl⟩ := h
  obtain ⟨r', bs', n', rfl⟩ := h'
  exact ⟨r', bs', n', rfl⟩

theorem SinkOnly.ransEncOnly {e t : Engine} (h : SinkOnly e t) : RansEncOnly e t := by
  obtain ⟨bs, n, rfl⟩ := h
  exact ⟨e.ransEnc, bs, n, rfl⟩

theorem setRansEnc_frame (e : Engine) (r : RansEnc) : RansEncOnly e (e.setRansEnc r) := ⟨r, e.sink, e.offers, rfl⟩

/-- The flush of a rANS encoder up to the end of the session (R276). -/
theorem ransFinishBody_eq (p : Params) (e : Engine) :
    ∃ r : Res Unit, ransFinishBody p e = r.andThen (fun _ t => finishSession t) ∧ RansEncOnly e r.engine := by
  refine ⟨(writeBytes p (ransEmit e.ransEnc.queue).2.reverse
      (e.setRansEnc { e.ransEnc with x := (ransEmit e.ransEnc.queue).1 })).andThen fun _ t =>
      (sinkClose p t).andThen fun _ t => .ok () (t.setRansEnc { t.ransEnc with queue := [] }), ?_, ?_⟩
  · simp only [ransFinishBody, andThen_assoc, andThen_ok]
  refine RansEncOnly.trans (setRansEnc_frame e { e.ransEnc with x := (ransEmit e.ransEnc.queue).1 }) ?_
  refine andThen_engine (R := RansEncOnly) RansEncOnly.trans (writeBytes_frame p _ _).ransEncOnly fun _ e₁ => ?_
  exact andThen_engine (R := RansEncOnly) RansEncOnly.trans (sinkClose_frame p e₁).ransEncOnly fun _ e₂ =>
    setRansEnc_frame e₂ _

theorem enqueue_frame (p : Params) (s : Bool) (prob : Byte) (e : Engine) :
    RansQueueOnly e (enqueue p s prob e).engine := by
  rcases enqueue_cases p s prob e with ⟨-, h⟩ | ⟨-, h⟩ <;> rw [h]
  · exact ⟨e.ransEnc.queue, rfl⟩
  · exact ⟨_, rfl⟩

theorem fpaq0FinishBody_eq (p : Params) (e : Engine) :
    ∃ r : Res Unit, fpaq0FinishBody p e = r.andThen (fun _ t => finishSession t) ∧ Fpaq0EncOnly e r.engine :=
  ⟨_, (andThen_assoc _ _ _).symm,
    andThen_engine (R := Fpaq0EncOnly) Fpaq0EncOnly.trans (writeBytes_frame p _ e).fpaq0EncOnly fun _ e₁ =>
      (sinkClose_frame p e₁).fpaq0EncOnly⟩

theorem LanesEncOnly.lanesOutOnly {e t : Engine} (h : LanesEncOnly e t) : LanesOutOnly e t := by
  obtain ⟨ls, m, rfl⟩ := h
  exact ⟨ls, m, e.offers, rfl⟩

theorem fpaq0pFinishBody_eq (p : Params) (e : Engine) :
    ∃ r : Res Unit, fpaq0pFinishBody p e = r.andThen (fun _ t => finishSession t) ∧ LanesOutOnly e r.engine := by
  refine ⟨_, rfl, ?_⟩
  obtain ⟨ls, m, hf⟩ := flushLanes_frame (List.range e.laneCount) e
  obtain ⟨k, hk⟩ := offerBytes_frame p (slotLength (flushLanes (List.range e.laneCount) e))
    (flushLanes (List.range e.laneCount) e)
  exact ⟨ls, m, k, by rw [hk, hf]; rfl⟩

/-! ### Every command of a kind -/

/-- The encoder commands. -/
def IsEncoder (i : Instr) : Prop := i.op = .put ∨ i.op = .putBypass ∨ i.op = .putTerm ∨ i.op = .finish

/-- The decoder commands. -/
def IsDecoder (i : Instr) : Prop := i.op = .get ∨ i.op = .getBypass ∨ i.op = .getTerm

/-- The context commands. -/
def IsContext (i : Instr) : Prop :=
  i.op = .ctxInit ∨ i.op = .ctxInitAll ∨ i.op = .ctxUpdate ∨ i.op = .ctxRead

/-- The commands that open a session. -/
def IsOpen (i : Instr) : Prop := i.op = .openEnc ∨ i.op = .openDec

/-- Every command is of one of the four kinds. -/
theorem instr_kinds (i : Instr) : IsOpen i ∨ IsEncoder i ∨ IsDecoder i ∨ IsContext i := by
  unfold IsOpen IsEncoder IsDecoder IsContext
  cases i.op <;> simp

/-- FINISH of every family is a flush within its encoder registers and stream, then the end of the session. -/
theorem finish_body {i : Instr} (hi : i.op = .finish) (p : Params) (e : Engine) :
    ∃ r : Res Unit, instrBody i p e = r.andThen (fun _ t => finishSession t) ∧
      EncoderOnly i.family .finish e r.engine := by
  cases i with
  | cabacFinish => exact cabacTerminate_eq p e
  | vp8Finish => exact vp8FinishBody_eq p e
  | ransFinish => exact ransFinishBody_eq p e
  | fpaq0Finish => exact fpaq0FinishBody_eq p e
  | fpaq0pFinish => exact fpaq0pFinishBody_eq p e
  | _ => cases hi

/-- Whatever its outcome, the rule of FINISH changes its family's encoder registers and stream, and the phase. -/
theorem finish_coded {i : Instr} (hi : i.op = .finish) (p : Params) (e : Engine) :
    Coded (EncoderOnly i.family .finish) p i e (instrBody i p e).engine := by
  obtain ⟨r, hr, h⟩ := finish_body hi p e
  rw [hr]
  exact coded_finish (fun _ => EncoderOnly.sameControl) h (.inl hi)

/-- Whatever its outcome, the rule of an encoder command changes its family's encoder registers and stream, the context
entry of its operand, and the phase. -/
theorem encoder_coded {i : Instr} (hi : IsEncoder i) (p : Params) (e : Engine) :
    Coded (EncoderOnly i.family i.op) p i e (instrBody i p e).engine := by
  have hR : ∀ t, EncoderOnly i.family i.op e t → SameControl e t := fun _ => EncoderOnly.sameControl
  cases i with
  | cabacPut b c => exact coded_cabacPut p b c e
  | cabacPutBypass b =>
    have h := cabacPutBypassBody_frame b p e
    exact coded_of_sameControl h (hR _ h)
  | cabacPutTerm b =>
    cases b with
    | false => exact coded_reply (fun _ => .none) hR ((setCabacEnc_frame e _).trans (cabacRenormE_frame p _ _))
    | true =>
      obtain ⟨r, hr, h⟩ := cabacTerminate_eq p e
      show Coded _ p _ e (cabacTerminate p e).engine
      rw [hr]
      exact coded_finish hR h (.inr rfl)
  | vp8Put b c => exact coded_update (fun _ => .none) (fun _ => b) hR (encodeBool_frame p b _ e) rfl nofun
  | vp8PutBypass b => exact coded_reply (fun _ => .none) hR (encodeBool_frame p b 128 e)
  | ransPut b c => exact coded_update (fun _ => .none) (fun _ => b) hR (enqueue_frame p b _ e) rfl nofun
  | ransPutBypass b => exact coded_reply (fun _ => .none) hR (enqueue_frame p b 128 e)
  | fpaq0Put b c => exact coded_update (fun _ => .none) (fun _ => b) hR (fpaq0Encode_frame p b _ e) rfl nofun
  | fpaq0PutBypass b => exact coded_reply (fun _ => .none) hR (fpaq0Encode_frame p b 128 e)
  | fpaq0pPut l b c =>
    exact coded_update (r := .ok () (laneEncode l b (ctxGet e c) e)) (fun _ => .none) (fun _ => b) hR
      (laneEncode_frame l b _ e).lanesOutOnly rfl nofun
  | fpaq0pPutBypass l b =>
    have h := (laneEncode_frame l b 128 e).lanesOutOnly
    exact coded_of_sameControl h (hR _ h)
  | cabacFinish | vp8Finish | ransFinish | fpaq0Finish | fpaq0pFinish => exact finish_coded rfl p e
  | _ => rcases hi with h | h | h | h <;> cases h

/-- Whatever its outcome, the rule of a decoder command changes its family's decoder registers and cursor, and the context
entry of its operand. -/
theorem decoder_coded {i : Instr} (hi : IsDecoder i) (p : Params) (e : Engine) :
    Coded (DecoderOnly i.family) p i e (instrBody i p e).engine := by
  have hR : ∀ t, DecoderOnly i.family e t → SameControl e t := fun _ => DecoderOnly.sameControl
  cases i with
  | cabacGet c => exact coded_cabacGet p c e
  | cabacGetBypass =>
    have h := cabacGetBypassBody_frame p e
    exact coded_of_sameControl h (hR _ h)
  | cabacGetTerm =>
    have h := cabacGetTermBody_frame p e
    exact coded_of_sameControl h (hR _ h)
  | vp8Get c => exact coded_update .ofBit id hR (decodeBool_frame _ e) rfl nofun
  | vp8GetBypass => exact coded_reply .ofBit hR (decodeBool_frame 128 e)
  | ransGet c => exact coded_update .ofBit id hR (decodeSym_frame _ e) rfl nofun
  | ransGetBypass => exact coded_reply .ofBit hR (decodeSym_frame 128 e)
  | fpaq0Get c => exact coded_update .ofBit id hR (fpaq0DecodeBit_frame _ e) rfl nofun
  | fpaq0GetBypass => exact coded_reply .ofBit hR (fpaq0DecodeBit_frame 128 e)
  | fpaq0pGet l c => exact coded_update .ofBit id hR (laneDecode_frame l _ e) rfl nofun
  | fpaq0pGetBypass l => exact coded_reply .ofBit hR (laneDecode_frame l 128 e)
  | _ => rcases hi with h | h | h <;> cases h

/-- The rule of a context command completes and changes the context memory only. -/
theorem context_coded {i : Instr} (hi : IsContext i) (p : Params) (e : Engine) :
    ∃ r m, instrBody i p e = .ok r (e.setCtx m) ∧ CtxEffect p i e m := by
  cases i with
  | cabacCtxInit c | vp8CtxInit c | ransCtxInit c | fpaq0CtxInit c | fpaq0pCtxInit c =>
    exact ⟨_, _, rfl, .written c _ rfl (.inl rfl)⟩
  | cabacCtxInitAll | vp8CtxInitAll | ransCtxInitAll | fpaq0CtxInitAll | fpaq0pCtxInitAll =>
    exact ⟨_, _, rfl, .cleared rfl⟩
  | cabacCtxUpdate b c | vp8CtxUpdate b c | ransCtxUpdate b c | fpaq0CtxUpdate b c | fpaq0pCtxUpdate b c =>
    exact ⟨_, _, rfl, .written c _ rfl (.inr ⟨b, rfl⟩)⟩
  | cabacCtxRead c | vp8CtxRead c | ransCtxRead c | fpaq0CtxRead c | fpaq0pCtxRead c =>
    exact ⟨_, e.ctx, rfl, .kept⟩
  | _ => rcases hi with h | h | h | h <;> cases h

end Sys2Proof.Machine
end

section
/-! SUPPORT. Every command seen as a whole: the session an OPEN opens, what any other command keeps of the session, what the
end of a command adds, and which results a command can return. -/

namespace Sys2Proof.Machine

open Sys2Proof

/-! ### OPEN -/

/-- The number of lanes of the session that an OPEN opens (R34, R121). -/
def sessionLanes : Instr → Nat
  | .fpaq0pOpenEnc n => n
  | .fpaq0pOpenDec n _ => n
  | _ => 1

theorem sessionLanes_eq_one {i : Instr} (h : i.family ≠ .fpaq0p) : sessionLanes i = 1 := by
  cases i with
  | fpaq0pOpenEnc n | fpaq0pOpenDec n eof => exact absurd rfl h
  | _ => rfl

theorem sessionLanes_bounds {i : Instr} (h : i.WellFormed) : 1 ≤ sessionLanes i ∧ sessionLanes i ≤ 128 := by
  cases i with
  | fpaq0pOpenEnc n | fpaq0pOpenDec n eof => simpa [sessionLanes, Instr.WellFormed, Instr.wellFormed, laneCountFits] using h
  | _ => exact ⟨le_rfl, (by decide : 1 ≤ 128)⟩

/-- OPEN_ENC completes; after the common part it writes its family's encoder registers only (R53). -/
theorem openEnc_body {i : Instr} (hi : i.op = .openEnc) (p : Params) (e : Engine) :
    ∃ u, instrBody i p e = .ok .none u ∧
      EncoderOnly i.family .finish (openEncoder i.family (sessionLanes i) e) u := by
  cases i with
  | cabacOpenEnc | vp8OpenEnc | ransOpenEnc | fpaq0OpenEnc | fpaq0pOpenEnc => exact ⟨_, rfl, _, _, _, rfl⟩
  | _ => cases hi

/-- Whatever its outcome, OPEN_DEC writes after the common part its family's decoder registers and the cursor only
(R54). -/
theorem openDec_body {i : Instr} (hi : i.op = .openDec) (p : Params) (e : Engine) :
    ∃ eof, DecoderOnly i.family (openDecoder i.family (sessionLanes i) eof e) (instrBody i p e).engine := by
  cases i with
  | cabacOpenDec eof =>
    refine ⟨eof, CabacDecOnly.trans ?_ (andThen_engine (R := CabacDecOnly) CabacDecOnly.trans (offsetSeed_frame 9 _)
      fun _ e₁ => .refl e₁)⟩
    exact ⟨_, _, rfl⟩
  | vp8OpenDec eof =>
    exact ⟨eof, (setVp8Dec_frame _ _).trans (andThen_engine (R := Vp8DecOnly) Vp8DecOnly.trans
      (readByte_frame _).vp8DecOnly fun _ e₁ => setVp8Dec_frame e₁ _)⟩
  | ransOpenDec eof =>
    exact ⟨eof, (setRansDec_frame _ _).trans (andThen_engine (R := RansDecOnly) RansDecOnly.trans (ransSeed_frame 4 _)
      fun _ e₁ => .refl e₁)⟩
  | fpaq0OpenDec eof =>
    exact ⟨eof, (setFpaq0Dec_frame _ _).trans (andThen_engine (R := Fpaq0DecOnly) Fpaq0DecOnly.trans (fpaq0Seed_frame 4 _)
      fun _ e₁ => .refl e₁)⟩
  | fpaq0pOpenDec n eof =>
    refine ⟨eof, LanesDecOnly.trans ?_ (andThen_engine (R := LanesDecOnly) LanesDecOnly.trans (seedLanes_frame _ _)
      fun _ e₁ => .refl e₁)⟩
    exact ⟨_, rfl⟩
  | _ => cases hi

/-- Whatever its outcome, an OPEN sets the configuration and clears the contexts (R53, R54). -/
theorem open_body {i : Instr} (hi : IsOpen i) (p : Params) (e : Engine) :
    ∃ d eof src, (d = .enc → eof = false) ∧
      SameControl (openSession i.family d (sessionLanes i) eof src e) (instrBody i p e).engine := by
  rcases hi with hi | hi
  · obtain ⟨u, hu, h⟩ := openEnc_body hi p e
    rw [hu]
    exact ⟨.enc, false, [], fun _ => rfl, h.sameControl⟩
  · obtain ⟨eof, h⟩ := openDec_body hi p e
    exact ⟨.dec, eof, e.staged, nofun, h.sameControl⟩

/-! ### The other commands -/

/-- What the rule of a command other than an OPEN keeps of the session, and what it may do to contexts and phase. -/
structure SessionKept (p : Params) (i : Instr) (e u : Engine) : Prop where
  cmdIndex : u.cmdIndex = e.cmdIndex
  fam : u.fam = e.fam
  dir : u.dir = e.dir
  laneCount : u.laneCount = e.laneCount
  eof : u.eof = e.eof
  src : u.src = e.src
  responses : u.responses = e.responses
  ctx : CtxEffect p i e u.ctx
  phase : EndPhase i e u.phase

theorem Coded.sessionKept {R : Engine → Engine → Prop} {p : Params} {i : Instr} {e u : Engine}
    (hR : ∀ t, R e t → SameControl e t) (h : Coded R p i e u) : SessionKept p i e u := by
  obtain ⟨t, m, ph, ht, hm, hph, rfl⟩ := h
  have hs := hR t ht
  exact ⟨hs.cmdIndex, hs.fam, hs.dir, hs.laneCount, hs.eof, hs.src, hs.responses, hm, hph⟩

/-- Whatever its outcome, the rule of a command other than an OPEN keeps the session. -/
theorem sessionKept_of_not_open {i : Instr} (hi : ¬IsOpen i) (p : Params) (e : Engine) :
    SessionKept p i e (instrBody i p e).engine := by
  rcases instr_kinds i with h | h | h | h
  · exact absurd h hi
  · exact (encoder_coded h p e).sessionKept fun _ => EncoderOnly.sameControl
  · exact (decoder_coded h p e).sessionKept fun _ => DecoderOnly.sameControl
  · obtain ⟨r, m, hm, hc⟩ := context_coded h p e
    rw [hm]
    exact ⟨rfl, rfl, rfl, rfl, rfl, rfl, rfl, hc, .inl rfl⟩

/-- The rule of a command counts nothing and answers nothing: that is left to its end. -/
theorem instrBody_reports (i : Instr) (p : Params) (e : Engine) :
    (instrBody i p e).engine.cmdIndex = e.cmdIndex ∧ (instrBody i p e).engine.responses = e.responses := by
  by_cases hi : IsOpen i
  · obtain ⟨d, eof, src, -, h⟩ := open_body hi p e
    exact ⟨h.cmdIndex, h.responses⟩
  · have h := sessionKept_of_not_open hi p e
    exact ⟨h.cmdIndex, h.responses⟩

/-! ### Legality -/

/-- A legal command other than an OPEN is of the session's family, in a phase of its kind (R130). -/
theorem legalNow_of_not_open {e : Engine} {i : Instr} (hi : ¬IsOpen i) (h : legalNow e i.family i.op = true) :
    i.family = e.fam ∧ phaseFits e.phase i.op = true := by
  unfold IsOpen at hi
  cases hop : i.op <;> simp_all [legalNow, phaseFits]

/-- An encoder command is legal in phase Enc only. -/
theorem phase_enc_of_legalNow {e : Engine} {i : Instr} (hi : IsEncoder i) (h : legalNow e i.family i.op = true) :
    e.phase = .enc := by
  rcases hi with hi | hi | hi | hi <;> simp_all [legalNow]

/-- A decoder command is legal in phase Dec only. -/
theorem phase_dec_of_legalNow {e : Engine} {i : Instr} (hi : IsDecoder i) (h : legalNow e i.family i.op = true) :
    e.phase = .dec := by
  rcases hi with hi | hi | hi <;> simp_all [legalNow]

/-- A command other than an OPEN is legal in a session only. -/
theorem inSession_of_legalNow {e : Engine} {i : Instr} (hi : ¬IsOpen i) (h : legalNow e i.family i.op = true) :
    inSession e := by
  obtain ⟨-, hp⟩ := legalNow_of_not_open hi h
  unfold IsOpen at hi
  cases hop : i.op <;> simp_all [phaseFits, inSession, or_assoc]

/-! ### The end of a command -/

/-- Only the phase, the last error, the command index and the responses may differ. -/
def StatusOnly (e t : Engine) : Prop :=
  ∃ ph er k rs, t = { e with phase := ph, lastErr := er, cmdIndex := k, responses := rs }

theorem raiseErr_statusOnly (op : BitVec 4) (code : Status) (e : Engine) : StatusOnly e (raiseErr op code e) :=
  ⟨_, _, _, _, rfl⟩

/-- The end of a command touches the status only. -/
theorem settle_statusOnly (o : Op) (r : Res Reply) : StatusOnly r.engine (settle o r) := by
  cases r <;> exact ⟨_, _, _, _, rfl⟩

@[simp] theorem settle_fam (o : Op) (r : Res Reply) : (settle o r).fam = r.engine.fam := by cases r <;> rfl
@[simp] theorem settle_dir (o : Op) (r : Res Reply) : (settle o r).dir = r.engine.dir := by cases r <;> rfl
@[simp] theorem settle_laneCount (o : Op) (r : Res Reply) : (settle o r).laneCount = r.engine.laneCount := by cases r <;> rfl
@[simp] theorem settle_eof (o : Op) (r : Res Reply) : (settle o r).eof = r.engine.eof := by cases r <;> rfl
@[simp] theorem settle_src (o : Op) (r : Res Reply) : (settle o r).src = r.engine.src := by cases r <;> rfl
@[simp] theorem settle_ctx (o : Op) (r : Res Reply) : (settle o r).ctx = r.engine.ctx := by cases r <;> rfl

/-- A command that ends in a phase other than Faulted completed. -/
theorem settle_not_faulted {o : Op} {r : Res Reply} (h : (settle o r).phase ≠ .faulted) :
    ∃ a t, r = .ok a t ∧ settle o r = completeCmd (opBits o) a t := by
  cases r with
  | ok a t => exact ⟨a, t, rfl, rfl⟩
  | raised c t => exact absurd rfl h

/-- A legal command leaves its own family in the configuration. -/
theorem settle_family {p : Params} {e : Engine} {i : Instr}
    (h : checkCommand p e i.family i.op (laneOperand i) (ctxOperand i) = .ok) :
    (settle i.op (instrBody i p e)).fam = i.family := by
  obtain ⟨hl, -, -⟩ := checkCommand_eq_ok.mp h
  rw [settle_fam]
  by_cases hi : IsOpen i
  · obtain ⟨d, eof, src, -, hs⟩ := open_body hi p e
    exact hs.fam
  · rw [(sessionKept_of_not_open hi p e).fam, (legalNow_of_not_open hi hl).1]

/-- A FINISH that completes ends in phase Finished. -/
theorem phase_of_finish {i : Instr} (hi : i.op = .finish) {p : Params} {e t : Engine} {a : Reply}
    (h : instrBody i p e = .ok a t) : t.phase = .finished := by
  obtain ⟨r, hr, -⟩ := finish_body hi p e
  rw [hr, andThen_eq_ok] at h
  obtain ⟨_, t₁, -, h⟩ := h
  rw [finishSession_eq] at h
  injection h with _ h
  rw [← h, Engine.setPhase_phase]

/-- The phase after a command other than an OPEN. -/
theorem endPhase_of_ok {i : Instr} (hi : ¬IsOpen i) {p : Params} {e t : Engine} {a : Reply}
    (h : instrBody i p e = .ok a t) : EndPhase i e t.phase := by
  have hk := sessionKept_of_not_open hi p e
  rw [h] at hk
  exact hk.phase

/-- An OPEN that completes leaves the phase of its direction. -/
theorem phase_of_open {i : Instr} {p : Params} {e t : Engine} {a : Reply} (h : instrBody i p e = .ok a t) :
    (i.op = .openEnc → t.phase = .enc) ∧ (i.op = .openDec → t.phase = .dec) := by
  refine ⟨fun hi => ?_, fun hi => ?_⟩
  · obtain ⟨u, hu, hs⟩ := openEnc_body hi p e
    obtain ⟨-, rfl⟩ : a = .none ∧ t = u := by simpa using h.symm.trans hu
    exact hs.sameControl.phase
  · obtain ⟨eof, hs⟩ := openDec_body hi p e
    rw [h] at hs
    exact hs.sameControl.phase

/-- The legal commands after which an encoder session is open: OPEN_ENC, and in an encoder session of the command's family
the commands that do not end it. -/
theorem encoding_cases {i : Instr} {p : Params} {e t : Engine} {a : Reply} (hl : legalNow e i.family i.op = true)
    (h : instrBody i p e = .ok a t) (ht : t.phase = .enc) :
    i.op = .openEnc ∨
    (Encoding i.family e ∧ (i.op = .put ∨ i.op = .putBypass ∨ i.op = .putTerm ∨ ∃ m, t = e.setCtx m)) := by
  by_cases ho : IsOpen i
  · rcases ho with ho | ho
    · exact .inl ho
    · exact nomatch ht.symm.trans ((phase_of_open h).2 ho)
  · have hfam := (legalNow_of_not_open ho hl).1.symm
    have hph : e.phase = .enc := by
      rcases endPhase_of_ok ho h with hph | ⟨hph, -⟩
      · exact hph.symm.trans ht
      · exact nomatch ht.symm.trans hph
    refine .inr ⟨⟨hph, hfam⟩, ?_⟩
    rcases instr_kinds i with hi | (hi | hi | hi | hi) | hi | hi
    · exact absurd hi ho
    · exact .inl hi
    · exact .inr (.inl hi)
    · exact .inr (.inr (.inl hi))
    · exact nomatch ht.symm.trans (phase_of_finish hi h)
    · exact nomatch hph.symm.trans (phase_dec_of_legalNow hi hl)
    · obtain ⟨r, m, hr, -⟩ := context_coded hi p e
      obtain ⟨-, rfl⟩ : a = r ∧ t = e.setCtx m := by simpa using h.symm.trans hr
      exact .inr (.inr (.inr ⟨m, rfl⟩))

/-- The legal commands after which a decoder session is open: OPEN_DEC, and in a decoder session of the command's family
every decoder and context command. -/
theorem decoding_cases {i : Instr} {p : Params} {e t : Engine} {a : Reply} (hl : legalNow e i.family i.op = true)
    (h : instrBody i p e = .ok a t) (ht : t.phase = .dec) :
    i.op = .openDec ∨ (Decoding i.family e ∧ (i.op = .get ∨ i.op = .getBypass ∨ i.op = .getTerm ∨ ∃ m, t = e.setCtx m)) := by
  by_cases ho : IsOpen i
  · rcases ho with ho | ho
    · exact nomatch ht.symm.trans ((phase_of_open h).1 ho)
    · exact .inl ho
  · have hfam := (legalNow_of_not_open ho hl).1.symm
    have hph : e.phase = .dec := by
      rcases endPhase_of_ok ho h with hph | ⟨hph, -⟩
      · exact hph.symm.trans ht
      · exact nomatch ht.symm.trans hph
    refine .inr ⟨⟨hph, hfam⟩, ?_⟩
    rcases instr_kinds i with hi | hi | (hi | hi | hi) | hi
    · exact absurd hi ho
    · exact nomatch hph.symm.trans (phase_enc_of_legalNow hi hl)
    · exact .inl hi
    · exact .inr (.inl hi)
    · exact .inr (.inr (.inl hi))
    · obtain ⟨r, m, hr, -⟩ := context_coded hi p e
      obtain ⟨-, rfl⟩ : a = r ∧ t = e.setCtx m := by simpa using h.symm.trans hr
      exact .inr (.inr (.inr ⟨m, rfl⟩))

/-- After a command, a session of family `f` is open only where its rule completed and was of that family: what an
invariant of an open session has to be checked for. -/
theorem settle_open {p : Params} {e : Engine} {i : Instr} {f : Family}
    (hc : checkCommand p e i.family i.op (laneOperand i) (ctxOperand i) = .ok)
    (hfam : (settle i.op (instrBody i p e)).fam = f) (hph : (settle i.op (instrBody i p e)).phase ≠ .faulted) :
    i.family = f ∧ ∃ a t, instrBody i p e = .ok a t ∧
      settle i.op (instrBody i p e) = completeCmd (opBits i.op) a t :=
  ⟨(settle_family hc).symm.trans hfam, settle_not_faulted hph⟩

/-! ### The results of a command -/

/-- An outcome's result, if any, satisfies `P`. -/
def Res.Returns {α : Type} (P : α → Prop) : Res α → Prop
  | .ok a _ => P a
  | .raised _ _ => True

/-- A sequence returns what its second part returns. -/
theorem returns_andThen {α β : Type} {P : β → Prop} (r : Res α) {f : α → Engine → Res β}
    (h : ∀ a e, (f a e).Returns P) : (r.andThen f).Returns P := by
  cases r with
  | ok a e => exact h a e
  | raised c e => trivial

/-- A result fits its command (R125): a bit comes from a GET of any kind, a descriptor from CTX_READ, an output from FINISH
or PUT_TERM 1. -/
structure ReplyFits (i : Instr) (r : Reply) : Prop where
  bit : r.bit = true → IsDecoder i
  ctx : r.ctx ≠ 0 → i.op = .ctxRead
  out : r.out ≠ [] → i.op = .finish ∨ i = .cabacPutTerm true

theorem replyFits_none (i : Instr) : ReplyFits i .none := ⟨nofun, fun h => absurd rfl h, fun h => absurd rfl h⟩

theorem replyFits_ofBit {i : Instr} (hi : IsDecoder i) (b : Bool) : ReplyFits i (.ofBit b) :=
  ⟨fun _ => hi, fun h => absurd rfl h, fun h => absurd rfl h⟩

theorem replyFits_ofOut {i : Instr} (hi : i.op = .finish ∨ i = .cabacPutTerm true) (out : List Byte) :
    ReplyFits i (.ofOut out) := ⟨nofun, fun h => absurd rfl h, fun _ => hi⟩

theorem openDec_returns {i : Instr} (hi : i.op = .openDec) (p : Params) (e : Engine) :
    (instrBody i p e).Returns (ReplyFits i) := by
  cases i with
  | cabacOpenDec | vp8OpenDec | ransOpenDec | fpaq0OpenDec | fpaq0pOpenDec =>
    exact returns_andThen _ fun _ _ => replyFits_none _
  | _ => cases hi

theorem finish_returns {i : Instr} (hi : i.op = .finish) (p : Params) (e : Engine) :
    (instrBody i p e).Returns (ReplyFits i) := by
  obtain ⟨r, hr, -⟩ := finish_body hi p e
  rw [hr]
  exact returns_andThen _ fun _ _ => replyFits_ofOut (.inl hi) _

theorem encoder_returns {i : Instr} (hi : IsEncoder i) (p : Params) (e : Engine) :
    (instrBody i p e).Returns (ReplyFits i) := by
  cases i with
  | cabacPutTerm b =>
    cases b with
    | false => exact returns_andThen _ fun _ _ => replyFits_none _
    | true =>
      obtain ⟨r, hr, -⟩ := cabacTerminate_eq p e
      show (cabacTerminate p e).Returns _
      rw [hr]
      exact returns_andThen _ fun _ _ => replyFits_ofOut (.inr rfl) _
  | cabacFinish | vp8Finish | ransFinish | fpaq0Finish | fpaq0pFinish =>
    exact finish_returns rfl p e
  | fpaq0pPut | fpaq0pPutBypass => exact replyFits_none _
  | cabacPut | cabacPutBypass | vp8Put | vp8PutBypass | ransPut | ransPutBypass | fpaq0Put | fpaq0PutBypass =>
    exact returns_andThen _ fun _ _ => replyFits_none _
  | _ => rcases hi with h | h | h | h <;> cases h

theorem decoder_returns {i : Instr} (hi : IsDecoder i) (p : Params) (e : Engine) :
    (instrBody i p e).Returns (ReplyFits i) := by
  cases i with
  | cabacGetBypass =>
    exact returns_andThen _ fun _ _ => by dsimp only; split <;> exact replyFits_ofBit hi _
  | cabacGetTerm =>
    simp only [instrBody, cabacGetTermBody]
    split
    · exact replyFits_ofBit hi _
    · exact returns_andThen _ fun _ _ => replyFits_ofBit hi _
  | cabacGet | vp8Get | vp8GetBypass | ransGet | ransGetBypass | fpaq0Get | fpaq0GetBypass | fpaq0pGet | fpaq0pGetBypass =>
    exact returns_andThen _ fun _ _ => replyFits_ofBit hi _
  | _ => rcases hi with h | h | h <;> cases h

theorem context_returns {i : Instr} (hi : IsContext i) (p : Params) (e : Engine) :
    (instrBody i p e).Returns (ReplyFits i) := by
  cases i with
  | cabacCtxRead | vp8CtxRead | ransCtxRead | fpaq0CtxRead | fpaq0pCtxRead =>
    exact ⟨nofun, fun _ => rfl, fun h => absurd rfl h⟩
  | cabacCtxInit | vp8CtxInit | ransCtxInit | fpaq0CtxInit | fpaq0pCtxInit | cabacCtxInitAll | vp8CtxInitAll
  | ransCtxInitAll | fpaq0CtxInitAll | fpaq0pCtxInitAll | cabacCtxUpdate | vp8CtxUpdate | ransCtxUpdate | fpaq0CtxUpdate
  | fpaq0pCtxUpdate => exact replyFits_none _
  | _ => rcases hi with h | h | h | h <;> cases h

/-- The result of every command fits it. -/
theorem instrBody_returns (i : Instr) (p : Params) (e : Engine) : (instrBody i p e).Returns (ReplyFits i) := by
  rcases instr_kinds i with (h | h) | h | h | h
  · obtain ⟨u, hu, -⟩ := openEnc_body h p e
    rw [hu]
    exact replyFits_none i
  · exact openDec_returns h p e
  · exact encoder_returns h p e
  · exact decoder_returns h p e
  · exact context_returns h p e

end Sys2Proof.Machine
end

section
/-! SUPPORT. The context memories along a run: a write of a reachable descriptor inside `NUM_CTX` keeps the invariant, every
descriptor that an update makes is reachable, and so every step keeps the invariant. -/

namespace Sys2Proof.Machine

open Sys2Proof

/-! ### Descriptors -/

/-- The packed form of a CABAC descriptor as a number (R41). -/
theorem CabacCtx.pack_toNat (c : CabacCtx) : c.pack.toNat = c.mps.toNat * 64 + c.s.toNat := by
  obtain ⟨s, mps⟩ := c
  have key : ∀ (s : BitVec 6) (mps : Bool), (CabacCtx.pack ⟨s, mps⟩).toNat = mps.toNat * 64 + s.toNat := by decide
  exact key s mps

/-- The state of a packed CABAC descriptor (R41). -/
theorem CabacCtx.unpack_s_toNat (v : Byte) : (CabacCtx.unpack v).s.toNat = v.toNat % 64 := by
  simp [CabacCtx.unpack, BitVec.extractLsb'_toNat]

/-- No transition from a state other than 63 leads to 63 (R153). -/
theorem transIdx_lt : ∀ x, x < 63 → transIdxLPS x < 63 ∧ transIdxMPS x < 63 := by decide

/-- An update from a state other than 63 leads to one other than 63 (R153). -/
theorem cabacUpdate_s_lt (t : SwapTest) {c : CabacCtx} (b : Bool) (h : c.s.toNat < 63) :
    (cabacUpdate t c b).s.toNat < 63 := by
  obtain ⟨hlps, hmps⟩ := transIdx_lt _ h
  unfold cabacUpdate
  split
  · rw [BitVec.toNat_ofNat]
    omega
  · cases t <;> simp only [BitVec.toNat_ofNat] <;> omega

/-- `ProbUpdate` as exact numbers: down by `ceil(p / 32)`, not below 1, after a one, up by `floor((256 - p) / 32)` after a
zero (R156). -/
theorem probUpdate_toNat (p : Byte) (b : Bool) :
    (probUpdate p b).toNat = if b then max 1 (p.toNat - (p.toNat + 31) / 32) else p.toNat + (256 - p.toNat) / 32 := by
  have hp := p.isLt
  cases b <;> simp only [probUpdate, asr5, BitVec.toNat_ofNat, if_true, Bool.false_eq_true, if_false] <;> omega

/-- Every initial descriptor is reachable. -/
theorem ctxReachable_initialCtx (f : Family) : ctxReachable f (initialCtx f) = true := by
  cases f <;> decide

/-- An update makes a reachable descriptor of a reachable one (R153, R157). -/
theorem ctxReachable_nextCtx (p : Params) {f : Family} {v : Byte} (b : Bool) (h : ctxReachable f v = true) :
    ctxReachable f (nextCtx p f v b) = true := by
  have prob : 1 ≤ v.toNat ∧ v.toNat ≤ 225 → 1 ≤ (probUpdate v b).toNat ∧ (probUpdate v b).toNat ≤ 225 := fun hv => by
    rw [probUpdate_toNat]
    split <;> omega
  cases f with
  | cabac =>
    simp only [ctxReachable, decide_eq_true_eq] at h
    have hs := cabacUpdate_s_lt p.cabacSwapTest (c := CabacCtx.unpack v) b (by rw [CabacCtx.unpack_s_toNat]; omega)
    have hm := Bool.toNat_le (cabacUpdate p.cabacSwapTest (CabacCtx.unpack v) b).mps
    simp only [ctxReachable, nextCtx, decide_eq_true_eq, CabacCtx.pack_toNat]
    omega
  | _ =>
    simp only [ctxReachable, decide_eq_true_eq] at h
    exact decide_eq_true (prob h)

/-! ### Memories -/

/-- The entries of a memory after a write are the new one and old ones. -/
theorem mem_write {d : Option Byte} {m : Memory} {a : Nat} {v : Byte} {c : Host.Cell}
    (h : c ∈ Memory.write d m a v) : c = (a, v) ∨ c ∈ m := by
  unfold Memory.write at h
  split at h
  · exact .inr (mem_of_mem_erase h)
  · exact mem_insertCell h

/-- A context read gives an initial descriptor or a listed one. -/
theorem ctxGet_cases (e : Engine) (c : Nat) : ctxGet e c = initialCtx e.fam ∨ (c, ctxGet e c) ∈ e.ctx := by
  unfold ctxGet Memory.read
  cases h : Memory.lookup c e.ctx with
  | none => exact .inl rfl
  | some v => exact .inr (mem_of_lookup h)

/-- Every context read gives a reachable descriptor. -/
theorem ctxReachable_ctxGet {p : Params} {e : Engine} (h : CtxInv p e) (c : Nat) :
    ctxReachable e.fam (ctxGet e c) = true := by
  obtain ⟨-, hmem⟩ := h
  rcases ctxGet_cases e c with hc | hc
  · rw [hc]
    exact ctxReachable_initialCtx _
  · exact (hmem _ hc).2

/-- The invariant of the contexts with all entries initial. -/
theorem ctxInv_of_ctx_nil {p : Params} {u : Engine} (h : u.ctx = []) : CtxInv p u := by
  unfold CtxInv
  rw [h]
  exact ⟨wf_nil _, fun c hc => absurd hc List.not_mem_nil⟩

/-- The effect of a legal command other than an OPEN on the contexts keeps their invariant. -/
theorem ctxInv_of_ctxEffect {p : Params} {i : Instr} {e u : Engine} (h : CtxInv p e) (hf : i.family = e.fam)
    (hc : ∀ c ∈ ctxOperand i, c < p.numCtx) (hu : u.fam = e.fam) (hm : CtxEffect p i e u.ctx) : CtxInv p u := by
  obtain ⟨hwf, hmem⟩ := id h
  unfold CtxInv
  generalize u.ctx = m at hm
  rw [hu]
  cases hm with
  | kept => exact h
  | cleared => exact ⟨wf_nil _, fun c hc => absurd hc List.not_mem_nil⟩
  | written c v hop hv =>
    have hreach : ctxReachable e.fam v = true := by
      rcases hv with rfl | ⟨b, rfl⟩ <;> rw [hf]
      · exact ctxReachable_initialCtx _
      · exact ctxReachable_nextCtx p b (ctxReachable_ctxGet h c)
    refine ⟨wf_write c v hwf, fun x hx => ?_⟩
    rcases mem_write hx with rfl | hx
    · exact ⟨hc c hop, hreach⟩
    · exact hmem x hx

/-- A context that the command does not name reads as before. -/
theorem ctxGet_of_ctxEffect {p : Params} {i : Instr} {e u : Engine} (h : CtxInv p e) (hi : i.op ≠ .ctxInitAll)
    (hu : u.fam = e.fam) (hm : CtxEffect p i e u.ctx) (a : Nat) (ha : ctxOperand i ≠ some a) : ctxGet u a = ctxGet e a := by
  unfold ctxGet
  generalize u.ctx = m at hm
  rw [hu]
  cases hm with
  | kept => rfl
  | cleared hop => exact absurd hop hi
  | written c v hop hv =>
    rw [read_write c a v h.1, if_neg]
    rintro rfl
    exact ha hop

/-! ### The step -/

/-- A legal command keeps the contexts' invariant. -/
theorem ctxInv_settle {p : Params} {e : Engine} {i : Instr}
    (hc : checkCommand p e i.family i.op (laneOperand i) (ctxOperand i) = .ok) (h : CtxInv p e) :
    CtxInv p (settle i.op (instrBody i p e)) := by
  obtain ⟨hl, -, hctx⟩ := checkCommand_eq_ok.mp hc
  by_cases hi : IsOpen i
  · obtain ⟨d, eof, src, -, hs⟩ := open_body hi p e
    exact ctxInv_of_ctx_nil (by rw [settle_ctx, hs.ctx]; rfl)
  · have hk := sessionKept_of_not_open hi p e
    exact ctxInv_of_ctxEffect h (legalNow_of_not_open hi hl).1 hctx (by rw [settle_fam, hk.fam])
      (by rw [settle_ctx]; exact hk.ctx)

/-- Settles O48: a step writes contexts with reachable descriptors only, inside `NUM_CTX`. -/
theorem stepKeepsContexts : Obligations.StepKeepsContexts := by
  intro s t hs h
  exact step_keeps (P := CtxInv) (Q := CtxInv) (fun _ _ h => h) (fun _ _ _ h => h) (fun _ _ _ _ _ h => h)
    (fun _ _ _ _ hc h => ctxInv_settle hc h) hs h

end Sys2Proof.Machine
end

section
/-! SUPPORT. The control registers along a run. -/

namespace Sys2Proof.Machine

open Sys2Proof

/-- Taking an exception keeps the control registers consistent, whatever phase the engine was in. -/
theorem sessionInv_raiseErr {op : BitVec 4} {code : Status} {e : Engine} (hcode : code ≠ .ok)
    (heof : e.dir = .enc → e.eof = false) (hidx : e.cmdIndex = e.responses.length) :
    SessionInv (raiseErr op code e) := by
  refine ⟨fun h => ?_, nofun, heof, fun h => ?_, iff_of_true rfl hcode, congrArg (· + 1) hidx, rfl⟩
  · rcases h with h | h <;> cases h
  · rcases h with h | h | h <;> cases h

/-- Completing a command keeps the control registers consistent, where they are so in a session. -/
theorem sessionInv_completeCmd {op : BitVec 4} {r : Reply} {e : Engine}
    (henc : (e.phase = .enc ∨ e.phase = .finished) → e.dir = .enc) (hdec : e.phase = .dec → e.dir = .dec)
    (heof : e.dir = .enc → e.eof = false)
    (hn : 1 ≤ e.laneCount ∧ e.laneCount ≤ 128 ∧ (e.fam ≠ .fpaq0p → e.laneCount = 1))
    (hph : e.phase ≠ .faulted) (hidx : e.cmdIndex = e.responses.length) :
    SessionInv (completeCmd op r e) :=
  ⟨henc, hdec, heof, fun _ => hn, iff_of_false hph fun h => h rfl, congrArg (· + 1) hidx, rfl⟩

/-- The end of a command keeps the control registers consistent, where its rule left them so. -/
theorem sessionInv_settle {o : Op} {r : Res Reply} (hr : r.NamesError)
    (henc : (r.engine.phase = .enc ∨ r.engine.phase = .finished) → r.engine.dir = .enc)
    (hdec : r.engine.phase = .dec → r.engine.dir = .dec) (heof : r.engine.dir = .enc → r.engine.eof = false)
    (hn : 1 ≤ r.engine.laneCount ∧ r.engine.laneCount ≤ 128 ∧ (r.engine.fam ≠ .fpaq0p → r.engine.laneCount = 1))
    (hph : r.engine.phase ≠ .faulted) (hidx : r.engine.cmdIndex = r.engine.responses.length) :
    SessionInv (settle o r) := by
  cases r with
  | ok a t => exact sessionInv_completeCmd henc hdec heof hn hph hidx
  | raised c t => exact sessionInv_raiseErr hr heof hidx

/-- OPEN sets the control registers consistently. -/
theorem sessionInv_open {p : Params} {e : Engine} {i : Instr} (hi : IsOpen i) (hw : i.WellFormed) (h : SessionInv e) :
    SessionInv (settle i.op (instrBody i p e)) := by
  obtain ⟨-, -, -, -, -, hidx, -⟩ := h
  obtain ⟨d, eof, src, heof, hs⟩ := open_body hi p e
  obtain ⟨h1, h128⟩ := sessionLanes_bounds hw
  refine sessionInv_settle (instrBody_namesError i p e) ?_ ?_ ?_ ?_ ?_ ?_
  · rw [hs.phase, hs.dir]
    cases d
    · exact fun _ => rfl
    · rintro (h | h) <;> cases h
  · rw [hs.phase, hs.dir]
    cases d
    · exact nofun
    · exact fun _ => rfl
  · rw [hs.dir, hs.eof]
    exact heof
  · rw [hs.laneCount, hs.fam]
    exact ⟨h1, h128, sessionLanes_eq_one⟩
  · rw [hs.phase]
    cases d <;> nofun
  · rw [hs.cmdIndex, hs.responses]
    exact hidx

/-- A command other than an OPEN keeps the control registers consistent: in phase Enc it may end the session. -/
theorem sessionInv_not_open {p : Params} {e : Engine} {i : Instr} (hi : ¬IsOpen i)
    (hl : legalNow e i.family i.op = true) (h : SessionInv e) : SessionInv (settle i.op (instrBody i p e)) := by
  obtain ⟨henc, hdec, heof, hn, -, hidx, -⟩ := h
  have hk := sessionKept_of_not_open hi p e
  have hin := inSession_of_legalNow hi hl
  have hfin : i.op = .finish ∨ i.op = .putTerm → e.phase = .enc := fun h =>
    phase_enc_of_legalNow (h.elim (.inr ∘ .inr ∘ .inr) (.inr ∘ .inr ∘ .inl)) hl
  refine sessionInv_settle (instrBody_namesError i p e) ?_ ?_ ?_ ?_ ?_ ?_
  · rw [hk.dir]
    rcases hk.phase with hph | ⟨-, hop⟩
    · rw [hph]
      exact henc
    · exact fun _ => henc (.inl (hfin hop))
  · rw [hk.dir]
    rcases hk.phase with hph | ⟨hph, -⟩ <;> rw [hph]
    · exact hdec
    · exact nofun
  · rw [hk.dir, hk.eof]
    exact heof
  · rw [hk.laneCount, hk.fam]
    exact hn hin
  · rcases hk.phase with hph | ⟨hph, -⟩ <;> rw [hph]
    · rcases hin with h | h | h <;> rw [h] <;> nofun
    · nofun
  · rw [hk.cmdIndex, hk.responses]
    exact hidx

/-- Settles O49: an OPEN sets the control registers, every other command keeps them but for the phase, and the end of a
command sets the last error with its response. -/
theorem stepKeepsSession : Obligations.StepKeepsSession := by
  intro s t hs h
  refine step_keeps (P := fun _ => SessionInv) (Q := fun _ => SessionInv) (fun _ _ h => h) (fun _ _ _ h => h) ?_ ?_ hs h
  · rintro p e op code hcode ⟨-, -, heof, -, -, hidx, -⟩
    exact sessionInv_raiseErr hcode heof hidx
  · intro p e i hw hc h
    by_cases hi : IsOpen i
    · exact sessionInv_open hi hw h
    · exact sessionInv_not_open hi (checkCommand_eq_ok.mp hc).1 h

end Sys2Proof.Machine
end

section
/-! What a command word does to the machine as a whole: the state after power-on, the report of every word, the independence
of the engines, and the frames of the encoder and decoder commands. -/

namespace Sys2Proof.Machine

open Sys2Proof

/-! ### Power-on -/

/-- The engine on a port after power-on. -/
theorem powerOn_engine {p : Params} {n : Nat} {e : Engine} (h : (State.powerOn p).engines[n]? = some e) :
    e = Engine.powerOn n := by
  simp only [State.powerOn, List.getElem?_map, Option.map_eq_some_iff] at h
  obtain ⟨m, hm, rfl⟩ := h
  obtain ⟨hlt, rfl⟩ := List.getElem?_eq_some_iff.mp hm
  rw [List.getElem_range]

/-- Settles O6: the engines after power-on are those of `Engine.powerOn`, by port. -/
theorem powerOnState : Obligations.PowerOnState := by
  intro p
  refine ⟨rfl, by simp [State.powerOn], fun n e h => ?_⟩
  rw [powerOn_engine h]
  exact ⟨rfl, rfl, rfl, rfl⟩

/-- Settles O47: no session is open after power-on, and no context is listed. -/
theorem powerOnMeetsInvariant : Obligations.PowerOnMeetsInvariant := by
  intro p e he
  obtain ⟨n, hn⟩ := List.mem_iff_getElem?.mp he
  rw [powerOn_engine hn]
  exact
    { ctx := ctxInv_of_ctx_nil rfl
      session := by simp [SessionInv, inSession, Engine.powerOn]
      cabacEnc := fun h => nomatch h.1
      vp8Enc := fun h => nomatch h.1
      vp8Dec := fun h => nomatch h.1
      ransEnc := fun h => nomatch h.1
      ransDec := fun h => nomatch h.1
      fpaq0Enc := fun h => nomatch h.1
      fpaq0Dec := fun h => nomatch h.1
      lanesEnc := fun h => nomatch h.1
      lanesDec := fun h => nomatch h.1 }

/-! ### Independence -/

/-- Settles O9: what a command word does to its engine is a function of the parameters and that engine. -/
theorem enginesIndependent : Obligations.EnginesIndependent := by
  intro s s' n w rest rest' t hs h
  obtain ⟨e, he, rfl⟩ := engine_of_step_command hs h
  have hlt : n < s.engines.length := (List.getElem?_eq_some_iff.mp he).1
  have self : ∀ (u : State) (r : List HostAction), u.engines[n]? = some e →
      (((u.setHost r).setSel n).withEngine (wordEffect s.params w e)).engines[n]? =
        some (wordEffect s.params w e) := fun u r hu =>
    engine?_withEngine (s := (u.setHost r).setSel n) hu _
  refine ⟨rfl, List.length_set, rfl, fun m hm => engines_withEngine_ne (s := (s.setHost rest).setSel n) hm _,
    fun hs' hp hn => ?_⟩
  have he' : s'.engines[n]? = some e := hn.trans he
  refine ⟨_, step_command hs' he', ?_⟩
  rw [hp, self s' rest' he', self s rest he]

/-- Settles O10: every word but an OPEN keeps the configuration and the latched input. -/
theorem onlyOpenWritesConfiguration : Obligations.OnlyOpenWritesConfiguration := by
  intro s t n e e' h he he' hne
  obtain ⟨e₀, he₀, hstep⟩ := (engineStep_of_step h).2 n e' he'
  obtain rfl : e₀ = e := Option.some_injective _ (he₀.symm.trans he)
  cases hstep with
  | keep => exact absurd ⟨rfl, rfl, rfl, rfl, rfl⟩ hne
  | place bs => exact absurd ⟨rfl, rfl, rfl, rfl, rfl⟩ hne
  | word w rest hs =>
    cases hd : decode w with
    | error err =>
      rw [wordEffect_error hd] at hne
      exact absurd ⟨rfl, rfl, rfl, rfl, rfl⟩ hne
    | ok i =>
      refine ⟨w, rest, i, hs, hd, by_contra fun hi => hne ?_⟩
      rw [wordEffect_ok hd]
      by_cases hc : checkCommand s.params e₀ i.family i.op (laneOperand i) (ctxOperand i) = .ok
      · have hk := sessionKept_of_not_open hi s.params e₀
        rw [commandEffect_legal hc, settle_fam, settle_dir, settle_laneCount, settle_eof, settle_src]
        exact ⟨hk.fam, hk.dir, hk.laneCount, hk.eof, hk.src⟩
      · rw [commandEffect_illegal hc]
        exact ⟨rfl, rfl, rfl, rfl, rfl⟩

/-! ### The report of a command -/

/-- An appended bit vector as a number. -/
theorem toNat_append_eq {n m : Nat} (x : BitVec n) (y : BitVec m) : (x ++ y).toNat = x.toNat * 2 ^ m + y.toNat := by
  rw [BitVec.toNat_append, ← Nat.shiftLeft_add_eq_or_of_lt y.isLt, Nat.shiftLeft_eq]

/-- The packed response as a number (R125). -/
theorem Response.word_toNat (r : Response) :
    r.word.toNat = r.status.code.toNat * 2 ^ 28 + r.op.toNat * 2 ^ 24 + r.bit.toNat * 2 ^ 23 + r.ctx.toNat := by
  have hb : (BitVec.ofBool r.bit).toNat = r.bit.toNat := by cases r.bit <;> rfl
  have h7 : (0 : BitVec 7).toNat = 0 := rfl
  have h8 : (0 : BitVec 8).toNat = 0 := rfl
  simp only [Response.word, toNat_append_eq, hb, h7, h8]
  omega

/-- The OP field of a word as a number (R110). -/
theorem opField_toNat (w : Word) : (w.extractLsb' 24 4).toNat = w.toNat / 2 ^ 24 % 16 := by
  rw [BitVec.extractLsb'_toNat, Nat.shiftRight_eq_div_pow]

/-- One command counted, with one response `r` that carries the OP field `op` and the status then held, and an error
that faults the engine and returns nothing else. -/
def Reports (op : BitVec 4) (e e' : Engine) (r : Response) : Prop :=
  e'.cmdIndex = e.cmdIndex + 1 ∧ e'.responses = r :: e.responses ∧ r.op = op ∧ r.status = e'.lastErr ∧
  (r.status ≠ .ok → e'.phase = .faulted ∧ r.bit = false ∧ r.ctx = 0 ∧ r.out = [])

theorem reports_raiseErr (op : BitVec 4) (code : Status) (e : Engine) :
    Reports op e (raiseErr op code e) ⟨code, op, false, 0, []⟩ :=
  ⟨rfl, rfl, rfl, rfl, fun _ => ⟨rfl, rfl, rfl, rfl⟩⟩

/-- A response's results fit a word: what `ReplyFits` says of a command, in the word's OP field and bit 23. -/
def ResultFits (w : Word) (r : Response) : Prop :=
  (r.bit = true → r.op.toNat ∈ [6, 7, 8]) ∧ (r.ctx ≠ 0 → r.op.toNat = 12) ∧
  (r.out ≠ [] → r.op.toNat = 5 ∨ (r.op.toNat = 4 ∧ w.getLsbD 23 = true))

theorem resultFits_nothing (w : Word) (code : Status) (op : BitVec 4) : ResultFits w ⟨code, op, false, 0, []⟩ :=
  ⟨nofun, fun h => absurd rfl h, fun h => absurd rfl h⟩

/-- A result that fits a command fits the words that decode to it. -/
theorem resultFits_of_replyFits {w : Word} {i : Instr} {r : Reply} (hd : decode w = .ok i) (h : ReplyFits i r) :
    ResultFits w ⟨.ok, opBits i.op, r.bit, r.ctx, r.out⟩ := by
  obtain ⟨hbit, hctx, hout⟩ := h
  refine ⟨fun hb => ?_, fun hc => ?_, fun ho => ?_⟩
  · rcases hbit hb with hop | hop | hop <;> simp [hop, opBits, Op.code]
  · simp [hctx hc, opBits, Op.code]
  · rcases hout ho with hop | rfl
    · exact .inl (by simp [hop, opBits, Op.code])
    · exact .inr ⟨rfl, putTerm_bit_of_decode hd⟩

/-- Every command word reports once, with results that fit it. -/
theorem wordEffect_reports (p : Params) (w : Word) (e : Engine) :
    ∃ r, Reports (w.extractLsb' 24 4) e (wordEffect p w e) r ∧ ResultFits w r := by
  cases hd : decode w with
  | error err =>
    rw [wordEffect_error hd]
    exact ⟨_, reports_raiseErr _ _ _, resultFits_nothing w _ _⟩
  | ok i =>
    rw [wordEffect_ok hd, ← opBits_of_decode hd]
    by_cases hc : checkCommand p e i.family i.op (laneOperand i) (ctxOperand i) = .ok
    · rw [commandEffect_legal hc]
      obtain ⟨hidx, hresp⟩ := instrBody_reports i p e
      have hret := instrBody_returns i p e
      cases hb : instrBody i p e with
      | ok r u =>
        rw [hb] at hidx hresp hret
        exact ⟨_, ⟨congrArg (· + 1) hidx, congrArg _ hresp, rfl, rfl, fun h => absurd rfl h⟩,
          resultFits_of_replyFits hd hret⟩
      | raised c u =>
        rw [hb] at hidx hresp
        exact ⟨_, ⟨congrArg (· + 1) hidx, congrArg _ hresp, rfl, rfl, fun _ => ⟨rfl, rfl, rfl, rfl⟩⟩,
          resultFits_nothing w c _⟩
    · rw [commandEffect_illegal hc]
      exact ⟨_, reports_raiseErr _ _ _, resultFits_nothing w _ _⟩

/-- Settles O8: every word reports once, and the packed response is the sum of its fields. -/
theorem everyCommandReports : Obligations.EveryCommandReports := by
  refine ⟨rfl, fun s n w rest e hs he => ?_⟩
  obtain ⟨r, ⟨hidx, hresp, hop, hstatus, herr⟩, hbit, hctx, hout⟩ := wordEffect_reports s.params w e
  refine ⟨_, wordEffect s.params w e, r, step_command hs he,
    engine?_withEngine (s := (s.setHost rest).setSel n) he _, hidx, hresp, hop, hstatus, ?_, hbit, hctx, hout, herr⟩
  rw [Response.word_toNat, hop, opField_toNat, hstatus]

/-! ### Frames -/

/-- Whatever its outcome, also where it is illegal, an encoder command changes its family's encoder registers and stream,
the context entry of its operand, and the status. -/
theorem commandEffect_encoder {i : Instr} (hi : IsEncoder i) (p : Params) (e : Engine) :
    ∃ t m, EncoderOnly i.family i.op e t ∧ CtxEffect p i e m ∧ StatusOnly (t.setCtx m) (commandEffect p i e) := by
  by_cases hc : checkCommand p e i.family i.op (laneOperand i) (ctxOperand i) = .ok
  · obtain ⟨t, m, ph, ht, hm, -, hu⟩ := encoder_coded hi p e
    obtain ⟨ph', er, k, rs, h⟩ := settle_statusOnly i.op (instrBody i p e)
    rw [commandEffect_legal hc, h, hu]
    exact ⟨t, m, ht, hm, ph', er, k, rs, rfl⟩
  · rw [commandEffect_illegal hc]
    exact ⟨e, e.ctx, .refl _ _ e, .kept, raiseErr_statusOnly _ _ e⟩

/-- Whatever its outcome, also where it is illegal, a decoder command changes its family's decoder registers and cursor,
the context entry of its operand, and the status. -/
theorem commandEffect_decoder {i : Instr} (hi : IsDecoder i) (p : Params) (e : Engine) :
    ∃ t m, DecoderOnly i.family e t ∧ CtxEffect p i e m ∧ StatusOnly (t.setCtx m) (commandEffect p i e) := by
  by_cases hc : checkCommand p e i.family i.op (laneOperand i) (ctxOperand i) = .ok
  · obtain ⟨t, m, ph, ht, hm, -, hu⟩ := decoder_coded hi p e
    obtain ⟨ph', er, k, rs, h⟩ := settle_statusOnly i.op (instrBody i p e)
    rw [commandEffect_legal hc, h, hu]
    exact ⟨t, m, ht, hm, ph', er, k, rs, rfl⟩
  · rw [commandEffect_illegal hc]
    exact ⟨e, e.ctx, .refl _ e, .kept, raiseErr_statusOnly _ _ e⟩

/-- Settles O45: the changes of an encoder command, family by family. -/
theorem encoderFrame : Obligations.EncoderFrame := by
  intro i s e t he hinv hi h
  rw [exec_eq_commandEffect he] at h
  injection h with h
  obtain ⟨e₁, m, h₁, hm, ph, er, k, rs, hu⟩ := commandEffect_encoder hi s.params e
  refine ⟨commandEffect s.params i e, h.symm, ?_, ?_⟩
  · rw [hu]
    refine ctxGet_of_ctxEffect hinv.ctx (fun hop => ?_) h₁.sameControl.fam hm
    rw [hop] at hi
    rcases hi with h | h | h | h <;> cases h
  · rw [hu]
    clear hu h hm
    cases hf : i.family <;> rw [hf] at h₁
    case rans =>
      by_cases hop : i.op = .finish
      · rw [hop] at h₁
        obtain ⟨_, _, _, rfl⟩ := h₁
        simp [hop, Engine.setCtx]
      · have hq : RansQueueOnly e e₁ := by
          unfold EncoderOnly at h₁
          split at h₁ <;> simp_all
        obtain ⟨_, rfl⟩ := hq
        simp [hop, Engine.setCtx, Engine.setRansEnc]
    all_goals
      obtain ⟨_, _, _, rfl⟩ := h₁
      simp [Engine.setCtx]

/-- Settles O46: the changes of a decoder command, family by family. -/
theorem decoderFrame : Obligations.DecoderFrame := by
  intro i s e t he hinv hi h
  rw [exec_eq_commandEffect he] at h
  injection h with h
  obtain ⟨e₁, m, h₁, hm, ph, er, k, rs, hu⟩ := commandEffect_decoder hi s.params e
  refine ⟨commandEffect s.params i e, h.symm, ?_, ?_⟩
  · rw [hu]
    refine ctxGet_of_ctxEffect hinv.ctx (fun hop => ?_) h₁.sameControl.fam hm
    rw [hop] at hi
    rcases hi with h | h | h <;> cases h
  · rw [hu]
    clear hu h hm
    cases hf : i.family <;> rw [hf] at h₁
    case fpaq0p =>
      obtain ⟨_, rfl⟩ := h₁
      simp [Engine.setCtx, Engine.setLanesDec]
    all_goals
      obtain ⟨_, _, rfl⟩ := h₁
      simp [Engine.setCtx]

end Sys2Proof.Machine
end

section
/-! SUPPORT. rANS sessions along a run: the queue of an encoder and the cursor of a decoder. -/

namespace Sys2Proof.Machine

open Sys2Proof

/-! ### The cursor -/

theorem readByteLoop_bitpos {n : Nat} {v w : Byte} {e t : Engine} (h : readByteLoop n v e = .ok w t) :
    t.bitpos = e.bitpos + n := by
  induction n generalizing v e with
  | zero => cases h; rfl
  | succ n ih =>
    obtain ⟨b, e₁, hr, h⟩ := andThen_eq_ok.mp h
    rcases readBit_frame e with ⟨b', hr'⟩ | hr' <;> rw [hr] at hr' <;> cases hr'
    rw [ih h, Engine.setBitpos_bitpos]
    omega

/-- ReadByte moves the cursor by 8 bits (R78). -/
theorem readByte_bitpos {w : Byte} {e t : Engine} (h : readByte e = .ok w t) : t.bitpos = e.bitpos + 8 :=
  readByteLoop_bitpos h

/-- The seeding of a rANS decoder moves the cursor by whole bytes (R282). -/
theorem ransSeed_bitpos {n : Nat} {e t : Engine} (h : ransSeed n e = .ok () t) : t.bitpos = e.bitpos + 8 * n := by
  induction n generalizing e with
  | zero => cases h; rfl
  | succ n ih =>
    obtain ⟨v, e₁, hr, h⟩ := andThen_eq_ok.mp h
    rw [ih h, Engine.setRansDec_bitpos, readByte_bitpos hr]
    omega

/-- DecodeSym keeps a cursor at a byte boundary (R284). -/
theorem decodeSym_bitpos {prob : Byte} {s : Bool} {e t : Engine} (h : decodeSym prob e = .ok s t) :
    t.bitpos % 8 = e.bitpos % 8 := by
  simp only [decodeSym] at h
  split at h
  · obtain ⟨v, e₁, hr, h⟩ := andThen_eq_ok.mp h
    cases h
    rw [Engine.setRansDec_bitpos, readByte_bitpos hr, Engine.setRansDec_bitpos, Nat.add_mod_right]
  · cases h
    rfl

/-! ### The queue -/

/-- Enqueue of a probability in 1 .. 225 keeps the queue in bounds, where it goes on (R273). -/
theorem ransEncInv_enqueue {p : Params} {s : Bool} {prob : Byte} {e t : Engine} (h : RansEncInv p e)
    (hprob : 1 ≤ prob.toNat ∧ prob.toNat ≤ 225) (ht : enqueue p s prob e = .ok () t) : RansEncInv p t := by
  obtain ⟨hq, hlen, hsink⟩ := h
  rcases enqueue_cases p s prob e with ⟨-, h'⟩ | ⟨hfull, h'⟩ <;> rw [ht] at h' <;> cases h'
  refine ⟨fun sp hsp => ?_, fun n hn => ?_, hsink⟩
  · rcases List.mem_append.mp hsp with hsp | hsp
    · exact hq sp hsp
    · rw [List.mem_singleton.mp hsp]
      exact hprob
  · have hle := hlen n hn
    have hne : e.ransEnc.queue.length ≠ n := fun hc => hfull (by rw [hc]; exact hn)
    rw [Engine.setRansEnc_ransEnc, List.length_append, List.length_singleton]
    omega

/-- The probability of a rANS context is in 1 .. 225. -/
theorem ransCtx_bounds {p : Params} {e : Engine} (h : CtxInv p e) (hf : e.fam = .rans) (c : Nat) :
    1 ≤ (ctxGet e c).toNat ∧ (ctxGet e c).toNat ≤ 225 := by
  have := ctxReachable_ctxGet h c
  rw [hf] at this
  exact of_decide_eq_true this

/-! ### The commands -/

/-- A rANS command after which an encoder session is open leaves a good queue. -/
theorem ransEncInv_command {p : Params} {e t : Engine} {i : Instr} {a : Reply} (hf : i.family = .rans)
    (hl : legalNow e i.family i.op = true) (hctx : CtxInv p e) (h : Encoding .rans e → RansEncInv p e)
    (hb : instrBody i p e = .ok a t) (ht : t.phase = .enc) : RansEncInv p t := by
  rcases encoding_cases hl hb ht with hop | ⟨henc, hop⟩
  · cases i with
    | ransOpenEnc => cases hb; exact ⟨nofun, fun _ _ => Nat.zero_le _, rfl⟩
    | _ => cases hf <;> cases hop
  · rw [hf] at henc
    have hinv := h henc
    rcases hop with hop | hop | hop | ⟨m, rfl⟩
    · cases i with
      | ransPut b c =>
        obtain ⟨_, e₁, hq, hb⟩ := andThen_eq_ok.mp hb
        have hinv₁ := ransEncInv_enqueue hinv (ransCtx_bounds hctx henc.2 c) hq
        cases hb
        exact hinv₁
      | _ => cases hf <;> cases hop
    · cases i with
      | ransPutBypass b =>
        obtain ⟨_, e₁, hq, hb⟩ := andThen_eq_ok.mp hb
        have hinv₁ := ransEncInv_enqueue hinv (by decide) hq
        cases hb
        exact hinv₁
      | _ => cases hf <;> cases hop
    · cases i <;> cases hf <;> cases hop
    · exact hinv

/-- A rANS command after which a decoder session is open leaves the cursor byte-aligned. -/
theorem ransDec_aligned_command {p : Params} {e t : Engine} {i : Instr} {a : Reply} (hf : i.family = .rans)
    (hl : legalNow e i.family i.op = true) (h : Decoding .rans e → e.bitpos % 8 = 0)
    (hb : instrBody i p e = .ok a t) (ht : t.phase = .dec) : t.bitpos % 8 = 0 := by
  rcases decoding_cases hl hb ht with hop | ⟨hdec, hop⟩
  · cases i with
    | ransOpenDec eof =>
      obtain ⟨_, e₁, hs, hb⟩ := andThen_eq_ok.mp hb
      have hpos := ransSeed_bitpos hs
      cases hb
      rw [hpos]
      exact Nat.mul_mod_right 8 4
    | _ => cases hf <;> cases hop
  · rw [hf] at hdec
    have hpos := h hdec
    rcases hop with hop | hop | hop | ⟨m, rfl⟩
    · cases i with
      | ransGet c =>
        obtain ⟨_, e₁, hq, hb⟩ := andThen_eq_ok.mp hb
        have hpos₁ := (decodeSym_bitpos hq).trans hpos
        cases hb
        exact hpos₁
      | _ => cases hf <;> cases hop
    · cases i with
      | ransGetBypass =>
        obtain ⟨_, e₁, hq, hb⟩ := andThen_eq_ok.mp hb
        have hpos₁ := (decodeSym_bitpos hq).trans hpos
        cases hb
        exact hpos₁
      | _ => cases hf <;> cases hop
    · cases i <;> cases hf <;> cases hop
    · exact hpos

/-- Settles O52: the commands that keep a rANS session open append a context's probability to the queue, or move the
cursor by whole bytes. -/
theorem stepKeepsRans : Obligations.StepKeepsRans := by
  intro s t hs h
  refine step_keeps
    (P := fun p e => CtxInv p e ∧ (Encoding .rans e → RansEncInv p e) ∧ (Decoding .rans e → e.bitpos % 8 = 0))
    (Q := fun p e => (Encoding .rans e → RansEncInv p e) ∧ (Decoding .rans e → e.bitpos % 8 = 0))
    (fun _ _ h => h.2) (fun _ _ _ h => h.2) (fun _ _ _ _ _ _ => ⟨(nomatch ·.1), (nomatch ·.1)⟩) ?_ hs h
  rintro p e i - hc ⟨hctx, henc, hdec⟩
  obtain ⟨hl, -, -⟩ := checkCommand_eq_ok.mp hc
  refine ⟨fun ⟨hph, hfam⟩ => ?_, fun ⟨hph, hfam⟩ => ?_⟩
  · obtain ⟨hf, a, t, hb, hs⟩ := settle_open hc hfam (by rw [hph]; nofun)
    rw [hs] at hph ⊢
    have hinv := ransEncInv_command hf hl hctx henc hb hph
    exact hinv
  · obtain ⟨hf, a, t, hb, hs⟩ := settle_open hc hfam (by rw [hph]; nofun)
    rw [hs] at hph ⊢
    have hpos := ransDec_aligned_command hf hl hdec hb hph
    exact hpos

end Sys2Proof.Machine
end

section
/-! SUPPORT. The Fpaq0 interval: the split of an interval, the renormalization that makes its top bytes differ within four
passes, and FPAQ0P sessions along a run: the lanes' intervals and the slot buffer. -/

namespace Sys2Proof.Machine

open Sys2Proof

/-! ### Words -/

theorem topByte_toNat (v : Word) : (topByte v).toNat = v.toNat / 2 ^ 24 := by
  have := v.isLt
  rw [topByte, BitVec.extractLsb'_toNat, Nat.shiftRight_eq_div_pow]
  omega

theorem lowShift_toNat (v : Word) : (lowShift v).toNat = v.toNat * 256 % 2 ^ 32 := by
  rw [lowShift, BitVec.toNat_shiftLeft, Nat.shiftLeft_eq]

theorem highShift_toNat (v : Word) : (highShift v).toNat = v.toNat * 256 % 2 ^ 32 + 255 := by
  have hv : v.toNat <<< 8 % 2 ^ 32 = (v.toNat % 2 ^ 24) <<< 8 := by
    simp only [Nat.shiftLeft_eq]
    omega
  have h255 : (255 : Word).toNat = 255 := rfl
  rw [highShift, BitVec.toNat_or, BitVec.toNat_shiftLeft, hv, h255, ← Nat.shiftLeft_add_eq_or_of_lt (by decide),
    ← hv, Nat.shiftLeft_eq]

/-- A byte shifted into a word (R314, R316). -/
theorem shiftInByte_toNat (v : Word) (b : Byte) : (shiftInByte v b).toNat = v.toNat * 256 % 2 ^ 32 + b.toNat := by
  have hv : v.toNat <<< 8 % 2 ^ 32 = (v.toNat % 2 ^ 24) <<< 8 := by
    simp only [Nat.shiftLeft_eq]
    omega
  have hb : (b.setWidth 32).toNat = b.toNat := by
    have := b.isLt
    rw [BitVec.toNat_setWidth]
    omega
  rw [shiftInByte, BitVec.toNat_or, BitVec.toNat_shiftLeft, hv, hb, ← Nat.shiftLeft_add_eq_or_of_lt b.isLt,
    ← hv, Nat.shiftLeft_eq]

/-! ### Intervals -/

/-- `Mid` lies inside a proper interval, and is computed without overflow (R300). -/
theorem fpaq0Mid_toNat {lo hi : Word} (h : lo.toNat < hi.toNat) (p : Byte) :
    (fpaq0Mid lo hi p).toNat = lo.toNat + (hi.toNat - lo.toNat) / 256 * p.toNat ∧
    lo.toNat ≤ (fpaq0Mid lo hi p).toNat ∧ (fpaq0Mid lo hi p).toNat < hi.toNat := by
  have hp : p.toNat ≤ 255 := Nat.le_of_lt_succ p.isLt
  have hhi := hi.isLt
  have hmul : (hi.toNat - lo.toNat) / 256 * p.toNat ≤ (hi.toNat - lo.toNat) / 256 * 255 := Nat.mul_le_mul_left _ hp
  rw [fpaq0Mid, BitVec.toNat_ofNat, Nat.mod_eq_of_lt (by omega)]
  omega

/-- An interval whose top bytes differ is proper. -/
theorem IntervalInv.lt {low high : Word} (h : IntervalInv low high) : low.toNat < high.toNat :=
  lt_of_le_of_ne h.1 fun heq => h.2 (by rw [BitVec.eq_of_toNat_eq heq])

/-- An interval in the renormalization loop after `k` passes: `k` bytes of zeros have come into `low`, and of ones into
`high` (R303). -/
def IntervalPass (k : Nat) (low high : Word) : Prop :=
  low.toNat ≤ high.toNat ∧ low.toNat % 256 ^ k = 0 ∧ high.toNat % 256 ^ k + 1 = 256 ^ k

theorem intervalPass_zero {low high : Word} (h : low.toNat ≤ high.toNat) : IntervalPass 0 low high :=
  ⟨h, Nat.mod_one _, by omega⟩

/-- A pass of the loop (R303). -/
theorem intervalPass_succ {k : Nat} {low high : Word} (hk : k < 4) (h : IntervalPass k low high)
    (ht : topByte low = topByte high) : IntervalPass (k + 1) (lowShift low) (highShift high) := by
  obtain ⟨hle, hlow, hhigh⟩ := h
  have htop := congrArg BitVec.toNat ht
  rw [topByte_toNat, topByte_toNat] at htop
  rw [IntervalPass, lowShift_toNat, highShift_toNat]
  interval_cases k <;> norm_num at hlow hhigh ⊢ <;> omega

/-- After four passes the loop has ended. -/
theorem intervalPass_four {low high : Word} (h : IntervalPass 4 low high) : topByte low ≠ topByte high := by
  obtain ⟨-, hlow, hhigh⟩ := h
  intro ht
  have htop := congrArg BitVec.toNat ht
  rw [topByte_toNat, topByte_toNat] at htop
  have hl := low.isLt
  have hh := high.isLt
  omega

/-- The loop ends with a good interval where the top bytes differ, and after four passes they do. -/
theorem intervalInv_of_pass {k : Nat} {low high : Word} (h : IntervalPass k low high)
    (ht : topByte low ≠ topByte high ∨ k = 4) : IntervalInv low high := by
  refine ⟨h.1, ht.elim id fun hk => ?_⟩
  subst hk
  exact intervalPass_four h

/-- Either part of a split interval starts the loop (R301, R316). -/
theorem intervalPass_split {low high : Word} (h : IntervalInv low high) (p : Byte) (b : Bool) :
    IntervalPass 0 (if b then fpaq0Mid low high p + 1 else low) (if b then high else fpaq0Mid low high p) := by
  obtain ⟨-, hle, hlt⟩ := fpaq0Mid_toNat h.lt p
  have hhi := high.isLt
  cases b
  · exact intervalPass_zero hle
  · refine intervalPass_zero ?_
    have hone : (1 : Word).toNat = 1 := rfl
    simp only [if_true, BitVec.toNat_add, hone]
    omega

end Sys2Proof.Machine
end

section
/-! SUPPORT. FPAQ0P sessions along a run: the registers of each lane, the slot buffer and the lanes' counters. -/

namespace Sys2Proof.Machine

open Sys2Proof

/-! ### The registers of a lane -/

/-- The registers of encoder lane `j` after those of lane `i` were replaced. -/
theorem laneEnc_setLaneEnc {e : Engine} {i : Nat} (hi : i < e.lanesEnc.length) (j : Nat) (r : LaneEnc) :
    laneEnc (setLaneEnc e i r) j = if j = i then r else laneEnc e j := by
  simp only [laneEnc, setLaneEnc, Engine.setLanesEnc, List.getD_eq_getElem?_getD, List.getElem?_set]
  by_cases h : i = j
  · simp [h.symm, hi]
  · simp [h, Ne.symm h]

/-- The registers of decoder lane `j` after those of lane `i` were replaced. -/
theorem laneDec_setLaneDec {e : Engine} {i : Nat} (hi : i < e.lanesDec.length) (j : Nat) (r : LaneDec) :
    laneDec (setLaneDec e i r) j = if j = i then r else laneDec e j := by
  simp only [laneDec, setLaneDec, Engine.setLanesDec, List.getD_eq_getElem?_getD, List.getElem?_set]
  by_cases h : i = j
  · simp [h.symm, hi]
  · simp [h, Ne.symm h]

/-- The last replacement of a lane's registers counts. -/
theorem setLaneDec_setLaneDec (e : Engine) (i : Nat) (r r' : LaneDec) :
    setLaneDec (setLaneDec e i r) i r' = setLaneDec e i r' := by
  simp [setLaneDec, Engine.setLanesDec]

@[simp] theorem setLaneEnc_length (e : Engine) (i : Nat) (r : LaneEnc) :
    (setLaneEnc e i r).lanesEnc.length = e.lanesEnc.length := List.length_set

@[simp] theorem setLaneDec_length (e : Engine) (i : Nat) (r : LaneDec) :
    (setLaneDec e i r).lanesDec.length = e.lanesDec.length := List.length_set

/-- What holds of every element of a list, said of its positions. -/
theorem forall_mem_iff_getD {α : Type} {l : List α} {d : α} {P : α → Prop} :
    (∀ r ∈ l, P r) ↔ ∀ j, j < l.length → P (l.getD j d) := by
  rw [List.forall_mem_iff_getElem]
  refine forall₂_congr fun j hj => ?_
  rw [List.getD_eq_getElem _ _ hj]

/-! ### The encoder -/

/-- Every lane has its registers, and the slot buffer is written where the lanes' counters say (R46, R80, R321). -/
structure SlotsInStep (e : Engine) : Prop where
  length : e.lanesEnc.length = e.laneCount
  wf : Memory.wf none e.slots
  written : ∀ a, (Memory.lookup a e.slots).isSome = true ↔ a / e.laneCount < (laneEnc e (a % e.laneCount)).k

/-- The FPAQ0P encoder's invariant, lane by lane. -/
theorem lanesEncInv_iff {e : Engine} :
    LanesEncInv e ↔ SlotsInStep e ∧ ∀ j, j < e.laneCount → IntervalInv (laneEnc e j).low (laneEnc e j).high := by
  refine ⟨fun ⟨hlen, hint, hwf, hwr⟩ => ⟨⟨hlen, hwf, hwr⟩, ?_⟩, fun ⟨⟨hlen, hwf, hwr⟩, hint⟩ => ⟨hlen, ?_, hwf, hwr⟩⟩
  · rw [← hlen]
    exact (forall_mem_iff_getD (P := fun r : LaneEnc => IntervalInv r.low r.high)).mp hint
  · rw [← hlen] at hint
    exact (forall_mem_iff_getD (P := fun r : LaneEnc => IntervalInv r.low r.high)).mpr hint

/-- Replacing a lane's interval keeps the slots in step. -/
theorem slotsInStep_setLaneEnc {e : Engine} {i : Nat} {r : LaneEnc} (hi : i < e.laneCount) (h : SlotsInStep e)
    (hk : r.k = (laneEnc e i).k) : SlotsInStep (setLaneEnc e i r) := by
  refine ⟨(setLaneEnc_length e i r).trans h.length, h.wf, fun a => ?_⟩
  have hkey : (laneEnc (setLaneEnc e i r) (a % e.laneCount)).k = (laneEnc e (a % e.laneCount)).k := by
    rw [laneEnc_setLaneEnc (h.length ▸ hi)]
    split
    · next heq => rw [heq, hk]
    · rfl
  exact (h.written a).trans (by rw [← hkey]; exact .rfl)

/-- The registers of the lanes after LaneEmit: lane `i` counts one more byte (R321). -/
theorem laneEnc_laneEmit {e : Engine} {i : Nat} (hi : i < e.lanesEnc.length) (v : Byte) (j : Nat) :
    laneEnc (laneEmit i v e) j = if j = i then { laneEnc e i with k := (laneEnc e i).k + 1 } else laneEnc e j :=
  laneEnc_setLaneEnc (e := slotWrite ((laneEnc e i).k * e.laneCount + i) v e) hi j _

/-- The slots after LaneEmit: the next one of lane `i` is written (R80, R321). -/
theorem slots_laneEmit (i : Nat) (v : Byte) (e : Engine) :
    (laneEmit i v e).slots = Memory.insertCell ((laneEnc e i).k * e.laneCount + i) v e.slots := rfl

/-- LaneEmit keeps the slots in step (R321). -/
theorem slotsInStep_laneEmit {e : Engine} {i : Nat} (v : Byte) (hi : i < e.laneCount) (h : SlotsInStep e) :
    SlotsInStep (laneEmit i v e) := by
  refine ⟨(setLaneEnc_length _ i _).trans h.length, wf_write _ _ h.wf, fun a => ?_⟩
  have hn : 0 < e.laneCount := Nat.zero_lt_of_lt hi
  have hpos : a = (laneEnc e i).k * e.laneCount + i ↔ a / e.laneCount = (laneEnc e i).k ∧ a % e.laneCount = i := by
    rw [Nat.mul_comm]
    refine ⟨?_, fun ⟨hq, hr⟩ => by rw [← hq, ← hr, Nat.div_add_mod]⟩
    rintro rfl
    rw [Nat.mul_add_div hn, Nat.mul_add_mod, Nat.div_eq_of_lt hi, Nat.mod_eq_of_lt hi]
    exact ⟨rfl, rfl⟩
  rw [slots_laneEmit, lookup_insertCell]
  show _ ↔ a / e.laneCount < (laneEnc (laneEmit i v e) (a % e.laneCount)).k
  rw [laneEnc_laneEmit (h.length ▸ hi)]
  by_cases ha : a = (laneEnc e i).k * e.laneCount + i
  · obtain ⟨hq, hr⟩ := hpos.mp ha
    rw [if_pos ha, if_pos hr, hq]
    exact iff_of_true rfl (Nat.lt_succ_self _)
  · rw [if_neg ha, h.written a]
    by_cases hr : a % e.laneCount = i
    · have hq : a / e.laneCount ≠ (laneEnc e i).k := fun hq => ha (hpos.mpr ⟨hq, hr⟩)
      rw [if_pos hr, hr]
      show _ ↔ _ < (laneEnc e i).k + 1
      omega
    · rw [if_neg hr]

/-- The encoder in the renormalization loop of lane `i` after `k` passes. -/
structure LaneEncPass (i k : Nat) (e : Engine) : Prop where
  slots : SlotsInStep e
  others : ∀ j, j < e.laneCount → j ≠ i → IntervalInv (laneEnc e j).low (laneEnc e j).high
  pass : IntervalPass k (laneEnc e i).low (laneEnc e i).high

/-- The loop is left with a good interval in every lane. -/
theorem lanesEncInv_of_pass {i k : Nat} {e : Engine} (h : LaneEncPass i k e)
    (ht : topByte (laneEnc e i).low ≠ topByte (laneEnc e i).high ∨ k = 4) : LanesEncInv e := by
  refine lanesEncInv_iff.mpr ⟨h.slots, fun j hj => ?_⟩
  by_cases hji : j = i
  · rw [hji]
    exact intervalInv_of_pass h.pass ht
  · exact h.others j hj hji

/-- A pass of the loop of LaneEncode (R322). -/
theorem laneEncPass_succ {i k : Nat} {e : Engine} (hi : i < e.laneCount) (hk : k < 4) (h : LaneEncPass i k e)
    (ht : topByte (laneEnc e i).low = topByte (laneEnc e i).high) :
    let e₁ := laneEmit i (topByte (laneEnc e i).high) e
    LaneEncPass i (k + 1)
      (setLaneEnc e₁ i { laneEnc e₁ i with low := lowShift (laneEnc e₁ i).low, high := highShift (laneEnc e₁ i).high }) := by
  intro e₁
  have hlen : i < e.lanesEnc.length := h.slots.length ▸ hi
  have hlen₁ : i < e₁.lanesEnc.length := (setLaneEnc_length _ i _).symm ▸ hlen
  have hsame : (laneEnc e₁ i).low = (laneEnc e i).low ∧ (laneEnc e₁ i).high = (laneEnc e i).high := by
    simp only [e₁, laneEnc_laneEmit hlen, if_true, and_self]
  refine ⟨slotsInStep_setLaneEnc hi (slotsInStep_laneEmit _ hi h.slots) rfl, fun j hj hji => ?_, ?_⟩
  · rw [laneEnc_setLaneEnc hlen₁, if_neg hji, laneEnc_laneEmit hlen, if_neg hji]
    exact h.others j hj hji
  · rw [laneEnc_setLaneEnc hlen₁, if_pos rfl, hsame.1, hsame.2]
    exact intervalPass_succ hk h.pass ht

/-- The loop of LaneEncode ends with the invariant (R322). -/
theorem lanesEncInv_laneRenormE {i n k : Nat} {e : Engine} (hnk : n + k = 4) (hi : i < e.laneCount)
    (h : LaneEncPass i k e) : LanesEncInv (laneRenormE i n e) := by
  induction n generalizing k e with
  | zero => exact lanesEncInv_of_pass h (.inr (by omega))
  | succ n ih =>
    simp only [laneRenormE]
    split
    · next ht => exact ih (k := k + 1) (by omega) hi (laneEncPass_succ hi (by omega) h ht)
    · next ht => exact lanesEncInv_of_pass h (.inl ht)

/-- LaneEncode keeps the invariant of the FPAQ0P encoder (R322). -/
theorem lanesEncInv_laneEncode {i : Nat} {e : Engine} (b : Bool) (prob : Byte) (hi : i < e.laneCount)
    (h : LanesEncInv e) : LanesEncInv (laneEncode i b prob e) := by
  obtain ⟨hslots, hint⟩ := lanesEncInv_iff.mp h
  have hlen : i < e.lanesEnc.length := hslots.length ▸ hi
  have hk : (laneEncodeBit b prob (laneEnc e i)).k = (laneEnc e i).k := by cases b <;> rfl
  refine lanesEncInv_laneRenormE (k := 0) rfl hi ⟨slotsInStep_setLaneEnc hi hslots hk, fun j hj hji => ?_, ?_⟩
  · rw [laneEnc_setLaneEnc hlen, if_neg hji]
    exact hint j hj
  · rw [laneEnc_setLaneEnc hlen, if_pos rfl]
    have hs := intervalPass_split (hint i hi) prob b
    cases b <;> exact hs

/-- OPEN_ENC of FPAQ0P starts with whole intervals and empty slots (R323). -/
theorem lanesEncInv_open {e : Engine} {n : Nat} (hlanes : e.lanesEnc = List.replicate n ⟨0, 0xFFFFFFFF, 0⟩)
    (hn : e.laneCount = n) (hslots : e.slots = []) : LanesEncInv e := by
  have hk : ∀ j, (laneEnc e j).k = 0 := fun j => by
    rw [laneEnc, hlanes, List.getD_eq_getElem?_getD, List.getElem?_replicate]
    split <;> rfl
  refine ⟨by rw [hlanes, hn, List.length_replicate], fun r hr => ?_, hslots ▸ wf_nil none, fun a => ?_⟩
  · rw [hlanes] at hr
    rw [List.eq_of_mem_replicate hr]
    decide
  · rw [hslots, hk]
    exact iff_of_false (by simp [Memory.lookup]) (Nat.not_lt_zero _)

/-! ### The decoder -/

/-- SlotRead gives the byte of the input at its position, 0 past the end, or raises INPUT_EXHAUSTED (R81). -/
theorem slotRead_cases (pos : Nat) (e : Engine) :
    slotRead pos e = .ok (e.src.getD pos 0) e ∨ slotRead pos e = .raised .inputExhausted e := by
  by_cases h : pos < e.src.length ∨ e.eof = false
  · exact .inl (slotRead_ok h)
  · obtain ⟨hlt, heof⟩ := not_or.mp h
    exact .inr (by rw [slotRead, if_neg hlt, if_pos (by simpa using heof)])

/-- The registers of a lane after a refill with a byte (R330, R331). -/
def LaneDec.refill (r : LaneDec) (v : Byte) : LaneDec := { r with value := shiftInByte r.value v, k := r.k + 1 }

/-- A refill of a lane that goes on (R328, R330). -/
theorem laneRefill_of_slotRead {e : Engine} {i : Nat} {v : Byte} (hi : i < e.lanesDec.length)
    (h : slotRead ((laneDec e i).k * e.laneCount + i) e = .ok v e) :
    laneRefill i e = .ok () (setLaneDec e i ((laneDec e i).refill v)) := by
  simp only [laneRefill, laneRead, h, andThen_ok, setLaneDec_setLaneDec, laneDec_setLaneDec hi, if_true]
  rfl

/-- A refill of a lane shifts the next byte of the lane into its value, or raises INPUT_EXHAUSTED (R328, R330). -/
theorem laneRefill_cases {e : Engine} {i : Nat} (hi : i < e.lanesDec.length) :
    laneRefill i e = .ok () (setLaneDec e i
      ((laneDec e i).refill (e.src.getD ((laneDec e i).k * e.laneCount + i) 0))) ∨
    laneRefill i e = .raised .inputExhausted e := by
  rcases slotRead_cases ((laneDec e i).k * e.laneCount + i) e with h | h
  · exact .inl (laneRefill_of_slotRead hi h)
  · exact .inr (by simp only [laneRefill, laneRead, h, andThen_raised])

/-- The FPAQ0P decoder's invariant, lane by lane. -/
theorem lanesDecInv_iff {e : Engine} :
    LanesDecInv e ↔ e.lanesDec.length = e.laneCount ∧
      ∀ j, j < e.laneCount → IntervalInv (laneDec e j).low (laneDec e j).high := by
  refine and_congr_right fun hlen => ?_
  rw [← hlen]
  exact forall_mem_iff_getD (P := fun r : LaneDec => IntervalInv r.low r.high)

/-- The decoder in the renormalization loop of lane `i` after `k` passes. -/
structure LaneDecPass (i k : Nat) (e : Engine) : Prop where
  length : e.lanesDec.length = e.laneCount
  others : ∀ j, j < e.laneCount → j ≠ i → IntervalInv (laneDec e j).low (laneDec e j).high
  pass : IntervalPass k (laneDec e i).low (laneDec e i).high

/-- The loop is left with a good interval in every lane. -/
theorem lanesDecInv_of_pass {i k : Nat} {e : Engine} (h : LaneDecPass i k e)
    (ht : topByte (laneDec e i).low ≠ topByte (laneDec e i).high ∨ k = 4) : LanesDecInv e := by
  refine lanesDecInv_iff.mpr ⟨h.length, fun j hj => ?_⟩
  by_cases hji : j = i
  · rw [hji]
    exact intervalInv_of_pass h.pass ht
  · exact h.others j hj hji

/-- Replacing the registers of lane `i` leaves the other lanes in the loop as they were. -/
theorem laneDecPass_setLaneDec {i k : Nat} {e : Engine} {r : LaneDec} (hi : i < e.laneCount)
    (hlen : e.lanesDec.length = e.laneCount)
    (hothers : ∀ j, j < e.laneCount → j ≠ i → IntervalInv (laneDec e j).low (laneDec e j).high)
    (hr : IntervalPass k r.low r.high) : LaneDecPass i k (setLaneDec e i r) := by
  have hlt : i < e.lanesDec.length := hlen ▸ hi
  refine ⟨(setLaneDec_length e i r).trans hlen, fun j hj hji => ?_, ?_⟩
  · rw [laneDec_setLaneDec hlt, if_neg hji]
    exact hothers j hj hji
  · rw [laneDec_setLaneDec hlt, if_pos rfl]
    exact hr

/-- A refill stays in the loop, where it goes on. -/
theorem laneDecPass_laneRefill {i k : Nat} {e t : Engine} (hi : i < e.laneCount) (h : LaneDecPass i k e)
    (ht : laneRefill i e = .ok () t) : LaneDecPass i k t ∧ t.laneCount = e.laneCount := by
  rcases laneRefill_cases (h.length.symm ▸ hi) with h' | h' <;> rw [ht] at h' <;> cases h'
  exact ⟨laneDecPass_setLaneDec hi h.length h.others h.pass, rfl⟩

/-- The loop of LaneDecode ends with the invariant, where it goes on (R331). -/
theorem lanesDecInv_laneRenormD {i n k : Nat} {e t : Engine} (hnk : n + k = 4) (hi : i < e.laneCount)
    (h : LaneDecPass i k e) (ht : laneRenormD i n e = .ok () t) : LanesDecInv t := by
  induction n generalizing k e with
  | zero =>
    cases ht
    exact lanesDecInv_of_pass h (.inr (by omega))
  | succ n ih =>
    simp only [laneRenormD] at ht
    split at ht
    · next htop =>
      obtain ⟨_, e₁, hrefill, ht⟩ := andThen_eq_ok.mp ht
      have hshift := laneDecPass_setLaneDec (k := k + 1)
        (r := { laneDec e i with low := lowShift (laneDec e i).low, high := highShift (laneDec e i).high })
        hi h.length h.others (intervalPass_succ (by omega) h.pass htop)
      obtain ⟨h₁, hn₁⟩ := laneDecPass_laneRefill (e := setLaneDec e i _) hi hshift hrefill
      exact ih (by omega) (hn₁ ▸ hi) h₁ ht
    · next htop =>
      cases ht
      exact lanesDecInv_of_pass h (.inl htop)

/-- LaneDecode keeps the invariant of the FPAQ0P decoder, where it goes on (R331). -/
theorem lanesDecInv_laneDecode {i : Nat} {b : Bool} {prob : Byte} {e t : Engine} (hi : i < e.laneCount)
    (h : LanesDecInv e) (ht : laneDecode i prob e = .ok b t) : LanesDecInv t := by
  obtain ⟨hlen, hint⟩ := lanesDecInv_iff.mp h
  obtain ⟨_, e₁, hr, ht⟩ := andThen_eq_ok.mp ht
  cases ht
  refine lanesDecInv_laneRenormD (e := setLaneDec e i _) (k := 0) rfl hi
    (laneDecPass_setLaneDec hi hlen (fun j hj _ => hint j hj) ?_) hr
  unfold laneDecodeInterval
  dsimp only
  split
  · exact intervalPass_split (hint i hi) prob false
  · exact intervalPass_split (hint i hi) prob true

/-- A refill keeps the invariant of the FPAQ0P decoder, where it goes on. -/
theorem lanesDecInv_laneRefill {i : Nat} {e t : Engine} (hi : i < e.laneCount) (h : LanesDecInv e)
    (ht : laneRefill i e = .ok () t) : LanesDecInv t ∧ t.laneCount = e.laneCount := by
  obtain ⟨hlen, hint⟩ := lanesDecInv_iff.mp h
  have hpass : LaneDecPass i 0 e := ⟨hlen, fun j hj _ => hint j hj, intervalPass_zero (hint i hi).1⟩
  have htop : topByte (laneDec t i).low ≠ topByte (laneDec t i).high := by
    have hlt : i < e.lanesDec.length := hlen.symm ▸ hi
    rcases laneRefill_cases hlt with h' | h' <;> rw [ht] at h' <;> cases h'
    rw [laneDec_setLaneDec hlt, if_pos rfl]
    exact (hint i hi).2
  obtain ⟨h₁, hn₁⟩ := laneDecPass_laneRefill hi hpass ht
  exact ⟨lanesDecInv_of_pass h₁ (.inl htop), hn₁⟩

theorem lanesDecInv_laneSeed {i n : Nat} {e t : Engine} (hi : i < e.laneCount) (h : LanesDecInv e)
    (ht : laneSeed i n e = .ok () t) : LanesDecInv t ∧ t.laneCount = e.laneCount := by
  induction n generalizing e with
  | zero =>
    cases ht
    exact ⟨h, rfl⟩
  | succ n ih =>
    obtain ⟨_, e₁, hr, ht⟩ := andThen_eq_ok.mp ht
    obtain ⟨h₁, hn₁⟩ := lanesDecInv_laneRefill hi h hr
    obtain ⟨h₂, hn₂⟩ := ih (hn₁ ▸ hi) h₁ ht
    exact ⟨h₂, hn₂.trans hn₁⟩

/-- The seeding of the lanes keeps the invariant of the FPAQ0P decoder, where it goes on (R330). -/
theorem lanesDecInv_seedLanes {is : List Nat} {e t : Engine} (his : ∀ i ∈ is, i < e.laneCount) (h : LanesDecInv e)
    (ht : seedLanes is e = .ok () t) : LanesDecInv t := by
  induction is generalizing e with
  | nil =>
    cases ht
    exact h
  | cons i is ih =>
    obtain ⟨_, e₁, hr, ht⟩ := andThen_eq_ok.mp ht
    obtain ⟨h₁, hn₁⟩ := lanesDecInv_laneSeed (his i List.mem_cons_self) h hr
    exact ih (fun j hj => hn₁ ▸ his j (List.mem_cons_of_mem i hj)) h₁ ht

/-! ### The commands -/

/-- An FPAQ0P command after which an encoder session is open leaves good lanes. -/
theorem lanesEncInv_command {p : Params} {e t : Engine} {i : Instr} {a : Reply} (hf : i.family = .fpaq0p)
    (hc : checkCommand p e i.family i.op (laneOperand i) (ctxOperand i) = .ok)
    (h : Encoding .fpaq0p e → LanesEncInv e) (hb : instrBody i p e = .ok a t) (ht : t.phase = .enc) : LanesEncInv t := by
  obtain ⟨hl, hlane, -⟩ := checkCommand_eq_ok.mp hc
  rcases encoding_cases hl hb ht with hop | ⟨henc, hop⟩
  · cases i with
    | fpaq0pOpenEnc n => cases hb; exact lanesEncInv_open rfl rfl rfl
    | _ => cases hf <;> cases hop
  · rw [hf] at henc
    have hinv := h henc
    rcases hop with hop | hop | hop | ⟨m, rfl⟩
    · cases i with
      | fpaq0pPut l b c =>
        have hinv₁ := lanesEncInv_laneEncode b (ctxGet e c) (hlane l rfl) hinv
        cases hb
        exact hinv₁
      | _ => cases hf <;> cases hop
    · cases i with
      | fpaq0pPutBypass l b =>
        cases hb
        exact lanesEncInv_laneEncode b 128 (hlane l rfl) hinv
      | _ => cases hf <;> cases hop
    · cases i <;> cases hf <;> cases hop
    · exact hinv

/-- An FPAQ0P command after which a decoder session is open leaves good lanes. -/
theorem lanesDecInv_command {p : Params} {e t : Engine} {i : Instr} {a : Reply} (hf : i.family = .fpaq0p)
    (hc : checkCommand p e i.family i.op (laneOperand i) (ctxOperand i) = .ok)
    (h : Decoding .fpaq0p e → LanesDecInv e) (hb : instrBody i p e = .ok a t) (ht : t.phase = .dec) : LanesDecInv t := by
  obtain ⟨hl, hlane, -⟩ := checkCommand_eq_ok.mp hc
  rcases decoding_cases hl hb ht with hop | ⟨hdec, hop⟩
  · cases i with
    | fpaq0pOpenDec n eof =>
      obtain ⟨_, e₁, hs, hb⟩ := andThen_eq_ok.mp hb
      have hinv : LanesDecInv ((openDecoder .fpaq0p n eof e).setLanesDec (List.replicate n ⟨0, 0xFFFFFFFF, 0, 0⟩)) :=
        ⟨List.length_replicate, fun r hr => by rw [List.eq_of_mem_replicate hr]; decide⟩
      have hinv₁ := lanesDecInv_seedLanes (fun i hi => List.mem_range.mp hi) hinv hs
      cases hb
      exact hinv₁
    | _ => cases hf <;> cases hop
  · rw [hf] at hdec
    have hinv := h hdec
    rcases hop with hop | hop | hop | ⟨m, rfl⟩
    · cases i with
      | fpaq0pGet l c =>
        obtain ⟨_, e₁, hq, hb⟩ := andThen_eq_ok.mp hb
        have hinv₁ := lanesDecInv_laneDecode (hlane l rfl) hinv hq
        cases hb
        exact hinv₁
      | _ => cases hf <;> cases hop
    · cases i with
      | fpaq0pGetBypass l =>
        obtain ⟨_, e₁, hq, hb⟩ := andThen_eq_ok.mp hb
        have hinv₁ := lanesDecInv_laneDecode (hlane l rfl) hinv hq
        cases hb
        exact hinv₁
      | _ => cases hf <;> cases hop
    · cases i <;> cases hf <;> cases hop
    · exact hinv

/-- Settles O54: a PUT writes its lane's next slots and renormalizes its interval, a GET renormalizes its lane's interval,
and no other command of an open session touches the lanes. -/
theorem stepKeepsLanes : Obligations.StepKeepsLanes := by
  intro s t hs h
  refine step_keeps
    (P := fun _ e => SessionInv e ∧ (Encoding .fpaq0p e → LanesEncInv e) ∧ (Decoding .fpaq0p e → LanesDecInv e))
    (Q := fun _ e => (Encoding .fpaq0p e → LanesEncInv e) ∧ (Decoding .fpaq0p e → LanesDecInv e))
    (fun _ _ h => h.2) (fun _ _ _ h => h.2) (fun _ _ _ _ _ _ => ⟨(nomatch ·.1), (nomatch ·.1)⟩) ?_ hs h
  rintro p e i - hc ⟨-, henc, hdec⟩
  refine ⟨fun ⟨hph, hfam⟩ => ?_, fun ⟨hph, hfam⟩ => ?_⟩
  · obtain ⟨hf, a, t, hb, hs⟩ := settle_open hc hfam (by rw [hph]; nofun)
    rw [hs] at hph ⊢
    have hinv := lanesEncInv_command hf hc henc hb hph
    exact hinv
  · obtain ⟨hf, a, t, hb, hs⟩ := settle_open hc hfam (by rw [hph]; nofun)
    rw [hs] at hph ⊢
    have hinv := lanesDecInv_command hf hc hdec hb hph
    exact hinv

end Sys2Proof.Machine
end

section
/-! SUPPORT. What an OPEN leaves: the state of every encoder, and the seed that every decoder reads from its input. -/

namespace Sys2Proof.Machine

open Sys2Proof

/-! ### An OPEN that completes -/

/-- An OPEN is legal in every phase (R130). -/
theorem checkCommand_open {i : Instr} (hi : IsOpen i) (p : Params) (e : Engine) :
    checkCommand p e i.family i.op (laneOperand i) (ctxOperand i) = .ok := by
  rw [checkCommand_eq_ok]
  rcases hi with hi | hi <;> cases i <;> cases hi <;> exact ⟨rfl, nofun, nofun⟩

/-- An OPEN whose rule goes on completes. -/
theorem open_completes {i : Instr} (hi : IsOpen i) {s : State} {e u : Engine} {r : Reply} (he : s.engine? = some e)
    (hb : instrBody i s.params e = .ok r u) : Completes i s e r (completeCmd (opBits i.op) r u) := by
  obtain ⟨hidx, hresp⟩ := instrBody_reports i s.params e
  rw [hb] at hidx hresp
  refine ⟨?_, rfl, congrArg (· + 1) hidx, congrArg (List.cons _) hresp⟩
  rw [exec_eq_commandEffect he, commandEffect_legal (checkCommand_open hi _ e), hb, settle_ok]

/-- With no entry listed every context is initial. -/
theorem ctxGet_of_ctx_nil {e : Engine} (h : e.ctx = []) (c : Nat) : ctxGet e c = initialCtx e.fam := by
  rw [ctxGet, h, read_nil, Option.getD_some]

/-- Settles O14: OPEN_ENC of each family, field by field. -/
theorem openEncoderState : Obligations.OpenEncoderState := by
  intro f n s e he _ _
  have hi : IsOpen (openEncInstr f n) := by cases f <;> exact .inl rfl
  cases f <;>
    refine ⟨_, open_completes hi he rfl, rfl, rfl, rfl, rfl, ?_, ctxGet_of_ctx_nil rfl, rfl, fun _ => rfl, ?_⟩ <;>
    simp [completeCmd_eq, openEncoder, openSession_eq]

/-! ### Bits of the input -/

/-- A bit shifted into a register of at least one bit. -/
theorem shiftIn_toNat {n : Nat} (v : BitVec (n + 1)) (b : Bool) :
    (shiftIn v b).toNat = (2 * v.toNat + b.toNat) % 2 ^ (n + 1) := by
  have hb : b.toNat < 2 ^ 1 := Bool.toNat_lt b
  have hpow : 2 ^ (n + 1) = 2 * 2 ^ n := by rw [Nat.pow_succ, Nat.mul_comm]
  have hpos : 0 < 2 ^ n := Nat.two_pow_pos n
  have hv : v.toNat <<< 1 % 2 ^ (n + 1) = (v.toNat % 2 ^ n) <<< 1 := by
    rw [Nat.shiftLeft_eq, Nat.shiftLeft_eq, Nat.mul_comm, Nat.pow_one, hpow, Nat.mul_mod_mul_left, Nat.mul_comm]
  have hbn : b.toNat % 2 ^ (n + 1) = b.toNat := Nat.mod_eq_of_lt (by omega)
  have hsum : (2 * v.toNat + b.toNat) % (2 * 2 ^ n) = 2 * (v.toNat % 2 ^ n) + b.toNat := by
    have hlt := Nat.mod_lt v.toNat hpos
    rw [Nat.add_mod, Nat.mul_mod_mul_left, Nat.mod_eq_of_lt (a := b.toNat) (by omega), Nat.mod_eq_of_lt (by omega)]
  rw [shiftIn, BitVec.toNat_or, BitVec.toNat_shiftLeft, BitVec.toNat_ofNat, hv, hbn, ← Nat.shiftLeft_add_eq_or_of_lt hb,
    hpow, hsum, Nat.shiftLeft_eq, Nat.pow_one, Nat.mul_comm]

/-- A bit of the input as a number (R70, R77). -/
theorem srcBit_toNat (e : Engine) (pos : Nat) : (srcBit e pos).toNat = inputBit e.src pos := by
  rw [srcBit, BitVec.getLsbD, Nat.toNat_testBit]
  rfl

/-- `n` bits of a sequence shifted into a register, from bit `k` of the sequence on. -/
def shiftInBits {w : Nat} (f : Nat → Bool) : Nat → Nat → BitVec w → BitVec w
  | _, 0, v => v
  | k, n + 1, v => shiftInBits f (k + 1) n (shiftIn v (f k))

theorem inputBit_lt (bytes : List Byte) (pos : Nat) : inputBit bytes pos < 2 := Nat.mod_lt _ (by decide)

/-- `n` bits spell a number below `2^n`. -/
theorem inputBits_lt (bytes : List Byte) (pos n : Nat) : inputBits bytes pos n < 2 ^ n := by
  induction n with
  | zero => exact Nat.one_pos
  | succ n ih =>
    have := inputBit_lt bytes (pos + n)
    rw [inputBits, Nat.pow_succ]
    omega

/-- The first of the bits that spell a number is the most significant. -/
theorem inputBits_succ (bytes : List Byte) (pos n : Nat) :
    inputBits bytes pos (n + 1) = inputBit bytes pos * 2 ^ n + inputBits bytes (pos + 1) n := by
  induction n with
  | zero => simp [inputBits]
  | succ n ih =>
    have hpos : pos + (n + 1) = pos + 1 + n := by omega
    rw [inputBits, ih, inputBits, hpos, Nat.pow_succ]
    ring

/-- `n` bits of the input shifted into a register of at least one bit, as a number (R77, R210). -/
theorem shiftInBits_srcBit_toNat {w : Nat} (e : Engine) (k n : Nat) (v : BitVec (w + 1)) :
    (shiftInBits (srcBit e) k n v).toNat = (v.toNat * 2 ^ n + inputBits e.src k n) % 2 ^ (w + 1) := by
  induction n generalizing k v with
  | zero => simp [shiftInBits, inputBits, Nat.mod_eq_of_lt v.isLt]
  | succ n ih =>
    have hsum : v.toNat * 2 ^ (n + 1) + inputBits e.src k (n + 1) =
        (2 * v.toNat + inputBit e.src k) * 2 ^ n + inputBits e.src (k + 1) n := by
      rw [inputBits_succ, Nat.pow_succ]
      ring
    rw [shiftInBits, ih, shiftIn_toNat, srcBit_toNat, hsum]
    exact ((Nat.mod_modEq _ _).mul_right _).add_right _

/-- Up to 32 bits of the input shifted into a word are the number they spell. -/
theorem shiftInBits_word_toNat (e : Engine) (k : Nat) {n : Nat} (hn : n ≤ 32) :
    (shiftInBits (srcBit e) k n (0 : Word)).toNat = inputBits e.src k n := by
  have hlt : inputBits e.src k n < 2 ^ 32 := (inputBits_lt _ _ _).trans_le (Nat.pow_le_pow_right (by decide) hn)
  have h0 : (0 : Word).toNat = 0 := rfl
  rw [shiftInBits_srcBit_toNat, h0, Nat.zero_mul, Nat.zero_add, Nat.mod_eq_of_lt hlt]

/-- Where the input has a bit left, ReadBit goes on and leaves the rest. -/
theorem readBit_of_inputLeft {e : Engine} {n : Nat} (h : InputLeft e (n + 1)) :
    readBit e = .ok (srcBit e e.bitpos) (e.setBitpos (e.bitpos + 1)) ∧ InputLeft (e.setBitpos (e.bitpos + 1)) n := by
  rcases h with h | h | h
  · cases h
  · exact ⟨readBit_ok (.inr h), .inr (.inl h)⟩
  · refine ⟨readBit_ok (.inl (by omega)), .inr (.inr ?_)⟩
    rw [Engine.setBitpos_bitpos, Engine.setBitpos_src]
    omega

theorem readByteLoop_eq {n : Nat} {e : Engine} (v : Byte) (h : InputLeft e n) :
    readByteLoop n v e = .ok (shiftInBits (srcBit e) e.bitpos n v) (e.setBitpos (e.bitpos + n)) := by
  induction n generalizing e v with
  | zero => rfl
  | succ n ih =>
    obtain ⟨hr, hrest⟩ := readBit_of_inputLeft h
    have hpos : e.bitpos + (n + 1) = e.bitpos + 1 + n := by omega
    rw [readByteLoop, hr, andThen_ok, ih _ hrest, hpos]
    rfl

/-- Only the bits shifted in count. -/
theorem shiftInBits_congr {w n : Nat} {f g : Nat → Bool} {k k' : Nat} (v : BitVec w)
    (h : ∀ j, j < n → f (k + j) = g (k' + j)) : shiftInBits f k n v = shiftInBits g k' n v := by
  induction n generalizing k k' v with
  | zero => rfl
  | succ n ih =>
    have h0 : f k = g k' := h 0 (Nat.succ_pos n)
    rw [shiftInBits, shiftInBits, h0]
    refine ih _ fun j hj => ?_
    rw [Nat.add_right_comm k, Nat.add_right_comm k']
    exact h (j + 1) (Nat.succ_lt_succ hj)

/-- The eight bits of a byte, shifted in, are the byte (R78). -/
theorem shiftInBits_byte (e : Engine) (k : Nat) : shiftInBits (srcBit e) (8 * k) 8 0 = e.src.getD k 0 := by
  have hbyte : ∀ x : Byte, shiftInBits (fun j => x.getLsbD (7 - j)) 0 8 0 = x := by decide
  refine (shiftInBits_congr 0 fun j hj => ?_).trans (hbyte (e.src.getD k 0))
  rw [srcBit, Nat.mul_add_div (by decide), Nat.mul_add_mod, Nat.div_eq_of_lt hj, Nat.mod_eq_of_lt hj, Nat.add_zero,
    Nat.zero_add]

/-- The byte read at a byte boundary, where the input has one left (R78). -/
theorem readByte_aligned {e : Engine} {k : Nat} (hk : e.bitpos = 8 * k) (h : k < e.src.length ∨ e.eof = false) :
    readByte e = .ok (e.src.getD k 0) (e.setBitpos (8 * (k + 1))) := by
  have hin : InputLeft e 8 := h.elim (fun h => .inr (.inr (by omega))) fun h => .inr (.inl h)
  rw [readByte, readByteLoop_eq 0 hin, hk, shiftInBits_byte]
  rfl

/-! ### Seeds -/

/-- `n` bytes of a sequence shifted into a word, from byte `k` of the sequence on. -/
def shiftInBytes (f : Nat → Byte) : Nat → Nat → Word → Word
  | _, 0, v => v
  | k, n + 1, v => shiftInBytes f (k + 1) n (shiftInByte v (f k))

/-- Four bytes shifted into a word, the first most significant (R70). -/
theorem shiftInBytes_four (f : Nat → Byte) (k : Nat) (v : Word) :
    (shiftInBytes f k 4 v).toNat =
      (((f k).toNat * 256 + (f (k + 1)).toNat) * 256 + (f (k + 2)).toNat) * 256 + (f (k + 3)).toNat := by
  have h0 := (f k).isLt
  have h1 := (f (k + 1)).isLt
  have h2 := (f (k + 2)).isLt
  have h3 := (f (k + 3)).isLt
  simp only [shiftInBytes, shiftInByte_toNat, Nat.add_assoc, Nat.reduceAdd]
  omega

/-- The first four bytes of an input shifted into a word. -/
theorem shiftInBytes_input (bytes : List Byte) : (shiftInBytes (fun j => bytes.getD j 0) 0 4 0).toNat =
    ((inputByte bytes 0 * 256 + inputByte bytes 1) * 256 + inputByte bytes 2) * 256 + inputByte bytes 3 := by
  rw [shiftInBytes_four]
  rfl

/-- The seeding bits of a CABAC decoder (R210). -/
theorem offsetSeed_eq {n : Nat} {e : Engine} (h : InputLeft e n) :
    offsetSeed n e = .ok () ((e.setBitpos (e.bitpos + n)).setCabacDec
      { e.cabacDec with offset := shiftInBits (srcBit e) e.bitpos n e.cabacDec.offset }) := by
  induction n generalizing e with
  | zero => rfl
  | succ n ih =>
    obtain ⟨hr, hrest⟩ := readBit_of_inputLeft h
    have hpos : e.bitpos + (n + 1) = e.bitpos + 1 + n := by omega
    rw [offsetSeed, offsetShift, hr, andThen_ok, andThen_ok, ih (by exact hrest), hpos]
    rfl

/-- The seeding bytes of a rANS decoder (R282). -/
theorem ransSeed_eq {n k : Nat} {e : Engine} (hk : e.bitpos = 8 * k) (h : e.eof = false ∨ k + n ≤ e.src.length) :
    ransSeed n e = .ok () ((e.setBitpos (8 * (k + n))).setRansDec
      ⟨shiftInBytes (fun j => e.src.getD j 0) k n e.ransDec.x⟩) := by
  induction n generalizing e k with
  | zero => rw [Nat.add_zero, ← hk]; rfl
  | succ n ih =>
    have hpos : k + (n + 1) = k + 1 + n := by omega
    rw [hpos] at h ⊢
    rw [ransSeed, readByte_aligned hk (h.elim .inr fun h => .inl (by omega)), andThen_ok,
      ih (e := (e.setBitpos (8 * (k + 1))).setRansDec _) (k := k + 1) rfl h]
    rfl

/-- The seeding bytes of an Fpaq0 decoder (R314). -/
theorem fpaq0Seed_eq {n k : Nat} {e : Engine} (hk : e.bitpos = 8 * k) (h : e.eof = false ∨ k + n ≤ e.src.length) :
    fpaq0Seed n e = .ok () ((e.setBitpos (8 * (k + n))).setFpaq0Dec
      { e.fpaq0Dec with value := shiftInBytes (fun j => e.src.getD j 0) k n e.fpaq0Dec.value }) := by
  induction n generalizing e k with
  | zero => rw [Nat.add_zero, ← hk]; rfl
  | succ n ih =>
    have hpos : k + (n + 1) = k + 1 + n := by omega
    rw [hpos] at h ⊢
    rw [fpaq0Seed, readByte_aligned hk (h.elim .inr fun h => .inl (by omega)), andThen_ok,
      ih (e := (e.setBitpos (8 * (k + 1))).setFpaq0Dec _) (k := k + 1) rfl h]
    rfl

/-- Byte `j` of lane `i` in the interleaved input of `n` lanes (R328). -/
def laneByte (src : List Byte) (n i j : Nat) : Byte := src.getD (j * n + i) 0

/-- The registers of lane `i` after `n` more of its bytes (R330). -/
def LaneDec.seed (r : LaneDec) (src : List Byte) (lanes i n : Nat) : LaneDec :=
  { r with value := shiftInBytes (laneByte src lanes i) r.k n r.value, k := r.k + n }

/-- The seeding bytes of one lane (R330). -/
theorem laneSeed_eq {n i : Nat} {e : Engine} (hi : i < e.lanesDec.length)
    (h : ∀ j, j < n → ((laneDec e i).k + j) * e.laneCount + i < e.src.length ∨ e.eof = false) :
    laneSeed i n e = .ok () (setLaneDec e i ((laneDec e i).seed e.src e.laneCount i n)) := by
  induction n generalizing e with
  | zero =>
    have hself : setLaneDec e i (laneDec e i) = e := by
      rw [setLaneDec, laneDec, List.getD_eq_getElem _ _ hi, List.set_getElem_self]
      rfl
    exact congrArg (Res.ok ()) hself.symm
  | succ n ih =>
    have h0 := h 0 (by omega)
    rw [Nat.add_zero] at h0
    have hread := laneRefill_of_slotRead hi (slotRead_ok h0)
    have hr := laneDec_setLaneDec hi i ((laneDec e i).refill (e.src.getD ((laneDec e i).k * e.laneCount + i) 0))
    rw [if_pos rfl] at hr
    have hpos : ∀ j, (laneDec e i).k + (j + 1) = (laneDec e i).k + 1 + j := fun j => by omega
    rw [laneSeed, hread, andThen_ok, ih (by rwa [setLaneDec_length]) fun j hj => ?_, hr, setLaneDec_setLaneDec]
    · simp only [LaneDec.seed, hpos n]
      rfl
    · rw [hr]
      have hj := h (j + 1) (by omega)
      rw [hpos] at hj
      exact hj

/-- The seeding of the lanes of a list (R330): each of them reads its bytes, the others stay as they were. -/
theorem seedLanes_eq {is : List Nat} {e : Engine} (hnodup : is.Nodup) (hi : ∀ i ∈ is, i < e.lanesDec.length)
    (h : ∀ i ∈ is, ∀ j, j < 4 → ((laneDec e i).k + j) * e.laneCount + i < e.src.length ∨ e.eof = false) :
    ∃ t, seedLanes is e = .ok () t ∧ LanesDecOnly e t ∧ t.lanesDec.length = e.lanesDec.length ∧
      ∀ j, laneDec t j = if j ∈ is then (laneDec e j).seed e.src e.laneCount j 4 else laneDec e j := by
  induction is generalizing e with
  | nil => exact ⟨e, rfl, .refl e, rfl, fun j => by simp⟩
  | cons i is ih =>
    obtain ⟨hni, hnodup⟩ := List.nodup_cons.mp hnodup
    have hlt := hi i List.mem_cons_self
    have hother : ∀ j ∈ is, laneDec (setLaneDec e i ((laneDec e i).seed e.src e.laneCount i 4)) j = laneDec e j :=
      fun j hj => by
        rw [laneDec_setLaneDec hlt, if_neg]
        rintro rfl
        exact hni hj
    obtain ⟨t, ht, hframe, hlen, hlanes⟩ := ih (e := setLaneDec e i ((laneDec e i).seed e.src e.laneCount i 4)) hnodup
      (fun j hj => by rw [setLaneDec_length]; exact hi j (List.mem_cons_of_mem i hj))
      (fun j hj => by rw [hother j hj]; exact h j (List.mem_cons_of_mem i hj))
    refine ⟨t, by rw [seedLanes, laneSeed_eq hlt (h i List.mem_cons_self), andThen_ok, ht],
      (setLaneDec_frame e i _).trans hframe, hlen.trans (setLaneDec_length e i _), fun j => ?_⟩
    rw [hlanes j]
    by_cases hj : j ∈ is
    · rw [if_pos hj, if_pos (List.mem_cons_of_mem i hj), hother j hj]
      rfl
    · rw [if_neg hj, laneDec_setLaneDec hlt]
      by_cases hji : j = i
      · rw [if_pos hji, if_pos (hji ▸ List.mem_cons_self), hji]
      · rw [if_neg hji, if_neg (by simp [hji, hj])]

/-! ### OPEN_DEC of each family -/

/-- OPEN_DEC of CABAC seeds `offset` with 9 bits (R210). -/
theorem cabacOpenDecBody_eq {eof : Bool} {e : Engine} (h : eof = false ∨ 2 ≤ e.staged.length) (p : Params) :
    cabacOpenDecBody eof p e = .ok .none (((openDecoder .cabac 1 eof e).setBitpos 9).setCabacDec
      ⟨510, shiftInBits (srcBit (openDecoder .cabac 1 eof e)) 0 9 0⟩) := by
  have hin : InputLeft ((openDecoder .cabac 1 eof e).setCabacDec ⟨510, 0⟩) 9 :=
    h.elim (fun h => .inr (.inl h)) fun h => .inr (.inr (show 0 + 9 ≤ 8 * e.staged.length by omega))
  rw [cabacOpenDecBody, offsetSeed_eq hin]
  rfl

/-- OPEN_DEC of VP8 seeds `value` with one byte (R245). -/
theorem vp8OpenDecBody_eq {eof : Bool} {e : Engine} (h : eof = false ∨ 1 ≤ e.staged.length) (p : Params) :
    vp8OpenDecBody eof p e = .ok .none (((openDecoder .vp8 1 eof e).setBitpos 8).setVp8Dec
      ⟨255, (e.staged.getD 0 0).setWidth 32⟩) := by
  rw [vp8OpenDecBody, readByte_aligned (e := (openDecoder .vp8 1 eof e).setVp8Dec ⟨255, 0⟩) (k := 0) rfl h.symm]
  rfl

/-- OPEN_DEC of rANS seeds `x` with four bytes (R282). -/
theorem ransOpenDecBody_eq {eof : Bool} {e : Engine} (h : eof = false ∨ 4 ≤ e.staged.length) (p : Params) :
    ransOpenDecBody eof p e = .ok .none (((openDecoder .rans 1 eof e).setBitpos 32).setRansDec
      ⟨shiftInBytes (fun j => e.staged.getD j 0) 0 4 0⟩) := by
  rw [ransOpenDecBody, ransSeed_eq (n := 4) (e := (openDecoder .rans 1 eof e).setRansDec ⟨0⟩) (k := 0) rfl h]
  rfl

/-- OPEN_DEC of Fpaq0 seeds `value` with four bytes (R314). -/
theorem fpaq0OpenDecBody_eq {eof : Bool} {e : Engine} (h : eof = false ∨ 4 ≤ e.staged.length) (p : Params) :
    fpaq0OpenDecBody eof p e = .ok .none (((openDecoder .fpaq0 1 eof e).setBitpos 32).setFpaq0Dec
      ⟨0, 0xFFFFFFFF, shiftInBytes (fun j => e.staged.getD j 0) 0 4 0⟩) := by
  rw [fpaq0OpenDecBody,
    fpaq0Seed_eq (n := 4) (e := (openDecoder .fpaq0 1 eof e).setFpaq0Dec ⟨0, 0xFFFFFFFF, 0⟩) (k := 0) rfl h]
  rfl

/-- OPEN_DEC of FPAQ0P seeds each lane with its four bytes (R330). -/
theorem fpaq0pOpenDecBody_eq {n : Nat} {eof : Bool} {e : Engine} (h : eof = false ∨ 4 * n ≤ e.staged.length)
    (p : Params) :
    ∃ ls, fpaq0pOpenDecBody n eof p e = .ok .none ((openDecoder .fpaq0p n eof e).setLanesDec ls) ∧ ls.length = n ∧
      ∀ i, i < n → ls.getD i ⟨0, 0, 0, 0⟩ = LaneDec.seed ⟨0, 0xFFFFFFFF, 0, 0⟩ e.staged n i 4 := by
  let e₀ := (openDecoder .fpaq0p n eof e).setLanesDec (List.replicate n ⟨0, 0xFFFFFFFF, 0, 0⟩)
  have hlen : e₀.lanesDec.length = n := List.length_replicate
  have hlane : ∀ i, i < n → laneDec e₀ i = ⟨0, 0xFFFFFFFF, 0, 0⟩ := fun i hi => by
    rw [laneDec, List.getD_eq_getElem _ _ (hlen.symm ▸ hi)]
    exact List.getElem_replicate _
  have hread : ∀ i ∈ List.range n, ∀ j, j < 4 →
      ((laneDec e₀ i).k + j) * e₀.laneCount + i < e₀.src.length ∨ e₀.eof = false := fun i hi j hj => by
    have hi := List.mem_range.mp hi
    rw [hlane i hi]
    refine h.elim .inr fun h => .inl ?_
    have hmul : (0 + j) * n ≤ 3 * n := Nat.mul_le_mul_right n (by omega)
    show (0 + j) * n + i < e.staged.length
    omega
  obtain ⟨t, ht, ⟨ls, rfl⟩, hlen₁, hseed⟩ := seedLanes_eq List.nodup_range
    (fun i hi => by rw [hlen]; exact List.mem_range.mp hi) hread
  refine ⟨ls, by rw [fpaq0pOpenDecBody, ht]; rfl, hlen₁.trans hlen, fun i hi => ?_⟩
  have hi' := hseed i
  rw [if_pos (List.mem_range.mpr hi), hlane i hi] at hi'
  exact hi'

/-- Settles O15: the state that OPEN_DEC of each family leaves, with the seed as a number. -/
theorem openDecoderSeeds : Obligations.OpenDecoderSeeds := by
  intro f n eof s e he _ _ hstaged
  have hi : IsOpen (openDecInstr f n eof) := by cases f <;> exact .inr rfl
  cases f with
  | cabac =>
    refine ⟨_, open_completes hi he (cabacOpenDecBody_eq hstaged s.params), rfl, rfl, rfl, rfl, rfl, rfl,
      ctxGet_of_ctx_nil rfl, ?_, rfl, ?_, rfl⟩
    · simp [completeCmd_eq, openDecoder, openSession_eq, Engine.setBitpos, Engine.setCabacDec]
    · exact shiftInBits_word_toNat (openDecoder .cabac 1 eof e) 0 (by decide)
  | vp8 =>
    refine ⟨_, open_completes hi he (vp8OpenDecBody_eq hstaged s.params), rfl, rfl, rfl, rfl, rfl, rfl,
      ctxGet_of_ctx_nil rfl, ?_, rfl, ?_, rfl⟩
    · simp [completeCmd_eq, openDecoder, openSession_eq, Engine.setBitpos, Engine.setVp8Dec]
    · exact BitVec.toNat_setWidth_of_le (by decide)
  | rans =>
    refine ⟨_, open_completes hi he (ransOpenDecBody_eq hstaged s.params), rfl, rfl, rfl, rfl, rfl, rfl,
      ctxGet_of_ctx_nil rfl, ?_, ?_, rfl⟩
    · simp [completeCmd_eq, openDecoder, openSession_eq, Engine.setBitpos, Engine.setRansDec]
    · exact shiftInBytes_input e.staged
  | fpaq0 =>
    refine ⟨_, open_completes hi he (fpaq0OpenDecBody_eq hstaged s.params), rfl, rfl, rfl, rfl, rfl, rfl,
      ctxGet_of_ctx_nil rfl, ?_, rfl, rfl, ?_, rfl⟩
    · simp [completeCmd_eq, openDecoder, openSession_eq, Engine.setBitpos, Engine.setFpaq0Dec]
    · exact shiftInBytes_input e.staged
  | fpaq0p =>
    obtain ⟨ls, hb, hlen, hseed⟩ := fpaq0pOpenDecBody_eq hstaged s.params
    refine ⟨_, open_completes hi he hb, rfl, rfl, rfl, rfl, rfl, rfl, ctxGet_of_ctx_nil rfl, ?_, rfl, hlen,
      fun i hi => ?_⟩
    · simp [completeCmd_eq, openDecoder, openSession_eq, Engine.setLanesDec]
    · have hlane : laneDec (completeCmd (opBits (openDecInstr .fpaq0p n eof).op) .none
          ((openDecoder .fpaq0p n eof e).setLanesDec ls)) i = LaneDec.seed ⟨0, 0xFFFFFFFF, 0, 0⟩ e.staged n i 4 :=
        hseed i hi
      rw [hlane]
      refine ⟨rfl, rfl, rfl, ?_⟩
      simp only [LaneDec.seed, shiftInBytes_four, laneByte, inputByte]
      simp

end Sys2Proof.Machine
end

section
/-! SUPPORT, then O22 and O23. The bit source and the bit sink at byte boundaries (R72 to R78). -/

namespace Sys2Proof.Machine

open Sys2Proof

/-! ### The source -/

/-- Past the end in explicit-EOF mode ReadBit raises INPUT_EXHAUSTED and moves nothing (R77). -/
theorem readBit_exhausted {e : Engine} (hend : 8 * e.src.length ≤ e.bitpos) (heof : e.eof = true) :
    readBit e = .raised .inputExhausted e := by
  rw [readBit, if_neg (Nat.not_lt.mpr hend), if_pos heof]

/-- Past the end in explicit-EOF mode ReadByte stops at its first bit (R78). -/
theorem readByte_exhausted {e : Engine} (hend : 8 * e.src.length ≤ e.bitpos) (heof : e.eof = true) :
    readByte e = .raised .inputExhausted e := by
  rw [readByte, readByteLoop, readBit_exhausted hend heof]
  rfl

/-- Settles O22: the byte at the cursor where the input has one left, and the first bit's error where it has none. -/
theorem readByteAligned : Obligations.ReadByteAligned := by
  intro e halign
  have hpos : e.bitpos = 8 * (e.bitpos / 8) := by omega
  split
  · next hleft =>
    have hnext : 8 * (e.bitpos / 8 + 1) = e.bitpos + 8 := by omega
    rw [readByte_aligned hpos hleft, hnext]
    rfl
  · next hnone =>
    obtain ⟨hend, heof⟩ := not_or.mp hnone
    exact readByte_exhausted (by omega) (Bool.eq_true_of_not_eq_false heof)

/-! ### The sink -/

theorem exists_eight_cons {α : Type} {n : Nat} : ∀ {xs : List α}, xs.length = n + 8 →
    ∃ b7 b6 b5 b4 b3 b2 b1 b0 bs, xs = b7 :: b6 :: b5 :: b4 :: b3 :: b2 :: b1 :: b0 :: bs
  | b7 :: b6 :: b5 :: b4 :: b3 :: b2 :: b1 :: b0 :: bs, _ => ⟨b7, b6, b5, b4, b3, b2, b1, b0, bs, rfl⟩

/-- What is appended at a byte boundary adds its own complete bytes (R72). -/
theorem completeBytes_append {xs : List Bool} (ys : List Bool) (h : xs.length % 8 = 0) :
    completeBytes (xs ++ ys) = completeBytes xs ++ completeBytes ys := by
  induction xs using completeBytes.induct with
  | case1 b7 b6 b5 b4 b3 b2 b1 b0 bs ih =>
    have hbs : bs.length % 8 = 0 := (Nat.add_mod_right bs.length 8).symm.trans h
    simp only [List.cons_append, completeBytes, ih hbs]
  | case2 xs hshort =>
    have hnil : xs.length = 0 := by
      by_contra hpos
      have hlen : xs.length = xs.length - 8 + 8 := by omega
      obtain ⟨b7, b6, b5, b4, b3, b2, b1, b0, bs, hxs⟩ := exists_eight_cons hlen
      exact hshort b7 b6 b5 b4 b3 b2 b1 b0 bs hxs
    rw [List.length_eq_zero_iff.mp hnil]
    rfl

theorem flatMap_byteBits_length (vs : List Byte) : (vs.flatMap byteBits).length = 8 * vs.length := by
  induction vs with
  | nil => rfl
  | cons v vs ih =>
    rw [List.flatMap_cons, List.length_append, ih, List.length_cons]
    simp only [byteBits, List.length_cons, List.length_nil]
    omega

/-- Settles O23: the bits appended are those of the bytes written, and those that SinkClose pads with. -/
theorem sinkBytes : Obligations.SinkBytes := by
  intro p e hmem
  refine ⟨fun vs halign => ⟨_, writeBytes_inMemory hmem vs e, rfl, ?_, ?_⟩,
    ⟨_, (8 - e.sink.length % 8) % 8, sinkClose_inMemory hmem e, Nat.mod_lt _ (by decide), rfl, ?_⟩⟩
  · rw [Engine.setSink_sink, List.length_append, flatMap_byteBits_length]
  · rw [Engine.setSink_sink, completeBytes_append _ halign, completeBytes_flatMap]
  · rw [Engine.setSink_sink, List.length_append, List.length_replicate]
    omega

end Sys2Proof.Machine
end

section
/-! SUPPORT, then O1, O2 and O4. The command word (R110 to R142): its fields as numbers, the word of given fields and the
fields of a word as inverses of each other, and what the decoder answers for given fields. -/

namespace Sys2Proof

/-! ### The fields of a word -/

/-- A field of a word as a number. -/
theorem field_toNat (w : Word) (start len : Nat) : (w.extractLsb' start len).toNat = w.toNat / 2 ^ start % 2 ^ len := by
  rw [BitVec.extractLsb'_toNat, Nat.shiftRight_eq_div_pow]

theorem fam_ofWord (w : Word) : (CmdFields.ofWord w).fam = w.toNat / 2 ^ 28 :=
  (field_toNat w 28 4).trans (Nat.mod_eq_of_lt (by omega))

theorem op_ofWord (w : Word) : (CmdFields.ofWord w).op = w.toNat / 2 ^ 24 % 16 := field_toNat w 24 4

theorem b_ofWord (w : Word) : (CmdFields.ofWord w).b.toNat = w.toNat / 2 ^ 23 % 2 := Nat.toNat_testBit _ _

theorem l_ofWord (w : Word) : (CmdFields.ofWord w).l = w.toNat / 2 ^ 16 % 128 := field_toNat w 16 7

theorem c_ofWord (w : Word) : (CmdFields.ofWord w).c = w.toNat % 2 ^ 16 :=
  (field_toNat w 0 16).trans (by rw [pow_zero, Nat.div_one])

/-- Fields within their widths fill the word without overlap (R110). -/
theorem CmdFields.toWord_toNat {x : CmdFields} (hfam : x.fam < 16) (hop : x.op < 16) (hl : x.l < 128)
    (hc : x.c < 65536) :
    x.toWord.toNat = x.fam * 2 ^ 28 + x.op * 2 ^ 24 + x.b.toNat * 2 ^ 23 + x.l * 2 ^ 16 + x.c := by
  have hb := x.b.toNat_lt
  rw [CmdFields.toWord, BitVec.toNat_ofNat, Nat.mod_eq_of_lt (by omega)]

/-- The fields of the word that was made of fields within their widths. -/
theorem CmdFields.ofWord_toWord {x : CmdFields} (hfam : x.fam < 16) (hop : x.op < 16) (hl : x.l < 128)
    (hc : x.c < 65536) : CmdFields.ofWord x.toWord = x := by
  have hw := CmdFields.toWord_toNat hfam hop hl hc
  have hb := x.b.toNat_lt
  have bit_inj : ∀ a b : Bool, a.toNat = b.toNat → a = b := by decide
  have h₁ : (CmdFields.ofWord x.toWord).fam = x.fam := by rw [fam_ofWord]; omega
  have h₂ : (CmdFields.ofWord x.toWord).op = x.op := by rw [op_ofWord]; omega
  have h₃ : (CmdFields.ofWord x.toWord).b = x.b := bit_inj _ _ (by rw [b_ofWord]; omega)
  have h₄ : (CmdFields.ofWord x.toWord).l = x.l := by rw [l_ofWord]; omega
  have h₅ : (CmdFields.ofWord x.toWord).c = x.c := by rw [c_ofWord]; omega
  calc CmdFields.ofWord x.toWord
      = ⟨(CmdFields.ofWord x.toWord).fam, (CmdFields.ofWord x.toWord).op, (CmdFields.ofWord x.toWord).b,
          (CmdFields.ofWord x.toWord).l, (CmdFields.ofWord x.toWord).c⟩ := rfl
    _ = x := by rw [h₁, h₂, h₃, h₄, h₅]

/-- The five fields are the whole word (R110). -/
theorem CmdFields.toWord_ofWord (w : Word) : (CmdFields.ofWord w).toWord = w := by
  apply BitVec.eq_of_toNat_eq
  rw [CmdFields.toWord_toNat (BitVec.isLt _) (BitVec.isLt _) (BitVec.isLt _) (BitVec.isLt _), fam_ofWord, op_ofWord,
    b_ofWord, l_ofWord, c_ofWord]
  omega

/-! ### Codes -/

@[simp] theorem Family.ofCode_code (f : Family) : Family.ofCode f.code = some f := by cases f <;> rfl

@[simp] theorem Op.ofCode_code (o : Op) : Op.ofCode o.code = some o := by cases o <;> rfl

/-- The FAM codes that name a family (R110). -/
theorem Family.exists_ofCode {n : Nat} : (∃ f, Family.ofCode n = some f) ↔ n < 5 := by
  constructor
  · rintro ⟨f, hf⟩
    rw [← Family.code_of_ofCode hf]
    cases f <;> decide
  · intro h
    interval_cases n <;> exact ⟨_, rfl⟩

/-- The OP codes that name an operation (R112). -/
theorem Op.exists_ofCode {n : Nat} : (∃ o, Op.ofCode n = some o) ↔ n < 13 := by
  constructor
  · rintro ⟨o, ho⟩
    rw [← Op.code_of_ofCode ho]
    cases o <;> decide
  · intro h
    interval_cases n <;> exact ⟨_, rfl⟩

theorem Family.code_lt (f : Family) : f.code < 16 := by cases f <;> decide

theorem Op.code_lt (o : Op) : o.code < 16 := by cases o <;> decide

/-- The columns B, L and C of R122, by OP code. -/
theorem Op.usesB_iff (o : Op) : o.usesB = true ↔ o.code ∈ [1, 2, 3, 4, 11] := by cases o <;> decide

theorem Op.usesL_iff (o : Op) : o.usesL = true ↔ o.code ∈ [0, 1, 2, 3, 6, 7] := by cases o <;> decide

theorem Op.usesC_iff (o : Op) : o.usesC = true ↔ o.code ∈ [2, 6, 9, 11, 12] := by cases o <;> decide

theorem Family.code_eq_four (f : Family) : f.code = 4 ↔ f = .fpaq0p := by cases f <;> decide

/-- PUT_TERM and GET_TERM are operations of CABAC only, and the only ones not of every family (R112). -/
theorem Instr.exists_ofFields (f : Family) (o : Op) (b : Bool) (l c : Nat) :
    (∃ i, Instr.ofFields f o b l c = some i) ↔ ¬((o.code = 4 ∨ o.code = 8) ∧ f.code ≠ 0) := by
  cases f <;> cases o <;> simp [Instr.ofFields, Op.code, Family.code]

/-- The check of R122: a field is zero, or the operation uses it. -/
theorem CmdFields.unusedZero_iff (x : CmdFields) (f : Family) (o : Op) :
    x.unusedZero f o = true ↔
      (x.b.toNat ≠ 0 → o.code ∈ [1, 2, 3, 4, 11]) ∧
      (x.l ≠ 0 → f.code = 4 ∧ o.code ∈ [0, 1, 2, 3, 6, 7]) ∧
      (x.c ≠ 0 → o.code ∈ [2, 6, 9, 11, 12]) := by
  have hb : x.b.toNat ≠ 0 ↔ x.b = true := by cases x.b <;> decide
  rw [hb, ← Op.usesB_iff, ← Op.usesL_iff, ← Op.usesC_iff, Family.code_eq_four]
  simp only [CmdFields.unusedZero, Bool.and_eq_true, Bool.or_eq_true, Bool.not_eq_true', beq_iff_eq, and_assoc]
  grind

/-! ### The decoder -/

/-- The decoder's answer for a word whose fields pass the checks of R130. -/
theorem decode_of_fields {w : Word} {f : Family} {o : Op} {i : Instr}
    (hf : Family.ofCode (CmdFields.ofWord w).fam = some f) (ho : Op.ofCode (CmdFields.ofWord w).op = some o)
    (hi : Instr.ofFields f o (CmdFields.ofWord w).b (CmdFields.ofWord w).l (CmdFields.ofWord w).c = some i)
    (hz : (CmdFields.ofWord w).unusedZero f o = true) : decode w = .ok i := by
  simp only [decode, hf, ho, hi, hz, if_true]

/-- The words that decode are those whose fields pass the checks of R130. -/
theorem exists_decode_iff (w : Word) :
    (∃ i, decode w = .ok i) ↔
      ∃ f o, Family.ofCode (CmdFields.ofWord w).fam = some f ∧ Op.ofCode (CmdFields.ofWord w).op = some o ∧
        (∃ i, Instr.ofFields f o (CmdFields.ofWord w).b (CmdFields.ofWord w).l (CmdFields.ofWord w).c = some i) ∧
        (CmdFields.ofWord w).unusedZero f o = true := by
  constructor
  · rintro ⟨i, h⟩
    obtain ⟨hf, ho, hi, hz⟩ := decode_eq_ok h
    exact ⟨i.family, i.op, hf, ho, ⟨i, hi⟩, hz⟩
  · rintro ⟨f, o, hf, ho, ⟨i, hi⟩, hz⟩
    exact ⟨i, decode_of_fields hf ho hi hz⟩

/-! ### The encoder -/

open Laws.EncodingFields in
/-- The fields that every well-formed command is encoded with. -/
theorem encodingFields : ∀ i : Instr, Statement i
  | .cabacOpenEnc => cabacOpenEnc
  | .cabacOpenDec eof => cabacOpenDec eof
  | .cabacPut b c => cabacPut b c
  | .cabacPutBypass b => cabacPutBypass b
  | .cabacPutTerm b => cabacPutTerm b
  | .cabacFinish => cabacFinish
  | .cabacGet c => cabacGet c
  | .cabacGetBypass => cabacGetBypass
  | .cabacGetTerm => cabacGetTerm
  | .cabacCtxInit c => cabacCtxInit c
  | .cabacCtxInitAll => cabacCtxInitAll
  | .cabacCtxUpdate b c => cabacCtxUpdate b c
  | .cabacCtxRead c => cabacCtxRead c
  | .vp8OpenEnc => vp8OpenEnc
  | .vp8OpenDec eof => vp8OpenDec eof
  | .vp8Put b c => vp8Put b c
  | .vp8PutBypass b => vp8PutBypass b
  | .vp8Finish => vp8Finish
  | .vp8Get c => vp8Get c
  | .vp8GetBypass => vp8GetBypass
  | .vp8CtxInit c => vp8CtxInit c
  | .vp8CtxInitAll => vp8CtxInitAll
  | .vp8CtxUpdate b c => vp8CtxUpdate b c
  | .vp8CtxRead c => vp8CtxRead c
  | .ransOpenEnc => ransOpenEnc
  | .ransOpenDec eof => ransOpenDec eof
  | .ransPut b c => ransPut b c
  | .ransPutBypass b => ransPutBypass b
  | .ransFinish => ransFinish
  | .ransGet c => ransGet c
  | .ransGetBypass => ransGetBypass
  | .ransCtxInit c => ransCtxInit c
  | .ransCtxInitAll => ransCtxInitAll
  | .ransCtxUpdate b c => ransCtxUpdate b c
  | .ransCtxRead c => ransCtxRead c
  | .fpaq0OpenEnc => fpaq0OpenEnc
  | .fpaq0OpenDec eof => fpaq0OpenDec eof
  | .fpaq0Put b c => fpaq0Put b c
  | .fpaq0PutBypass b => fpaq0PutBypass b
  | .fpaq0Finish => fpaq0Finish
  | .fpaq0Get c => fpaq0Get c
  | .fpaq0GetBypass => fpaq0GetBypass
  | .fpaq0CtxInit c => fpaq0CtxInit c
  | .fpaq0CtxInitAll => fpaq0CtxInitAll
  | .fpaq0CtxUpdate b c => fpaq0CtxUpdate b c
  | .fpaq0CtxRead c => fpaq0CtxRead c
  | .fpaq0pOpenEnc n => fpaq0pOpenEnc n
  | .fpaq0pOpenDec n eof => fpaq0pOpenDec n eof
  | .fpaq0pPut l b c => fpaq0pPut l b c
  | .fpaq0pPutBypass l b => fpaq0pPutBypass l b
  | .fpaq0pFinish => fpaq0pFinish
  | .fpaq0pGet l c => fpaq0pGet l c
  | .fpaq0pGetBypass l => fpaq0pGetBypass l
  | .fpaq0pCtxInit c => fpaq0pCtxInit c
  | .fpaq0pCtxInitAll => fpaq0pCtxInitAll
  | .fpaq0pCtxUpdate b c => fpaq0pCtxUpdate b c
  | .fpaq0pCtxRead c => fpaq0pCtxRead c

/-- A command is encoded with its codes, the operands that it uses, and 0 in the other fields (R122). -/
theorem Instr.fields_of_ofFields {f : Family} {o : Op} {b : Bool} {l c : Nat} {i : Instr}
    (h : Instr.ofFields f o b l c = some i) :
    i.fields = ⟨f.code, o.code, o.usesB && b, if o.usesL && f == .fpaq0p then l else 0, if o.usesC then c else 0⟩ := by
  cases f <;> cases o <;> cases h <;> rfl

/-- Where the unused fields are zero, clearing them changes none. -/
theorem CmdFields.cleared_of_unusedZero {x : CmdFields} {f : Family} {o : Op} (hz : x.unusedZero f o = true) :
    (o.usesB && x.b) = x.b ∧ (if o.usesL && f == .fpaq0p then x.l else 0) = x.l ∧
      (if o.usesC then x.c else 0) = x.c := by
  rw [CmdFields.unusedZero, Bool.and_eq_true, Bool.and_eq_true] at hz
  obtain ⟨⟨hb, hl⟩, hc⟩ := hz
  refine ⟨?_, ?_, ?_⟩
  · rcases Bool.or_eq_true_iff.mp hb with h | h <;> simp_all
  · rcases Bool.or_eq_true_iff.mp hl with h | h <;> simp_all
  · rcases Bool.or_eq_true_iff.mp hc with h | h <;> simp_all

/-- Settles O1: the word of a command has the fields it was made of, and these pass the checks and give the command. -/
theorem decodeOfEncode : Obligations.DecodeOfEncode := by
  intro i hwf
  obtain ⟨hfam, hop, hl, hc, hz, hi⟩ := encodingFields i hwf
  have hx : CmdFields.ofWord (encode i) = i.fields :=
    CmdFields.ofWord_toWord (hfam ▸ i.family.code_lt) (hop ▸ i.op.code_lt) hl hc
  refine decode_of_fields (f := i.family) (o := i.op) ?_ ?_ ?_ ?_ <;> rw [hx]
  · rw [hfam, Family.ofCode_code]
  · rw [hop, Op.ofCode_code]
  · exact hi
  · exact hz

/-- Settles O2: the command of a word is encoded with the word's fields, as the unused ones are zero, and these are
the whole word. -/
theorem encodeOfDecode : Obligations.EncodeOfDecode := by
  intro w i h
  obtain ⟨hf, ho, hi, hz⟩ := decode_eq_ok h
  obtain ⟨hb, hl, hc⟩ := CmdFields.cleared_of_unusedZero hz
  have hx : i.fields = CmdFields.ofWord w := by
    rw [Instr.fields_of_ofFields hi, hb, hl, hc, Family.code_of_ofCode hf, Op.code_of_ofCode ho]
  exact ⟨by rw [encode, hx, CmdFields.toWord_ofWord], wellFormed_of_decode h⟩

/-- Settles O4: each word is the word of its command. -/
theorem workedEncodings : Obligations.WorkedEncodings :=
  ⟨decodeOfEncode (.cabacPut true 5) rfl, decodeOfEncode (.vp8Get 300) rfl, decodeOfEncode (.fpaq0pOpenEnc 4) rfl,
    decodeOfEncode (.fpaq0pPut 2 true 7) rfl, decodeOfEncode (.ransOpenDec true) rfl,
    decodeOfEncode (.cabacCtxRead 16) rfl⟩

end Sys2Proof
end

section
/-! SUPPORT, then O3, O5 and O11. Issuing a command word: the illegal words, the execution of a decoded one, and the error of
a command that is not legal in the engine's state. -/

namespace Sys2Proof.Machine

open Sys2Proof

/-! ### Words -/

/-- What R131 makes illegal, with the table of R122, of a word with these fields: a reserved family or operation, a
terminating bin outside CABAC, or a field that is not zero and not used. -/
def IllegalFields (fam op b l c : Nat) : Prop :=
  5 ≤ fam ∨ 13 ≤ op ∨ ((op = 4 ∨ op = 8) ∧ fam ≠ 0) ∨
  (b ≠ 0 ∧ op ∉ [1, 2, 3, 4, 11]) ∨ (l ≠ 0 ∧ ¬(fam = 4 ∧ op ∈ [0, 1, 2, 3, 6, 7])) ∨
  (c ≠ 0 ∧ op ∉ [2, 6, 9, 11, 12])

/-- A family and an operation with operands are illegal where they make no command, or where an unused field is not
zero. -/
theorem not_illegalFields_of_codes (x : CmdFields) (f : Family) (o : Op) :
    ¬IllegalFields f.code o.code x.b.toNat x.l x.c ↔
      (∃ i, Instr.ofFields f o x.b x.l x.c = some i) ∧ x.unusedZero f o = true := by
  have hf : ¬5 ≤ f.code := not_le.mpr (Family.exists_ofCode.mp ⟨f, f.ofCode_code⟩)
  have ho : ¬13 ≤ o.code := not_le.mpr (Op.exists_ofCode.mp ⟨o, o.ofCode_code⟩)
  rw [Instr.exists_ofFields, CmdFields.unusedZero_iff]
  unfold IllegalFields
  tauto

/-- The words that decode are those that R131 does not make illegal. -/
theorem exists_decode_iff_not_illegalFields (w : Word) :
    (∃ i, decode w = .ok i) ↔
      ¬IllegalFields (w.toNat / 2 ^ 28) (w.toNat / 2 ^ 24 % 16) (w.toNat / 2 ^ 23 % 2) (w.toNat / 2 ^ 16 % 128)
        (w.toNat % 2 ^ 16) := by
  rw [exists_decode_iff, ← fam_ofWord, ← op_ofWord, ← b_ofWord, ← l_ofWord, ← c_ofWord]
  generalize CmdFields.ofWord w = x
  constructor
  · rintro ⟨f, o, hf, ho, hlegal⟩
    rw [← Family.code_of_ofCode hf, ← Op.code_of_ofCode ho]
    exact (not_illegalFields_of_codes x f o).mpr hlegal
  · intro h
    obtain ⟨f, hf⟩ := Family.exists_ofCode.mpr (not_le.mp fun hfam => h (.inl hfam))
    obtain ⟨o, ho⟩ := Op.exists_ofCode.mpr (not_le.mp fun hop => h (.inr (.inl hop)))
    rw [← Family.code_of_ofCode hf, ← Op.code_of_ofCode ho] at h
    exact ⟨f, o, hf, ho, (not_illegalFields_of_codes x f o).mp h⟩

/-- Settles O3: the illegal words are those the decoder rejects, and a rejected word raises its error on its engine. -/
theorem illegalWordsRaise : Obligations.IllegalWordsRaise := by
  intro w
  refine ⟨exists_decode_iff_not_illegalFields w, fun hillegal s n rest e hs he => ?_⟩
  cases hd : decode w with
  | ok i => exact absurd hillegal ((exists_decode_iff_not_illegalFields w).mp ⟨i, hd⟩)
  | error err =>
    have hop : w.extractLsb' 24 4 = BitVec.ofNat 4 (w.toNat / 2 ^ 24 % 16) := by
      rw [← opField_toNat, BitVec.ofNat_toNat, BitVec.setWidth_eq]
    rw [step_command hs he, wordEffect_error hd, raiseErr_eq, hop]
    rfl

/-- Settles O5: a step takes the word off the list, and a word that decodes is executed. -/
theorem stepRunsDecodedCommand : Obligations.StepRunsDecodedCommand := by
  have issue : ∀ (s : State) (n : Nat) (w : Word) (rest : List HostAction) (i : Instr),
      s.host = .command n w :: rest → decode w = .ok i → step s = exec i ((s.setHost rest).setSel n) := by
    intro s n w rest i hs hd
    rw [step_cons hs, takeAction, issueWord, hd]
  refine ⟨issue, fun s w i hd => ?_⟩
  have hw : BitVec.ofNat 32 (w.toNat % 2 ^ 32) = w := by
    rw [Nat.mod_eq_of_lt w.isLt, BitVec.ofNat_toNat, BitVec.setWidth_eq]
  have hfetch : (s.withFetchWord 32 w.toNat).host = .command s.sel w :: s.host := by
    rw [State.withFetchWord, hw, State.setHost_host]
  exact issue _ _ _ _ _ hfetch hd

/-! ### Commands that are not legal -/

/-- The first check of R130 is the one that `Legal` names. -/
theorem legalNow_iff (e : Engine) (f : Family) (o : Op) :
    legalNow e f o = true ↔ o = .openEnc ∨ o = .openDec ∨ (f = e.fam ∧ phaseFits e.phase o = true) := by
  cases o <;> simp [legalNow, phaseFits, and_comm]

/-- The checks of R130 as the chain of their conditions. -/
theorem checkCommand_eq_ite (p : Params) (e : Engine) (f : Family) (o : Op) (lane ctx : Option Nat) :
    checkCommand p e f o lane ctx =
      if ¬(o = .openEnc ∨ o = .openDec ∨ (f = e.fam ∧ phaseFits e.phase o = true)) then .illegalCommand
      else if ¬∀ l ∈ lane, l < e.laneCount then .laneRange
      else if ¬∀ c ∈ ctx, c < p.numCtx then .ctxRange else .ok := by
  have hany : ∀ (x : Option Nat) (n : Nat), x.any (fun v => n ≤ v) = true ↔ ¬∀ v ∈ x, v < n := by
    intro x n
    cases x <;> simp
  simp only [checkCommand, ← legalNow_iff, hany, Bool.not_eq_true', Bool.not_eq_true]

/-- The error of a command that is not legal: the context is left where the other checks pass. -/
theorem checkCommand_of_not_legal {p : Params} {e : Engine} {i : Instr} (h : ¬Legal p e i) :
    checkCommand p e i.family i.op (laneOperand i) (ctxOperand i) =
      if ¬(i.op = .openEnc ∨ i.op = .openDec ∨ (i.family = e.fam ∧ phaseFits e.phase i.op = true)) then .illegalCommand
      else if ¬∀ l ∈ laneOperand i, l < e.laneCount then .laneRange else .ctxRange := by
  rw [checkCommand_eq_ite]
  by_cases hnow : i.op = .openEnc ∨ i.op = .openDec ∨ (i.family = e.fam ∧ phaseFits e.phase i.op = true)
  · by_cases hlane : ∀ l ∈ laneOperand i, l < e.laneCount
    · have hctx : ¬∀ c ∈ ctxOperand i, c < p.numCtx := fun hctx => h ⟨hnow, hlane, hctx⟩
      simp only [if_pos hctx]
    · simp only [if_pos hlane]
  · simp only [if_pos hnow]

/-- Settles O11: the check that fails first names the error, and taking it changes nothing else. -/
theorem illegalCommandHasNoOtherEffect : Obligations.IllegalCommandHasNoOtherEffect := by
  intro i s e he hillegal
  refine ⟨_, rfl, ?_⟩
  have hcheck : checkCommand s.params e i.family i.op (laneOperand i) (ctxOperand i) ≠ .ok := by
    rw [Ne, checkCommand_eq_ok, legalNow_iff]
    exact hillegal
  rw [exec_eq_commandEffect he, commandEffect_illegal hcheck, raiseErr_eq, checkCommand_of_not_legal hillegal]

end Sys2Proof.Machine
end

section
/-! SUPPORT, then O17 to O21. The context commands and the updates of a descriptor as exact numbers (R150 to R168). -/

namespace Sys2Proof.Machine

open Sys2Proof

/-! ### Descriptors -/

/-- Every entry of the transition tables is a state (R151, R152). -/
theorem transIdx_lt_64 : ∀ x, x < 64 → transIdxLPS x < 64 ∧ transIdxMPS x < 64 := by decide

/-- Every row of `rangeTabLPS` but the last is at least 6 (R150). -/
theorem six_le_rangeTabLPS : ∀ x, x < 63 → ∀ q, q < 4 → 6 ≤ rangeTabLPS x q := by decide

/-- The state after an update is the one of the transition table that the bin selects (R154). -/
theorem cabacUpdate_s_toNat (t : SwapTest) (c : CabacCtx) (b : Bool) :
    (cabacUpdate t c b).s.toNat = if b = c.mps then transIdxMPS c.s.toNat else transIdxLPS c.s.toNat := by
  obtain ⟨hlps, hmps⟩ := transIdx_lt_64 _ c.s.isLt
  unfold cabacUpdate
  split
  · exact Nat.mod_eq_of_lt hmps
  · cases t <;> exact Nat.mod_eq_of_lt hlps

/-- The MPS is swapped after an LPS where the state that the parameter selects is 0 (R154). -/
theorem cabacUpdate_mps (t : SwapTest) (c : CabacCtx) (b : Bool) :
    (cabacUpdate t c b).mps =
      if b ≠ c.mps ∧ (if t = .old then c.s.toNat = 0 else transIdxLPS c.s.toNat = 0) then !c.mps else c.mps := by
  obtain ⟨hlps, -⟩ := transIdx_lt_64 _ c.s.isLt
  unfold cabacUpdate
  by_cases hb : b = c.mps
  · simp [hb]
  · cases t with
    | old => simp [hb, ← BitVec.toNat_inj]
    | new => simp [hb, ← BitVec.toNat_inj, Nat.mod_eq_of_lt hlps]

/-- The MPS of a packed CABAC descriptor (R41). -/
theorem CabacCtx.unpack_mps_toNat {v : Byte} (hv : v.toNat < 128) : (CabacCtx.unpack v).mps.toNat = v.toNat / 64 := by
  rw [CabacCtx.unpack, BitVec.getLsbD, Nat.toNat_testBit]
  omega

/-- CabacUpdate of a packed descriptor as exact numbers (R154). -/
theorem cabacUpdate_unpack_pack_toNat (t : SwapTest) {v : Byte} (hv : v.toNat < 128) (b : Bool) :
    (cabacUpdate t (CabacCtx.unpack v) b).pack.toNat =
      if b.toNat = v.toNat / 64 then v.toNat / 64 * 64 + transIdxMPS (v.toNat % 64)
      else (if (if t = .old then v.toNat % 64 = 0 else transIdxLPS (v.toNat % 64) = 0) then 1 - v.toNat / 64
        else v.toNat / 64) * 64 + transIdxLPS (v.toNat % 64) := by
  have hinj : ∀ a b : Bool, a.toNat = b.toNat → a = b := by decide
  have hnot : ∀ m : Bool, (!m).toNat = 1 - m.toNat := by decide
  have hmps : b.toNat = v.toNat / 64 ↔ b = (CabacCtx.unpack v).mps := by
    rw [← CabacCtx.unpack_mps_toNat hv]
    exact ⟨hinj _ _, congrArg _⟩
  rw [CabacCtx.pack_toNat, cabacUpdate_s_toNat, cabacUpdate_mps, CabacCtx.unpack_s_toNat]
  by_cases hb : b = (CabacCtx.unpack v).mps
  · rw [if_neg (fun h => h.1 hb), if_pos hb, if_pos (hmps.mpr hb), CabacCtx.unpack_mps_toNat hv]
  · simp only [if_neg (mt hmps.mp hb), ne_eq, hb, if_false, not_false_eq_true, true_and, apply_ite Bool.toNat, hnot,
      CabacCtx.unpack_mps_toNat hv]

/-- No bins lead from a state other than 63 to 63 (R153). -/
theorem foldl_cabacUpdate_s_lt (t : SwapTest) (bins : List Bool) {c : CabacCtx} (h : c.s.toNat < 63) :
    (bins.foldl (cabacUpdate t) c).s.toNat < 63 := by
  induction bins generalizing c with
  | nil => exact h
  | cons b bins ih => exact ih (cabacUpdate_s_lt t b h)

/-- Settles O21: the tables row by row, and an induction over the bins. -/
theorem tableProperties : Obligations.TableProperties := by
  have hstep : ∀ x, x < 63 → transIdxLPS x ≤ 38 ∧ transIdxMPS x ≤ 62 := by decide
  refine ⟨fun x hx => ?_, fun x q hx hq => six_le_rangeTabLPS x (by omega) q hq, by decide, fun t bins h => ?_⟩
  · obtain ⟨hlps, hmps⟩ := transIdx_lt_64 x hx
    exact ⟨hlps, hmps, fun hx => hstep x (by omega)⟩
  · have hlt := foldl_cabacUpdate_s_lt t bins (c := ⟨0, false⟩) (by decide)
    rw [h] at hlt
    exact absurd hlt (by decide)

/-- A zero moves a probability below 225 up, and not past 225 (R157). -/
theorem probUpdate_false_bounds {p : Byte} (hp : p.toNat ≤ 225) :
    (probUpdate p false).toNat ≤ 225 ∧ (p.toNat < 225 → p.toNat < (probUpdate p false).toNat) := by
  have h : (probUpdate p false).toNat = p.toNat + (256 - p.toNat) / 32 := probUpdate_toNat p false
  omega

/-- A run of zeros from 225 or below does not pass 225 (R157). -/
theorem iterate_probUpdate_false_le (n : Nat) {p : Byte} (hp : p.toNat ≤ 225) :
    ((fun p => probUpdate p false)^[n] p).toNat ≤ 225 := by
  induction n generalizing p with
  | zero => exact hp
  | succ n ih => exact ih (probUpdate_false_bounds hp).1

/-- A run of zeros from 225 or below that is long enough reaches 225 (R157): `k` zeros do for a distance of `k`. -/
theorem exists_iterate_probUpdate_false_eq {k : Nat} {p : Byte} (hp : p.toNat ≤ 225) (hk : 225 ≤ p.toNat + k) :
    ∃ n, (fun p => probUpdate p false)^[n] p = 225 := by
  induction k generalizing p with
  | zero => exact ⟨0, BitVec.eq_of_toNat_eq (le_antisymm hp hk)⟩
  | succ k ih =>
    obtain ⟨hle, hlt⟩ := probUpdate_false_bounds hp
    by_cases hp225 : p.toNat = 225
    · exact ⟨0, BitVec.eq_of_toNat_eq hp225⟩
    · obtain ⟨n, hn⟩ := ih hle (by omega)
      exact ⟨n + 1, hn⟩

/-- Settles O20: one update as exact numbers, and the two inductions over a run of zeros. -/
theorem updateProperties : Obligations.UpdateProperties := by
  refine ⟨fun p hp => ?_, fun n => iterate_probUpdate_false_le n (by decide),
    exists_iterate_probUpdate_false_eq (k := 97) (by decide) (by decide), by decide, by decide⟩
  have hzero : (probUpdate p false).toNat = p.toNat + (256 - p.toNat) / 32 := probUpdate_toNat p false
  have hone : (probUpdate p true).toNat = max 1 (p.toNat - (p.toNat + 31) / 32) := probUpdate_toNat p true
  refine ⟨by omega, ?_, fun h => by omega, fun h => ?_⟩
  · rw [← BitVec.toNat_inj]
    omega
  · rw [← BitVec.toNat_inj, hone, h]
    rfl

/-! ### The context commands -/

/-- A command that passes the checks of R130, and whose rule goes on, completes. -/
theorem completes_of_body {i : Instr} {s : State} {e u : Engine} {r : Reply} (he : s.engine? = some e)
    (hl : checkCommand s.params e i.family i.op (laneOperand i) (ctxOperand i) = .ok)
    (hb : instrBody i s.params e = .ok r u) : Completes i s e r (completeCmd (opBits i.op) r u) := by
  obtain ⟨hidx, hresp⟩ := instrBody_reports i s.params e
  rw [hb] at hidx hresp
  refine ⟨?_, rfl, congrArg (· + 1) hidx, congrArg (List.cons _) hresp⟩
  rw [exec_eq_commandEffect he, commandEffect_legal hl, hb, settle_ok]

/-- A context command passes the checks of R130 in a session of its family with its entry inside `NUM_CTX`. -/
theorem checkCommand_context {i : Instr} (hi : IsContext i) {p : Params} {e : Engine} (hf : i.family = e.fam)
    (hs : inSession e) (hc : ∀ c ∈ ctxOperand i, c < p.numCtx) :
    checkCommand p e i.family i.op (laneOperand i) (ctxOperand i) = .ok := by
  have hlane : laneOperand i = none := by
    cases i with
    | fpaq0pPut | fpaq0pPutBypass | fpaq0pGet | fpaq0pGetBypass => rcases hi with h | h | h | h <;> cases h
    | _ => rfl
  have hfits : phaseFits e.phase i.op = true := by
    rcases hs with h | h | h <;> rcases hi with hi | hi | hi | hi <;> rw [h, hi] <;> rfl
  rw [checkCommand_eq_ok, legalNow_iff, hlane]
  exact ⟨.inr (.inr ⟨hf, hfits⟩), nofun, hc⟩

/-- The end of a command changes no context. -/
@[simp] theorem ctxGet_completeCmd (op : BitVec 4) (r : Reply) (e : Engine) (a : Nat) :
    ctxGet (completeCmd op r e) a = ctxGet e a := rfl

/-- A context command that writes one entry completes, and only that entry and the command's report change. -/
theorem ctxWrite_completes {i : Instr} (hi : IsContext i) {s : State} {e : Engine} {c : Nat} {v : Byte}
    (he : s.engine? = some e) (hinv : CtxInv s.params e) (hf : i.family = e.fam) (hs : inSession e)
    (hop : ctxOperand i = some c) (hc : c < s.params.numCtx)
    (hb : instrBody i s.params e = .ok .none (ctxSet e c v)) :
    ∃ t, Completes i s e .none t ∧
      t = { e with ctx := t.ctx, lastErr := .ok, cmdIndex := t.cmdIndex, responses := t.responses } ∧
      ctxGet t c = v ∧ ∀ a, a ≠ c → ctxGet t a = ctxGet e a := by
  obtain ⟨hwf, -⟩ := hinv
  have hl := checkCommand_context hi hf hs (p := s.params) fun x hx => Option.mem_unique hop hx ▸ hc
  refine ⟨_, completes_of_body he hl hb, ?_, ?_, fun a ha => ?_⟩
  · rw [completeCmd_eq]
    rfl
  · rw [ctxGet_completeCmd, ctxGet_ctxSet c c v hwf, if_pos rfl]
  · rw [ctxGet_completeCmd, ctxGet_ctxSet c a v hwf, if_neg ha]

/-- Settles O17: CTX_INIT writes its entry, and CTX_INIT_ALL lists none. -/
theorem contextInit : Obligations.ContextInit := by
  rintro _ c s e he hinv rfl hs
  have hinit : IsContext (ctxInitInstr e.fam c) := by cases e.fam <;> exact .inl rfl
  have hall : IsContext (ctxInitAllInstr e.fam) := by cases e.fam <;> exact .inr (.inl rfl)
  refine ⟨fun hc => ?_, ?_⟩
  · exact ctxWrite_completes hinit he hinv.ctx (by cases e.fam <;> rfl) hs (by cases e.fam <;> rfl) hc
      (by cases e.fam <;> rfl)
  · have hl := checkCommand_context hall (p := s.params) (e := e) (by cases e.fam <;> rfl) hs
      (by cases e.fam <;> exact nofun)
    have hb : instrBody (ctxInitAllInstr e.fam) s.params e = .ok .none (ctxReset e) := by cases e.fam <;> rfl
    exact ⟨_, completes_of_body he hl hb, rfl, fun a => by rw [ctxGet_completeCmd, ctxGet_ctxReset]⟩

/-- Settles O18: CTX_UPDATE writes its entry with the updated descriptor; the update procedures as numbers
say what that is. -/
theorem contextUpdate : Obligations.ContextUpdate := by
  rintro _ b c s e he hinv rfl hs hc
  have hi : IsContext (ctxUpdateInstr e.fam b c) := by cases e.fam <;> exact .inr (.inr (.inl rfl))
  have hb : instrBody (ctxUpdateInstr e.fam b c) s.params e =
      .ok .none (ctxSet e c (nextCtx s.params e.fam (ctxGet e c) b)) := by cases e.fam <;> rfl
  obtain ⟨t, hcomp, hframe, hget, hother⟩ := ctxWrite_completes hi he hinv.ctx (by cases e.fam <;> rfl) hs
    (by cases e.fam <;> rfl) hc hb
  refine ⟨t, hcomp, hframe, hother, ?_⟩
  have hreach := ctxReachable_ctxGet hinv.ctx c
  rw [hget]
  cases hfam : e.fam with
  | cabac =>
    rw [hfam, ctxReachable, decide_eq_true_eq] at hreach
    obtain ⟨hlt, -⟩ := hreach
    have hnext := cabacUpdate_unpack_pack_toNat s.params.cabacSwapTest hlt b
    rw [if_pos rfl]
    intro x mps
    split
    · next hmps => exact hnext.trans (if_pos hmps)
    · next hmps => exact hnext.trans (if_neg hmps)
  | vp8 | rans | fpaq0 | fpaq0p => exact probUpdate_toNat (ctxGet e c) b

/-- Settles O19: CTX_READ replies with the packed descriptor and changes nothing. -/
theorem contextRead : Obligations.ContextRead := by
  rintro _ c s e he hinv rfl hs hc
  have hi : IsContext (ctxReadInstr e.fam c) := by cases e.fam <;> exact .inr (.inr (.inr rfl))
  have hop : ctxOperand (ctxReadInstr e.fam c) = some c := by cases e.fam <;> rfl
  have hb : instrBody (ctxReadInstr e.fam c) s.params e = .ok (.ofCtx (ctxGet e c)) e := by cases e.fam <;> rfl
  have hl := checkCommand_context hi (p := s.params) (e := e) (by cases e.fam <;> rfl) hs fun x hx =>
    Option.mem_unique hop hx ▸ hc
  refine ⟨_, completes_of_body he hl hb, rfl, fun hfam => ?_⟩
  have hreach := ctxReachable_ctxGet hinv.ctx c
  rw [hfam, ctxReachable, decide_eq_true_eq] at hreach
  obtain ⟨hlt, -⟩ := hreach
  rw [cabacCtxGet, CabacCtx.unpack_mps_toNat hlt, CabacCtx.unpack_s_toNat]
  omega

end Sys2Proof.Machine
end

section
/-! SUPPORT. The CABAC encoder's output (R185 to R187, R190): what PutBit leaves, and the step that puts out the top bit of a
doubled `low`, which a RenormE pass and a bypass bin share. -/

namespace Sys2Proof.Machine

open Sys2Proof

/-! ### Bits as a number -/

theorem bitsValue_append (xs ys : List Bool) : bitsValue (xs ++ ys) = bitsValue xs * 2 ^ ys.length + bitsValue ys := by
  induction ys using List.reverseRecOn with
  | nil => simp [bitsValue]
  | append_singleton ys b ih =>
    have snoc : ∀ zs : List Bool, bitsValue (zs ++ [b]) = 2 * bitsValue zs + b.toNat := fun zs => by
      simp [bitsValue, List.foldl_append]
    rw [← List.append_assoc, snoc, snoc, ih, List.length_append, List.length_singleton, Nat.pow_succ]
    ring

theorem bitsValue_singleton (b : Bool) : bitsValue [b] = b.toNat := by simp [bitsValue]

/-- A run of ones, and a run of zeros. -/
theorem bitsValue_replicate (n : Nat) (b : Bool) : bitsValue (List.replicate n b) = b.toNat * (2 ^ n - 1) := by
  induction n with
  | zero => simp [bitsValue]
  | succ n ih =>
    have := Nat.two_pow_pos n
    rw [List.replicate_succ', bitsValue_append, bitsValue_singleton, ih, List.length_singleton, Nat.pow_succ]
    cases b
    · simp
    · simp only [Bool.toNat_true]
      omega

/-! ### PutBit -/

/-- What a procedure that writes to the sink does where it aims at `u`: it goes on there, with the offers an `External`
sink counts, or such a sink refuses a byte (R82). -/
inductive Written (p : Params) (u : Engine) : Res Unit → Prop
  | done (n : Nat) (h : p.sinkMode = .inMemory → n = u.offers) : Written p u (.ok () (u.setOffers n))
  | refused (t : Engine) (h : p.sinkMode = .external) : Written p u (.raised .outputFailure t)

/-- Writing on after writing. -/
theorem Written.andThen {p : Params} {u v : Engine} {r : Res Unit} {f : Unit → Engine → Res Unit} (h : Written p u r)
    (hv : v.offers = u.offers) (hf : ∀ n, Written p (v.setOffers n) (f () (u.setOffers n))) :
    Written p v (r.andThen f) := by
  cases h with
  | refused t h => exact .refused t h
  | done n h =>
    rw [andThen_ok]
    have hn := hf n
    generalize f () (u.setOffers n) = r at hn
    cases hn with
    | refused t h => exact .refused t h
    | done m h' => exact .done m fun hmem => (h' hmem).trans ((h hmem).trans hv.symm)

/-- On an `InMemory` sink a procedure that writes goes on. -/
theorem Written.inMemory {p : Params} {u : Engine} {r : Res Unit} (h : Written p u r) (hmem : p.sinkMode = .inMemory) :
    r = .ok () u := by
  cases h with
  | refused t h => rw [hmem] at h; cases h
  | done n h => rw [h hmem]; rfl

/-- WriteBit appends its bit (R73). -/
theorem writeBit_written (p : Params) (b : Bool) (e : Engine) :
    Written p (e.setSink (e.sink ++ [b])) (writeBit p b e) := by
  cases hmode : p.sinkMode with
  | inMemory =>
    rw [writeBit_inMemory hmode]
    exact .done e.offers fun _ => rfl
  | external =>
    unfold writeBit
    dsimp only
    split
    · rw [offerByte_external hmode]
      split
      · exact .done _ fun h => nomatch hmode.symm.trans h
      · exact .refused _ hmode
    · exact .done e.offers fun _ => rfl

/-- The loop of PutBit appends the deferred bits and counts them off (R185). -/
theorem drainOutstanding_written (p : Params) (b : Bool) (n : Nat) (e : Engine) :
    Written p ((e.setSink (e.sink ++ List.replicate n b)).setCabacEnc
      { e.cabacEnc with outstanding := e.cabacEnc.outstanding - n }) (drainOutstanding p b n e) := by
  induction n generalizing e with
  | zero =>
    have hu : (e.setSink (e.sink ++ List.replicate 0 b)).setCabacEnc
        { e.cabacEnc with outstanding := e.cabacEnc.outstanding - 0 } = e := by
      simp [Engine.setSink, Engine.setCabacEnc]
    rw [hu]
    exact .done e.offers fun _ => rfl
  | succ n ih =>
    refine (writeBit_written p b e).andThen rfl fun k => ?_
    have hrest := ih (((e.setSink (e.sink ++ [b])).setOffers k).setCabacEnc
      { e.cabacEnc with outstanding := e.cabacEnc.outstanding - 1 })
    have hsink : e.sink ++ List.replicate (n + 1) b = e.sink ++ [b] ++ List.replicate n b := by
      rw [List.append_assoc, List.replicate_succ, List.singleton_append]
    have hcount : e.cabacEnc.outstanding - (n + 1) = e.cabacEnc.outstanding - 1 - n := by omega
    rw [hsink, hcount]
    exact hrest

/-- The engine after PutBit (R185): the bit, unless it is the first of the session, then the deferred ones. -/
def bitPut (b : Bool) (e : Engine) : Engine :=
  (e.setSink (e.sink ++ (if e.cabacEnc.firstBit then [] else [b]) ++ List.replicate e.cabacEnc.outstanding !b)).setCabacEnc
    { e.cabacEnc with outstanding := 0, firstBit := false }

theorem putBit_written (p : Params) (b : Bool) (e : Engine) : Written p (bitPut b e) (putBit p b e) := by
  have hdrain := fun u => drainOutstanding_written p (!b) u.cabacEnc.outstanding u
  have hzero : e.cabacEnc.outstanding - e.cabacEnc.outstanding = 0 := Nat.sub_self _
  unfold putBit
  cases hfirst : e.cabacEnc.firstBit with
  | true =>
    have h := hdrain (e.setCabacEnc { e.cabacEnc with firstBit := false })
    simp only [Engine.setCabacEnc_cabacEnc, Engine.setCabacEnc_sink, hzero] at h
    simp only [bitPut, hfirst, if_true, andThen_ok, List.append_nil, Engine.setCabacEnc_cabacEnc]
    exact h
  | false =>
    simp only [Bool.false_eq_true, if_false]
    refine (writeBit_written p b e).andThen rfl fun n => ?_
    have h := hdrain ((e.setSink (e.sink ++ [b])).setOffers n)
    simp only [Engine.setOffers_cabacEnc, Engine.setSink_cabacEnc, Engine.setOffers_sink, Engine.setSink_sink, hzero,
      hfirst] at h
    simp only [bitPut, hfirst, Bool.false_eq_true, if_false]
    exact h

/-! ### The output of one bit -/

/-- A doubled `low` straddles the carry position: its top bit is not known yet (R187, R190). -/
def Straddles (u : Engine) : Prop := 512 ≤ u.cabacEnc.low.toNat ∧ u.cabacEnc.low.toNat < 1024

/-- The engine after the top bit of a doubled `low` has been put out or counted (R187, R190). -/
def shiftOut (u : Engine) : Engine :=
  if u.cabacEnc.low.toNat < 512 then bitPut false u
  else if 1024 ≤ u.cabacEnc.low.toNat then bitPut true (u.setCabacEnc { u.cabacEnc with low := u.cabacEnc.low - 1024 })
  else u.setCabacEnc
    { u.cabacEnc with low := u.cabacEnc.low - 512, outstanding := u.cabacEnc.outstanding + 1 }

/-- Everything the output of one bit can do: go on, meet a full counter where the doubled `low` straddles, or, where it does
not, have an `External` sink refuse a byte (R82, R186). -/
inductive ShiftedOut (p : Params) (u : Engine) : Res Unit → Prop
  | done (n : Nat) (hmem : p.sinkMode = .inMemory → n = u.offers)
      (hroom : Straddles u → counterFull p u.cabacEnc.outstanding = false) :
      ShiftedOut p u (.ok () ((shiftOut u).setOffers n))
  | overflow (t : Engine) (hs : Straddles u) (hfull : counterFull p u.cabacEnc.outstanding = true) :
      ShiftedOut p u (.raised .counterOverflow t)
  | refused (t : Engine) (hs : ¬Straddles u) (h : p.sinkMode = .external) : ShiftedOut p u (.raised .outputFailure t)

theorem shiftOut_of_lt {u : Engine} (h : u.cabacEnc.low.toNat < 512) : shiftOut u = bitPut false u := if_pos h

theorem shiftOut_of_ge {u : Engine} (h : 1024 ≤ u.cabacEnc.low.toNat) :
    shiftOut u = bitPut true (u.setCabacEnc { u.cabacEnc with low := u.cabacEnc.low - 1024 }) := by
  rw [shiftOut, if_neg (by omega), if_pos h]

theorem shiftOut_of_straddles {u : Engine} (h : Straddles u) :
    shiftOut u = u.setCabacEnc
      { u.cabacEnc with low := u.cabacEnc.low - 512, outstanding := u.cabacEnc.outstanding + 1 } := by
  obtain ⟨hlo, hhi⟩ := h
  rw [shiftOut, if_neg (by omega), if_neg (by omega)]

theorem shiftOut_offers (u : Engine) : (shiftOut u).offers = u.offers := by
  unfold shiftOut
  split
  · rfl
  · split <;> rfl

/-- A PutBit that ends, by way of `f`, where the output of one bit does. -/
theorem Written.shiftedOut {p : Params} {u v : Engine} {r : Res Unit} {f : Engine → Engine} (h : Written p v r)
    (hu : ¬Straddles u) (hoff : u.offers = v.offers) (hf : ∀ n, f (v.setOffers n) = (shiftOut u).setOffers n) :
    ShiftedOut p u (r.andThen fun _ t => .ok () (f t)) := by
  cases h with
  | refused t h => exact .refused t hu h
  | done n h =>
    rw [andThen_ok, hf]
    exact .done n (fun hmem => (h hmem).trans hoff.symm) fun hs => absurd hs hu

/-- IncOutstanding that ends, by way of `f`, where the output of one bit does. -/
theorem shiftedOut_incOutstanding {p : Params} {u v : Engine} {f : Engine → Engine} (hu : Straddles u)
    (hout : v.cabacEnc.outstanding = u.cabacEnc.outstanding)
    (hf : f (v.setCabacEnc { v.cabacEnc with outstanding := v.cabacEnc.outstanding + 1 }) = shiftOut u) :
    ShiftedOut p u ((incOutstanding p v).andThen fun _ t => .ok () (f t)) := by
  unfold incOutstanding
  rw [hout] at hf ⊢
  split
  · next hfull => exact .overflow v hu hfull
  · next hroom =>
    rw [andThen_ok, hf]
    have hdone := ShiftedOut.done (p := p) (u := u) u.offers (fun _ => rfl) fun _ => by simpa using hroom
    rwa [← shiftOut_offers u] at hdone

/-- A RenormE pass is the output of one bit of the doubled registers (R187). -/
theorem renormE_shiftedOut (p : Params) {e : Engine} (h : e.cabacEnc.low.toNat ≤ 1024) :
    ShiftedOut p (renormEShift e) ((renormEClassify p e).andThen fun _ t => .ok () (renormEShift t)) := by
  have hlow : (renormEShift e).cabacEnc.low.toNat = 2 * e.cabacEnc.low.toNat := by
    simp only [renormEShift, Engine.setCabacEnc_cabacEnc, CabacEnc.setRange_low, BitVec.toNat_shiftLeft, Nat.shiftLeft_eq]
    omega
  have hsub : ∀ d : Word, (e.cabacEnc.low - d) <<< 1 = e.cabacEnc.low <<< 1 - d <<< 1 := fun d => by
    apply BitVec.eq_of_toNat_eq
    simp only [BitVec.toNat_shiftLeft, BitVec.toNat_sub, Nat.shiftLeft_eq]
    omega
  unfold renormEClassify
  dsimp only
  split
  · next hlt =>
    refine (putBit_written p false e).shiftedOut (fun hs => ?_) rfl fun n => ?_
    · have := hs.1
      omega
    · rw [shiftOut_of_lt (by omega)]
      rfl
  · split
    · next hge =>
      refine (putBit_written p true _).shiftedOut (fun hs => ?_) rfl fun n => ?_
      · have := hs.2
        omega
      · rw [shiftOut_of_ge (by omega)]
        simp only [renormEShift, bitPut, Engine.setCabacEnc_cabacEnc, CabacEnc.setRange, Engine.setOffers_cabacEnc, hsub]
        rfl
    · next hmid =>
      have hs : Straddles (renormEShift e) := ⟨by omega, by omega⟩
      refine shiftedOut_incOutstanding hs rfl ?_
      rw [shiftOut_of_straddles hs]
      simp only [renormEShift, Engine.setCabacEnc_cabacEnc, CabacEnc.setRange, hsub]
      rfl

/-- The engine of a bypass bin before its bit is put out: `low` doubled, and `range` added for a one (R190). -/
def bypassLow (b : Bool) (e : Engine) : Engine :=
  e.setCabacEnc { e.cabacEnc with
    low := if b then e.cabacEnc.low <<< 1 + e.cabacEnc.range else e.cabacEnc.low <<< 1 }

/-- A bypass bin is the output of one bit (R190). -/
theorem cabacPutBypassBody_shiftedOut (b : Bool) (p : Params) (e : Engine) :
    ∃ r, cabacPutBypassBody b p e = r.andThen (fun _ t => .ok .none t) ∧ ShiftedOut p (bypassLow b e) r := by
  refine ⟨_, rfl, ?_⟩
  have hpure : ∀ r : Res Unit, r = r.andThen fun _ t => .ok () t := fun r => by cases r <;> rfl
  show ShiftedOut p (bypassLow b e) (if 1024 ≤ (bypassLow b e).cabacEnc.low.toNat then
      (putBit p true (bypassLow b e)).andThen fun _ t =>
        .ok () (t.setCabacEnc { t.cabacEnc with low := t.cabacEnc.low - 1024 })
    else if (bypassLow b e).cabacEnc.low.toNat < 512 then putBit p false (bypassLow b e)
    else incOutstanding p ((bypassLow b e).setCabacEnc
      { (bypassLow b e).cabacEnc with low := (bypassLow b e).cabacEnc.low - 512 }))
  generalize bypassLow b e = u
  split
  · next hge =>
    refine (putBit_written p true u).shiftedOut (fun hs => ?_) rfl fun n => ?_
    · have := hs.2
      omega
    · rw [shiftOut_of_ge hge]
      rfl
  · split
    · next hlt =>
      rw [hpure (putBit p false u)]
      refine (putBit_written p false u).shiftedOut (fun hs => ?_) rfl fun n => ?_
      · have := hs.1
        omega
      · rw [shiftOut_of_lt hlt]
    · next hlt hge =>
      have hs : Straddles u := ⟨by omega, by omega⟩
      rw [hpure (incOutstanding p _)]
      refine shiftedOut_incOutstanding hs rfl ?_
      rw [shiftOut_of_straddles hs]
      rfl

end Sys2Proof.Machine
end

section
/-! SUPPORT. The CABAC encoder's code number and bounds (R187, R199, R201): what the output of one bit and what RenormE makes of
them, and when a RenormE meets a full counter (R186). -/

namespace Sys2Proof.Machine

open Sys2Proof

/-! ### The code number -/

/-- The part of the code number above `low`: the bits written and outstanding. -/
def cabacBase (e : Engine) : Nat :=
  bitsValue e.sink * 2 ^ (10 + e.cabacEnc.outstanding) + (2 ^ e.cabacEnc.outstanding - 1) * 2 ^ 9

theorem cabacCode_eq (e : Engine) : cabacCode e = cabacBase e + e.cabacEnc.low.toNat := rfl

/-- PutBit settles the outstanding bits (R185): what is written then spells the code number above the bit put. The bit that
is discarded is 0 (R201). -/
theorem bitPut_bitsValue {b : Bool} {e : Engine} (h : e.cabacEnc.firstBit = true → b = false ∧ e.sink = []) :
    bitsValue (bitPut b e).sink * 2 ^ 9 = cabacBase e + b.toNat * 2 ^ 9 := by
  have hpos := Nat.two_pow_pos e.cabacEnc.outstanding
  have hsink : bitsValue (bitPut b e).sink =
      (2 * bitsValue e.sink + b.toNat) * 2 ^ e.cabacEnc.outstanding + (!b).toNat * (2 ^ e.cabacEnc.outstanding - 1) := by
    have hbit : bitsValue (e.sink ++ if e.cabacEnc.firstBit then [] else [b]) = 2 * bitsValue e.sink + b.toNat := by
      cases hfirst : e.cabacEnc.firstBit with
      | true =>
        obtain ⟨rfl, hnil⟩ := h hfirst
        rw [hnil]
        rfl
      | false =>
        rw [if_neg Bool.false_ne_true, bitsValue_append, bitsValue_singleton]
        simp only [List.length_singleton]
        ring
    simp only [bitPut, Engine.setCabacEnc_sink, Engine.setSink_sink]
    rw [bitsValue_append, hbit, bitsValue_replicate, List.length_replicate]
  rw [hsink, cabacBase, Nat.pow_add]
  generalize 2 ^ e.cabacEnc.outstanding = k at hpos ⊢
  obtain ⟨k, rfl⟩ : ∃ j, k = j + 1 := ⟨k - 1, by omega⟩
  cases b <;> simp only [Bool.not_false, Bool.not_true, Bool.toNat_true, Bool.toNat_false, Nat.add_sub_cancel] <;> ring

/-- The bits written after PutBit: one more than the passes before it, less the discarded one (R201). -/
theorem bitPut_length (b : Bool) (e : Engine) : (bitPut b e).sink.length = cabacShifts e := by
  simp only [bitPut, cabacShifts, Engine.setCabacEnc_sink, Engine.setSink_sink, List.length_append, List.length_replicate]
  split
  · simp
  · simp
    omega

/-- With no bit outstanding the code number is that of the bits written and `low`. -/
theorem cabacBase_bitPut (b : Bool) (e : Engine) : cabacBase (bitPut b e) = 2 * (bitsValue (bitPut b e).sink * 2 ^ 9) := by
  show bitsValue (bitPut b e).sink * 2 ^ (10 + 0) + (2 ^ 0 - 1) * 2 ^ 9 = _
  omega

/-! ### Bounds -/

/-- A counter is full where it holds the largest number of its width (R186). -/
theorem counterFull_eq_true {p : Params} {n : Nat} : counterFull p n = true ↔ ∃ w ∈ p.outstandingW, n = 2 ^ w - 1 := by
  cases h : p.outstandingW <;> simp [counterFull, h]

theorem counterFull_eq_false {p : Params} {n : Nat} : counterFull p n = false ↔ ∀ w ∈ p.outstandingW, n ≠ 2 ^ w - 1 := by
  cases h : p.outstandingW <;> simp [counterFull, h]

/-- The bounds that hold throughout a command of an encoder session, where the range may be below 256 (R199, R201, R186). -/
structure EncBounds (p : Params) (e : Engine) : Prop where
  sum : e.cabacEnc.low.toNat + e.cabacEnc.range9.toNat ≤ 1024
  range_le : e.cabacEnc.range9.toNat ≤ 510
  first : e.cabacEnc.firstBit = true → e.cabacEnc.low.toNat + e.cabacEnc.range9.toNat ≤ 510 ∧ e.sink = []
  counter : ∀ w ∈ p.outstandingW, e.cabacEnc.outstanding < 2 ^ w

/-- The bounds of a doubled `low`, before its top bit is put out. -/
structure DoubledBounds (p : Params) (u : Engine) : Prop where
  sum : u.cabacEnc.low.toNat + u.cabacEnc.range9.toNat ≤ 2048
  range_le : u.cabacEnc.range9.toNat ≤ 510
  first : u.cabacEnc.firstBit = true → u.cabacEnc.low.toNat + u.cabacEnc.range9.toNat ≤ 1020 ∧ u.sink = []
  counter : ∀ w ∈ p.outstandingW, u.cabacEnc.outstanding < 2 ^ w

theorem cabacEncInv_iff {p : Params} {e : Engine} :
    CabacEncInv p e ↔ 256 ≤ e.cabacEnc.range9.toNat ∧ EncBounds p e := by
  simp only [CabacEncInv, CabacEnc.range_toNat]
  exact ⟨fun ⟨h1, h2, h3, h4, h5⟩ => ⟨h1, h3, h2, h4, h5⟩, fun ⟨h1, h3, h2, h4, h5⟩ => ⟨h1, h2, h3, h4, h5⟩⟩

/-- What the output of one bit does to a session's numbers: the range stays, the code number is the doubled one, one more
bit is counted, and the bounds hold again. -/
structure BitOut (p : Params) (u t : Engine) : Prop where
  range : t.cabacEnc.range9 = u.cabacEnc.range9
  code : cabacCode t = 2 * cabacBase u + u.cabacEnc.low.toNat
  shifts : cabacShifts t = cabacShifts u + 1
  bounds : EncBounds p t

/-- PutBit of the top bit of a doubled `low`, whose rest is `low` (R187, R190). -/
theorem bitOut_bitPut {p : Params} {u : Engine} (b : Bool) (low : Word)
    (hfirst : u.cabacEnc.firstBit = true → b = false ∧ u.sink = [])
    (hlow : low.toNat + b.toNat * 1024 = u.cabacEnc.low.toNat)
    (hsum : low.toNat + u.cabacEnc.range9.toNat ≤ 1024) (hrange : u.cabacEnc.range9.toNat ≤ 510) :
    BitOut p u (bitPut b (u.setCabacEnc { u.cabacEnc with low := low })) := by
  have hval := bitPut_bitsValue (e := u.setCabacEnc { u.cabacEnc with low := low }) hfirst
  have hlen := bitPut_length b (u.setCabacEnc { u.cabacEnc with low := low })
  have hcode := cabacCode_eq (bitPut b (u.setCabacEnc { u.cabacEnc with low := low }))
  refine ⟨rfl, ?_, congrArg (· + 1) hlen, hsum, hrange, nofun, fun w _ => Nat.two_pow_pos w⟩
  rw [hcode, cabacBase_bitPut, hval, ← hlow]
  show 2 * (cabacBase u + b.toNat * 2 ^ 9) + low.toNat = _
  omega

/-- The output of one bit keeps the code number: its three cases (R187, R190, R199, R201). -/
theorem bitOut_shiftOut {p : Params} {u : Engine} (hu : DoubledBounds p u)
    (hroom : Straddles u → counterFull p u.cabacEnc.outstanding = false) : BitOut p u (shiftOut u) := by
  obtain ⟨hsum, hrange, hone, hcount⟩ := hu
  by_cases hlt : u.cabacEnc.low.toNat < 512
  · rw [shiftOut_of_lt hlt]
    exact bitOut_bitPut false u.cabacEnc.low (fun h => ⟨rfl, (hone h).2⟩) (by simp) (by omega) hrange
  by_cases hge : 1024 ≤ u.cabacEnc.low.toNat
  · have hlow : (u.cabacEnc.low - 1024).toNat + 1024 = u.cabacEnc.low.toNat := by
      have h1024 : (1024 : Word).toNat = 1024 := rfl
      rw [BitVec.toNat_sub, h1024]
      omega
    rw [shiftOut_of_ge hge]
    refine bitOut_bitPut true _ (fun h => ?_) hlow (by omega) hrange
    have := (hone h).1
    omega
  have hs : Straddles u := ⟨by omega, by omega⟩
  rw [shiftOut_of_straddles hs]
  have hlow : (u.cabacEnc.low - 512).toNat = u.cabacEnc.low.toNat - 512 := by
    have h512 : (512 : Word).toNat = 512 := rfl
    rw [BitVec.toNat_sub, h512]
    omega
  refine ⟨rfl, ?_, ?_, ?_, hrange, fun h => ?_, fun w hw => ?_⟩
  · have hpos := Nat.two_pow_pos u.cabacEnc.outstanding
    simp only [cabacCode_eq, cabacBase, Engine.setCabacEnc_cabacEnc, Engine.setCabacEnc_sink, hlow]
    have hpow : 2 ^ (10 + (u.cabacEnc.outstanding + 1)) = 2 * 2 ^ (10 + u.cabacEnc.outstanding) := by
      rw [← Nat.add_assoc, Nat.pow_succ, Nat.mul_comm]
    rw [hpow, Nat.mul_left_comm, Nat.pow_succ]
    omega
  · show u.sink.length + (u.cabacEnc.outstanding + 1) + (if u.cabacEnc.firstBit then 0 else 1) = cabacShifts u + 1
    rw [cabacShifts]
    omega
  · simp only [Engine.setCabacEnc_cabacEnc, hlow]
    omega
  · obtain ⟨hle, hnil⟩ := hone h
    simp only [Engine.setCabacEnc_cabacEnc, Engine.setCabacEnc_sink, hlow]
    exact ⟨by omega, hnil⟩
  · have hlt := hcount w hw
    have hne := counterFull_eq_false.mp (hroom hs) w hw
    simp only [Engine.setCabacEnc_cabacEnc]
    omega

/-- Where the output of one bit goes on, it has put the bit out. -/
theorem ShiftedOut.bitOut {p : Params} {u t : Engine} {r : Res Unit} (h : ShiftedOut p u r) (hu : DoubledBounds p u)
    (hr : r = .ok () t) : BitOut p u t := by
  cases h with
  | overflow t hs hfull => cases hr
  | refused t hs h => cases hr
  | done n hmem hroom =>
    cases hr
    obtain ⟨hrange, hcode, hshifts, hsum, hle, hfirst, hcount⟩ := bitOut_shiftOut hu hroom
    exact ⟨hrange, hcode, hshifts, hsum, hle, hfirst, hcount⟩

end Sys2Proof.Machine
end

section
/-! SUPPORT. CABAC renormalization (R187, R202): how many doublings a range needs, and RenormE as a whole: what it does to the
code number where it goes on, and when it meets a full counter. -/

namespace Sys2Proof.Machine

open Sys2Proof

/-! ### The number of doublings -/

/-- The doublings that bring a range of 1 to 511 to 256 or more (R187, R202). -/
def renormCount (r : Nat) : Nat := 8 - Nat.log2 r

theorem renormCount_of_ge {r : Nat} (h : 256 ≤ r) : renormCount r = 0 := by
  have hlog : 8 ≤ r.log2 := (Nat.le_log2 (by omega)).mpr h
  rw [renormCount]
  omega

/-- A range below 256 needs one doubling more than its double. -/
theorem renormCount_of_lt {r : Nat} (h0 : 1 ≤ r) (h : r < 256) : renormCount r = renormCount (2 * r) + 1 := by
  have hlog : r.log2 < 8 := (Nat.log2_lt (by omega)).mpr h
  rw [renormCount, renormCount, Nat.log2_two_mul (by omega)]
  omega

theorem renormCount_le {r k : Nat} (hk : k ≤ 8) (h : 2 ^ (8 - k) ≤ r) : renormCount r ≤ k := by
  have hpos := Nat.two_pow_pos (8 - k)
  have hlog : 8 - k ≤ r.log2 := (Nat.le_log2 (by omega)).mpr h
  rw [renormCount]
  omega

/-- The doublings reach 256 and do not pass 510 (R199). -/
theorem renormCount_bounds {r : Nat} (h0 : 1 ≤ r) (h : r ≤ 510) :
    256 ≤ 2 ^ renormCount r * r ∧ 2 ^ renormCount r * r ≤ 510 := by
  have hle := renormCount_le (k := 8) (r := r) le_rfl h0
  generalize hn : renormCount r = n at hle
  induction n generalizing r with
  | zero =>
    by_cases hr : 256 ≤ r
    · omega
    · rw [renormCount_of_lt h0 (by omega)] at hn
      cases hn
  | succ n ih =>
    by_cases hr : 256 ≤ r
    · rw [renormCount_of_ge hr] at hn
      cases hn
    · rw [renormCount_of_lt h0 (by omega)] at hn
      have hrest := ih (r := 2 * r) (by omega) (by omega) (by omega) (by omega)
      rwa [Nat.pow_succ, Nat.mul_assoc]

/-! ### RenormE -/

/-- The registers doubled (R187). -/
theorem renormEShift_low {e : Engine} (h : e.cabacEnc.low.toNat ≤ 1024) :
    (renormEShift e).cabacEnc.low.toNat = 2 * e.cabacEnc.low.toNat := by
  simp only [renormEShift, Engine.setCabacEnc_cabacEnc, CabacEnc.setRange_low, BitVec.toNat_shiftLeft, Nat.shiftLeft_eq]
  omega

theorem renormEShift_range {e : Engine} (h : e.cabacEnc.range9.toNat < 256) :
    (renormEShift e).cabacEnc.range9.toNat = 2 * e.cabacEnc.range9.toNat := by
  simp only [renormEShift, Engine.setCabacEnc_cabacEnc, CabacEnc.setRange_range9, BitVec.toNat_shiftLeft, Nat.shiftLeft_eq,
    CabacEnc.range_toNat]
  omega

theorem doubledBounds_renormEShift {p : Params} {e : Engine} (he : EncBounds p e) (h : e.cabacEnc.range9.toNat < 256) :
    DoubledBounds p (renormEShift e) := by
  obtain ⟨hsum, -, hfirst, hcount⟩ := he
  have hlow := renormEShift_low (e := e) (by omega)
  have hrange := renormEShift_range h
  refine ⟨by omega, by omega, fun hf => ?_, hcount⟩
  obtain ⟨hle, hnil⟩ := hfirst hf
  exact ⟨by omega, hnil⟩

/-- A pass of RenormE, and the rest of the loop. -/
theorem cabacRenormE_of_lt (p : Params) (n : Nat) {e : Engine} (h : e.cabacEnc.range9.toNat < 256) :
    cabacRenormE p (n + 1) e =
      ((renormEClassify p e).andThen fun _ t => .ok () (renormEShift t)).andThen fun _ t => cabacRenormE p n t := by
  rw [cabacRenormE, CabacEnc.range_toNat, if_pos h, andThen_assoc]
  rfl

theorem cabacRenormE_of_ge (p : Params) (n : Nat) {e : Engine} (h : 256 ≤ e.cabacEnc.range9.toNat) :
    cabacRenormE p n e = .ok () e := by
  cases n with
  | zero => rfl
  | succ n => rw [cabacRenormE, CabacEnc.range_toNat, if_neg (by omega)]

/-- What `n` passes of RenormE make of a session: range and code number are doubled `n` times, `n` more bits are counted,
and the bounds hold. -/
structure Renormed (p : Params) (n : Nat) (e t : Engine) : Prop where
  range : t.cabacEnc.range9.toNat = 2 ^ n * e.cabacEnc.range9.toNat
  code : cabacCode t = 2 ^ n * cabacCode e
  shifts : cabacShifts t = cabacShifts e + n
  bounds : EncBounds p t

/-- A pass that goes on doubles range and code number. -/
theorem bitOut_renormed {p : Params} {e t : Engine} (h : BitOut p (renormEShift e) t) (he : EncBounds p e)
    (hr : e.cabacEnc.range9.toNat < 256) : Renormed p 1 e t := by
  obtain ⟨hrange, hcode, hshifts, hbounds⟩ := h
  have hsum := he.sum
  have hbase : cabacBase (renormEShift e) = cabacBase e := rfl
  refine ⟨by rw [hrange, renormEShift_range hr, Nat.pow_one], ?_, hshifts, hbounds⟩
  rw [hcode, renormEShift_low (by omega), hbase, cabacCode_eq]
  omega

theorem Renormed.trans {p : Params} {m n : Nat} {e t u : Engine} (h : Renormed p m e t) (h' : Renormed p n t u) :
    Renormed p (n + m) e u :=
  ⟨by rw [h'.range, h.range, Nat.pow_add, Nat.mul_assoc], by rw [h'.code, h.code, Nat.pow_add, Nat.mul_assoc],
    by rw [h'.shifts, h.shifts]; omega, h'.bounds⟩

/-- Where RenormE goes on, on any sink and with any counter, it makes the passes that the range needs (R187). -/
theorem renormed_of_ok {p : Params} {n : Nat} {e t : Engine} (he : EncBounds p e) (h0 : 1 ≤ e.cabacEnc.range9.toNat)
    (hn : renormCount e.cabacEnc.range9.toNat ≤ n) (ht : cabacRenormE p n e = .ok () t) :
    Renormed p (renormCount e.cabacEnc.range9.toNat) e t := by
  induction n generalizing e with
  | zero =>
    cases ht
    rw [Nat.le_zero.mp hn]
    exact ⟨by omega, by omega, rfl, he⟩
  | succ n ih =>
    by_cases hr : e.cabacEnc.range9.toNat < 256
    · rw [cabacRenormE_of_lt p n hr] at ht
      obtain ⟨_, e₁, hstep, ht⟩ := andThen_eq_ok.mp ht
      have hsum := he.sum
      have hpass := bitOut_renormed
        ((renormE_shiftedOut p (by omega)).bitOut (doubledBounds_renormEShift he hr) hstep) he hr
      have hrange := hpass.range
      rw [Nat.pow_one] at hrange
      rw [renormCount_of_lt h0 hr, ← hrange] at hn ⊢
      exact hpass.trans (ih hpass.bounds (by omega) (by omega) ht)
    · rw [cabacRenormE_of_ge p _ (by omega)] at ht
      cases ht
      rw [renormCount_of_ge (by omega)]
      exact ⟨by omega, by omega, rfl, he⟩

/-! ### The counter -/

/-- A finite counter has too little room for `n` passes (R186). -/
def Overflows (p : Params) (e : Engine) (n : Nat) : Prop :=
  ∃ w ∈ p.outstandingW, CounterShort w e.cabacEnc.outstanding e.cabacEnc.low.toNat n

/-- An unbounded counter has room. -/
theorem not_overflows_of_unbounded {p : Params} (h : p.outstandingW = none) (e : Engine) (n : Nat) :
    ¬Overflows p e n := by
  rintro ⟨w, hw, -⟩
  rw [h] at hw
  cases hw

/-- A pass that straddles where the counter is full is one too many. -/
theorem counterShort_of_full {w low n : Nat} (hlo : 256 ≤ low) (hhi : low < 512) :
    CounterShort w (2 ^ w - 1) low (n + 1) := by
  rw [CounterShort, Nat.sub_self, Nat.pow_zero]
  omega

/-- A pass that straddles takes one from the room, and doubles the distance of `low` from 512. -/
theorem counterShort_of_straddle {w k low n : Nat} (hlo : 256 ≤ low) (hk : k < 2 ^ w - 1) :
    CounterShort w (k + 1) (2 * low - 512) n ↔ CounterShort w k low (n + 1) := by
  have hroom : 2 ^ w - 1 - k = (2 ^ w - 1 - (k + 1)) + 1 := by omega
  have hdist : 512 - (2 * low - 512) = 2 * (512 - low) := by omega
  rw [CounterShort, CounterShort, hroom, hdist, Nat.pow_succ, Nat.mul_assoc]
  omega

/-- A pass that does not straddle leaves a counter of 16 bits or more with room for the rest of the passes. -/
theorem not_counterShort_of_not_straddle {w k low n : Nat} (h : low < 256 ∨ 512 ≤ low) : ¬CounterShort w k low n := by
  rintro ⟨-, hlt, hle⟩
  have := Nat.le_mul_of_pos_left (512 - low) (Nat.two_pow_pos (2 ^ w - 1 - k))
  omega

theorem not_counterShort_of_settled {w low n : Nat} (hw : 16 ≤ w) (hn : n ≤ 8) : ¬CounterShort w 0 low n := by
  rintro ⟨hlt, -, -⟩
  have := Nat.pow_le_pow_right (n := 2) (by decide) hw
  omega

/-- The step of the counter's condition along a pass that goes on. -/
theorem overflows_pass {p : Params} {e : Engine} {n : Nat} (hw : ∀ w ∈ p.outstandingW, 16 ≤ w) (he : EncBounds p e)
    (hn : n ≤ 8) (hroom : Straddles (renormEShift e) → counterFull p e.cabacEnc.outstanding = false) :
    Overflows p (shiftOut (renormEShift e)) n ↔ Overflows p e (n + 1) := by
  have hlow := renormEShift_low (e := e) (by have := he.sum; omega)
  refine exists_congr fun w => and_congr_right fun hwp => ?_
  by_cases hs : Straddles (renormEShift e)
  · have hcount := he.counter w hwp
    have hne := counterFull_eq_false.mp (hroom hs) w hwp
    have hlow' : (shiftOut (renormEShift e)).cabacEnc.low.toNat = 2 * e.cabacEnc.low.toNat - 512 := by
      have h512 : (512 : Word).toNat = 512 := rfl
      rw [shiftOut_of_straddles hs, Engine.setCabacEnc_cabacEnc, BitVec.toNat_sub, hlow, h512]
      have := hs.1
      omega
    have hout : (shiftOut (renormEShift e)).cabacEnc.outstanding = e.cabacEnc.outstanding + 1 := by
      rw [shiftOut_of_straddles hs]
      rfl
    rw [hlow', hout]
    exact counterShort_of_straddle (by have := hs.1; omega) (by omega)
  · have hout : (shiftOut (renormEShift e)).cabacEnc.outstanding = 0 := by
      unfold Straddles at hs
      by_cases hlt : (renormEShift e).cabacEnc.low.toNat < 512
      · rw [shiftOut_of_lt hlt]
        rfl
      · rw [shiftOut_of_ge (by omega)]
        rfl
    rw [hout]
    unfold Straddles at hs
    exact iff_of_false (not_counterShort_of_settled (hw w hwp) hn) (not_counterShort_of_not_straddle (by omega))

/-- RenormE on an `InMemory` sink, with a counter that is unbounded or of 16 bits or more: it raises COUNTER_OVERFLOW exactly
where the passes that straddle from the first one on are more than the counter has room for (R186, R187). -/
theorem cabacRenormE_inMemory {p : Params} {n : Nat} {e : Engine} (hmem : p.sinkMode = .inMemory)
    (hw : ∀ w ∈ p.outstandingW, 16 ≤ w) (he : EncBounds p e) (h0 : 1 ≤ e.cabacEnc.range9.toNat)
    (hn : renormCount e.cabacEnc.range9.toNat ≤ n) (hn8 : n ≤ 8) :
    (Overflows p e (renormCount e.cabacEnc.range9.toNat) → ∃ t, cabacRenormE p n e = .raised .counterOverflow t) ∧
    (¬Overflows p e (renormCount e.cabacEnc.range9.toNat) → ∃ t, cabacRenormE p n e = .ok () t) := by
  have hnone : ¬Overflows p e 0 := fun ⟨w, _, h⟩ => Nat.not_lt_zero _ h.1
  induction n generalizing e with
  | zero =>
    rw [Nat.le_zero.mp hn]
    exact ⟨fun h => absurd h hnone, fun _ => ⟨e, rfl⟩⟩
  | succ n ih =>
    by_cases hr : e.cabacEnc.range9.toNat < 256
    · rw [cabacRenormE_of_lt p n hr, renormCount_of_lt h0 hr]
      rw [renormCount_of_lt h0 hr] at hn
      have hsum := he.sum
      have hstep := renormE_shiftedOut p (e := e) (by omega)
      generalize ((renormEClassify p e).andThen fun _ t => .ok () (renormEShift t)) = r at hstep
      cases hstep with
      | refused t hs h => rw [hmem] at h; cases h
      | overflow t hs hfull =>
        refine ⟨fun _ => ⟨t, rfl⟩, fun h => absurd ?_ h⟩
        obtain ⟨w, hwp, hout⟩ := counterFull_eq_true.mp hfull
        have hout : e.cabacEnc.outstanding = 2 ^ w - 1 := hout
        have hlow := renormEShift_low (e := e) (by omega)
        unfold Straddles at hs
        refine ⟨w, hwp, ?_⟩
        rw [hout]
        exact counterShort_of_full (by omega) (by omega)
      | done k hk hroom =>
        have hpass := bitOut_renormed (bitOut_shiftOut (doubledBounds_renormEShift he hr) hroom) he hr
        have hrange := hpass.range
        rw [Nat.pow_one] at hrange
        have hoff : (shiftOut (renormEShift e)).setOffers k = shiftOut (renormEShift e) := by
          rw [hk hmem, ← shiftOut_offers]
          rfl
        rw [← hrange] at hn ⊢
        rw [hoff, andThen_ok, ← overflows_pass hw he (by omega) hroom]
        exact ih hpass.bounds (by omega) (by omega) (by omega) fun ⟨w, _, h⟩ => Nat.not_lt_zero _ h.1
    · rw [cabacRenormE_of_ge p _ (by omega), renormCount_of_ge (by omega)]
      exact ⟨fun h => absurd h hnone, fun _ => ⟨e, rfl⟩⟩

end Sys2Proof.Machine
end

section
/-! SUPPORT. The CABAC encoder commands (R189 to R192): the part of the interval that each selects, what RenormE makes of it, and
the bits of the flush. -/

namespace Sys2Proof.Machine

open Sys2Proof

/-! ### The checks and the end of a command -/

/-- An encoder command passes the checks of R130 in an open session of its family with its operands in range. -/
theorem checkCommand_encoding {i : Instr} (hi : IsEncoder i) {p : Params} {e : Engine} (he : Encoding i.family e)
    (hl : ∀ l ∈ laneOperand i, l < e.laneCount) (hc : ∀ c ∈ ctxOperand i, c < p.numCtx) :
    checkCommand p e i.family i.op (laneOperand i) (ctxOperand i) = .ok := by
  obtain ⟨hph, hfam⟩ := he
  have hfits : phaseFits e.phase i.op = true := by
    rcases hi with hi | hi | hi | hi <;> rw [hph, hi] <;> rfl
  rw [checkCommand_eq_ok, legalNow_iff]
  exact ⟨.inr (.inr ⟨hfam.symm, hfits⟩), hl, hc⟩

/-- A decoder command passes the checks of R130 in an open session of its family with its operands in range. -/
theorem checkCommand_decoding {i : Instr} (hi : IsDecoder i) {p : Params} {e : Engine} (he : Decoding i.family e)
    (hl : ∀ l ∈ laneOperand i, l < e.laneCount) (hc : ∀ c ∈ ctxOperand i, c < p.numCtx) :
    checkCommand p e i.family i.op (laneOperand i) (ctxOperand i) = .ok := by
  obtain ⟨hph, hfam⟩ := he
  have hfits : phaseFits e.phase i.op = true := by
    rcases hi with hi | hi | hi <;> rw [hph, hi] <;> rfl
  rw [checkCommand_eq_ok, legalNow_iff]
  exact ⟨.inr (.inr ⟨hfam.symm, hfits⟩), hl, hc⟩

/-- A command that passes the checks of R130, and whose rule raises an error, ends in that error. -/
theorem raises_of_body {i : Instr} {s : State} {e u : Engine} {code : Status} (he : s.engine? = some e)
    (hl : checkCommand s.params e i.family i.op (laneOperand i) (ctxOperand i) = .ok)
    (hb : instrBody i s.params e = .raised code u) : Raises i s e code (raiseErr (opBits i.op) code u) := by
  obtain ⟨hidx, hresp⟩ := instrBody_reports i s.params e
  rw [hb] at hidx hresp
  refine ⟨?_, rfl, rfl, congrArg (· + 1) hidx, congrArg (List.cons _) hresp⟩
  rw [exec_eq_commandEffect he, commandEffect_legal hl, hb, settle_raised]

/-! ### The selected part of the interval -/

/-- Every entry of `rangeTabLPS` is positive, and leaves at least 128 of any range it is for (R150, R189). -/
theorem rangeTabLPS_bounds : ∀ x, x < 64 → ∀ q, q < 4 → 2 ≤ rangeTabLPS x q ∧ rangeTabLPS x q + 128 ≤ 256 + 64 * q := by
  decide

/-- `rLPS` of a context at a range (R189, R211). -/
def lpsWidth (c : CabacCtx) (range : Nat) : Nat := rangeTabLPS c.s.toNat (range / 2 ^ 6 % 4)

theorem two_le_lpsWidth (c : CabacCtx) (range : Nat) : 2 ≤ lpsWidth c range :=
  (rangeTabLPS_bounds _ c.s.isLt _ (Nat.mod_lt _ (by decide))).1

theorem lpsWidth_le (c : CabacCtx) (range : Nat) : lpsWidth c range ≤ 320 := by
  have hq : range / 2 ^ 6 % 4 < 4 := Nat.mod_lt _ (by decide)
  have := (rangeTabLPS_bounds _ c.s.isLt _ hq).2
  rw [lpsWidth]
  omega

theorem lpsWidth_add_le (c : CabacCtx) {range : Nat} (h0 : 256 ≤ range) (h : range < 512) :
    lpsWidth c range + 128 ≤ range := by
  have := (rangeTabLPS_bounds _ c.s.isLt (range / 2 ^ 6 % 4) (Nat.mod_lt _ (by decide))).2
  rw [lpsWidth]
  omega

/-- Where the part of the interval that a bin selects begins (R189). -/
def binLow (c : CabacCtx) (b : Bool) (range : Nat) : Nat := if b = c.mps then 0 else range - lpsWidth c range

/-- How wide it is. -/
def binWidth (c : CabacCtx) (b : Bool) (range : Nat) : Nat := if b = c.mps then range - lpsWidth c range else lpsWidth c range

theorem binWidth_bounds (c : CabacCtx) (b : Bool) {range : Nat} (h0 : 256 ≤ range) (h : range < 512) :
    1 ≤ binWidth c b range ∧ binLow c b range + binWidth c b range ≤ range := by
  have h2 := two_le_lpsWidth c range
  have hle := lpsWidth_add_le c h0 h
  unfold binWidth binLow
  split <;> omega

theorem rangeSub_toNat {range : Word} {amount : Nat} (h : amount ≤ range.toNat) :
    (rangeSub range amount).toNat = range.toNat - amount := by
  have := range.isLt
  rw [rangeSub, if_pos h, BitVec.toNat_sub, BitVec.toNat_ofNat]
  omega

/-- `u` is `e` with the part of the interval selected that begins at `lo` and is `width` wide. -/
structure Narrowed (lo width : Nat) (e u : Engine) : Prop where
  low : u.cabacEnc.low.toNat = e.cabacEnc.low.toNat + lo
  range : u.cabacEnc.range9.toNat = width
  outstanding : u.cabacEnc.outstanding = e.cabacEnc.outstanding
  firstBit : u.cabacEnc.firstBit = e.cabacEnc.firstBit
  sink : u.sink = e.sink
  pos : 1 ≤ width
  le : lo + width ≤ e.cabacEnc.range9.toNat

section
variable {p : Params} {lo width : Nat} {e u : Engine}

theorem Narrowed.code (h : Narrowed lo width e u) : cabacCode u = cabacCode e + lo := by
  rw [cabacCode, cabacCode, h.sink, h.outstanding, h.low, Nat.add_assoc _ _ lo]

theorem Narrowed.shifts (h : Narrowed lo width e u) : cabacShifts u = cabacShifts e := by
  rw [cabacShifts, cabacShifts, h.sink, h.outstanding, h.firstBit]

/-- A part of an interval in bounds is in bounds. -/
theorem Narrowed.bounds (h : Narrowed lo width e u) (he : EncBounds p e) : EncBounds p u := by
  obtain ⟨hsum, hrange, hfirst, hcount⟩ := he
  obtain ⟨hlow, hwidth, hout, hfb, hsink, -, hle⟩ := h
  refine ⟨by omega, by omega, fun hf => ?_, by rw [hout]; exact hcount⟩
  obtain ⟨hle', hnil⟩ := hfirst (hfb ▸ hf)
  exact ⟨by omega, hsink.trans hnil⟩

end

/-- A bin coded: `t` is `e` with a part of its interval selected and renormalized (R189, R191). -/
structure BinCoded (p : Params) (lo width : Nat) (e t : Engine) : Prop where
  range : t.cabacEnc.range9.toNat = 2 ^ renormCount width * width
  code : cabacCode t = 2 ^ renormCount width * (cabacCode e + lo)
  shifts : cabacShifts t = cabacShifts e + renormCount width
  inv : CabacEncInv p t

section
variable {p : Params} {lo width : Nat} {e u t : Engine}

/-- Where RenormE goes on after the selection of a part, the bin is coded. -/
theorem Narrowed.binCoded (h : Narrowed lo width e u) (he : EncBounds p e)
    (ht : cabacRenormE p renormPasses u = .ok () t) : BinCoded p lo width e t := by
  have hpos := h.pos
  have hu := h.bounds he
  have hwidth := h.range
  have hle := hu.range_le
  have hn : renormCount u.cabacEnc.range9.toNat ≤ renormPasses := renormCount_le (k := 8) le_rfl (by omega)
  have hren := renormed_of_ok hu (by omega) hn ht
  obtain ⟨hrange, hcode, hshifts, hbounds⟩ := hren
  rw [hwidth] at hrange hcode hshifts
  obtain ⟨h256, -⟩ := renormCount_bounds (r := width) (by omega) (by omega)
  exact ⟨hrange, by rw [hcode, h.code], by rw [hshifts, h.shifts], cabacEncInv_iff.mpr ⟨by omega, hbounds⟩⟩

/-- The counter's condition of R186 for a part that begins at `lo` and needs `n` passes. -/
theorem Narrowed.overflows_iff (h : Narrowed lo width e u) (n : Nat) :
    Overflows p u n ↔ ∃ w ∈ p.outstandingW, CounterShort w e.cabacEnc.outstanding (e.cabacEnc.low.toNat + lo) n := by
  rw [Overflows, h.outstanding, h.low]

/-- RenormE after the selection of a part, on an `InMemory` sink: it raises COUNTER_OVERFLOW or goes on (R186, R187). -/
theorem Narrowed.renormE_cases (h : Narrowed lo width e u) (he : EncBounds p e) (hmem : p.sinkMode = .inMemory)
    (hw : ∀ w ∈ p.outstandingW, 16 ≤ w) :
    (Overflows p u (renormCount width) → ∃ t, cabacRenormE p renormPasses u = .raised .counterOverflow t) ∧
    (¬Overflows p u (renormCount width) → ∃ t, cabacRenormE p renormPasses u = .ok () t) := by
  have hpos := h.pos
  have hwidth := h.range
  have hn : renormCount u.cabacEnc.range9.toNat ≤ renormPasses := renormCount_le (k := 8) le_rfl (by omega)
  rw [← hwidth]
  exact cabacRenormE_inMemory hmem hw (h.bounds he) (by omega) hn le_rfl

end

/-! ### PUT -/

/-- The engine of `cabac.put` before RenormE (R189). -/
def putSelected (p : Params) (b : Bool) (c : Nat) (e : Engine) : Engine :=
  cabacCtxUpdate p c b (e.setCabacEnc (cabacEncodeInterval (cabacCtxGet e c) b e.cabacEnc))

theorem cabacPutBody_eq (p : Params) (b : Bool) (c : Nat) (e : Engine) :
    cabacPutBody b c p e = (cabacRenormE p renormPasses (putSelected p b c e)).andThen fun _ t => .ok .none t := rfl

/-- The interval step of PUT selects the part of its bin (R189). -/
theorem putSelected_narrowed {p : Params} (b : Bool) (c : Nat) {e : Engine} (h : CabacEncInv p e) :
    Narrowed (binLow (cabacCtxGet e c) b e.cabacEnc.range9.toNat) (binWidth (cabacCtxGet e c) b e.cabacEnc.range9.toNat) e
      (putSelected p b c e) := by
  obtain ⟨h256, hsum, hrange, -, -⟩ := cabacEncInv_iff.mp h
  obtain ⟨hpos, hle⟩ := binWidth_bounds (cabacCtxGet e c) b h256 e.cabacEnc.range9.isLt
  have hlps := lpsWidth_add_le (cabacCtxGet e c) h256 e.cabacEnc.range9.isLt
  have h320 := lpsWidth_le (cabacCtxGet e c) e.cabacEnc.range9.toNat
  have hrLPS : lpsRange (cabacCtxGet e c) e.cabacEnc.range = lpsWidth (cabacCtxGet e c) e.cabacEnc.range9.toNat := by
    rw [lpsRange, rangeQuant, CabacEnc.range_toNat]
    rfl
  have hsub := rangeSub_toNat (range := e.cabacEnc.range) (amount := lpsWidth (cabacCtxGet e c) e.cabacEnc.range9.toNat)
    (by rw [CabacEnc.range_toNat]; omega)
  rw [CabacEnc.range_toNat] at hsub
  have hreg : (putSelected p b c e).cabacEnc = cabacEncodeInterval (cabacCtxGet e c) b e.cabacEnc := rfl
  refine ⟨?_, ?_, ?_, ?_, rfl, hpos, hle⟩ <;> rw [hreg, cabacEncodeInterval, hrLPS]
  · unfold binLow
    split
    · rfl
    · simp only [CabacEnc.setRange_low, BitVec.toNat_add, hsub]
      omega
  · unfold binWidth
    split
    · rw [CabacEnc.setRange_range9, hsub]
      omega
    · rw [CabacEnc.setRange_range9, BitVec.toNat_ofNat]
      omega
  · split <;> rfl
  · split <;> rfl

/-! ### PUT_BYPASS -/

/-- The doubled `low` of a bypass bin as a number (R190). -/
theorem bypassLow_low (b : Bool) {e : Engine}
    (h : 2 * e.cabacEnc.low.toNat + (if b then e.cabacEnc.range9.toNat else 0) < 2 ^ 32) :
    (bypassLow b e).cabacEnc.low.toNat = 2 * e.cabacEnc.low.toNat + if b then e.cabacEnc.range9.toNat else 0 := by
  cases b <;>
    simp only [bypassLow, Engine.setCabacEnc_cabacEnc, BitVec.toNat_add, BitVec.toNat_shiftLeft, Nat.shiftLeft_eq,
      CabacEnc.range_toNat, if_true, Bool.false_eq_true, if_false] at h ⊢ <;> omega

theorem doubledBounds_bypassLow {p : Params} (b : Bool) {e : Engine} (h : EncBounds p e) :
    DoubledBounds p (bypassLow b e) := by
  obtain ⟨hsum, hrange, hfirst, hcount⟩ := h
  have hb : (if b then e.cabacEnc.range9.toNat else 0) ≤ e.cabacEnc.range9.toNat := by split <;> omega
  have hlow := bypassLow_low b (e := e) (by omega)
  have hreg : (bypassLow b e).cabacEnc.range9 = e.cabacEnc.range9 := rfl
  refine ⟨by rw [hreg]; omega, hrange, fun hf => ?_, hcount⟩
  obtain ⟨hle, hnil⟩ := hfirst hf
  exact ⟨by rw [hreg]; omega, hnil⟩

/-- Where the output of a bypass bin's bit goes on, the code number is doubled and the range added for a one (R190). -/
theorem bypass_coded {p : Params} {b : Bool} {e t : Engine} (h : CabacEncInv p e) (hb : BitOut p (bypassLow b e) t) :
    t.cabacEnc.range9 = e.cabacEnc.range9 ∧
    cabacCode t = 2 * cabacCode e + (if b then e.cabacEnc.range9.toNat else 0) ∧
    cabacShifts t = cabacShifts e + 1 ∧ CabacEncInv p t := by
  obtain ⟨h256, hbounds⟩ := cabacEncInv_iff.mp h
  obtain ⟨hrange, hcode, hshifts, hbounds'⟩ := hb
  have hle := hbounds.range_le
  have hsum := hbounds.sum
  have hreg : (bypassLow b e).cabacEnc.range9 = e.cabacEnc.range9 := rfl
  rw [hreg] at hrange
  refine ⟨hrange, ?_, hshifts, cabacEncInv_iff.mpr ⟨by rw [hrange]; exact h256, hbounds'⟩⟩
  have hbase : cabacBase (bypassLow b e) = cabacBase e := rfl
  rw [hcode, bypassLow_low b (by split <;> omega), cabacCode_eq, hbase]
  omega

/-! ### PUT_TERM and FINISH -/

/-- A terminating bin of value 0 selects all but the top 2 of the interval (R191). -/
theorem termRange_narrowed {p : Params} {e : Engine} (h : CabacEncInv p e) :
    Narrowed 0 (e.cabacEnc.range9.toNat - 2) e (termRange e) := by
  obtain ⟨h256, hsum, hrange, -, -⟩ := cabacEncInv_iff.mp h
  refine ⟨rfl, ?_, rfl, rfl, rfl, by omega, by omega⟩
  rw [termRange, Engine.setCabacEnc_cabacEnc, CabacEnc.setRange_range9,
    rangeSub_toNat (by rw [CabacEnc.range_toNat]; omega), CabacEnc.range_toNat]
  omega

/-- The engine of the terminating bin of value 1 before RenormE (R188, R191, R192). -/
def termSelected (e : Engine) : Engine :=
  (termRange e).setCabacEnc
    ({ (termRange e).cabacEnc with low := (termRange e).cabacEnc.low + (termRange e).cabacEnc.range }.setRange 2)

/-- It selects the top 2 of the interval. -/
theorem termSelected_narrowed {p : Params} {e : Engine} (h : CabacEncInv p e) :
    Narrowed (e.cabacEnc.range9.toNat - 2) 2 e (termSelected e) := by
  obtain ⟨h256, hsum, hrange, -, -⟩ := cabacEncInv_iff.mp h
  have hterm := (termRange_narrowed h).range
  refine ⟨?_, rfl, rfl, rfl, rfl, by omega, by omega⟩
  show ((termRange e).cabacEnc.low + (termRange e).cabacEnc.range).toNat = _
  rw [BitVec.toNat_add, CabacEnc.range_toNat, hterm]
  show (e.cabacEnc.low.toNat + _) % 2 ^ 32 = _
  omega

/-- The bits of a session after the flush, before padding (R188). -/
def flushBits (t : Engine) : List Bool :=
  (bitPut (t.cabacEnc.low.getLsbD 9) t).sink ++ [t.cabacEnc.low.getLsbD 8, true]

/-- A session after the flush, with its last byte padded and the session ended (R75, R188, R192). -/
def flushed (t : Engine) : Engine :=
  ((bitPut (t.cabacEnc.low.getLsbD 9) t).setSink
    (flushBits t ++ List.replicate ((8 - (flushBits t).length % 8) % 8) false)).setPhase .finished

/-- On an `InMemory` sink the terminating bin of value 1 is RenormE, the flush and the end of the session (R191, R192). -/
theorem cabacTerminate_inMemory {p : Params} (hmem : p.sinkMode = .inMemory) (e : Engine) :
    cabacTerminate p e = (cabacRenormE p renormPasses (termSelected e)).andThen fun _ t =>
      .ok (.ofOut (flushed t).output) (flushed t) := by
  have htail : ∀ t : Engine, ((putBit p (t.cabacEnc.low.getLsbD 9) t).andThen fun _ t =>
      (writeBit p (t.cabacEnc.low.getLsbD 8) t).andThen fun _ t => writeBit p true t).andThen (fun _ t =>
        (sinkClose p t).andThen fun _ t => finishSession t) = .ok (.ofOut (flushed t).output) (flushed t) := fun t => by
    have hput := (putBit_written p (t.cabacEnc.low.getLsbD 9) t).inMemory hmem
    have hlow : (bitPut (t.cabacEnc.low.getLsbD 9) t).cabacEnc.low = t.cabacEnc.low := rfl
    have hbits : (bitPut (t.cabacEnc.low.getLsbD 9) t).sink ++ [t.cabacEnc.low.getLsbD 8] ++ [true] = flushBits t :=
      List.append_assoc _ _ _
    rw [hput]
    simp only [andThen_ok, writeBit_inMemory hmem, sinkClose_inMemory hmem, finishSession_eq, hlow, Engine.setSink_sink, hbits]
    rfl
  show ((cabacRenormE p renormPasses (termSelected e)).andThen _).andThen _ = _
  rw [andThen_assoc]
  exact congrArg _ (funext₂ fun _ t => htail t)

end Sys2Proof.Machine
end

section
/-! SUPPORT, then O24, O25 and O26. The CABAC encoder commands with unbounded counters, as exact numbers (R185 to R192). -/

namespace Sys2Proof.Machine

open Sys2Proof

/-! ### Bytes as a number -/

/-- A byte sequence spells the number that its bits spell (R70, R72). -/
theorem bytesValue_eq_bitsValue (vs : List Byte) : bytesValue vs = bitsValue (vs.flatMap byteBits) := by
  have hbyte : ∀ v : Byte, bitsValue (byteBits v) = v.toNat := by decide
  induction vs using List.reverseRecOn with
  | nil => rfl
  | append_singleton vs v ih =>
    have snoc : bytesValue (vs ++ [v]) = 256 * bytesValue vs + v.toNat := by simp [bytesValue, List.foldl_append]
    have hlen : (byteBits v).length = 8 := rfl
    rw [snoc, ih, List.flatMap_append, List.flatMap_singleton, bitsValue_append, hbyte, hlen]
    omega

/-- The bits of the complete bytes of a sequence of whole bytes are the sequence (R72). -/
theorem flatMap_completeBytes {xs : List Bool} (h : xs.length % 8 = 0) : (completeBytes xs).flatMap byteBits = xs := by
  have hbyte : ∀ b7 b6 b5 b4 b3 b2 b1 b0 : Bool,
      byteBits (byteOfBits b7 b6 b5 b4 b3 b2 b1 b0) = [b7, b6, b5, b4, b3, b2, b1, b0] := by decide
  induction xs using completeBytes.induct with
  | case1 b7 b6 b5 b4 b3 b2 b1 b0 bs ih =>
    have hbs : bs.length % 8 = 0 := (Nat.add_mod_right bs.length 8).symm.trans h
    rw [completeBytes, List.flatMap_cons, ih hbs, hbyte]
    rfl
  | case2 xs hshort =>
    have hnil : xs.length = 0 := by
      by_contra hpos
      have hlen : xs.length = xs.length - 8 + 8 := by omega
      obtain ⟨b7, b6, b5, b4, b3, b2, b1, b0, bs, hxs⟩ := exists_eight_cons hlen
      exact hshort b7 b6 b5 b4 b3 b2 b1 b0 bs hxs
    rw [List.length_eq_zero_iff.mp hnil]
    rfl

/-- The complete bytes of a sequence of whole bytes: their number, and the number they spell. -/
theorem completeBytes_spells {xs : List Bool} (h : xs.length % 8 = 0) :
    8 * (completeBytes xs).length = xs.length ∧ bytesValue (completeBytes xs) = bitsValue xs := by
  rw [← flatMap_byteBits_length, bytesValue_eq_bitsValue, flatMap_completeBytes h]
  exact ⟨rfl, rfl⟩

/-! ### PUT -/

/-- A context of CABAC in a session that meets the invariant is never in state 63 (R153). -/
theorem cabacCtx_s_lt {p : Params} {e : Engine} (h : CtxInv p e) (hf : e.fam = .cabac) (c : Nat) :
    (cabacCtxGet e c).s.toNat < 63 := by
  have hreach := ctxReachable_ctxGet h c
  rw [hf, ctxReachable, decide_eq_true_eq] at hreach
  rw [cabacCtxGet, CabacCtx.unpack_s_toNat]
  omega

/-- The passes after an MPS and after an LPS (R189, R410). -/
theorem renormCount_binWidth_le {c : CabacCtx} (b : Bool) {range : Nat} (hs : c.s.toNat < 63) (h0 : 256 ≤ range)
    (h : range < 512) : renormCount (binWidth c b range) ≤ if b = c.mps then 1 else 6 := by
  have hle := lpsWidth_add_le c h0 h
  have h6 := six_le_rangeTabLPS c.s.toNat hs (range / 2 ^ 6 % 4) (Nat.mod_lt _ (by decide))
  unfold binWidth
  split
  · exact renormCount_le (by decide) (by omega)
  · exact renormCount_le (by decide) (by rw [lpsWidth]; omega)

/-- Unpacking undoes packing (R41). -/
theorem CabacCtx.unpack_pack (c : CabacCtx) : CabacCtx.unpack c.pack = c := by
  have key : ∀ (s : BitVec 6) (mps : Bool), CabacCtx.unpack (CabacCtx.pack ⟨s, mps⟩) = ⟨s, mps⟩ := by decide
  exact key c.s c.mps

/-- What an update of a CABAC context makes of every entry (R154). -/
theorem cabacCtxUpdate_entries {e t : Engine} (p : Params) (c : Nat) (b : Bool)
    (h : Memory.wf (some (initialCtx e.fam)) e.ctx) (hf : t.fam = e.fam) (ht : t.ctx = (cabacCtxUpdate p c b e).ctx) :
    cabacCtxGet t c = cabacUpdate p.cabacSwapTest (cabacCtxGet e c) b ∧ ∀ a, a ≠ c → ctxGet t a = ctxGet e a := by
  have hget : ∀ a, ctxGet t a = if a = c then (cabacUpdate p.cabacSwapTest (cabacCtxGet e c) b).pack else ctxGet e a :=
    fun a => by
      have hsame : ctxGet t a = ctxGet (cabacCtxUpdate p c b e) a := by
        rw [ctxGet, ctxGet, ht, hf]
        rfl
      rw [hsame]
      exact ctxGet_ctxSet c a _ h
  refine ⟨?_, fun a ha => ?_⟩
  · rw [cabacCtxGet, hget, if_pos rfl, CabacCtx.unpack_pack]
  · rw [hget, if_neg ha]

/-- Everything but the coder registers and the sink after `cabac.put` (R189). -/
theorem cabacPut_frame {p : Params} {b : Bool} {c : Nat} {e t : Engine}
    (ht : cabacRenormE p renormPasses (putSelected p b c e) = .ok () t) :
    t.phase = e.phase ∧ t.fam = e.fam ∧ t.ctx = (cabacCtxUpdate p c b e).ctx := by
  have hframe := cabacRenormE_frame p renormPasses (putSelected p b c e)
  rw [ht] at hframe
  obtain ⟨r, bs, n, hu⟩ := hframe
  rw [Res.engine_ok] at hu
  rw [hu]
  exact ⟨rfl, rfl, rfl⟩

/-- With an unbounded counter on an `InMemory` sink RenormE goes on. -/
theorem Narrowed.renormE_ok {p : Params} {lo width : Nat} {e u : Engine} (h : Narrowed lo width e u)
    (he : EncBounds p e) (hun : Unbounded p) : ∃ t, cabacRenormE p renormPasses u = .ok () t := by
  obtain ⟨hmem, hout, -⟩ := hun
  refine (h.renormE_cases he hmem fun w hw => ?_).2 (not_overflows_of_unbounded hout u _)
  rw [hout] at hw
  cases hw

/-- Settles O24: PUT selects a part of the interval and renormalizes it, and the output of each bit keeps the code
number. -/
theorem cabacPutExact : Obligations.CabacPutExact := by
  intro s e b c he hinv hun henc hc ctx rLPS r1
  have hbounds := (cabacEncInv_iff.mp (hinv.cabacEnc henc)).2
  have h256 := (cabacEncInv_iff.mp (hinv.cabacEnc henc)).1
  have hnarrow := putSelected_narrowed (p := s.params) b c (hinv.cabacEnc henc)
  obtain ⟨t, ht⟩ := hnarrow.renormE_ok hbounds hun
  obtain ⟨hrange, hcode, hshifts, h256', h510, -⟩ := hnarrow.binCoded hbounds ht
  obtain ⟨hph, hfam, hctx⟩ := cabacPut_frame ht
  have hl := checkCommand_encoding (i := .cabacPut b c) (.inl rfl) henc nofun (p := s.params) fun x hx => by
    cases hx
    exact hc
  have hb : instrBody (.cabacPut b c) s.params e = .ok .none t := by
    show cabacPutBody b c s.params e = _
    rw [cabacPutBody_eq, ht, andThen_ok]
  obtain ⟨hwf, -⟩ := hinv.ctx
  have hle := renormCount_binWidth_le b (cabacCtx_s_lt hinv.ctx henc.2 c) h256 e.cabacEnc.range9.isLt
  have hentries := cabacCtxUpdate_entries s.params c b hwf hfam hctx
  rw [← CabacEnc.range_toNat] at hrange hcode hshifts hle
  rw [← CabacEnc.range_toNat] at hrange
  exact ⟨_, _, completes_of_body he hl hb, hph.trans henc.1, hrange, h256', h510, hle, hcode, hshifts, hentries⟩

/-! ### PUT_BYPASS and PUT_TERM 0 -/

/-- The output of one bit leaves everything but the coder registers and the sink. -/
theorem ShiftedOut.frame {p : Params} {u t : Engine} {r : Res Unit} (h : ShiftedOut p u r) (hr : r = .ok () t) :
    t.phase = u.phase ∧ t.fam = u.fam ∧ t.ctx = u.ctx := by
  cases h with
  | overflow t hs hfull => cases hr
  | refused t hs h => cases hr
  | done n hmem hroom =>
    cases hr
    unfold shiftOut
    split
    · exact ⟨rfl, rfl, rfl⟩
    · split <;> exact ⟨rfl, rfl, rfl⟩

/-- The output of one bit on an `InMemory` sink: the counter's error, or on (R186). -/
theorem ShiftedOut.inMemory {p : Params} {u : Engine} {r : Res Unit} (h : ShiftedOut p u r)
    (hmem : p.sinkMode = .inMemory) :
    ((Straddles u ∧ counterFull p u.cabacEnc.outstanding = true) → ∃ t, r = .raised .counterOverflow t) ∧
    (¬(Straddles u ∧ counterFull p u.cabacEnc.outstanding = true) → ∃ t, r = .ok () t) := by
  cases h with
  | overflow t hs hfull => exact ⟨fun _ => ⟨t, rfl⟩, fun h => absurd ⟨hs, hfull⟩ h⟩
  | refused t hs h => rw [hmem] at h; cases h
  | done n _ hroom =>
    refine ⟨fun ⟨hs, hfull⟩ => ?_, fun _ => ⟨_, rfl⟩⟩
    rw [hroom hs] at hfull
    cases hfull

/-- With an unbounded counter on an `InMemory` sink the output of one bit goes on. -/
theorem ShiftedOut.unbounded {p : Params} {u : Engine} {r : Res Unit} (h : ShiftedOut p u r) (hun : Unbounded p) :
    ∃ t, r = .ok () t := by
  obtain ⟨hmem, hnone, -⟩ := hun
  refine (h.inMemory hmem).2 fun ⟨_, hfull⟩ => ?_
  obtain ⟨w, hw, -⟩ := counterFull_eq_true.mp hfull
  rw [hnone] at hw
  cases hw

/-- Everything but the coder registers and the sink after `cabac.put_term` of value 0 (R191). -/
theorem cabacPutTerm_frame {p : Params} {e t : Engine} (ht : cabacRenormE p renormPasses (termRange e) = .ok () t) :
    t.phase = e.phase ∧ t.fam = e.fam ∧ t.ctx = e.ctx := by
  have hframe := cabacRenormE_frame p renormPasses (termRange e)
  rw [ht] at hframe
  obtain ⟨r, bs, n, hu⟩ := hframe
  rw [Res.engine_ok] at hu
  rw [hu]
  exact ⟨rfl, rfl, rfl⟩

theorem cabacPutTermBody_false (p : Params) (e : Engine) :
    cabacPutTermBody false p e = (cabacRenormE p renormPasses (termRange e)).andThen fun _ t => .ok .none t := rfl

/-- Settles O25: a bypass bin is the output of one bit of a doubled `low`, and a terminating bin of value 0 selects all but
the top 2 of the interval. -/
theorem cabacBypassAndTermExact : Obligations.CabacBypassAndTermExact := by
  intro s e he hinv hun henc
  have hinvE := hinv.cabacEnc henc
  obtain ⟨h256, hbounds⟩ := cabacEncInv_iff.mp hinvE
  refine ⟨fun b => ?_, ?_⟩
  · obtain ⟨r, hbody, hout⟩ := cabacPutBypassBody_shiftedOut b s.params e
    obtain ⟨t, ht⟩ := hout.unbounded hun
    obtain ⟨hrange, hcode, hshifts, -⟩ := bypass_coded hinvE (hout.bitOut (doubledBounds_bypassLow b hbounds) ht)
    obtain ⟨hph, -, hctx⟩ := hout.frame ht
    have hl := checkCommand_encoding (i := .cabacPutBypass b) (.inr (.inl rfl)) henc nofun (p := s.params) nofun
    have hb : instrBody (.cabacPutBypass b) s.params e = .ok .none t := by
      show cabacPutBypassBody b s.params e = _
      rw [hbody, ht, andThen_ok]
    rw [← CabacEnc.range_toNat] at hcode
    exact ⟨_, completes_of_body he hl hb, hph.trans henc.1, congrArg (BitVec.setWidth 32) hrange, hctx, hcode, hshifts⟩
  · have hnarrow := termRange_narrowed hinvE
    obtain ⟨t, ht⟩ := hnarrow.renormE_ok hbounds hun
    obtain ⟨hrange, hcode, hshifts, h256', h510, -⟩ := hnarrow.binCoded hbounds ht
    obtain ⟨hph, -, hctx⟩ := cabacPutTerm_frame ht
    have hl := checkCommand_encoding (i := .cabacPutTerm false) (.inr (.inr (.inl rfl))) henc nofun (p := s.params) nofun
    have hb : instrBody (.cabacPutTerm false) s.params e = .ok .none t := by
      show cabacPutTermBody false s.params e = _
      rw [cabacPutTermBody_false, ht, andThen_ok]
    have hle : renormCount (e.cabacEnc.range9.toNat - 2) ≤ 1 := renormCount_le (by decide) (by omega)
    rw [Nat.add_zero] at hcode
    rw [← CabacEnc.range_toNat] at hrange hcode hshifts hle
    rw [← CabacEnc.range_toNat] at hrange
    exact ⟨_, _, completes_of_body he hl hb, hph.trans henc.1, hctx, hle, hrange, h256', h510, hcode, hshifts⟩

/-! ### FINISH and PUT_TERM 1 -/

theorem renormCount_two : renormCount 2 = 7 := by
  rw [renormCount, (by decide : Nat.log2 2 = 1)]

/-- The bits of the flush spell the code number of the top 2 of the interval, without its last bit, and a one (R188). -/
theorem flushBits_spells {p : Params} {e t : Engine} (h : BinCoded p (e.cabacEnc.range9.toNat - 2) 2 e t) :
    (flushBits t).length = cabacShifts e + 9 ∧
    bitsValue (flushBits t) = 2 * ((cabacCode e + (e.cabacEnc.range9.toNat - 2)) / 2) + 1 := by
  obtain ⟨hrange, hcode, hshifts, hinv⟩ := h
  obtain ⟨-, hsum, -, hfirst, -⟩ := cabacEncInv_iff.mp hinv
  rw [renormCount_two] at hrange hcode hshifts
  have hbit : ∀ i, (t.cabacEnc.low.getLsbD i).toNat = t.cabacEnc.low.toNat / 2 ^ i % 2 := fun i => by
    rw [BitVec.getLsbD, Nat.toNat_testBit]
  have hb9 : (t.cabacEnc.low.getLsbD 9).toNat = t.cabacEnc.low.toNat / 512 % 2 := hbit 9
  have hb8 : (t.cabacEnc.low.getLsbD 8).toNat = t.cabacEnc.low.toNat / 256 % 2 := hbit 8
  have hval := bitPut_bitsValue (b := t.cabacEnc.low.getLsbD 9) (e := t) fun hf => by
    obtain ⟨hle, hnil⟩ := hfirst hf
    refine ⟨?_, hnil⟩
    have hzero : (t.cabacEnc.low.getLsbD 9).toNat = 0 := by omega
    simpa using hzero
  have htail : ∀ b : Bool, bitsValue [b, true] = 2 * b.toNat + 1 := by decide
  have hlow : t.cabacEnc.low.toNat = (t.cabacEnc.low.getLsbD 9).toNat * 512 + (t.cabacEnc.low.getLsbD 8).toNat * 256 +
      t.cabacEnc.low.toNat % 256 := by omega
  rw [flushBits, List.length_append, bitsValue_append, bitPut_length, htail, hshifts]
  rw [cabacCode_eq, hlow] at hcode
  have hrest : t.cabacEnc.low.toNat % 256 < 256 := Nat.mod_lt _ (by decide)
  have hle := (t.cabacEnc.low.getLsbD 8).toNat_le
  clear hb9 hb8 hlow
  generalize t.cabacEnc.low.toNat % 256 = rest at hcode hrest
  refine ⟨rfl, ?_⟩
  rw [List.length_cons, List.length_singleton]
  omega

/-- The output of a session that ends (R75, R188). -/
theorem flushed_output {p : Params} {e t : Engine} (h : BinCoded p (e.cabacEnc.range9.toNat - 2) 2 e t)
    (hf : t.fam = .cabac) :
    ∃ pad, pad < 8 ∧ 8 * (flushed t).output.length = cabacShifts e + 9 + pad ∧
      bytesValue (flushed t).output = (2 * ((cabacCode e + (e.cabacEnc.range9.toNat - 2)) / 2) + 1) * 2 ^ pad := by
  obtain ⟨hlen, hval⟩ := flushBits_spells h
  have hout : (flushed t).output =
      completeBytes (flushBits t ++ List.replicate ((8 - (flushBits t).length % 8) % 8) false) := by
    have hfam : (flushed t).fam = .cabac := hf
    rw [Engine.output, hfam]
    rfl
  refine ⟨(8 - (flushBits t).length % 8) % 8, Nat.mod_lt _ (by decide), ?_⟩
  obtain ⟨hbytes, hspell⟩ := completeBytes_spells
    (xs := flushBits t ++ List.replicate ((8 - (flushBits t).length % 8) % 8) false)
    (by rw [List.length_append, List.length_replicate]; omega)
  rw [hout, hbytes, hspell, List.length_append, List.length_replicate, bitsValue_append, bitsValue_replicate,
    List.length_replicate, hval, hlen]
  exact ⟨rfl, by rw [Bool.toNat_false, Nat.zero_mul, Nat.add_zero]⟩

/-- The two commands that end a session run the terminating bin of value 1 (R191, R192). -/
theorem terminating_body {i : Instr} (hi : i = .cabacFinish ∨ i = .cabacPutTerm true) :
    IsEncoder i ∧ i.family = .cabac ∧ laneOperand i = none ∧ ctxOperand i = none ∧ instrBody i = cabacTerminate := by
  rcases hi with rfl | rfl
  · exact ⟨.inr (.inr (.inr rfl)), rfl, rfl, rfl, rfl⟩
  · exact ⟨.inr (.inr (.inl rfl)), rfl, rfl, rfl, rfl⟩

theorem checkCommand_terminating {i : Instr} (hi : i = .cabacFinish ∨ i = .cabacPutTerm true) {p : Params} {e : Engine}
    (he : Encoding .cabac e) : checkCommand p e i.family i.op (laneOperand i) (ctxOperand i) = .ok := by
  obtain ⟨hop, hfam, hlane, hctx, -⟩ := terminating_body hi
  exact checkCommand_encoding hop (hfam.symm ▸ he) (by rw [hlane]; nofun) (by rw [hctx]; nofun)

/-- Everything but the coder registers and the sink before the flush (R191, R192). -/
theorem cabacTerminate_frame {p : Params} {e t : Engine} (ht : cabacRenormE p renormPasses (termSelected e) = .ok () t) :
    t.fam = e.fam ∧ t.ctx = e.ctx := by
  have hframe := cabacRenormE_frame p renormPasses (termSelected e)
  rw [ht] at hframe
  obtain ⟨r, bs, n, hu⟩ := hframe
  rw [Res.engine_ok] at hu
  rw [hu]
  exact ⟨rfl, rfl⟩

/-- Settles O26: seven passes and the flush put out the code number of the top 2 of the interval. -/
theorem cabacFinishOutput : Obligations.CabacFinishOutput := by
  intro s e i he hinv hun henc hi
  have hinvE := hinv.cabacEnc henc
  obtain ⟨h256, hbounds⟩ := cabacEncInv_iff.mp hinvE
  have hnarrow := termSelected_narrowed hinvE
  obtain ⟨t, ht⟩ := hnarrow.renormE_ok hbounds hun
  obtain ⟨hfam, hctx⟩ := cabacTerminate_frame ht
  obtain ⟨pad, hpad, hlen, hval⟩ := flushed_output (hnarrow.binCoded hbounds ht) (hfam.trans henc.2)
  obtain ⟨-, -, -, -, hbody⟩ := terminating_body hi
  have hb : instrBody i s.params e = .ok (.ofOut (flushed t).output) (flushed t) := by
    rw [hbody, cabacTerminate_inMemory hun.1, ht, andThen_ok]
  have hcode : cabacCode e + e.cabacEnc.range.toNat - 2 = cabacCode e + (e.cabacEnc.range9.toNat - 2) := by
    rw [CabacEnc.range_toNat]
    omega
  exact ⟨_, _, pad, completes_of_body he (checkCommand_terminating hi henc) hb, rfl, rfl, hctx, hpad, hlen,
    by rw [hcode]; exact hval⟩

end Sys2Proof.Machine
end

section
/-! SUPPORT, then O30 and O50. The CABAC encoder with a finite counter (R186), and its bounds along a run on any sink (R199). -/

namespace Sys2Proof.Machine

open Sys2Proof

/-! ### COUNTER_OVERFLOW -/

/-- A bypass bin whose doubled `low` straddles, on any sink: the counter's error, or one more outstanding bit and nothing
written (R186, R190). -/
theorem cabacPutBypass_straddles {s : State} {e : Engine} {b : Bool} {w : Nat} (he : s.engine? = some e)
    (hw : s.params.outstandingW = some w) (henc : Encoding .cabac e)
    (hlo : 512 ≤ 2 * e.cabacEnc.low.toNat + if b then e.cabacEnc.range.toNat else 0)
    (hhi : (2 * e.cabacEnc.low.toNat + if b then e.cabacEnc.range.toNat else 0) < 1024) :
    if e.cabacEnc.outstanding = 2 ^ w - 1 then ∃ t, Raises (.cabacPutBypass b) s e .counterOverflow t
    else ∃ t, Completes (.cabacPutBypass b) s e .none t ∧ t.cabacEnc.outstanding = e.cabacEnc.outstanding + 1 ∧
      t.cabacEnc.low.toNat = (2 * e.cabacEnc.low.toNat + if b then e.cabacEnc.range.toNat else 0) - 512 ∧
      t.sink = e.sink := by
  rw [CabacEnc.range_toNat] at hlo hhi ⊢
  have hlow := bypassLow_low b (e := e) (by omega)
  have hs : Straddles (bypassLow b e) := by
    unfold Straddles
    omega
  have hl := checkCommand_encoding (i := .cabacPutBypass b) (.inr (.inl rfl)) henc nofun (p := s.params) nofun
  obtain ⟨r, hb, hout⟩ := cabacPutBypassBody_shiftedOut b s.params e
  have hfull : counterFull s.params e.cabacEnc.outstanding = true ↔ e.cabacEnc.outstanding = 2 ^ w - 1 := by
    rw [counterFull_eq_true, hw]
    exact ⟨fun ⟨_, hv, h⟩ => Option.mem_some.mp hv ▸ h, fun h => ⟨w, rfl, h⟩⟩
  cases hout with
  | refused t hn h => exact absurd hs hn
  | overflow t _ h =>
    rw [if_pos (hfull.mp h)]
    exact ⟨_, raises_of_body he hl hb⟩
  | done n hmem hroom =>
    rw [if_neg fun h => Bool.eq_false_iff.mp (hroom hs) (hfull.mpr h)]
    refine ⟨_, completes_of_body he hl hb, ?_⟩
    have h512 : (512 : Word).toNat = 512 := rfl
    have hsub : ((bypassLow b e).cabacEnc.low - 512).toNat = (bypassLow b e).cabacEnc.low.toNat - 512 := by
      rw [BitVec.toNat_sub, h512]
      have := hs.1
      omega
    rw [shiftOut_of_straddles hs, ← hlow, ← hsub]
    exact ⟨rfl, rfl, rfl⟩

/-- The counter's condition of R186 with a counter of `w` bits. -/
theorem Narrowed.overflows_some {p : Params} {lo width w : Nat} {e u : Engine} (h : Narrowed lo width e u)
    (hw : p.outstandingW = some w) (n : Nat) :
    Overflows p u n ↔ CounterShort w e.cabacEnc.outstanding (e.cabacEnc.low.toNat + lo) n := by
  rw [h.overflows_iff, hw]
  exact ⟨fun ⟨_, hv, hshort⟩ => Option.mem_some.mp hv ▸ hshort, fun hshort => ⟨w, rfl, hshort⟩⟩

/-- A command that selects a part of the interval, renormalizes, and then goes on by `f`: on an `InMemory` sink with a
counter of `w` bits it raises COUNTER_OVERFLOW where the passes from that part are too many, and completes otherwise. -/
theorem narrowed_command {i : Instr} {s : State} {e u : Engine} {lo width w : Nat} {f : Engine → Reply} {g : Engine → Engine}
    (he : s.engine? = some e) (hl : checkCommand s.params e i.family i.op (laneOperand i) (ctxOperand i) = .ok)
    (hmem : s.params.sinkMode = .inMemory) (hw : s.params.outstandingW = some w) (hw16 : 16 ≤ w)
    (hinv : CabacEncInv s.params e) (hu : Narrowed lo width e u)
    (hb : instrBody i s.params e = (cabacRenormE s.params renormPasses u).andThen fun _ t => .ok (f t) (g t)) :
    (CounterShort w e.cabacEnc.outstanding (e.cabacEnc.low.toNat + lo) (renormCount width) →
      ∃ t, Raises i s e .counterOverflow t) ∧
    (¬CounterShort w e.cabacEnc.outstanding (e.cabacEnc.low.toNat + lo) (renormCount width) →
      ∃ t, Completes i s e (f t) (completeCmd (opBits i.op) (f t) (g t)) ∧ BinCoded s.params lo width e t) := by
  obtain ⟨-, hbounds⟩ := cabacEncInv_iff.mp hinv
  have hcases := hu.renormE_cases hbounds hmem fun v hv => by
    rw [hw] at hv
    cases hv
    exact hw16
  rw [hu.overflows_some hw] at hcases
  obtain ⟨hraise, hok⟩ := hcases
  refine ⟨fun hshort => ?_, fun hfits => ?_⟩
  · obtain ⟨t, ht⟩ := hraise hshort
    rw [ht, andThen_raised] at hb
    exact ⟨_, raises_of_body he hl hb⟩
  · obtain ⟨t, ht⟩ := hok hfits
    rw [ht, andThen_ok] at hb
    exact ⟨t, completes_of_body he hl hb, hu.binCoded hbounds ht⟩

/-- Settles O30: a bypass bin counts at most one bit, and every other command selects a part of the interval and
renormalizes. -/
theorem cabacCounterOverflow : Obligations.CabacCounterOverflow := by
  refine ⟨fun s e b w he hw henc => cabacPutBypass_straddles he hw henc, ?_⟩
  intro s e w he hinv hmem hw hw16 henc range low k
  have hinvE := hinv.cabacEnc henc
  obtain ⟨h256, hbounds⟩ := cabacEncInv_iff.mp hinvE
  have hrange : range = e.cabacEnc.range9.toNat := CabacEnc.range_toNat _
  have hle510 := hbounds.range_le
  refine ⟨fun b => ?_, fun b c hc => ?_, ?_, fun i hi => ?_⟩
  · intro low
    obtain ⟨r, hbody, hout⟩ := cabacPutBypassBody_shiftedOut b s.params e
    obtain ⟨hraise, hok⟩ := hout.inMemory hmem
    have hl := checkCommand_encoding (i := .cabacPutBypass b) (.inr (.inl rfl)) henc nofun (p := s.params) nofun
    have hsum := hbounds.sum
    have hlow := bypassLow_low b (e := e) (by split <;> omega)
    rw [← hrange] at hlow
    have hiff : Straddles (bypassLow b e) ∧ counterFull s.params (bypassLow b e).cabacEnc.outstanding = true ↔
        512 ≤ low ∧ low < 1024 ∧ k = 2 ^ w - 1 := by
      rw [Straddles, hlow, counterFull_eq_true, hw, and_assoc]
      exact and_congr_right' (and_congr_right' ⟨fun ⟨_, hv, h⟩ => Option.mem_some.mp hv ▸ h, fun h => ⟨w, rfl, h⟩⟩)
    rw [hiff] at hraise hok
    split
    · next hfull =>
      obtain ⟨t, ht⟩ := hraise hfull
      rw [ht, andThen_raised] at hbody
      exact ⟨_, raises_of_body he hl hbody⟩
    · next hroom =>
      obtain ⟨t, ht⟩ := hok hroom
      rw [ht, andThen_ok] at hbody
      exact ⟨_, completes_of_body he hl hbody⟩
  · intro ctx rLPS low range
    have hl := checkCommand_encoding (i := .cabacPut b c) (.inl rfl) henc nofun (p := s.params) fun x hx => by
      cases hx
      exact hc
    obtain ⟨hraise, hok⟩ := narrowed_command (f := fun _ => .none) (g := id) he hl hmem hw hw16 hinvE
      (putSelected_narrowed (p := s.params) b c hinvE) rfl
    obtain ⟨hpos, hle⟩ := binWidth_bounds ctx b h256 e.cabacEnc.range9.isLt
    obtain ⟨hge, hle⟩ := renormCount_bounds (r := binWidth ctx b e.cabacEnc.range9.toNat) hpos (by omega)
    have hn := renormCount_binWidth_le b (cabacCtx_s_lt hinv.ctx henc.2 c) h256 e.cabacEnc.range9.isLt
    rw [← hrange] at hn hge hle hraise hok
    refine ⟨_, hn.trans (by split <;> decide), hge, hle, ?_⟩
    split
    · next hshort => exact hraise hshort
    · next hfits =>
      obtain ⟨t, hcomp, hbin⟩ := hok hfits
      exact ⟨_, hcomp, (CabacEnc.range_toNat _).trans hbin.range⟩
  · have hl := checkCommand_encoding (i := .cabacPutTerm false) (.inr (.inr (.inl rfl))) henc nofun (p := s.params) nofun
    obtain ⟨hraise, hok⟩ := narrowed_command (f := fun _ => .none) (g := id) he hl hmem hw hw16 hinvE
      (termRange_narrowed hinvE) rfl
    have hcount : renormCount (e.cabacEnc.range9.toNat - 2) = if range - 2 < 256 then 1 else 0 := by
      rw [hrange]
      split
      · next hlt => rw [renormCount_of_lt (by omega) hlt, renormCount_of_ge (by omega)]
      · next hge => exact renormCount_of_ge (by omega)
    rw [← hcount]
    split
    · next hshort => exact hraise hshort
    · next hfits =>
      obtain ⟨t, hcomp, -⟩ := hok hfits
      exact ⟨_, hcomp⟩
  · obtain ⟨-, -, -, -, hbody⟩ := terminating_body hi
    obtain ⟨hraise, hok⟩ := narrowed_command (f := fun t => .ofOut (flushed t).output) (g := flushed) he
      (checkCommand_terminating hi henc) hmem hw hw16 hinvE (termSelected_narrowed hinvE)
      (by rw [hbody, cabacTerminate_inMemory hmem])
    rw [← hrange, renormCount_two] at hraise hok
    split
    · next hshort => exact hraise hshort
    · next hfits =>
      obtain ⟨t, hcomp, -⟩ := hok hfits
      exact ⟨_, _, hcomp, rfl⟩

/-! ### The bounds along a run -/

/-- OPEN_ENC starts a session in bounds (R53, R199). -/
theorem cabacEncInv_open {p : Params} {e : Engine} (hreg : e.cabacEnc = ⟨0, 510, 0, true⟩) (hsink : e.sink = []) :
    CabacEncInv p e := by
  rw [CabacEncInv, hreg]
  exact ⟨by decide, by decide, by decide, fun _ => ⟨by decide, hsink⟩, fun w _ => Nat.two_pow_pos w⟩

/-- A CABAC command after which an encoder session is open leaves its registers in bounds, on any sink. -/
theorem cabacEncInv_command {p : Params} {e t : Engine} {i : Instr} {a : Reply} (hf : i.family = .cabac)
    (hl : legalNow e i.family i.op = true) (h : Encoding .cabac e → CabacEncInv p e)
    (hb : instrBody i p e = .ok a t) (ht : t.phase = .enc) : CabacEncInv p t := by
  rcases encoding_cases hl hb ht with hop | ⟨henc, hop⟩
  · cases i with
    | cabacOpenEnc =>
      cases hb
      exact cabacEncInv_open rfl rfl
    | _ => cases hf <;> cases hop
  · rw [hf] at henc
    have hinv := h henc
    obtain ⟨-, hbounds⟩ := cabacEncInv_iff.mp hinv
    rcases hop with hop | hop | hop | ⟨m, rfl⟩
    · cases i with
      | cabacPut b c =>
        obtain ⟨_, e₁, hren, hb⟩ := andThen_eq_ok.mp hb
        have hbin := (putSelected_narrowed b c hinv).binCoded hbounds hren
        cases hb
        exact hbin.inv
      | _ => cases hf <;> cases hop
    · cases i with
      | cabacPutBypass b =>
        obtain ⟨r, hbody, hout⟩ := cabacPutBypassBody_shiftedOut b p e
        obtain ⟨_, e₁, hr, hb⟩ := andThen_eq_ok.mp (hbody.symm.trans hb)
        have hbit := hout.bitOut (doubledBounds_bypassLow b hbounds) hr
        cases hb
        exact (bypass_coded hinv hbit).2.2.2
      | _ => cases hf <;> cases hop
    · cases i with
      | cabacPutTerm b =>
        cases b with
        | true =>
          obtain ⟨r, hbody, -⟩ := cabacTerminate_eq p e
          obtain ⟨_, e₁, -, hb⟩ := andThen_eq_ok.mp (hbody.symm.trans hb)
          cases hb
          cases ht
        | false =>
          obtain ⟨_, e₁, hren, hb⟩ := andThen_eq_ok.mp hb
          have hbin := (termRange_narrowed hinv).binCoded hbounds hren
          cases hb
          exact hbin.inv
      | _ => cases hf <;> cases hop
    · exact hinv

/-- Settles O50: the commands that keep a CABAC encoder session open put out single bits and renormalize, and each keeps the
bounds. -/
theorem stepKeepsCabacEncoder : Obligations.StepKeepsCabacEncoder := by
  intro s t hs h
  refine step_keeps
    (P := fun p e => Encoding .cabac e → CabacEncInv p e) (Q := fun p e => Encoding .cabac e → CabacEncInv p e)
    (fun _ _ h => h) (fun _ _ _ h => h) (fun _ _ _ _ _ _ => (nomatch ·.1)) ?_ hs h
  rintro p e i - hc hinv ⟨hph, hfam⟩
  obtain ⟨hl, -, -⟩ := checkCommand_eq_ok.mp hc
  obtain ⟨hf, a, t, hb, hs⟩ := settle_open hc hfam (by rw [hph]; nofun)
  rw [hs] at hph ⊢
  have hinv' := cabacEncInv_command hf hl hinv hb hph
  exact hinv'

end Sys2Proof.Machine
end

section
/-! SUPPORT, then O27, O28 and O29. The CABAC decoder commands (R202, R211 to R213): the bits that RenormD reads, and the bin of the
comparison. -/

namespace Sys2Proof.Machine

open Sys2Proof

/-! ### Bits read -/

/-- The input holds one bit more where it holds one and then the rest (R77). -/
theorem inputLeft_succ {e : Engine} {n : Nat} :
    InputLeft e (n + 1) ↔
      (e.bitpos < 8 * e.src.length ∨ e.eof = false) ∧ InputLeft (e.setBitpos (e.bitpos + 1)) n := by
  simp only [InputLeft, Engine.setBitpos_bitpos, Engine.setBitpos_src, Engine.setBitpos_eof]
  cases e.eof with
  | false => simp
  | true =>
    simp only [Bool.true_eq_false, or_false, false_or]
    omega

/-- One bit shifted into `offset`, where the input has it (R202, R212). -/
theorem offsetShift_ok {e : Engine} (h : e.bitpos < 8 * e.src.length ∨ e.eof = false) :
    offsetShift e = .ok () ((e.setBitpos (e.bitpos + 1)).setCabacDec
      { e.cabacDec with offset := shiftIn e.cabacDec.offset (srcBit e e.bitpos) }) := by
  rw [offsetShift, readBit_ok h]
  rfl

theorem offsetShift_exhausted {e : Engine} (h : ¬(e.bitpos < 8 * e.src.length ∨ e.eof = false)) :
    offsetShift e = .raised .inputExhausted e := by
  obtain ⟨hend, heof⟩ := not_or.mp h
  rw [offsetShift, readBit_exhausted (Nat.not_lt.mp hend) (Bool.eq_true_of_not_eq_false heof)]
  rfl

/-! ### RenormD -/

/-- What `n` passes of RenormD make of a decoder: the range is doubled `n` times, and `n` bits of the input come into
`offset`. -/
structure RenormedD (n : Nat) (e t : Engine) : Prop where
  range : t.cabacDec.range9.toNat = 2 ^ n * e.cabacDec.range9.toNat
  offset : t.cabacDec.offset.toNat = (2 ^ n * e.cabacDec.offset.toNat + inputBits e.src e.bitpos n) % 2 ^ 32
  bitpos : t.bitpos = e.bitpos + n
  src : t.src = e.src

theorem RenormedD.refl (e : Engine) : RenormedD 0 e e := by
  have := e.cabacDec.offset.isLt
  exact ⟨by omega, by rw [inputBits]; omega, rfl, rfl⟩

/-- A pass, then `n` more. -/
theorem RenormedD.trans {n : Nat} {e t u : Engine} (h : RenormedD 1 e t) (h' : RenormedD n t u) :
    RenormedD (n + 1) e u := by
  refine ⟨?_, ?_, ?_, h'.src.trans h.src⟩
  · rw [h'.range, h.range, Nat.pow_one, Nat.pow_succ, Nat.mul_assoc]
  · have hbit : inputBits e.src e.bitpos 1 = inputBit e.src e.bitpos := by simp [inputBits]
    have hsum : 2 ^ (n + 1) * e.cabacDec.offset.toNat + inputBits e.src e.bitpos (n + 1) =
        2 ^ n * (2 ^ 1 * e.cabacDec.offset.toNat + inputBits e.src e.bitpos 1) + inputBits e.src (e.bitpos + 1) n := by
      rw [inputBits_succ, hbit, Nat.pow_succ]
      ring
    rw [h'.offset, h.offset, h.src, h.bitpos, hsum]
    exact ((Nat.mod_modEq _ _).mul_left _).add_right _
  · rw [h'.bitpos, h.bitpos]
    omega

/-- The engine of a RenormD pass before its bit is read (R202). -/
def renormDShift (e : Engine) : Engine := e.setCabacDec (e.cabacDec.setRange (e.cabacDec.range <<< 1))

theorem cabacRenormD_of_lt (n : Nat) {e : Engine} (h : e.cabacDec.range9.toNat < 256) :
    cabacRenormD (n + 1) e = (offsetShift (renormDShift e)).andThen fun _ t => cabacRenormD n t := by
  rw [cabacRenormD, CabacDec.range_toNat, if_pos h]
  rfl

theorem cabacRenormD_of_ge (n : Nat) {e : Engine} (h : 256 ≤ e.cabacDec.range9.toNat) :
    cabacRenormD n e = .ok () e := by
  cases n with
  | zero => rfl
  | succ n => rw [cabacRenormD, CabacDec.range_toNat, if_neg (by omega)]

/-- The engine after a RenormD pass that has its bit (R202). -/
def renormDPassed (e : Engine) : Engine :=
  ((renormDShift e).setBitpos (e.bitpos + 1)).setCabacDec
    { (renormDShift e).cabacDec with offset := shiftIn e.cabacDec.offset (srcBit e e.bitpos) }

theorem renormedD_passed {e : Engine} (h : e.cabacDec.range9.toNat < 256) : RenormedD 1 e (renormDPassed e) := by
  refine ⟨?_, ?_, rfl, rfl⟩
  · show (e.cabacDec.setRange (e.cabacDec.range <<< 1)).range9.toNat = _
    rw [CabacDec.setRange_range9, BitVec.toNat_shiftLeft, Nat.shiftLeft_eq, CabacDec.range_toNat]
    omega
  · show (shiftIn e.cabacDec.offset (srcBit e e.bitpos)).toNat = _
    rw [shiftIn_toNat, srcBit_toNat]
    simp [inputBits]

theorem offsetShift_renormDShift {e : Engine} (h : e.bitpos < 8 * e.src.length ∨ e.eof = false) :
    offsetShift (renormDShift e) = .ok () (renormDPassed e) := offsetShift_ok (e := renormDShift e) h

/-- RenormD from a range of 1 or more makes the passes that the range needs where the input has their bits, and raises
INPUT_EXHAUSTED where it does not (R202, R353). -/
theorem cabacRenormD_cases {n : Nat} {e : Engine} (h0 : 1 ≤ e.cabacDec.range9.toNat)
    (hn : renormCount e.cabacDec.range9.toNat ≤ n) :
    (InputLeft e (renormCount e.cabacDec.range9.toNat) →
      ∃ t, cabacRenormD n e = .ok () t ∧ RenormedD (renormCount e.cabacDec.range9.toNat) e t) ∧
    (¬InputLeft e (renormCount e.cabacDec.range9.toNat) → ∃ t, cabacRenormD n e = .raised .inputExhausted t) := by
  induction n generalizing e with
  | zero =>
    rw [Nat.le_zero.mp hn]
    exact ⟨fun _ => ⟨e, rfl, .refl e⟩, fun h => absurd (.inl rfl) h⟩
  | succ n ih =>
    by_cases hr : e.cabacDec.range9.toNat < 256
    · rw [renormCount_of_lt h0 hr] at hn
      rw [renormCount_of_lt h0 hr, inputLeft_succ, cabacRenormD_of_lt n hr]
      have hpass := renormedD_passed hr
      have hrange := hpass.range
      rw [Nat.pow_one] at hrange
      rw [← hrange] at hn ⊢
      obtain ⟨hok, hraise⟩ := ih (e := renormDPassed e) (by omega) (by omega)
      by_cases hread : e.bitpos < 8 * e.src.length ∨ e.eof = false
      · rw [offsetShift_renormDShift hread, andThen_ok]
        refine ⟨fun ⟨_, hleft⟩ => ?_, fun h => hraise fun hleft => h ⟨hread, hleft⟩⟩
        obtain ⟨t, ht, hren⟩ := hok hleft
        exact ⟨t, ht, hpass.trans hren⟩
      · rw [offsetShift_exhausted (e := renormDShift e) hread, andThen_raised]
        exact ⟨fun ⟨h, _⟩ => absurd h hread, fun _ => ⟨_, rfl⟩⟩
    · rw [cabacRenormD_of_ge _ (by omega), renormCount_of_ge (by omega)]
      exact ⟨fun _ => ⟨e, rfl, .refl e⟩, fun h => absurd (.inl rfl) h⟩

/-! ### GET -/

/-- The bin of the comparison (R211). -/
def decodedBin (c : CabacCtx) (range offset : Nat) : Bool :=
  if range - lpsWidth c range ≤ offset then !c.mps else c.mps

/-- The part of the interval that the decoded bin selects. -/
theorem binLow_decodedBin (c : CabacCtx) (range offset : Nat) :
    binLow c (decodedBin c range offset) range =
      if range - lpsWidth c range ≤ offset then range - lpsWidth c range else 0 := by
  unfold binLow decodedBin
  split <;> simp

theorem binWidth_decodedBin (c : CabacCtx) (range offset : Nat) :
    binWidth c (decodedBin c range offset) range =
      if range - lpsWidth c range ≤ offset then lpsWidth c range else range - lpsWidth c range := by
  unfold binWidth decodedBin
  split <;> simp

/-- The interval step of GET where the subtraction has a result: the bin of the comparison, and its part of the interval
selected (R211). -/
theorem cabacDecodeInterval_eq {c : CabacCtx} {r : CabacDec} (h : lpsWidth c r.range9.toNat ≤ r.range9.toNat) :
    (cabacDecodeInterval c r).1 = decodedBin c r.range9.toNat r.offset.toNat ∧
    (cabacDecodeInterval c r).2.range9.toNat =
      binWidth c (decodedBin c r.range9.toNat r.offset.toNat) r.range9.toNat ∧
    (cabacDecodeInterval c r).2.offset.toNat =
      r.offset.toNat - binLow c (decodedBin c r.range9.toNat r.offset.toNat) r.range9.toNat := by
  have hrLPS : lpsRange c r.range = lpsWidth c r.range9.toNat := by
    rw [lpsRange, rangeQuant, CabacDec.range_toNat]
    rfl
  have hsub := rangeSub_toNat (range := r.range) (amount := lpsWidth c r.range9.toNat) (by rwa [CabacDec.range_toNat])
  have hlt := r.range9.isLt
  have h320 := lpsWidth_le c r.range9.toNat
  rw [CabacDec.range_toNat] at hsub
  rw [binWidth_decodedBin, binLow_decodedBin, decodedBin]
  simp only [cabacDecodeInterval, hrLPS, hsub]
  split
  · next hle =>
    have hoff := r.offset.isLt
    refine ⟨rfl, ?_, ?_⟩
    · rw [CabacDec.setRange_range9, BitVec.toNat_ofNat]
      omega
    · rw [CabacDec.setRange_offset, BitVec.toNat_sub, hsub]
      omega
  · refine ⟨rfl, ?_, rfl⟩
    rw [CabacDec.setRange_range9, hsub]
    omega

/-- The engine of `cabac.get` before RenormD (R211). -/
def getSelected (p : Params) (c : Nat) (e : Engine) : Engine :=
  cabacCtxUpdate p c (cabacDecodeInterval (cabacCtxGet e c) e.cabacDec).1
    (e.setCabacDec (cabacDecodeInterval (cabacCtxGet e c) e.cabacDec).2)

theorem cabacGetBody_eq (p : Params) (c : Nat) (e : Engine) :
    cabacGetBody c p e = (cabacRenormD renormPasses (getSelected p c e)).andThen fun _ t =>
      .ok (.ofBit (cabacDecodeInterval (cabacCtxGet e c) e.cabacDec).1) t := rfl

/-- Everything but the coder registers and the cursor after RenormD (R202). -/
theorem cabacRenormD_kept {n : Nat} {e t : Engine} (ht : cabacRenormD n e = .ok () t) :
    t.phase = e.phase ∧ t.fam = e.fam ∧ t.ctx = e.ctx ∧ t.responses = e.responses := by
  have hframe := cabacRenormD_frame n e
  rw [ht] at hframe
  obtain ⟨r, k, hu⟩ := hframe
  rw [Res.engine_ok] at hu
  rw [hu]
  exact ⟨rfl, rfl, rfl, rfl⟩

/-- A bin decoded: the part that begins at `lo` selected and renormalized, and the session otherwise as it was (R211). -/
structure BinDecoded (lo width : Nat) (e t : Engine) : Prop where
  range : t.cabacDec.range9.toNat = 2 ^ renormCount width * width
  offset : t.cabacDec.offset.toNat =
    (2 ^ renormCount width * (e.cabacDec.offset.toNat - lo) + inputBits e.src e.bitpos (renormCount width)) % 2 ^ 32
  bitpos : t.bitpos = e.bitpos + renormCount width
  src : t.src = e.src
  phase : t.phase = e.phase
  fam : t.fam = e.fam
  responses : t.responses = e.responses

/-- The rule of `cabac.get` where `range - rLPS` has a result (R211): the bin of the comparison and its part of the
interval renormalized, or INPUT_EXHAUSTED. -/
theorem cabacGetBody_cases (p : Params) {c lo width : Nat} {bin : Bool} {e : Engine}
    (h : lpsWidth (cabacCtxGet e c) e.cabacDec.range9.toNat ≤ e.cabacDec.range9.toNat)
    (hbin : decodedBin (cabacCtxGet e c) e.cabacDec.range9.toNat e.cabacDec.offset.toNat = bin)
    (hlo : binLow (cabacCtxGet e c) bin e.cabacDec.range9.toNat = lo)
    (hwidth : binWidth (cabacCtxGet e c) bin e.cabacDec.range9.toNat = width) :
    1 ≤ width ∧ width ≤ 510 ∧
    (InputLeft e (renormCount width) → ∃ t, cabacGetBody c p e = .ok (.ofBit bin) t ∧ BinDecoded lo width e t ∧
      t.ctx = (cabacCtxUpdate p c bin e).ctx) ∧
    (¬InputLeft e (renormCount width) → ∃ t, cabacGetBody c p e = .raised .inputExhausted t) := by
  obtain ⟨hfst, hrange, hoffset⟩ := cabacDecodeInterval_eq h
  have h2 := two_le_lpsWidth (cabacCtxGet e c) e.cabacDec.range9.toNat
  have h320 := lpsWidth_le (cabacCtxGet e c) e.cabacDec.range9.toNat
  have hlt := e.cabacDec.range9.isLt
  have hbounds : 1 ≤ width ∧ width ≤ 510 := by
    rw [← hwidth, ← hbin, binWidth_decodedBin]
    split <;> omega
  obtain ⟨hpos, hle⟩ := hbounds
  rw [hbin] at hfst hrange hoffset
  rw [hwidth] at hrange
  rw [hlo] at hoffset
  have hrange' : (getSelected p c e).cabacDec.range9.toNat = width := hrange
  have hoffset' : (getSelected p c e).cabacDec.offset.toNat = e.cabacDec.offset.toNat - lo := hoffset
  obtain ⟨hok, hraise⟩ := cabacRenormD_cases (n := renormPasses) (e := getSelected p c e) (by rw [hrange']; exact hpos)
    (renormCount_le (k := 8) le_rfl (by rw [hrange']; exact hpos))
  rw [hrange'] at hok hraise
  rw [cabacGetBody_eq, hfst]
  refine ⟨hpos, hle, fun hleft => ?_, fun hnone => ?_⟩
  · obtain ⟨t, ht, hr, ho, hp, hs⟩ := hok hleft
    obtain ⟨hph, hfam, hctx, hresp⟩ := cabacRenormD_kept ht
    rw [hrange'] at hr
    rw [hoffset'] at ho
    refine ⟨t, by rw [ht, andThen_ok], ⟨hr, ho, hp, hs, hph, hfam, hresp⟩, ?_⟩
    rw [hctx, getSelected, hfst]
    rfl
  · obtain ⟨t, ht⟩ := hraise hnone
    exact ⟨t, by rw [ht, andThen_raised]⟩

/-- Settles O27: the decoded bin selects its part of the interval, and RenormD reads the bits that the part needs. -/
theorem cabacGetResult : Obligations.CabacGetResult := by
  intro s e c he hinv hdec hc ctx rLPS hle r1 lps bin range
  have hrange : e.cabacDec.range.toNat = e.cabacDec.range9.toNat := CabacDec.range_toNat _
  have hrLPS : rLPS = lpsWidth ctx e.cabacDec.range9.toNat := by rw [← hrange]; rfl
  have hlps : lps = decide (e.cabacDec.range9.toNat - lpsWidth ctx e.cabacDec.range9.toNat ≤ e.cabacDec.offset.toNat) := by
    rw [← hrLPS, ← hrange]
  have hbin : bin = decodedBin ctx e.cabacDec.range9.toNat e.cabacDec.offset.toNat := by
    simp only [bin, hlps, decodedBin, decide_eq_true_eq]
  have hwidth : range = binWidth ctx bin e.cabacDec.range9.toNat := by
    rw [hbin, binWidth_decodedBin]
    simp only [range, r1, hlps, hrLPS, hrange, decide_eq_true_eq]
  have hlow : (if lps then r1 else 0) = binLow ctx bin e.cabacDec.range9.toNat := by
    rw [hbin, binLow_decodedBin]
    simp only [r1, hlps, hrLPS, hrange, decide_eq_true_eq]
  obtain ⟨hpos, h510, hok, hraise⟩ := cabacGetBody_cases s.params (c := c) (e := e) (by rw [← hrange]; exact hrLPS ▸ hle)
    hbin.symm hlow.symm hwidth.symm
  obtain ⟨hge, hle⟩ := renormCount_bounds hpos h510
  have hl := checkCommand_decoding (i := .cabacGet c) (.inl rfl) hdec nofun (p := s.params) fun x hx => by
    cases hx
    exact hc
  obtain ⟨hwf, -⟩ := hinv.ctx
  refine ⟨renormCount range, renormCount_le le_rfl hpos, hge, fun _ => hle, ?_⟩
  split
  · next hleft =>
    obtain ⟨t, hb, hbin, hctx⟩ := hok hleft
    exact ⟨_, completes_of_body he hl hb, hbin.phase.trans hdec.1, (CabacDec.range_toNat _).trans hbin.range, hbin.offset,
      hbin.bitpos, cabacCtxUpdate_entries s.params c bin hwf hbin.fam hctx⟩
  · next hnone =>
    obtain ⟨t, hb⟩ := hraise hnone
    exact ⟨_, raises_of_body he hl hb⟩

/-! ### GET_BYPASS -/

/-- The rule of `cabac.get_bypass` with a bit of input (R212). -/
theorem cabacGetBypassBody_ok (p : Params) {e : Engine} (h : e.bitpos < 8 * e.src.length ∨ e.eof = false) :
    let o := (2 * e.cabacDec.offset.toNat + inputBit e.src e.bitpos) % 2 ^ 32
    let bin := decide (e.cabacDec.range9.toNat ≤ o)
    ∃ offset : Word, offset.toNat = (if bin then o - e.cabacDec.range9.toNat else o) ∧
      cabacGetBypassBody p e = .ok (.ofBit bin) ((e.setBitpos (e.bitpos + 1)).setCabacDec
        { e.cabacDec with offset := offset }) := by
  intro o bin
  have ho : (shiftIn e.cabacDec.offset (srcBit e e.bitpos)).toNat = o := by rw [shiftIn_toNat, srcBit_toNat]
  rw [cabacGetBypassBody, offsetShift_ok h, andThen_ok]
  show ∃ offset : Word, _ ∧ (if e.cabacDec.range.toNat ≤ (shiftIn e.cabacDec.offset (srcBit e e.bitpos)).toNat then _
    else _) = _
  rw [ho, CabacDec.range_toNat]
  by_cases hle : e.cabacDec.range9.toNat ≤ o
  · rw [if_pos hle]
    refine ⟨shiftIn e.cabacDec.offset (srcBit e e.bitpos) - e.cabacDec.range, ?_, ?_⟩
    · have hlt := (shiftIn e.cabacDec.offset (srcBit e e.bitpos)).isLt
      rw [BitVec.toNat_sub, ho, CabacDec.range_toNat, if_pos (decide_eq_true hle)]
      omega
    · simp only [bin, hle, decide_true]
      rfl
  · rw [if_neg hle]
    refine ⟨shiftIn e.cabacDec.offset (srcBit e e.bitpos), ?_, ?_⟩
    · rw [ho, if_neg (by simpa [bin] using hle)]
    · simp only [bin, hle, decide_false]

/-- Settles O28: GET_BYPASS shifts in a bit and compares. -/
theorem cabacGetBypassResult : Obligations.CabacGetBypassResult := by
  intro s e he hdec
  have hl := checkCommand_decoding (i := .cabacGetBypass) (.inr (.inl rfl)) hdec nofun (p := s.params) nofun
  split
  · next hleft =>
    intro o bin
    obtain ⟨offset, hoffset, hb⟩ := cabacGetBypassBody_ok s.params hleft
    rw [← CabacDec.range_toNat] at hoffset hb
    exact ⟨_, completes_of_body he hl hb, hdec.1, rfl, rfl, rfl, hoffset⟩
  · next hnone =>
    have hb : instrBody .cabacGetBypass s.params e = .raised .inputExhausted e := by
      show cabacGetBypassBody s.params e = _
      rw [cabacGetBypassBody, offsetShift_exhausted hnone, andThen_raised]
    exact ⟨_, raises_of_body he hl hb⟩

/-! ### GET_TERM -/

/-- The engine of `cabac.get_term` with 2 taken off the range (R213). -/
def termRangeD (e : Engine) : Engine := e.setCabacDec (e.cabacDec.setRange (rangeSub e.cabacDec.range 2))

theorem termRangeD_range {e : Engine} (h : 2 ≤ e.cabacDec.range9.toNat) :
    (rangeSub e.cabacDec.range 2).toNat = e.cabacDec.range9.toNat - 2 ∧
    (termRangeD e).cabacDec.range9.toNat = e.cabacDec.range9.toNat - 2 := by
  have hlt := e.cabacDec.range9.isLt
  have hsub := rangeSub_toNat (range := e.cabacDec.range) (amount := 2) (by rwa [CabacDec.range_toNat])
  rw [CabacDec.range_toNat] at hsub
  refine ⟨hsub, ?_⟩
  rw [termRangeD, Engine.setCabacDec_cabacDec, CabacDec.setRange_range9, hsub]
  omega

/-- Settles O29: bin 1 reads nothing, and bin 0 renormalizes what is left of the range. -/
theorem cabacGetTermResult : Obligations.CabacGetTermResult := by
  intro s e he hdec h2 r
  rw [CabacDec.range_toNat] at h2
  have hr : r = e.cabacDec.range9.toNat - 2 := by rw [← CabacDec.range_toNat]
  obtain ⟨hsub, hrange⟩ := termRangeD_range h2
  rw [← hr] at hsub hrange
  have hl := checkCommand_decoding (i := .cabacGetTerm) (.inr (.inr rfl)) hdec nofun (p := s.params) nofun
  have hbody : instrBody .cabacGetTerm s.params e = if r ≤ e.cabacDec.offset.toNat then .ok (.ofBit true) (termRangeD e)
      else (cabacRenormD renormPasses (termRangeD e)).andThen fun _ t => .ok (.ofBit false) t := by
    rw [← hsub]
    rfl
  split
  · next hone =>
    rw [if_pos hone] at hbody
    exact ⟨_, completes_of_body he hl hbody, hdec.1, (CabacDec.range_toNat _).trans hrange, rfl, rfl, rfl⟩
  · next hzero =>
    rw [if_neg hzero] at hbody
    have hlt := e.cabacDec.range9.isLt
    obtain ⟨hge, hle⟩ := renormCount_bounds (r := r) (by omega) (by omega)
    have hn : renormCount r ≤ 8 := renormCount_le le_rfl (by omega)
    obtain ⟨hok, hraise⟩ := cabacRenormD_cases (n := renormPasses) (e := termRangeD e) (by omega) (by rw [hrange]; exact hn)
    rw [hrange] at hok hraise
    refine ⟨renormCount r, hn, hge, fun _ => hle, ?_⟩
    split
    · next hleft =>
      obtain ⟨t, ht, hr', ho, hp, -⟩ := hok hleft
      obtain ⟨hph, -, hctx, -⟩ := cabacRenormD_kept ht
      rw [ht, andThen_ok] at hbody
      rw [hrange] at hr'
      exact ⟨_, completes_of_body he hl hbody, hph.trans hdec.1, hctx, (CabacDec.range_toNat _).trans hr', hp, ho⟩
    · next hnone =>
      obtain ⟨t, ht⟩ := hraise hnone
      rw [ht, andThen_raised] at hbody
      exact ⟨_, raises_of_body he hl hbody⟩

end Sys2Proof.Machine
end

section
/-! SUPPORT. Whole sessions of any family (R401): a run of commands as a function of one engine, and a round trip as a
statement about one engine. Then the bits of an input that is a whole output. -/

namespace Sys2Proof.Machine

open Sys2Proof

/-! ### Runs on one engine -/

theorem withEngine_withEngine (s : State) (t u : Engine) : (s.withEngine t).withEngine u = s.withEngine u := by
  simp [State.withEngine, State.setEngines]

/-- Replacing the selected engine by itself changes nothing. -/
theorem withEngine_self {s : State} {e : Engine} (h : s.engine? = some e) : s.withEngine e = s := by
  obtain ⟨hlt, he⟩ := List.getElem?_eq_some_iff.mp h
  rw [withEngine_eq, ← he, List.set_getElem_self]

/-- What a run of commands makes of the engine they are issued on. -/
def runEngine (p : Params) (is : List Instr) (e : Engine) : Engine := is.foldl (fun e i => commandEffect p i e) e

@[simp] theorem runEngine_nil (p : Params) (e : Engine) : runEngine p [] e = e := rfl

@[simp] theorem runEngine_cons (p : Params) (i : Instr) (is : List Instr) (e : Engine) :
    runEngine p (i :: is) e = runEngine p is (commandEffect p i e) := rfl

theorem runEngine_append (p : Params) (is js : List Instr) (e : Engine) :
    runEngine p (is ++ js) e = runEngine p js (runEngine p is e) := List.foldl_append

/-- A run on an engine that exists goes on, and changes that engine only. -/
theorem runAll_eq {s : State} {e : Engine} (h : s.engine? = some e) (is : List Instr) :
    runAll is s = .next (s.withEngine (runEngine s.params is e)) := by
  induction is generalizing s e with
  | nil => rw [runEngine_nil, withEngine_self h, runAll]
  | cons i is ih =>
    have hrest := ih (engine?_withEngine h (commandEffect s.params i e))
    rw [withEngine_withEngine] at hrest
    rw [runAll, exec_eq_commandEffect h]
    exact hrest

/-- A command that passes the checks of R130, and whose rule goes on, completes. -/
theorem commandEffect_of_body {p : Params} {i : Instr} {e u : Engine} {r : Reply}
    (hl : checkCommand p e i.family i.op (laneOperand i) (ctxOperand i) = .ok) (hb : instrBody i p e = .ok r u) :
    commandEffect p i e = completeCmd (opBits i.op) r u := by
  rw [commandEffect_legal hl, hb, settle_ok]

/-- The host places an input for the selected engine (R393). -/
theorem placeInput_withEngine {s : State} {e : Engine} (h : s.engine? = some e) (t : Engine) (bs : List Byte) :
    placeInput s.sel bs (s.withEngine t) = .next (s.withEngine (t.setStaged bs)) := by
  have hsel : (s.withEngine t).engines[s.sel]? = some t := engine?_withEngine h t
  have hset : (s.withEngine t).setEngines ((s.withEngine t).engines.set s.sel (t.setStaged bs)) =
      (s.withEngine t).withEngine (t.setStaged bs) := rfl
  simp only [placeInput, hsel, hset, withEngine_withEngine]

/-- A round trip on one engine: encoded from `e`, the session's output, placed as the input, decodes to the symbols, in the
encoder's final contexts. -/
def EngineRoundTrip (f : Family) (n : Nat) (p : Params) (e : Engine) (syms : List CodedSym) : Prop :=
  let e₁ := runEngine p (openEncInstr f n :: syms.map (putInstr f) ++ [finishInstr f]) e
  ∃ out, e₁.readableOutput = some out ∧
    let e₃ := runEngine p (openDecInstr f n true :: syms.map (getInstr f)) (e₁.setStaged out)
    e₃.responses.take syms.length = (syms.map getResponse).reverse ∧ e₃.phase = .dec ∧ e₃.lastErr = .ok ∧
      ∀ c, ctxGet e₃ c = ctxGet e₁ c

/-- Sessions round-trip on the machine where they do on one engine. -/
theorem roundTrips_of_engine {f : Family} {n : Nat}
    (h : ∀ (p : Params) (e : Engine) (syms : List CodedSym), Unbounded p →
      (∀ y ∈ syms, y.lane < n ∧ ∀ c ∈ y.ctx, c < p.numCtx) → EngineRoundTrip f n p e syms) : RoundTrips f n := by
  intro s e syms he hun hsyms
  obtain ⟨out, hout, hresp, hph, herr, hctx⟩ := h s.params e syms hun hsyms
  have hplaced := engine?_withEngine he
    ((runEngine s.params (openEncInstr f n :: syms.map (putInstr f) ++ [finishInstr f]) e).setStaged out)
  exact ⟨_, _, out, _, _, _, runAll_eq he _, engine?_withEngine he _, hout, placeInput_withEngine he _ out,
    runAll_eq hplaced _, engine?_withEngine hplaced _, hresp, hph, herr, hctx⟩

/-! ### The bits of an input -/

/-- The bits of an input in two parts. -/
theorem inputBits_add (bytes : List Byte) (pos m n : Nat) :
    inputBits bytes pos (m + n) = inputBits bytes pos m * 2 ^ n + inputBits bytes (pos + m) n := by
  induction n with
  | zero => simp [inputBits]
  | succ n ih =>
    have hpos : pos + (m + n) = pos + m + n := by omega
    rw [← Nat.add_assoc, inputBits, ih, inputBits, hpos, Nat.pow_succ]
    ring

/-- The eight bits of a byte spell the byte (R70). -/
theorem inputBits_byte (bytes : List Byte) (k : Nat) : inputBits bytes (8 * k) 8 = inputByte bytes k := by
  have h := shiftInBits_srcBit_toNat (w := 7) ((Engine.powerOn 0).setSrc bytes) (8 * k) 8 0
  have h0 : (0 : BitVec (7 + 1)).toNat = 0 := rfl
  rw [shiftInBits_byte, h0, Nat.zero_mul, Nat.zero_add, Nat.mod_eq_of_lt (inputBits_lt _ _ _)] at h
  exact h.symm

/-- All the bits of an input spell the number that its bytes spell (R70). -/
theorem inputBits_all (bytes : List Byte) : inputBits bytes 0 (8 * bytes.length) = bytesValue bytes := by
  have key : ∀ k, k ≤ bytes.length → inputBits bytes 0 (8 * k) = bytesValue (bytes.take k) := fun k => by
    induction k with
    | zero => intro _; rfl
    | succ k ih =>
      intro hk
      have hbyte : inputByte bytes k = bytes[k].toNat := by rw [inputByte, List.getD_eq_getElem]
      have hsnoc : bytesValue (bytes.take (k + 1)) = 256 * bytesValue (bytes.take k) + bytes[k].toNat := by
        rw [List.take_succ_eq_append_getElem hk, bytesValue, bytesValue, List.foldl_append]
        rfl
      rw [Nat.mul_succ, inputBits_add, Nat.zero_add, inputBits_byte, ih (by omega), hsnoc, hbyte]
      omega
  have h := key bytes.length le_rfl
  rwa [List.take_length] at h

end Sys2Proof.Machine
end

section
/-! SUPPORT, then O58. CABAC sessions round-trip (R215, R216): the encoder's intervals are nested, the output spells a number in
the last one, and the decoder's offset is the distance of what it has read from the encoder's code number. -/

namespace Sys2Proof.Machine

open Sys2Proof

/-! ### Nested intervals -/

/-- The interval of `t` lies inside that of `e`, at the finer scale of the passes between them (R199). -/
def Inside (e t : Engine) : Prop :=
  ∃ n, cabacShifts t = cabacShifts e + n ∧ 2 ^ n * cabacCode e ≤ cabacCode t ∧
    cabacCode t + t.cabacEnc.range9.toNat ≤ 2 ^ n * (cabacCode e + e.cabacEnc.range9.toNat)

theorem Inside.refl (e : Engine) : Inside e e := ⟨0, rfl, by omega, by omega⟩

theorem Inside.trans {e t u : Engine} (h : Inside e t) (h' : Inside t u) : Inside e u := by
  obtain ⟨m, hm, hlo, hhi⟩ := h
  obtain ⟨n, hn, hlo', hhi'⟩ := h'
  refine ⟨m + n, by omega, ?_, ?_⟩ <;> rw [Nat.add_comm m n, Nat.pow_add, Nat.mul_assoc]
  · exact (Nat.mul_le_mul_left _ hlo).trans hlo'
  · exact hhi'.trans (Nat.mul_le_mul_left _ hhi)

/-- An input spells a number in the interval of `e`, in the bits that a decoder of the same commands has read (R216). -/
structure Spells (src : List Byte) (e : Engine) : Prop where
  lower : cabacCode e ≤ inputBits src 0 (9 + cabacShifts e)
  upper : inputBits src 0 (9 + cabacShifts e) < cabacCode e + e.cabacEnc.range9.toNat
  length : 9 + cabacShifts e ≤ 8 * src.length

/-- A number in an inner interval is in the outer one. -/
theorem Spells.of_inside {src : List Byte} {e t : Engine} (h : Spells src t) (hin : Inside e t) : Spells src e := by
  obtain ⟨hlower, hupper, hlength⟩ := h
  obtain ⟨n, hn, hlo, hhi⟩ := hin
  have hpos := Nat.two_pow_pos n
  have hrest := inputBits_lt src (0 + (9 + cabacShifts e)) n
  rw [hn, ← Nat.add_assoc, inputBits_add] at hlower hupper
  refine ⟨?_, ?_, by omega⟩
  · refine Nat.le_of_lt_succ (Nat.lt_of_mul_lt_mul_left (a := 2 ^ n) ?_)
    rw [Nat.mul_succ, Nat.mul_comm (2 ^ n) (inputBits _ _ _)]
    omega
  · refine Nat.lt_of_mul_lt_mul_left (a := 2 ^ n) ?_
    rw [Nat.mul_comm (2 ^ n) (inputBits _ _ _)]
    omega

/-- `t` is `e` after a symbol of `n` passes whose part of the interval begins at `lo`, at the scale of `t`. -/
structure SymCoded (n lo : Nat) (e t : Engine) : Prop where
  shifts : cabacShifts t = cabacShifts e + n
  code : cabacCode t = 2 ^ n * cabacCode e + lo
  le : lo + t.cabacEnc.range9.toNat ≤ 2 ^ n * e.cabacEnc.range9.toNat

theorem SymCoded.inside {n lo : Nat} {e t : Engine} (h : SymCoded n lo e t) : Inside e t := by
  obtain ⟨hshifts, hcode, hle⟩ := h
  refine ⟨n, hshifts, by omega, ?_⟩
  rw [Nat.mul_add]
  omega

/-! ### The decoder's offset -/

/-- The decoder `d` follows the encoder `e` (R215, R216): same range and contexts, and `offset` is how far the bits read are
above the code number. -/
structure Tracks (e d : Engine) : Prop where
  decoding : Decoding .cabac d
  lastErr : d.lastErr = .ok
  ctx : d.ctx = e.ctx
  range : d.cabacDec.range9 = e.cabacEnc.range9
  bitpos : d.bitpos = 9 + cabacShifts e
  offset : d.cabacDec.offset.toNat + cabacCode e = inputBits d.src 0 (9 + cabacShifts e)

/-- What the input of a following decoder says of the symbol that comes next: where its bits lie in the symbol's part, and
that they are there. -/
theorem Tracks.next_bits {n lo : Nat} {e t d : Engine} (h : Tracks e d) (hc : SymCoded n lo e t) (hs : Spells d.src t) :
    lo ≤ 2 ^ n * d.cabacDec.offset.toNat + inputBits d.src d.bitpos n ∧
    2 ^ n * d.cabacDec.offset.toNat + inputBits d.src d.bitpos n < lo + t.cabacEnc.range9.toNat ∧
    2 ^ n * d.cabacDec.offset.toNat + inputBits d.src d.bitpos n + 2 ^ n * cabacCode e =
      inputBits d.src 0 (9 + cabacShifts t) ∧
    d.bitpos + n ≤ 8 * d.src.length := by
  obtain ⟨hlower, hupper, hlength⟩ := hs
  obtain ⟨hshifts, hcode, -⟩ := hc
  have hsum : 2 ^ n * d.cabacDec.offset.toNat + inputBits d.src d.bitpos n + 2 ^ n * cabacCode e =
      inputBits d.src 0 (9 + cabacShifts t) := by
    rw [hshifts, ← Nat.add_assoc, inputBits_add, Nat.zero_add, ← h.offset, h.bitpos]
    ring
  have hpos := h.bitpos
  rw [hcode] at hlower hupper
  exact ⟨by omega, by omega, hsum, by omega⟩

/-- A decoder that takes the symbol's part off its offset follows on. -/
theorem Tracks.next {n lo : Nat} {e t d d' : Engine} (h : Tracks e d) (hc : SymCoded n lo e t) (hs : Spells d.src t)
    (hdec : Decoding .cabac d') (herr : d'.lastErr = .ok) (hctx : d'.ctx = t.ctx)
    (hrange : d'.cabacDec.range9 = t.cabacEnc.range9) (hpos : d'.bitpos = d.bitpos + n) (hsrc : d'.src = d.src)
    (hoff : d'.cabacDec.offset.toNat + lo = 2 ^ n * d.cabacDec.offset.toNat + inputBits d.src d.bitpos n) :
    Tracks t d' := by
  obtain ⟨-, -, hsum, -⟩ := h.next_bits hc hs
  have hbitpos := h.bitpos
  have hshifts := hc.shifts
  refine ⟨hdec, herr, hctx, hrange, by omega, ?_⟩
  rw [hsrc, hc.code]
  omega

/-- A symbol coded and decoded: the encoder's interval narrows, and a decoder that follows it gives the bit back and follows
on. -/
structure SymTracked (p : Params) (y : CodedSym) (e t : Engine) : Prop where
  encoding : Encoding .cabac t
  inv : CabacEncInv p t
  inside : Inside e t
  decoded : ∀ d, Tracks e d → Spells d.src t →
    Tracks t (commandEffect p (getInstr .cabac y) d) ∧
    (commandEffect p (getInstr .cabac y) d).src = d.src ∧
    (commandEffect p (getInstr .cabac y) d).responses = getResponse y :: d.responses

/-- The bin of a comparison inside the part of a bin is that bin (R211). -/
theorem decodedBin_of_inside {c : CabacCtx} {b : Bool} {range offset : Nat} (hlo : binLow c b range ≤ offset)
    (hhi : offset < binLow c b range + binWidth c b range) : decodedBin c range offset = b := by
  unfold binLow binWidth at *
  unfold decodedBin
  by_cases hb : b = c.mps
  · rw [if_pos hb] at hhi
    rw [if_pos hb] at hhi
    rw [if_neg (by omega), hb]
  · rw [if_neg hb] at hlo
    rw [if_pos hlo]
    cases hm : c.mps <;> cases b <;> simp_all

/-- Where the bits read lie in a part at the finer scale, what has been read before lies in the part. -/
theorem inside_of_scaled {n lo width offset rest : Nat} (hrest : rest < 2 ^ n) (hlo : 2 ^ n * lo ≤ 2 ^ n * offset + rest)
    (hhi : 2 ^ n * offset + rest < 2 ^ n * lo + 2 ^ n * width) : lo ≤ offset ∧ offset < lo + width := by
  refine ⟨Nat.le_of_lt_succ (Nat.lt_of_mul_lt_mul_left (a := 2 ^ n) ?_), Nat.lt_of_mul_lt_mul_left (a := 2 ^ n) ?_⟩
  · rw [Nat.mul_succ]
    omega
  · rw [Nat.mul_add]
    omega

/-- PUT and GET of a context bin (R189, R211, R215). -/
theorem symTracked_context {p : Params} {y : CodedSym} {c : Nat} {e : Engine} (hy : y.ctx = some c) (hun : Unbounded p)
    (hc : c < p.numCtx) (henc : Encoding .cabac e) (hinv : CabacEncInv p e) :
    SymTracked p y e (commandEffect p (putInstr .cabac y) e) := by
  obtain ⟨h256, hbounds⟩ := cabacEncInv_iff.mp hinv
  have hput : putInstr .cabac y = .cabacPut y.bit c := by simp [putInstr, hy]
  have hget : getInstr .cabac y = .cabacGet c := by simp [getInstr, hy]
  have hnarrow := putSelected_narrowed (p := p) y.bit c hinv
  obtain ⟨t, ht⟩ := hnarrow.renormE_ok hbounds hun
  have hbin := hnarrow.binCoded hbounds ht
  have hwidth := binWidth_bounds (cabacCtxGet e c) y.bit h256 e.cabacEnc.range9.isLt
  obtain ⟨hph, hfam, hctx⟩ := cabacPut_frame ht
  have hmem : ∀ x ∈ ctxOperand (.cabacPut y.bit c), x < p.numCtx := fun x hx => by
    cases hx
    exact hc
  have heff : commandEffect p (.cabacPut y.bit c) e = completeCmd (opBits .put) .none t :=
    commandEffect_of_body (checkCommand_encoding (.inl rfl) henc nofun hmem) (by
      show cabacPutBody y.bit c p e = _
      rw [cabacPutBody_eq, ht, andThen_ok])
  rw [hput, heff]
  generalize hlo : binLow (cabacCtxGet e c) y.bit e.cabacEnc.range9.toNat = lo at hbin hwidth
  generalize hw : binWidth (cabacCtxGet e c) y.bit e.cabacEnc.range9.toNat = width at hbin hwidth
  have hsym : SymCoded (renormCount width) (2 ^ renormCount width * lo) e (completeCmd (opBits .put) .none t) := by
    refine ⟨hbin.shifts, hbin.code.trans (Nat.mul_add _ _ _), ?_⟩
    show _ + t.cabacEnc.range9.toNat ≤ _
    rw [hbin.range, ← Nat.mul_add]
    exact Nat.mul_le_mul_left _ hwidth.2
  refine ⟨⟨hph.trans henc.1, hfam.trans henc.2⟩, hbin.inv, hsym.inside, fun d htr hsp => ?_⟩
  obtain ⟨hlower, hupper, -, hleft⟩ := htr.next_bits hsym hsp
  have hrest := inputBits_lt d.src d.bitpos (renormCount width)
  have hrange : (completeCmd (opBits .put) .none t).cabacEnc.range9.toNat = 2 ^ renormCount width * width := hbin.range
  rw [hrange] at hupper
  obtain ⟨hle, hlt⟩ := inside_of_scaled hrest hlower hupper
  have hctxd : cabacCtxGet d c = cabacCtxGet e c := by
    rw [cabacCtxGet, cabacCtxGet, ctxGet, ctxGet, htr.ctx, htr.decoding.2, henc.2]
  have hlps := lpsWidth_add_le (cabacCtxGet e c) h256 e.cabacEnc.range9.isLt
  obtain ⟨hpos, h510, hok, -⟩ := cabacGetBody_cases p (c := c) (bin := y.bit) (lo := lo) (width := width) (e := d)
    (by rw [hctxd, htr.range]; omega)
    (by rw [hctxd, htr.range]; exact decodedBin_of_inside (by rw [hlo]; exact hle) (by rw [hlo, hw]; exact hlt))
    (by rw [hctxd, htr.range, hlo]) (by rw [hctxd, htr.range, hw])
  obtain ⟨h256', hle510⟩ := renormCount_bounds hpos h510
  obtain ⟨u, hb, hdec, hctxu⟩ := hok (.inr (.inr hleft))
  have heffd : commandEffect p (.cabacGet c) d = completeCmd (opBits .get) (.ofBit y.bit) u :=
    commandEffect_of_body (checkCommand_decoding (.inl rfl) htr.decoding nofun hmem) hb
  rw [hget, heffd]
  have hmul := Nat.mul_le_mul_left (2 ^ renormCount width) hle
  have hoff : u.cabacDec.offset.toNat + 2 ^ renormCount width * lo =
      2 ^ renormCount width * d.cabacDec.offset.toNat + inputBits d.src d.bitpos (renormCount width) := by
    rw [hdec.offset, Nat.mul_sub, Nat.mod_eq_of_lt (by omega)]
    omega
  refine ⟨htr.next hsym hsp ⟨hdec.phase.trans htr.decoding.1, hdec.fam.trans htr.decoding.2⟩ rfl ?_ ?_ hdec.bitpos
    hdec.src hoff, hdec.src, ?_⟩
  · show u.ctx = t.ctx
    rw [hctxu, hctx, cabacCtxUpdate, cabacCtxUpdate, hctxd]
    simp only [cabacCtxSet, ctxSet, Engine.setCtx_ctx, htr.ctx, htr.decoding.2, henc.2]
  · exact BitVec.eq_of_toNat_eq (hdec.range.trans hbin.range.symm)
  · rw [completeCmd_eq, hdec.responses, getResponse, hy]
    rfl

/-- PUT_BYPASS and GET_BYPASS of a bypass bin (R190, R212, R215). -/
theorem symTracked_bypass {p : Params} {y : CodedSym} {e : Engine} (hy : y.ctx = none) (hun : Unbounded p)
    (henc : Encoding .cabac e) (hinv : CabacEncInv p e) :
    SymTracked p y e (commandEffect p (putInstr .cabac y) e) := by
  obtain ⟨h256, hbounds⟩ := cabacEncInv_iff.mp hinv
  have hle510 := hbounds.range_le
  have hput : putInstr .cabac y = .cabacPutBypass y.bit := by simp [putInstr, hy]
  have hget : getInstr .cabac y = .cabacGetBypass := by simp [getInstr, hy]
  obtain ⟨r, hbody, hout⟩ := cabacPutBypassBody_shiftedOut y.bit p e
  obtain ⟨t, ht⟩ := hout.unbounded hun
  obtain ⟨hrange, hcode, hshifts, hinv'⟩ := bypass_coded hinv (hout.bitOut (doubledBounds_bypassLow y.bit hbounds) ht)
  obtain ⟨hph, hfam, hctx⟩ := hout.frame ht
  rw [ht, andThen_ok] at hbody
  have heff : commandEffect p (.cabacPutBypass y.bit) e = completeCmd (opBits .putBypass) .none t :=
    commandEffect_of_body (checkCommand_encoding (.inr (.inl rfl)) henc nofun nofun) hbody
  rw [hput, heff]
  have hlo : (if y.bit then e.cabacEnc.range9.toNat else 0) ≤ e.cabacEnc.range9.toNat := by split <;> omega
  have hsym : SymCoded 1 (if y.bit then e.cabacEnc.range9.toNat else 0) e (completeCmd (opBits .putBypass) .none t) := by
    refine ⟨hshifts, hcode, ?_⟩
    show _ + t.cabacEnc.range9.toNat ≤ _
    rw [hrange]
    omega
  refine ⟨⟨hph.trans henc.1, hfam.trans henc.2⟩, hinv', hsym.inside, fun d htr hsp => ?_⟩
  obtain ⟨hlower, hupper, -, hleft⟩ := htr.next_bits hsym hsp
  have hrange' : (completeCmd (opBits .putBypass) .none t).cabacEnc.range9 = e.cabacEnc.range9 := hrange
  have hbit : inputBits d.src d.bitpos 1 = inputBit d.src d.bitpos := by simp [inputBits]
  rw [hrange'] at hupper
  obtain ⟨offset, hoffset, hb⟩ := cabacGetBypassBody_ok p (e := d) (.inl (by omega))
  rw [htr.range, Nat.mod_eq_of_lt (by omega)] at hoffset hb
  have hbin : decide (e.cabacEnc.range9.toNat ≤ 2 * d.cabacDec.offset.toNat + inputBit d.src d.bitpos) = y.bit := by
    cases hy' : y.bit <;> rw [hy'] at hlower hupper
    · exact decide_eq_false (by simp only [Bool.false_eq_true, if_false] at hupper; omega)
    · exact decide_eq_true (by simp only [if_true] at hlower; omega)
  rw [hbin] at hoffset hb
  have heffd : commandEffect p .cabacGetBypass d = completeCmd (opBits .getBypass) (.ofBit y.bit) _ :=
    commandEffect_of_body (checkCommand_decoding (.inr (.inl rfl)) htr.decoding nofun nofun) hb
  rw [hget, heffd]
  refine ⟨htr.next hsym hsp htr.decoding rfl ?_ ?_ rfl rfl ?_, rfl, ?_⟩
  · exact htr.ctx.trans hctx.symm
  · exact htr.range.trans hrange.symm
  · show offset.toNat + _ = _
    rw [hoffset, hbit]
    cases hy' : y.bit <;> rw [hy'] at hlower <;> simp only [Bool.false_eq_true, if_false, if_true] at hlower ⊢ <;> omega
  · rw [completeCmd_eq, getResponse, hy]
    rfl

theorem symTracked {p : Params} {y : CodedSym} {e : Engine} (hun : Unbounded p) (hc : ∀ c ∈ y.ctx, c < p.numCtx)
    (henc : Encoding .cabac e) (hinv : CabacEncInv p e) :
    SymTracked p y e (commandEffect p (putInstr .cabac y) e) := by
  cases hy : y.ctx with
  | none => exact symTracked_bypass hy hun henc hinv
  | some c => exact symTracked_context hy hun (hc c hy) henc hinv

/-! ### Sessions -/

/-- A run of symbols coded keeps the session in bounds and narrows its interval (R199). -/
theorem cabac_run_inside {p : Params} {syms : List CodedSym} {e : Engine} (hun : Unbounded p)
    (hc : ∀ y ∈ syms, ∀ c ∈ y.ctx, c < p.numCtx) (henc : Encoding .cabac e) (hinv : CabacEncInv p e) :
    let t := runEngine p (syms.map (putInstr .cabac)) e
    Encoding .cabac t ∧ CabacEncInv p t ∧ Inside e t := by
  induction syms generalizing e with
  | nil => exact ⟨henc, hinv, .refl e⟩
  | cons y syms ih =>
    obtain ⟨hy, hsyms⟩ := List.forall_mem_cons.mp hc
    have hsym := symTracked hun hy henc hinv
    obtain ⟨henc', hinv', hin⟩ := ih hsyms hsym.encoding hsym.inv
    exact ⟨henc', hinv', hsym.inside.trans hin⟩

/-- A decoder that follows an encoder at the start of a run of symbols, on an input that spells a number in the run's last
interval, gives every bit back and follows the encoder to the end (R215). -/
theorem cabac_run_tracks {p : Params} {syms : List CodedSym} {e d : Engine} (hun : Unbounded p)
    (hc : ∀ y ∈ syms, ∀ c ∈ y.ctx, c < p.numCtx) (henc : Encoding .cabac e) (hinv : CabacEncInv p e) (htr : Tracks e d)
    (hsp : Spells d.src (runEngine p (syms.map (putInstr .cabac)) e)) :
    Tracks (runEngine p (syms.map (putInstr .cabac)) e) (runEngine p (syms.map (getInstr .cabac)) d) ∧
    (runEngine p (syms.map (getInstr .cabac)) d).responses = (syms.map getResponse).reverse ++ d.responses := by
  induction syms generalizing e d with
  | nil => exact ⟨htr, rfl⟩
  | cons y syms ih =>
    obtain ⟨hy, hsyms⟩ := List.forall_mem_cons.mp hc
    have hsym := symTracked hun hy henc hinv
    obtain ⟨-, -, hin⟩ := cabac_run_inside hun hsyms hsym.encoding hsym.inv
    obtain ⟨htr', hsrc, hresp⟩ := hsym.decoded d htr (hsp.of_inside hin)
    obtain ⟨htr'', hresp'⟩ := ih hsyms hsym.encoding hsym.inv htr' (by rw [hsrc]; exact hsp)
    refine ⟨htr'', ?_⟩
    rw [List.map_cons, runEngine_cons, hresp', hresp, List.map_cons, List.reverse_cons, List.append_assoc,
      List.singleton_append]

/-- The output of a session spells a number in its last interval (R188, R216). -/
theorem spells_of_output {e : Engine} {out : List Byte} {pad : Nat} (h256 : 256 ≤ e.cabacEnc.range9.toNat)
    (hlen : 8 * out.length = cabacShifts e + 9 + pad)
    (hval : bytesValue out = (2 * ((cabacCode e + (e.cabacEnc.range9.toNat - 2)) / 2) + 1) * 2 ^ pad) :
    Spells out e := by
  have hbits : inputBits out 0 (9 + cabacShifts e) = 2 * ((cabacCode e + (e.cabacEnc.range9.toNat - 2)) / 2) + 1 := by
    have hall := inputBits_all out
    have hrest := inputBits_lt out (0 + (9 + cabacShifts e)) pad
    rw [hlen, Nat.add_comm _ 9, inputBits_add, hval] at hall
    have hdiv : (inputBits out 0 (9 + cabacShifts e) * 2 ^ pad + inputBits out (0 + (9 + cabacShifts e)) pad) / 2 ^ pad =
        inputBits out 0 (9 + cabacShifts e) := by
      rw [Nat.mul_comm, Nat.mul_add_div (Nat.two_pow_pos pad), Nat.div_eq_of_lt hrest, Nat.add_zero]
    rw [← hdiv, hall, Nat.mul_div_cancel _ (Nat.two_pow_pos pad)]
  exact ⟨by omega, by omega, by omega⟩

/-- OPEN_ENC of CABAC (R53, R181). -/
theorem cabacOpenEnc_effect (p : Params) (e : Engine) :
    commandEffect p .cabacOpenEnc e = completeCmd (opBits .openEnc) .none
      ((openEncoder .cabac 1 e).setCabacEnc ⟨0, 510, 0, true⟩) :=
  commandEffect_of_body (checkCommand_open (.inl rfl) p e) rfl

/-- FINISH of CABAC (R192): its output spells a number in the last interval, and the contexts stay. -/
theorem cabacFinish_effect {p : Params} {e : Engine} (hun : Unbounded p) (henc : Encoding .cabac e)
    (hinv : CabacEncInv p e) :
    ∃ out, (commandEffect p .cabacFinish e).readableOutput = some out ∧ Spells out e ∧
      (commandEffect p .cabacFinish e).ctx = e.ctx ∧ (commandEffect p .cabacFinish e).fam = .cabac := by
  obtain ⟨h256, hbounds⟩ := cabacEncInv_iff.mp hinv
  have hnarrow := termSelected_narrowed hinv
  obtain ⟨t, ht⟩ := hnarrow.renormE_ok hbounds hun
  obtain ⟨hfam, hctx⟩ := cabacTerminate_frame ht
  obtain ⟨pad, -, hlen, hval⟩ := flushed_output (hnarrow.binCoded hbounds ht) (hfam.trans henc.2)
  have heff : commandEffect p .cabacFinish e = completeCmd (opBits .finish) (.ofOut (flushed t).output) (flushed t) :=
    commandEffect_of_body (checkCommand_terminating (.inl rfl) henc) (by
      show cabacTerminate p e = _
      rw [cabacTerminate_inMemory hun.1, ht, andThen_ok])
  rw [heff]
  exact ⟨_, rfl, spells_of_output h256 hlen hval, hctx, hfam.trans henc.2⟩

/-- A session starts with code number 0 and no bit counted (R53). -/
theorem cabacCode_start {e : Engine} (hreg : e.cabacEnc = ⟨0, 510, 0, true⟩) (hsink : e.sink = []) :
    cabacCode e = 0 ∧ cabacShifts e = 0 := by
  simp [cabacCode, cabacShifts, hreg, hsink, bitsValue]

/-- OPEN_DEC of CABAC on an input that spells a number in the interval of the encoder's start follows that encoder (R210). -/
theorem cabacOpenDec_tracks (p : Params) {e d : Engine} (hs : Spells d.staged (commandEffect p .cabacOpenEnc e)) :
    Tracks (commandEffect p .cabacOpenEnc e) (commandEffect p (.cabacOpenDec true) d) ∧
    (commandEffect p (.cabacOpenDec true) d).src = d.staged := by
  have hlen := hs.length
  have heff : commandEffect p (.cabacOpenDec true) d = completeCmd (opBits .openDec) .none _ :=
    commandEffect_of_body (checkCommand_open (.inr rfl) p d)
      (cabacOpenDecBody_eq (eof := true) (e := d) (.inr (by omega)) p)
  rw [cabacOpenEnc_effect, heff]
  obtain ⟨hcode, hshifts⟩ := cabacCode_start (e := completeCmd (opBits .openEnc) .none
    ((openEncoder .cabac 1 e).setCabacEnc ⟨0, 510, 0, true⟩)) rfl rfl
  refine ⟨⟨⟨rfl, rfl⟩, rfl, rfl, rfl, by rw [hshifts]; rfl, ?_⟩, rfl⟩
  rw [hshifts, hcode]
  exact shiftInBits_word_toNat (openDecoder .cabac 1 true d) 0 (by decide)

/-- Settles O58: the output spells a number in every interval of the session, so that the decoder follows the encoder
from OPEN_DEC on. -/
theorem cabacRoundTrip : Obligations.CabacRoundTrip := by
  refine roundTrips_of_engine fun p e syms hun hsyms => ?_
  have hc : ∀ y ∈ syms, ∀ c ∈ y.ctx, c < p.numCtx := fun y hy => (hsyms y hy).2
  have henc : Encoding .cabac (commandEffect p .cabacOpenEnc e) := by
    rw [cabacOpenEnc_effect]
    exact ⟨rfl, rfl⟩
  have hinv : CabacEncInv p (commandEffect p .cabacOpenEnc e) := by
    rw [cabacOpenEnc_effect]
    exact cabacEncInv_open rfl rfl
  obtain ⟨henc', hinv', hin⟩ := cabac_run_inside hun hc henc hinv
  obtain ⟨out, hout, hsp, hctx, hfam⟩ := cabacFinish_effect hun henc' hinv'
  have hrun : runEngine p (openEncInstr .cabac 1 :: syms.map (putInstr .cabac) ++ [finishInstr .cabac]) e =
      commandEffect p .cabacFinish (runEngine p (syms.map (putInstr .cabac)) (commandEffect p .cabacOpenEnc e)) := by
    rw [runEngine_append]
    rfl
  generalize commandEffect p .cabacFinish (runEngine p (syms.map (putInstr .cabac)) (commandEffect p .cabacOpenEnc e)) = e₁
    at hout hctx hfam hrun
  obtain ⟨htr, hsrc⟩ := cabacOpenDec_tracks p (e := e) (d := e₁.setStaged out) (hsp.of_inside hin)
  obtain ⟨htr', hresp⟩ := cabac_run_tracks hun hc henc hinv htr (by rw [hsrc]; exact hsp)
  unfold EngineRoundTrip
  rw [hrun]
  refine ⟨out, hout, ?_, htr'.decoding.1, htr'.lastErr, fun c => ?_⟩
  · show (runEngine p (syms.map (getInstr .cabac)) (commandEffect p (.cabacOpenDec true) (e₁.setStaged out))).responses.take
      _ = _
    rw [hresp, List.take_left' (by rw [List.length_reverse, List.length_map])]
  · show ctxGet (runEngine p (syms.map (getInstr .cabac)) (commandEffect p (.cabacOpenDec true) (e₁.setStaged out))) c = _
    rw [ctxGet, ctxGet, htr'.ctx, htr'.decoding.2, hctx, hfam]

end Sys2Proof.Machine
end

section
/-! SUPPORT, then O31. The parts of a VP8 interval (R230), and how many doublings a VP8 range needs (R234, R242). -/

namespace Sys2Proof.Machine

open Sys2Proof

/-! ### The split -/

/-- Split leaves both parts of a range of at least 2 non-empty, for any p (R230). -/
theorem vp8Split_bounds {range : Word} (h : 2 ≤ range.toNat) (p : Byte) :
    1 ≤ vp8Split range p ∧ vp8Split range p + 1 ≤ range.toNat := by
  have hmul : (range.toNat - 1) * p.toNat ≤ (range.toNat - 1) * 255 :=
    Nat.mul_le_mul_left _ (Nat.le_of_lt_succ p.isLt)
  rw [vp8Split]
  omega

/-- Settles O31: Split from its bound, and Mid from its value in a proper interval. -/
theorem splitAndMidInside : Obligations.SplitAndMidInside := by
  refine ⟨fun range p h2 _ _ => ?_, fun lo hi p hle _ => ?_⟩
  · obtain ⟨h1, hlt⟩ := vp8Split_bounds h2 p
    exact ⟨h1, by omega, rfl⟩
  · rcases Nat.lt_or_eq_of_le hle with hlt | heq
    · obtain ⟨hmid, -, hin⟩ := fpaq0Mid_toNat hlt p
      exact ⟨hmid, fun _ => hin⟩
    · refine ⟨?_, fun hlt => absurd heq (Nat.ne_of_lt hlt)⟩
      simp [fpaq0Mid, ← heq]

/-- Where the part of the interval that a bit selects begins (R234, R242). -/
def vp8Low (b : Bool) (prob : Byte) (range : Word) : Nat := if b then vp8Split range prob else 0

/-- How wide it is. -/
def vp8Width (b : Bool) (prob : Byte) (range : Word) : Nat :=
  if b then range.toNat - vp8Split range prob else vp8Split range prob

theorem vp8Width_bounds (b : Bool) (prob : Byte) {range : Word} (h : 2 ≤ range.toNat) :
    1 ≤ vp8Width b prob range ∧ vp8Low b prob range + vp8Width b prob range ≤ range.toNat := by
  have := vp8Split_bounds h prob
  unfold vp8Width vp8Low
  split <;> omega

/-! ### The number of doublings -/

/-- The doublings that bring a VP8 range of 1 to 255 to 128 or more (R234, R242): those that bring twice the range to 256
or more. -/
def vp8Doublings (r : Nat) : Nat := renormCount (2 * r)

theorem vp8Doublings_of_ge {r : Nat} (h : 128 ≤ r) : vp8Doublings r = 0 := renormCount_of_ge (by omega)

/-- A range below 128 needs one doubling more than its double. -/
theorem vp8Doublings_of_lt {r : Nat} (h0 : 1 ≤ r) (h : r < 128) : vp8Doublings r = vp8Doublings (2 * r) + 1 :=
  renormCount_of_lt (by omega) (by omega)

theorem vp8Doublings_le {r : Nat} (h : 1 ≤ r) : vp8Doublings r ≤ 7 := renormCount_le (by decide) (by omega)

/-- The doublings reach 128 and do not pass 255 (R237). -/
theorem vp8Doublings_bounds {r : Nat} (h0 : 1 ≤ r) (h : r ≤ 255) :
    128 ≤ 2 ^ vp8Doublings r * r ∧ 2 ^ vp8Doublings r * r ≤ 255 := by
  have := renormCount_bounds (r := 2 * r) (by omega) (by omega)
  rw [Nat.mul_left_comm] at this
  rw [vp8Doublings]
  omega

end Sys2Proof.Machine
end

section
/-! SUPPORT. The VP8 encoder's byte deferral (R231 to R233, R237): what FormByte and Shift make of the code number and of the
bounds, on any sink and with any counter. -/

namespace Sys2Proof.Machine

open Sys2Proof

/-! ### Outcomes -/

/-- Everything an encoder procedure can do: go on in an engine that meets `Done`, meet a full counter exactly where `full`
says so, or have an `External` sink refuse a byte (R82, R231). -/
inductive EncOutcome (p : Params) (full : Prop) (Done : Engine → Prop) : Res Unit → Prop
  | done (t : Engine) (h : Done t) (hroom : ¬full) : EncOutcome p full Done (.ok () t)
  | overflow (t : Engine) (h : full) : EncOutcome p full Done (.raised .counterOverflow t)
  | refused (t : Engine) (h : p.sinkMode = .external) : EncOutcome p full Done (.raised .outputFailure t)

section
variable {p : Params} {full full' : Prop} {Done Done' : Engine → Prop} {r : Res Unit}

/-- A procedure, then another one: the two meet a full counter where the first does or, after it, the second. -/
theorem EncOutcome.andThen {f : Unit → Engine → Res Unit} (h : EncOutcome p full Done r) (hfull : full → full')
    (hf : ∀ t, Done t → ¬full → EncOutcome p full' Done' (f () t)) : EncOutcome p full' Done' (r.andThen f) := by
  cases h with
  | done t h hroom => exact hf t h hroom
  | overflow t h => exact .overflow t (hfull h)
  | refused t h => exact .refused t h

theorem EncOutcome.imp (h : EncOutcome p full Done r) (hfull : full ↔ full') (hdone : ∀ t, Done t → Done' t) :
    EncOutcome p full' Done' r := by
  cases h with
  | done t h hroom => exact .done t (hdone t h) (mt hfull.mpr hroom)
  | overflow t h => exact .overflow t (hfull.mp h)
  | refused t h => exact .refused t h

theorem EncOutcome.of_ok {t : Engine} (h : EncOutcome p full Done r) (hr : r = .ok () t) : Done t := by
  subst hr
  cases h with
  | done t h hroom => exact h

/-- On an `InMemory` sink the counter alone decides. -/
theorem EncOutcome.inMemory (h : EncOutcome p full Done r) (hmem : p.sinkMode = .inMemory) :
    (full → ∃ t, r = .raised .counterOverflow t) ∧ (¬full → ∃ t, r = .ok () t ∧ Done t) := by
  cases h with
  | done t h hroom => exact ⟨fun h => absurd h hroom, fun _ => ⟨t, rfl, h⟩⟩
  | overflow t h => exact ⟨fun _ => ⟨t, rfl⟩, fun hroom => absurd h hroom⟩
  | refused t h => rw [hmem] at h; cases h

/-- A procedure that writes and then goes on by way of `f` meets no counter. -/
theorem Written.encOutcome {u : Engine} {f : Engine → Engine} (h : Written p u r) (hroom : ¬full)
    (hf : ∀ n, Done (f (u.setOffers n))) : EncOutcome p full Done (r.andThen fun _ t => .ok () (f t)) := by
  cases h with
  | done n h => exact .done _ (hf n) hroom
  | refused t h => exact .refused t h

end

/-! ### Writing bytes -/

/-- Writing bits appends them, on any sink (R73). -/
theorem writeBits_written (p : Params) (bs : List Bool) (e : Engine) :
    Written p (e.setSink (e.sink ++ bs)) (writeBits p bs e) := by
  induction bs generalizing e with
  | nil =>
    rw [List.append_nil]
    exact .done e.offers fun _ => rfl
  | cons b bs ih =>
    refine (writeBit_written p b e).andThen rfl fun n => ?_
    have hrest := ih ((e.setSink (e.sink ++ [b])).setOffers n)
    rw [Engine.setOffers_sink, Engine.setSink_sink, List.append_assoc] at hrest
    exact hrest

/-- Writing bytes appends their bits, on any sink (R74). -/
theorem writeBytes_written (p : Params) (vs : List Byte) (e : Engine) :
    Written p (e.setSink (e.sink ++ vs.flatMap byteBits)) (writeBytes p vs e) := by
  induction vs generalizing e with
  | nil =>
    rw [List.flatMap_nil, List.append_nil]
    exact .done e.offers fun _ => rfl
  | cons v vs ih =>
    refine (writeBits_written p (byteBits v) e).andThen rfl fun n => ?_
    have hrest := ih ((e.setSink (e.sink ++ byteBits v)).setOffers n)
    rw [Engine.setOffers_sink, Engine.setSink_sink, List.append_assoc] at hrest
    exact hrest

/-- The bits of the bytes that a release writes: `first`, then `k` bytes of zeros or of ones (R232). -/
def releasedBits (first fill : Byte) (k : Nat) : List Bool := (first :: List.replicate k fill).flatMap byteBits

theorem releasedBits_length (first fill : Byte) (k : Nat) : (releasedBits first fill k).length = 8 * (k + 1) := by
  rw [releasedBits, flatMap_byteBits_length, List.length_cons, List.length_replicate]

theorem two_pow_eight_mul (k : Nat) : 2 ^ (8 * k) = 256 ^ k := Nat.pow_mul 2 8 k

/-- The number that released bytes spell after what is written already: with a carry the deferred bytes turn round to
zeros, and without one they are ones (R232). -/
theorem bitsValue_released (bs : List Bool) (first : Byte) (k : Nat) :
    bitsValue (bs ++ releasedBits first 0 k) = (bitsValue bs * 256 + first.toNat) * 256 ^ k ∧
    bitsValue (bs ++ releasedBits first 255 k) = (bitsValue bs * 256 + first.toNat) * 256 ^ k + (256 ^ k - 1) := by
  have hbyte : ∀ v : Byte, bitsValue (byteBits v) = v.toNat := by decide
  have hlen : (byteBits first).length = 8 := rfl
  have hfill : ∀ fill : Byte, ∀ b : Bool, byteBits fill = List.replicate 8 b →
      (List.replicate k fill).flatMap byteBits = List.replicate (8 * k) b := fun fill b h => by
    rw [List.flatMap_replicate, h, List.flatten_replicate_replicate, Nat.mul_comm]
  have hval : ∀ fill : Byte, ∀ b : Bool, byteBits fill = List.replicate 8 b →
      bitsValue (bs ++ releasedBits first fill k) =
        (bitsValue bs * 256 + first.toNat) * 256 ^ k + b.toNat * (256 ^ k - 1) := fun fill b h => by
    simp only [releasedBits, List.flatMap_cons, hfill fill b h, ← List.append_assoc, bitsValue_append, bitsValue_append, hbyte,
      bitsValue_replicate, List.length_replicate, two_pow_eight_mul, hlen, Nat.reducePow]
  refine ⟨?_, ?_⟩
  · rw [hval 0 false rfl, Bool.toNat_false, Nat.zero_mul, Nat.add_zero]
  · rw [hval 255 true rfl, Bool.toNat_true, Nat.one_mul]

/-! ### The bounds -/

/-- The bounds of an encoder session with `low` and `count` taken at given numbers, where the range may be below 128 (R237):
FormByte runs with `count` taken as 8. -/
structure Vp8BoundsAt (p : Params) (low count : Nat) (e : Engine) : Prop where
  range_pos : 1 ≤ e.vp8Enc.range8.toNat
  sum : low + e.vp8Enc.range8.toNat ≤ 510 * 2 ^ count
  first : e.vp8Enc.pendingValid = false →
    low + e.vp8Enc.range8.toNat ≤ 255 * 2 ^ count ∧ e.vp8Enc.bitsOutstanding = 0 ∧ e.sink = []
  pending : e.vp8Enc.pendingValid = true → e.vp8Enc.pendingByte.toNat ≤ 254
  aligned : e.sink.length % 8 = 0
  counter : ∀ w ∈ p.outstandingW, e.vp8Enc.bitsOutstanding < 2 ^ w

/-- The bounds that hold throughout a command. -/
def Vp8Bounds (p : Params) (e : Engine) : Prop := Vp8BoundsAt p e.vp8Enc.low.toNat e.vp8Enc.count.toNat e

theorem vp8EncInv_iff {p : Params} {e : Engine} :
    Vp8EncInv p e ↔ 128 ≤ e.vp8Enc.range8.toNat ∧ Vp8Bounds p e := by
  have hlt := e.vp8Enc.range8.isLt
  simp only [Vp8EncInv, Vp8Enc.range_toNat]
  exact ⟨fun ⟨h1, _, h3, h4, h5, h6, h7⟩ => ⟨h1, by omega, h3, h4, h5, h6, h7⟩,
    fun ⟨h1, _, h3, h4, h5, h6, h7⟩ => ⟨h1, by omega, h3, h4, h5, h6, h7⟩⟩

/-! ### FormByte -/

/-- The shifts of the session so far (R240). -/
def vp8ShiftCount (e : Engine) : Nat := 8 * vp8FormedBytes e + e.vp8Enc.count.toNat

/-- The byte that FormByte makes of `low` would be deferred where the counter is full: 0xFF with no carry (R231, R232). -/
def FormOverflows (p : Params) (low : Nat) (r : Vp8Enc) : Prop :=
  r.pendingValid = true ∧ counterFull p r.bitsOutstanding = true ∧ low / 2 ^ 8 = 255

/-- What FormByte makes of a session's numbers: `low[16:8]` comes after the formed bytes, as one byte more, whatever the
carry, and the low byte of `low` stays (R232, R237). -/
structure ByteFormed (p : Params) (u t : Engine) : Prop where
  formed : vp8Formed t = 256 * vp8Formed u + u.vp8Enc.low.toNat / 256
  bytes : vp8FormedBytes t = vp8FormedBytes u + 1
  low : t.vp8Enc.low.toNat = u.vp8Enc.low.toNat % 256
  count : t.vp8Enc.count = u.vp8Enc.count
  range : t.vp8Enc.range8 = u.vp8Enc.range8
  bounds : Vp8BoundsAt p t.vp8Enc.low.toNat 0 t

theorem vp8Formed_of_valid {e : Engine} (h : e.vp8Enc.pendingValid = true) :
    vp8Formed e = (bitsValue e.sink * 256 + e.vp8Enc.pendingByte.toNat) * 256 ^ e.vp8Enc.bitsOutstanding +
      (256 ^ e.vp8Enc.bitsOutstanding - 1) := by rw [vp8Formed, if_pos h]

theorem vp8FormedBytes_of_valid {e : Engine} (h : e.vp8Enc.pendingValid = true) :
    vp8FormedBytes e = e.sink.length / 8 + (1 + e.vp8Enc.bitsOutstanding) := by rw [vp8FormedBytes, if_pos h]

theorem low_and_255_toNat (low : Word) : (low &&& 255).toNat = low.toNat % 256 := by
  have h255 : (255 : Word).toNat = 2 ^ 8 - 1 := rfl
  rw [BitVec.toNat_and, h255, Nat.and_two_pow_sub_one_eq_mod]

/-- The engine after a release of the deferred bytes, with `v` pending (R232). -/
def byteReleased (first fill v : Byte) (u : Engine) : Engine :=
  (u.setSink (u.sink ++ releasedBits first fill u.vp8Enc.bitsOutstanding)).setVp8Enc
    { u.vp8Enc with low := u.vp8Enc.low &&& 255, bitsOutstanding := 0, pendingByte := v }

/-- A release that adds the carry to the pending byte, or writes the deferred bytes as they are, forms a byte. -/
theorem byteFormed_released {p : Params} {u : Engine} {first fill v : Byte} (hu : Vp8BoundsAt p u.vp8Enc.low.toNat 8 u)
    (hvalid : u.vp8Enc.pendingValid = true) (hv : v.toNat ≤ 254) (n : Nat)
    (hval : bitsValue (u.sink ++ releasedBits first fill u.vp8Enc.bitsOutstanding) * 256 + v.toNat =
      256 * vp8Formed u + u.vp8Enc.low.toNat / 256) :
    ByteFormed p u ((byteReleased first fill v u).setOffers n) := by
  have hlow := low_and_255_toNat u.vp8Enc.low
  have hrange := u.vp8Enc.range8.isLt
  have hlen := releasedBits_length first fill u.vp8Enc.bitsOutstanding
  have haligned := hu.aligned
  have hsink : ((byteReleased first fill v u).setOffers n).sink.length =
      u.sink.length + 8 * (u.vp8Enc.bitsOutstanding + 1) := by rw [← hlen]; exact List.length_append
  refine ⟨?_, ?_, hlow, rfl, rfl, hu.range_pos, ?_, fun h => ?_, fun _ => hv, by omega, fun w _ => Nat.two_pow_pos w⟩
  · refine ((vp8Formed_of_valid (by exact hvalid)).trans ?_).trans hval
    show (_ + v.toNat) * 256 ^ 0 + (256 ^ 0 - 1) = _
    rw [Nat.pow_zero, Nat.mul_one, Nat.sub_self, Nat.add_zero]
    rfl
  · rw [vp8FormedBytes_of_valid hvalid, vp8FormedBytes_of_valid (by exact hvalid), hsink]
    show _ + (1 + 0) = _
    omega
  · show (u.vp8Enc.low &&& 255).toNat + u.vp8Enc.range8.toNat ≤ _
    omega
  · exact nomatch hvalid.symm.trans h

/-- The engine of FormByte once `low` has lost the assembled byte (R232). -/
def lowTaken (u : Engine) : Engine := u.setVp8Enc { u.vp8Enc with low := u.vp8Enc.low &&& 255 }

/-- A release, within FormByte. -/
theorem releaseBytes_outcome {p : Params} {u : Engine} {full : Prop} {first fill v : Byte}
    (hu : Vp8BoundsAt p u.vp8Enc.low.toNat 8 u) (hvalid : u.vp8Enc.pendingValid = true) (hv : v.toNat ≤ 254)
    (hroom : ¬full)
    (hval : bitsValue (u.sink ++ releasedBits first fill u.vp8Enc.bitsOutstanding) * 256 + v.toNat =
      256 * vp8Formed u + u.vp8Enc.low.toNat / 256) :
    EncOutcome p full (ByteFormed p u)
      ((releaseBytes p first fill (lowTaken u)).andThen fun _ t => .ok () (setPending v t)) :=
  (writeBytes_written p _ (lowTaken u)).encOutcome hroom fun n => byteFormed_released hu hvalid hv n hval

/-- The first byte of a session only becomes pending (R232). -/
theorem byteFormed_first {p : Params} {u : Engine} {v : Byte} (hu : Vp8BoundsAt p u.vp8Enc.low.toNat 8 u)
    (hvalid : u.vp8Enc.pendingValid = false) (hv : v.toNat = u.vp8Enc.low.toNat / 256) :
    ByteFormed p u ((lowTaken u).setVp8Enc { (lowTaken u).vp8Enc with pendingByte := v, pendingValid := true }) := by
  obtain ⟨hsum, hout, hnil⟩ := hu.first hvalid
  have hpos := hu.range_pos
  have hrange := u.vp8Enc.range8.isLt
  have hlow := low_and_255_toNat u.vp8Enc.low
  refine ⟨?_, ?_, hlow, rfl, rfl, hpos, ?_, nofun, fun _ => ?_, hu.aligned, hu.counter⟩
  · simp [vp8Formed, lowTaken, hvalid, hout, hnil, hv, bitsValue]
  · simp [vp8FormedBytes, lowTaken, hvalid, hout, hnil]
  · show (u.vp8Enc.low &&& 255).toNat + u.vp8Enc.range8.toNat ≤ _
    omega
  · show v.toNat ≤ 254
    omega

/-- A byte 0xFF without a carry is counted (R231, R232). -/
theorem byteFormed_counted {p : Params} {u : Engine} (hu : Vp8BoundsAt p u.vp8Enc.low.toNat 8 u)
    (hvalid : u.vp8Enc.pendingValid = true) (hv : u.vp8Enc.low.toNat / 256 = 255)
    (hroom : counterFull p u.vp8Enc.bitsOutstanding = false) :
    ByteFormed p u ((lowTaken u).setVp8Enc
      { (lowTaken u).vp8Enc with bitsOutstanding := u.vp8Enc.bitsOutstanding + 1 }) := by
  have hrange := u.vp8Enc.range8.isLt
  have hlow := low_and_255_toNat u.vp8Enc.low
  refine ⟨?_, ?_, hlow, rfl, rfl, hu.range_pos, ?_, fun h => ?_, hu.pending, hu.aligned, fun w hw => ?_⟩
  · have hpow : 0 < 256 ^ u.vp8Enc.bitsOutstanding := Nat.pow_pos (by decide)
    rw [vp8Formed_of_valid hvalid, vp8Formed_of_valid (by exact hvalid), hv]
    show (bitsValue u.sink * 256 + u.vp8Enc.pendingByte.toNat) * 256 ^ (u.vp8Enc.bitsOutstanding + 1) +
      (256 ^ (u.vp8Enc.bitsOutstanding + 1) - 1) = _
    rw [Nat.pow_succ, ← Nat.mul_assoc]
    omega
  · rw [vp8FormedBytes_of_valid hvalid, vp8FormedBytes_of_valid (by exact hvalid)]
    rfl
  · show (u.vp8Enc.low &&& 255).toNat + u.vp8Enc.range8.toNat ≤ _
    omega
  · exact nomatch hvalid.symm.trans h
  · have hlt := hu.counter w hw
    have hne := counterFull_eq_false.mp hroom w hw
    show u.vp8Enc.bitsOutstanding + 1 < _
    omega

/-- FormByte with a carry: a byte is pending, and takes it (R232, R237). -/
theorem carry_outcome {p : Params} {u : Engine} {v : Byte} (hu : Vp8BoundsAt p u.vp8Enc.low.toNat 8 u)
    (hbyte : v.toNat = u.vp8Enc.low.toNat / 256 % 256) (hge : 65536 ≤ u.vp8Enc.low.toNat) :
    EncOutcome p (FormOverflows p u.vp8Enc.low.toNat u.vp8Enc) (ByteFormed p u)
      ((releaseBytes p (u.vp8Enc.pendingByte + 1) 0 (lowTaken u)).andThen fun _ t => .ok () (setPending v t)) := by
  have hsum := hu.sum
  have hpos := hu.range_pos
  have hvalid : u.vp8Enc.pendingValid = true := Bool.eq_true_of_not_eq_false fun h => by
    obtain ⟨hle, -⟩ := hu.first h
    omega
  have hpending := hu.pending hvalid
  have hinc : (u.vp8Enc.pendingByte + 1).toNat = u.vp8Enc.pendingByte.toNat + 1 := by
    have hone : (1 : Byte).toNat = 1 := rfl
    rw [BitVec.toNat_add, hone]
    omega
  have hpow : 0 < 256 ^ u.vp8Enc.bitsOutstanding := Nat.pow_pos (by decide)
  refine releaseBytes_outcome hu hvalid (by omega) (fun ⟨_, _, hff⟩ => by omega) ?_
  rw [(bitsValue_released _ _ _).1, hinc, vp8Formed_of_valid hvalid, ← Nat.add_assoc, Nat.succ_mul]
  omega

/-- FormByte without a carry, where a byte is pending: 0xFF is counted, and any other byte releases the deferred ones
(R232). -/
theorem noCarry_outcome {p : Params} {u : Engine} {v : Byte} (hu : Vp8BoundsAt p u.vp8Enc.low.toNat 8 u)
    (hbyte : v.toNat = u.vp8Enc.low.toNat / 256) (hvalid : u.vp8Enc.pendingValid = true) :
    EncOutcome p (FormOverflows p u.vp8Enc.low.toNat u.vp8Enc) (ByteFormed p u)
      (if v = 255 then incBytesOutstanding p (lowTaken u)
       else (releaseBytes p u.vp8Enc.pendingByte 255 (lowTaken u)).andThen fun _ t => .ok () (setPending v t)) := by
  have hlt := v.isLt
  split
  · next hv =>
    have h255 : (255 : Byte).toNat = 255 := rfl
    rw [hv, h255] at hbyte
    unfold incBytesOutstanding
    split
    · next hfull => exact .overflow _ ⟨hvalid, hfull, hbyte.symm⟩
    · next hroom =>
      exact .done _ (byteFormed_counted hu hvalid hbyte.symm (Bool.eq_false_of_not_eq_true hroom))
        fun ⟨_, hfull, _⟩ => hroom hfull
  · next hv =>
    have hne : v.toNat ≠ 255 := fun h => hv (BitVec.eq_of_toNat_eq h)
    refine releaseBytes_outcome hu hvalid (by omega) (fun ⟨_, _, hff⟩ => by omega) ?_
    rw [(bitsValue_released _ _ _).2, vp8Formed_of_valid hvalid]
    omega

/-- FormByte with a carry, with a byte pending and no carry, and with no byte pending (R232). -/
theorem formByte_outcome {p : Params} {u : Engine} (hu : Vp8BoundsAt p u.vp8Enc.low.toNat 8 u) :
    EncOutcome p (FormOverflows p u.vp8Enc.low.toNat u.vp8Enc) (ByteFormed p u) (formByte p u) := by
  have hsum := hu.sum
  have hcarry : u.vp8Enc.low.getLsbD 16 = decide (65536 ≤ u.vp8Enc.low.toNat) := by
    rw [BitVec.getLsbD, Nat.testBit_eq_decide_div_mod_eq, decide_eq_decide]
    omega
  have hbyte : (u.vp8Enc.low.extractLsb' 8 8).toNat = u.vp8Enc.low.toNat / 256 % 256 := by
    rw [BitVec.extractLsb'_toNat, Nat.shiftRight_eq_div_pow]
  unfold formByte
  dsimp only
  generalize u.vp8Enc.low.extractLsb' 8 8 = v at hbyte
  rw [hcarry]
  by_cases hge : 65536 ≤ u.vp8Enc.low.toNat
  · rw [if_pos (decide_eq_true hge)]
    exact carry_outcome hu hbyte hge
  have hbyte' : v.toNat = u.vp8Enc.low.toNat / 256 := by omega
  rw [if_neg (by simpa using hge)]
  by_cases hvalid : u.vp8Enc.pendingValid = true
  · rw [if_neg (by simpa using hvalid)]
    exact noCarry_outcome hu hbyte' hvalid
  · have hvalid : u.vp8Enc.pendingValid = false := Bool.eq_false_of_not_eq_true hvalid
    rw [if_pos (by simpa using hvalid)]
    exact .done _ (byteFormed_first hu hvalid hbyte') fun ⟨h, _⟩ => nomatch hvalid.symm.trans h

/-! ### Shift -/

/-- What Shift makes of a session's numbers: the code number is doubled and one more shift counted. Either the eighth shift
has formed a byte, or no byte has changed (R233). -/
structure Vp8Shifted (p : Params) (u t : Engine) : Prop where
  code : vp8Code t = 2 * vp8Code u
  shifts : vp8ShiftCount t = vp8ShiftCount u + 1
  range : t.vp8Enc.range8 = u.vp8Enc.range8
  bounds : Vp8Bounds p t
  byte : (u.vp8Enc.count.toNat = 7 ∧ t.vp8Enc.count.toNat = 0 ∧ t.vp8Enc.low.toNat < 256) ∨
    (u.vp8Enc.count.toNat < 7 ∧ t.vp8Enc.count.toNat = u.vp8Enc.count.toNat + 1 ∧
      t.vp8Enc.low.toNat = 2 * u.vp8Enc.low.toNat ∧ t.vp8Enc.pendingValid = u.vp8Enc.pendingValid ∧
      t.vp8Enc.bitsOutstanding = u.vp8Enc.bitsOutstanding)

/-- The registers doubled and a shift counted, before FormByte (R233). -/
def lowShifted (u : Engine) : Engine :=
  u.setVp8Enc { u.vp8Enc with low := u.vp8Enc.low <<< 1, count := BitVec.ofNat 3 (u.vp8Enc.count.toNat + 1) }

theorem vp8Shift_eq (p : Params) (u : Engine) :
    vp8Shift p u = if u.vp8Enc.count.toNat + 1 = 8 then formByte p (lowShifted u) else .ok () (lowShifted u) := rfl

/-- Where bounds hold for other numbers in the place of `low` and `count`, they hold for another engine that has these
numbers and the rest of the registers. -/
theorem Vp8BoundsAt.congr {p : Params} {low count : Nat} {e t : Engine} (h : Vp8BoundsAt p low count e)
    (hrange : t.vp8Enc.range8 = e.vp8Enc.range8) (hbyte : t.vp8Enc.pendingByte = e.vp8Enc.pendingByte)
    (hvalid : t.vp8Enc.pendingValid = e.vp8Enc.pendingValid)
    (hout : t.vp8Enc.bitsOutstanding = e.vp8Enc.bitsOutstanding) (hsink : t.sink = e.sink) :
    Vp8BoundsAt p low count t := by
  obtain ⟨h1, h2, h3, h4, h5, h6⟩ := h
  exact ⟨hrange ▸ h1, hrange ▸ h2, hrange ▸ hvalid ▸ hout ▸ hsink ▸ h3, hvalid ▸ hbyte ▸ h4, hsink ▸ h5, hout ▸ h6⟩

theorem lowShifted_low {u : Engine} (h : 2 * u.vp8Enc.low.toNat < 2 ^ 32) :
    (lowShifted u).vp8Enc.low.toNat = 2 * u.vp8Enc.low.toNat := by
  show (u.vp8Enc.low <<< 1).toNat = _
  rw [BitVec.toNat_shiftLeft, Nat.shiftLeft_eq]
  omega

theorem lowShifted_count (u : Engine) :
    (lowShifted u).vp8Enc.count.toNat = (u.vp8Enc.count.toNat + 1) % 8 := BitVec.toNat_ofNat _ _

theorem lowShifted_formed (u : Engine) :
    vp8Formed (lowShifted u) = vp8Formed u ∧ vp8FormedBytes (lowShifted u) = vp8FormedBytes u := ⟨rfl, rfl⟩

/-- The eighth shift, with the byte it forms (R233). -/
theorem ByteFormed.shifted {p : Params} {u t : Engine} (h : ByteFormed p (lowShifted u) t)
    (hlow : (lowShifted u).vp8Enc.low.toNat = 2 * u.vp8Enc.low.toNat) (h7 : u.vp8Enc.count.toNat = 7) :
    Vp8Shifted p u t := by
  obtain ⟨hformed, hbytes, hl, hcount, hrange, hbounds⟩ := h
  obtain ⟨hsame, hsameBytes⟩ := lowShifted_formed u
  have h0 : t.vp8Enc.count.toNat = 0 := by rw [hcount, lowShifted_count, h7]
  rw [hlow] at hformed hl
  refine ⟨?_, ?_, hrange, ?_, .inl ⟨h7, h0, by omega⟩⟩
  · rw [vp8Code, vp8Code, h0, h7, hformed, hl, hsame]
    omega
  · rw [vp8ShiftCount, vp8ShiftCount, h0, h7, hbytes, hsameBytes]
    omega
  · rw [Vp8Bounds, h0]
    exact hbounds

/-- A shift before the eighth (R233). -/
theorem vp8Shifted_lowShifted {p : Params} {u : Engine}
    (hlow : (lowShifted u).vp8Enc.low.toNat = 2 * u.vp8Enc.low.toNat) (h7 : u.vp8Enc.count.toNat < 7)
    (hbounds : Vp8BoundsAt p (lowShifted u).vp8Enc.low.toNat (u.vp8Enc.count.toNat + 1) (lowShifted u)) :
    Vp8Shifted p u (lowShifted u) := by
  obtain ⟨hsame, hsameBytes⟩ := lowShifted_formed u
  have hcount : (lowShifted u).vp8Enc.count.toNat = u.vp8Enc.count.toNat + 1 := by
    rw [lowShifted_count, Nat.mod_eq_of_lt (by omega)]
  refine ⟨?_, ?_, rfl, ?_, .inr ⟨h7, hcount, hlow, rfl, rfl⟩⟩
  · rw [vp8Code, vp8Code, hcount, hlow, hsame, ← Nat.add_assoc, Nat.pow_succ]
    ring
  · rw [vp8ShiftCount, vp8ShiftCount, hcount, hsameBytes, Nat.add_assoc]
  · rw [Vp8Bounds, hcount]
    exact hbounds

/-- Shift from where the bounds allow `low` doubled (R233, R237): the eighth one forms a byte. -/
theorem vp8Shift_outcome {p : Params} {u : Engine}
    (hu : Vp8BoundsAt p (2 * u.vp8Enc.low.toNat) (u.vp8Enc.count.toNat + 1) u) :
    EncOutcome p (u.vp8Enc.count.toNat = 7 ∧ FormOverflows p (2 * u.vp8Enc.low.toNat) u.vp8Enc) (Vp8Shifted p u)
      (vp8Shift p u) := by
  have hcount := u.vp8Enc.count.isLt
  have hsum := hu.sum
  have hpow : 2 ^ (u.vp8Enc.count.toNat + 1) ≤ 2 ^ 8 := Nat.pow_le_pow_right (by decide) hcount
  have hlow := lowShifted_low (u := u) (by omega)
  have hbounds : Vp8BoundsAt p (lowShifted u).vp8Enc.low.toNat (u.vp8Enc.count.toNat + 1) (lowShifted u) := by
    rw [hlow]
    exact hu.congr rfl rfl rfl rfl rfl
  rw [vp8Shift_eq]
  split
  · next h8 =>
    have h7 : u.vp8Enc.count.toNat = 7 := by omega
    rw [h8] at hbounds
    have hout := formByte_outcome hbounds
    rw [hlow] at hout
    exact hout.imp ⟨fun h => ⟨h7, h⟩, And.right⟩ fun t ht => ht.shifted hlow h7
  · next h8 => exact .done _ (vp8Shifted_lowShifted hlow (by omega) hbounds) fun h => h8 (by omega)

end Sys2Proof.Machine
end

section
/-! SUPPORT. VP8 encoding (R234, R239): runs of shifts, the coding of one bit, and the flush, on any sink and with any counter. -/

namespace Sys2Proof.Machine

open Sys2Proof

/-! ### Runs of shifts -/

/-- A run of `n` shifts meets a full counter: it reaches the eighth shift, with a byte pending, and the byte formed there is
0xFF with no carry (R231 to R233). -/
def ShiftsOverflow (p : Params) (n low : Nat) (r : Vp8Enc) : Prop :=
  8 ≤ r.count.toNat + n ∧ FormOverflows p (low * 2 ^ (8 - r.count.toNat)) r

/-- Where no shift is counted, `low` has lost a byte and not been added to since. -/
def LowSettled (e : Engine) : Prop := e.vp8Enc.count.toNat = 0 → e.vp8Enc.low.toNat < 256

/-- What a run of `n` shifts that ends with range `ρ` makes of a session's numbers (R233, R237). -/
structure Vp8Advanced (p : Params) (ρ n : Nat) (e t : Engine) : Prop where
  code : vp8Code t = 2 ^ n * vp8Code e
  shifts : vp8ShiftCount t = vp8ShiftCount e + n
  range : t.vp8Enc.range8.toNat = ρ
  bounds : Vp8Bounds p t
  settled : 0 < n ∨ LowSettled e → LowSettled t

theorem Vp8Advanced.refl {p : Params} {e : Engine} (h : Vp8Bounds p e) :
    Vp8Advanced p e.vp8Enc.range8.toNat 0 e e :=
  ⟨by omega, rfl, rfl, h, fun h => h.elim nofun id⟩

theorem Vp8Advanced.trans {p : Params} {ρ ρ' m n : Nat} {e t u : Engine} (h : Vp8Advanced p ρ m e t)
    (h' : Vp8Advanced p ρ' n t u) : Vp8Advanced p ρ' (m + n) e u := by
  refine ⟨?_, ?_, h'.range, h'.bounds, fun hs => h'.settled ?_⟩
  · rw [h'.code, h.code, Nat.add_comm m n, Nat.pow_add, Nat.mul_assoc]
  · rw [h'.shifts, h.shifts, Nat.add_assoc]
  · by_cases hn : 0 < n
    · exact .inl hn
    · exact .inr (h.settled (hs.imp_left fun h => by omega))

/-- The engine of a pass before its shift: the range set (R234). -/
def rangeSet (r : Word) (e : Engine) : Engine := e.setVp8Enc (e.vp8Enc.setRange r)

/-- A shift after which `n` more are made: the run meets a full counter where the shift has not and the rest does. -/
theorem shiftsOverflow_succ {p : Params} {u t : Engine} {n : Nat} (ht : Vp8Shifted p u t) (hn : n < 8)
    (hroom : ¬ShiftsOverflow p 1 u.vp8Enc.low.toNat u.vp8Enc) :
    ShiftsOverflow p n t.vp8Enc.low.toNat t.vp8Enc ↔ ShiftsOverflow p (n + 1) u.vp8Enc.low.toNat u.vp8Enc := by
  rcases ht.byte with ⟨h7, h0, -⟩ | ⟨hlt, hc, hl, hv, ho⟩
  · exact iff_of_false (fun h => by have := h.1; omega) fun h => hroom ⟨by omega, h.2⟩
  · have hpow : 2 ^ (8 - u.vp8Enc.count.toNat) = 2 * 2 ^ (8 - (u.vp8Enc.count.toNat + 1)) := by
      rw [← Nat.pow_succ']
      congr 1
      omega
    have hlow : 2 * u.vp8Enc.low.toNat * 2 ^ (8 - (u.vp8Enc.count.toNat + 1)) =
        u.vp8Enc.low.toNat * 2 ^ (8 - u.vp8Enc.count.toNat) := by
      rw [hpow]
      ring
    rw [ShiftsOverflow, ShiftsOverflow, FormOverflows, FormOverflows, hc, hl, hv, ho, hlow]
    exact and_congr_left' (by omega)

theorem shiftsOverflow_one {p : Params} {low : Nat} {r : Vp8Enc} :
    ShiftsOverflow p 1 low r ↔ r.count.toNat = 7 ∧ FormOverflows p (2 * low) r := by
  have hcount := r.count.isLt
  have hseven : 8 ≤ r.count.toNat + 1 ↔ r.count.toNat = 7 := by omega
  rw [ShiftsOverflow, hseven]
  refine and_congr_right fun h7 => ?_
  rw [h7, Nat.mul_comm]
  exact .rfl

theorem ShiftsOverflow.mono {p : Params} {m n low : Nat} {r : Vp8Enc} (h : ShiftsOverflow p m low r) (hn : m ≤ n) :
    ShiftsOverflow p n low r := ⟨by have := h.1; omega, h.2⟩

/-- No shift forms no byte. -/
theorem not_shiftsOverflow_zero {p : Params} {low : Nat} {r : Vp8Enc} : ¬ShiftsOverflow p 0 low r := fun h => by
  have hcount := r.count.isLt
  have := h.1
  omega

/-- A pass: the range set to at most its double, and a shift (R234; R239 with the range as it is). -/
theorem vp8Pass_outcome {p : Params} {e : Engine} {r : Word} (he : Vp8Bounds p e) (h1 : 1 ≤ r.toNat) (h255 : r.toNat ≤ 255)
    (h2 : r.toNat ≤ 2 * e.vp8Enc.range8.toNat) :
    EncOutcome p (ShiftsOverflow p 1 e.vp8Enc.low.toNat e.vp8Enc) (Vp8Shifted p (rangeSet r e))
      (vp8Shift p (rangeSet r e)) := by
  obtain ⟨-, hsum, hfirst, hpending, haligned, hcounter⟩ := he
  have hrange : (rangeSet r e).vp8Enc.range8.toNat = r.toNat :=
    (Vp8Enc.setRange_range8 _ _).trans (Nat.mod_eq_of_lt (by omega))
  have hu : Vp8BoundsAt p (2 * (rangeSet r e).vp8Enc.low.toNat) ((rangeSet r e).vp8Enc.count.toNat + 1) (rangeSet r e) := by
    refine ⟨by omega, ?_, fun h => ?_, hpending, haligned, hcounter⟩
    · show 2 * e.vp8Enc.low.toNat + _ ≤ 510 * 2 ^ (e.vp8Enc.count.toNat + 1)
      rw [hrange, Nat.pow_succ]
      omega
    · obtain ⟨hle, hrest⟩ := hfirst h
      refine ⟨?_, hrest⟩
      show 2 * e.vp8Enc.low.toNat + _ ≤ 255 * 2 ^ (e.vp8Enc.count.toNat + 1)
      rw [hrange, Nat.pow_succ]
      omega
  exact (vp8Shift_outcome hu).imp shiftsOverflow_one.symm fun t ht => ht

/-- A pass is a run of one shift. -/
theorem Vp8Shifted.advanced {p : Params} {e t : Engine} {r : Word} (h : Vp8Shifted p (rangeSet r e) t)
    (h255 : r.toNat ≤ 255) : Vp8Advanced p r.toNat 1 e t := by
  refine ⟨h.code, h.shifts, ?_, h.bounds, fun _ h0 => ?_⟩
  · rw [h.range]
    exact (Vp8Enc.setRange_range8 _ _).trans (Nat.mod_eq_of_lt (by omega))
  · rcases h.byte with ⟨-, -, h⟩ | ⟨-, h, -⟩
    · exact h
    · omega

/-- A pass, then `n` more shifts. -/
theorem vp8Pass_andThen {p : Params} {e : Engine} {r : Word} {n ρ : Nat} {f : Unit → Engine → Res Unit}
    (he : Vp8Bounds p e) (h1 : 1 ≤ r.toNat) (h255 : r.toNat ≤ 255) (h2 : r.toNat ≤ 2 * e.vp8Enc.range8.toNat) (hn : n < 8)
    (hf : ∀ t, Vp8Advanced p r.toNat 1 e t →
      EncOutcome p (ShiftsOverflow p n t.vp8Enc.low.toNat t.vp8Enc) (Vp8Advanced p ρ n t) (f () t)) :
    EncOutcome p (ShiftsOverflow p (n + 1) e.vp8Enc.low.toNat e.vp8Enc) (Vp8Advanced p ρ (n + 1) e)
      ((vp8Shift p (rangeSet r e)).andThen f) := by
  refine (vp8Pass_outcome he h1 h255 h2).andThen (fun h => h.mono (by omega)) fun t ht hroom => ?_
  have hpass := ht.advanced h255
  refine (hf t hpass).imp (shiftsOverflow_succ (u := rangeSet r e) ht hn hroom) fun u hu => ?_
  rw [Nat.add_comm]
  exact hpass.trans hu

/-! ### RenormE -/

/-- A doubled range of at most 127, as the register holds it. -/
theorem Vp8Enc.range_shiftLeft_toNat {r : Vp8Enc} (h : r.range8.toNat < 128) :
    (r.range <<< 1).toNat = 2 * r.range8.toNat := by
  rw [BitVec.toNat_shiftLeft, Nat.shiftLeft_eq, Vp8Enc.range_toNat]
  omega

/-- A run of no shifts. -/
theorem vp8Advanced_zero {p : Params} {e : Engine} (he : Vp8Bounds p e) :
    EncOutcome p (ShiftsOverflow p 0 e.vp8Enc.low.toNat e.vp8Enc) (Vp8Advanced p e.vp8Enc.range8.toNat 0 e)
      (.ok () e) :=
  .done e (.refl he) not_shiftsOverflow_zero

/-- The renormalization loop of EncodeBool makes the doublings that the range needs (R234). -/
theorem vp8RenormE_outcome {p : Params} {n : Nat} {e : Engine} (he : Vp8Bounds p e)
    (hn : vp8Doublings e.vp8Enc.range8.toNat ≤ n) (hn7 : n ≤ 7) :
    EncOutcome p (ShiftsOverflow p (vp8Doublings e.vp8Enc.range8.toNat) e.vp8Enc.low.toNat e.vp8Enc)
      (Vp8Advanced p (2 ^ vp8Doublings e.vp8Enc.range8.toNat * e.vp8Enc.range8.toNat)
        (vp8Doublings e.vp8Enc.range8.toNat) e) (vp8RenormE p n e) := by
  induction n generalizing e with
  | zero =>
    rw [Nat.le_zero.mp hn, Nat.pow_zero, Nat.one_mul]
    exact vp8Advanced_zero he
  | succ n ih =>
    rw [vp8RenormE, Vp8Enc.range_toNat]
    split
    · next hr =>
      have h2 := Vp8Enc.range_shiftLeft_toNat hr
      have hpos := he.range_pos
      have hscale : ∀ k, 2 ^ (k + 1) * e.vp8Enc.range8.toNat = 2 ^ k * (2 * e.vp8Enc.range8.toNat) := fun k => by
        rw [Nat.pow_succ, Nat.mul_assoc]
      rw [vp8Doublings_of_lt hpos hr] at hn ⊢
      rw [hscale]
      refine vp8Pass_andThen he (by omega) (by omega) (by omega) (by omega) fun t ht => ?_
      have hrange := ht.range
      rw [h2] at hrange
      rw [← hrange] at hn ⊢
      exact ih ht.bounds (by omega) (by omega)
    · next hr =>
      rw [vp8Doublings_of_ge (by omega), Nat.pow_zero, Nat.one_mul]
      exact vp8Advanced_zero he

/-! ### EncodeBool -/

/-- The engine of EncodeBool before renormalization: the part of the interval selected that the bit names (R234). -/
def partSelected (b : Bool) (prob : Byte) (e : Engine) : Engine :=
  e.setVp8Enc (vp8EncodeInterval b prob e.vp8Enc)

/-- The selected part as numbers. -/
theorem partSelected_eq (b : Bool) (prob : Byte) {e : Engine} (h2 : 2 ≤ e.vp8Enc.range8.toNat)
    (hlow : e.vp8Enc.low.toNat + e.vp8Enc.range8.toNat < 2 ^ 32) :
    ∃ (low : Word) (range8 : BitVec 8),
      partSelected b prob e = e.setVp8Enc { e.vp8Enc with low := low, range8 := range8 } ∧
      low.toNat = e.vp8Enc.low.toNat + vp8Low b prob e.vp8Enc.range ∧
      range8.toNat = vp8Width b prob e.vp8Enc.range := by
  have hlt := e.vp8Enc.range8.isLt
  obtain ⟨h1, hle⟩ := vp8Split_bounds (range := e.vp8Enc.range) (by rwa [Vp8Enc.range_toNat]) prob
  rw [Vp8Enc.range_toNat] at hle
  generalize hs : vp8Split e.vp8Enc.range prob = split at h1 hle
  have hsplit : (BitVec.ofNat 32 split).toNat = split := by
    rw [BitVec.toNat_ofNat]
    omega
  cases b with
  | false =>
    refine ⟨_, _, rfl, by simp [vp8Low], ?_⟩
    show ((BitVec.ofNat 32 (vp8Split e.vp8Enc.range prob)).setWidth 8).toNat = _
    simp only [vp8Width, hs, BitVec.toNat_setWidth, hsplit, Bool.false_eq_true, if_false]
    omega
  | true =>
    refine ⟨_, _, rfl, ?_, ?_⟩
    · show (e.vp8Enc.low + BitVec.ofNat 32 (vp8Split e.vp8Enc.range prob)).toNat = _
      simp only [vp8Low, hs, BitVec.toNat_add, hsplit, if_true]
      omega
    · show ((e.vp8Enc.range - BitVec.ofNat 32 (vp8Split e.vp8Enc.range prob)).setWidth 8).toNat = _
      simp only [vp8Width, hs, BitVec.toNat_setWidth, BitVec.toNat_sub, hsplit, Vp8Enc.range_toNat, if_true]
      omega

/-- A bit coded: `t` is `e` with the part of its interval that begins at `lo` and is `width` wide selected and
renormalized (R234). -/
structure Vp8Coded (p : Params) (lo width : Nat) (e t : Engine) : Prop where
  range : t.vp8Enc.range8.toNat = 2 ^ vp8Doublings width * width
  code : vp8Code t = 2 ^ vp8Doublings width * (vp8Code e + lo)
  shifts : vp8ShiftCount t = vp8ShiftCount e + vp8Doublings width
  inv : Vp8EncInv p t

/-- EncodeBool keeps the code number exact and the bounds of a session, or meets a full counter (R234, R237). -/
theorem encodeBool_outcome {p : Params} {e : Engine} (b : Bool) (prob : Byte) (hinv : Vp8EncInv p e) :
    EncOutcome p
      (ShiftsOverflow p (vp8Doublings (vp8Width b prob e.vp8Enc.range))
        (e.vp8Enc.low.toNat + vp8Low b prob e.vp8Enc.range) e.vp8Enc)
      (Vp8Coded p (vp8Low b prob e.vp8Enc.range) (vp8Width b prob e.vp8Enc.range) e) (encodeBool p b prob e) := by
  obtain ⟨h128, -, hsum, hfirst, hpending, haligned, hcounter⟩ := vp8EncInv_iff.mp hinv
  have hcount := e.vp8Enc.count.isLt
  have hpow : 2 ^ e.vp8Enc.count.toNat ≤ 2 ^ 7 := Nat.pow_le_pow_right (by decide) (by omega)
  obtain ⟨low, range8, heq, hlow, hrange⟩ := partSelected_eq b prob (e := e) (by omega) (by omega)
  obtain ⟨hpos, hle⟩ := vp8Width_bounds b prob (range := e.vp8Enc.range) (by rw [Vp8Enc.range_toNat]; omega)
  rw [Vp8Enc.range_toNat] at hle
  have h255 := e.vp8Enc.range8.isLt
  generalize vp8Low b prob e.vp8Enc.range = lo at *
  generalize vp8Width b prob e.vp8Enc.range = width at *
  have hbounds : Vp8Bounds p (partSelected b prob e) := by
    rw [heq]
    refine ⟨?_, ?_, fun h => ?_, hpending, haligned, hcounter⟩
    · show 1 ≤ range8.toNat
      omega
    · show low.toNat + range8.toNat ≤ _
      exact (by omega : _ ≤ e.vp8Enc.low.toNat + e.vp8Enc.range8.toNat).trans hsum
    · obtain ⟨hsum', hrest⟩ := hfirst h
      exact ⟨(by omega : low.toNat + range8.toNat ≤ e.vp8Enc.low.toNat + e.vp8Enc.range8.toNat).trans hsum', hrest⟩
  have hcode : vp8Code (partSelected b prob e) = vp8Code e + lo := by
    rw [heq, vp8Code, vp8Code, Nat.add_assoc, ← hlow]
    rfl
  have hshifts : vp8ShiftCount (partSelected b prob e) = vp8ShiftCount e := by
    rw [heq]
    rfl
  have hren := vp8RenormE_outcome (n := vp8Passes) hbounds (vp8Doublings_le hbounds.range_pos) le_rfl
  have hw : (partSelected b prob e).vp8Enc.range8.toNat = width := by
    rw [heq]
    exact hrange
  rw [hw] at hren
  refine hren.imp ?_ fun t ht => ?_
  · rw [heq, ← hlow]
    exact .rfl
  · refine ⟨ht.range, by rw [ht.code, hcode], by rw [ht.shifts, hshifts], vp8EncInv_iff.mpr ⟨?_, ht.bounds⟩⟩
    rw [ht.range]
    exact (vp8Doublings_bounds hpos (by omega)).1

/-! ### The flush -/

/-- The register's own range leaves it as it is. -/
theorem rangeSet_self (e : Engine) : rangeSet e.vp8Enc.range e = e := by
  have hrange : e.vp8Enc.range.setWidth 8 = e.vp8Enc.range8 := BitVec.eq_of_toNat_eq (by
    have hlt := e.vp8Enc.range8.isLt
    rw [BitVec.toNat_setWidth, Vp8Enc.range_toNat, Nat.mod_eq_of_lt hlt])
  rw [rangeSet, Vp8Enc.setRange, hrange]
  rfl

/-- Up to eight shifts that leave the range as it is (R239). -/
theorem vp8Shifts_outcome {p : Params} {n : Nat} {e : Engine} (he : Vp8Bounds p e) (hn : n ≤ 8) :
    EncOutcome p (ShiftsOverflow p n e.vp8Enc.low.toNat e.vp8Enc) (Vp8Advanced p e.vp8Enc.range8.toNat n e)
      (vp8Shifts p n e) := by
  induction n generalizing e with
  | zero => exact vp8Advanced_zero he
  | succ n ih =>
    have hrange := Vp8Enc.range_toNat e.vp8Enc
    have hpos := he.range_pos
    have hlt := e.vp8Enc.range8.isLt
    rw [vp8Shifts]
    conv => arg 4; arg 1; rw [← rangeSet_self e]
    refine vp8Pass_andThen he (by omega) (by omega) (by omega) (by omega) fun t ht => ?_
    rw [← hrange, ← ht.range]
    exact ih ht.bounds (by omega)

theorem vp8Shifts_add (p : Params) (m n : Nat) (e : Engine) :
    vp8Shifts p (m + n) e = (vp8Shifts p m e).andThen fun _ t => vp8Shifts p n t := by
  induction m generalizing e with
  | zero => rw [Nat.zero_add, vp8Shifts, andThen_ok]
  | succ m ih =>
    rw [Nat.add_right_comm, vp8Shifts, vp8Shifts, andThen_assoc]
    exact congrArg _ (funext₂ fun _ t => ih t)

/-- After a run of shifts that ends at a byte boundary no shift is counted. -/
theorem Vp8Advanced.count_eq_zero {p : Params} {ρ n : Nat} {e t : Engine} (h : Vp8Advanced p ρ n e t)
    (hn : (e.vp8Enc.count.toNat + n) % 8 = 0) : t.vp8Enc.count.toNat = 0 := by
  have hshifts := h.shifts
  have hlt := t.vp8Enc.count.isLt
  rw [vp8ShiftCount, vp8ShiftCount] at hshifts
  omega

/-- The second byte of a flush is never 0xFF: the shifts before it have left `low` even (R239). -/
theorem not_shiftsOverflow_second {p : Params} {ρ n : Nat} {e t : Engine} (h : Vp8Advanced p ρ n e t) (hn : 0 < n)
    (h0 : t.vp8Enc.count.toNat = 0) : ¬ShiftsOverflow p 8 t.vp8Enc.low.toNat t.vp8Enc := by
  rintro ⟨-, -, -, hff⟩
  have hcode := h.code
  rw [vp8Code, h0] at hcode
  rw [h0] at hff
  obtain ⟨m, rfl⟩ := Nat.exists_eq_succ_of_ne_zero hn.ne'
  have hpow : 2 ^ (m + 1) = 2 * 2 ^ m := Nat.pow_succ'
  rw [hpow, Nat.mul_assoc] at hcode
  omega

/-- The shifts of FINISH form one byte, which may meet a full counter, and a second one where a shift had been counted, which
does not (R239). -/
theorem vp8Flush_outcome {p : Params} {e : Engine} (he : Vp8Bounds p e) :
    EncOutcome p (FormOverflows p (e.vp8Enc.low.toNat * 2 ^ (8 - e.vp8Enc.count.toNat)) e.vp8Enc)
      (Vp8Advanced p e.vp8Enc.range8.toNat (vp8FlushShifts e.vp8Enc) e)
      (vp8Shifts p (vp8FlushShifts e.vp8Enc) e) := by
  have hcount := e.vp8Enc.count.isLt
  have hfirst := vp8Shifts_outcome he (Nat.sub_le 8 e.vp8Enc.count.toNat)
  have hfull : ShiftsOverflow p (8 - e.vp8Enc.count.toNat) e.vp8Enc.low.toNat e.vp8Enc ↔
      FormOverflows p (e.vp8Enc.low.toNat * 2 ^ (8 - e.vp8Enc.count.toNat)) e.vp8Enc :=
    and_iff_right (by omega)
  rw [hfull] at hfirst
  unfold vp8FlushShifts
  split
  · next h0 =>
    rw [h0] at hfirst ⊢
    exact hfirst
  · next h0 =>
    have hne : e.vp8Enc.count.toNat ≠ 0 := fun h => h0 (BitVec.eq_of_toNat_eq h)
    have hsplit : 16 - e.vp8Enc.count.toNat = (8 - e.vp8Enc.count.toNat) + 8 := by omega
    rw [hsplit, vp8Shifts_add]
    refine hfirst.andThen id fun t ht hroom => ?_
    have hsecond := not_shiftsOverflow_second ht (by omega) (ht.count_eq_zero (by omega))
    refine (vp8Shifts_outcome ht.bounds le_rfl).imp (iff_of_false hsecond hroom) fun u hu => ?_
    rw [ht.range] at hu
    exact ht.trans hu

end Sys2Proof.Machine
end

section
/-! SUPPORT, then O32, O60 and O33. The VP8 encoder commands (R236, R238, R239): the coding of a bit with a context or without
one, and the output of a session. -/

namespace Sys2Proof.Machine

open Sys2Proof

/-! ### The context of a symbol -/

/-- The probability that a symbol is coded with: its context's, or a half (R236, R238). -/
def symProb (ctx : Option Nat) (e : Engine) : Byte := ctx.elim 128 (ctxGet e)

/-- The symbol's context written, if it has one (R236, R238). -/
def symCtxSet (ctx : Option Nat) (v : Byte) (e : Engine) : Engine := ctx.elim e fun c => ctxSet e c v

/-- Every context after the symbol's has been written. -/
theorem ctxGet_symCtxSet {e : Engine} (h : Memory.wf (some (initialCtx e.fam)) e.ctx) (ctx : Option Nat) (v : Byte)
    (a : Nat) : ctxGet (symCtxSet ctx v e) a = if ctx = some a then v else ctxGet e a := by
  cases ctx with
  | none => rfl
  | some c =>
    rw [symCtxSet, Option.elim_some, ctxGet_ctxSet c a v h]
    simp only [Option.some.injEq, eq_comm]

/-- Every context of an engine that has the contexts so written. -/
theorem ctxGet_of_symCtxSet {e u : Engine} {ctx : Option Nat} {v : Byte}
    (h : Memory.wf (some (initialCtx e.fam)) e.ctx) (hfam : u.fam = e.fam) (hctx : u.ctx = (symCtxSet ctx v e).ctx)
    (a : Nat) : ctxGet u a = if ctx = some a then v else ctxGet e a := by
  have hsame : ctxGet u a = ctxGet (symCtxSet ctx v e) a := by
    rw [ctxGet, ctxGet, hctx, hfam]
    cases ctx <;> rfl
  rw [hsame, ctxGet_symCtxSet h]

/-- A context write changes the context memory only. -/
theorem symCtxSet_eq (ctx : Option Nat) (v : Byte) (e : Engine) :
    symCtxSet ctx v e = e.setCtx (symCtxSet ctx v e).ctx := by
  cases ctx <;> rfl

/-- What a context write makes of the context memory depends on it and on the family. -/
theorem symCtxSet_ctx_congr {e t : Engine} (hfam : t.fam = e.fam) (hctx : t.ctx = e.ctx) (ctx : Option Nat) (v : Byte) :
    (symCtxSet ctx v t).ctx = (symCtxSet ctx v e).ctx := by
  cases ctx with
  | none => exact hctx
  | some c =>
    show Memory.write _ t.ctx c v = Memory.write _ e.ctx c v
    rw [hfam, hctx]

/-! ### PUT and PUT_BYPASS -/

/-- PUT and PUT_BYPASS are one rule: EncodeBool, then the update of the context, if any (R236, R238). -/
theorem vp8Put_body (y : CodedSym) (p : Params) (e : Engine) :
    instrBody (putInstr .vp8 y) p e = (encodeBool p y.bit (symProb y.ctx e) e).andThen fun _ t =>
      .ok .none (symCtxSet y.ctx (probUpdate (symProb y.ctx e) y.bit) t) := by
  obtain ⟨b, ctx, l⟩ := y
  cases ctx <;> rfl

theorem checkCommand_vp8Put {p : Params} {e : Engine} {y : CodedSym} (henc : Encoding .vp8 e)
    (hc : ∀ c ∈ y.ctx, c < p.numCtx) :
    checkCommand p e (putInstr .vp8 y).family (putInstr .vp8 y).op (laneOperand (putInstr .vp8 y))
      (ctxOperand (putInstr .vp8 y)) = .ok := by
  obtain ⟨b, ctx, l⟩ := y
  cases ctx with
  | none => exact checkCommand_encoding (i := .vp8PutBypass b) (.inr (.inl rfl)) henc nofun nofun
  | some c => exact checkCommand_encoding (i := .vp8Put b c) (.inl rfl) henc nofun hc

/-- What a PUT or PUT_BYPASS makes of a session: the bit's part of the interval coded, and the context updated. -/
structure Vp8Put (p : Params) (y : CodedSym) (e u : Engine) : Prop where
  coded : Vp8Coded p (vp8Low y.bit (symProb y.ctx e) e.vp8Enc.range) (vp8Width y.bit (symProb y.ctx e) e.vp8Enc.range) e u
  phase : u.phase = e.phase
  fam : u.fam = e.fam
  ctx : u.ctx = (symCtxSet y.ctx (probUpdate (symProb y.ctx e) y.bit) e).ctx

/-- The counter has no room for the byte that a PUT or PUT_BYPASS forms (R231). -/
def PutOverflows (p : Params) (y : CodedSym) (e : Engine) : Prop :=
  ShiftsOverflow p (vp8Doublings (vp8Width y.bit (symProb y.ctx e) e.vp8Enc.range))
    (e.vp8Enc.low.toNat + vp8Low y.bit (symProb y.ctx e) e.vp8Enc.range) e.vp8Enc

theorem vp8Put_of_encodeBool {p : Params} {y : CodedSym} {e t : Engine}
    (ht : encodeBool p y.bit (symProb y.ctx e) e = .ok () t)
    (hcoded : Vp8Coded p (vp8Low y.bit (symProb y.ctx e) e.vp8Enc.range)
      (vp8Width y.bit (symProb y.ctx e) e.vp8Enc.range) e t) :
    Vp8Put p y e (symCtxSet y.ctx (probUpdate (symProb y.ctx e) y.bit) t) := by
  have hframe := encodeBool_frame p y.bit (symProb y.ctx e) e
  rw [ht] at hframe
  have hsame : SameControl e t := EncoderOnly.sameControl (f := .vp8) (o := .put) hframe
  obtain ⟨hrange, hcode, hshifts, hinv⟩ := hcoded
  refine ⟨?_, ?_, ?_, symCtxSet_ctx_congr hsame.fam hsame.ctx _ _⟩ <;> rw [symCtxSet_eq]
  · exact ⟨hrange, hcode, hshifts, hinv⟩
  · exact hsame.phase
  · exact hsame.fam

/-- A PUT or PUT_BYPASS that goes on, on any sink and with any counter. -/
theorem vp8Put_of_ok {p : Params} {y : CodedSym} {e u : Engine} {a : Reply} (hinv : Vp8EncInv p e)
    (hb : instrBody (putInstr .vp8 y) p e = .ok a u) : Vp8Put p y e u := by
  rw [vp8Put_body] at hb
  obtain ⟨_, t, ht, hb⟩ := andThen_eq_ok.mp hb
  cases hb
  exact vp8Put_of_encodeBool ht ((encodeBool_outcome y.bit (symProb y.ctx e) hinv).of_ok ht)

/-- PUT and PUT_BYPASS on an `InMemory` sink raise COUNTER_OVERFLOW or go on. -/
theorem vp8Put_inMemory {p : Params} {e : Engine} (y : CodedSym) (hmem : p.sinkMode = .inMemory) (hinv : Vp8EncInv p e) :
    (PutOverflows p y e → ∃ u, instrBody (putInstr .vp8 y) p e = .raised .counterOverflow u) ∧
    (¬PutOverflows p y e → ∃ u, instrBody (putInstr .vp8 y) p e = .ok .none u ∧ Vp8Put p y e u) := by
  obtain ⟨hraise, hok⟩ := (encodeBool_outcome y.bit (symProb y.ctx e) hinv).inMemory hmem
  rw [vp8Put_body]
  refine ⟨fun hfull => ?_, fun hroom => ?_⟩
  · obtain ⟨t, ht⟩ := hraise hfull
    exact ⟨t, by rw [ht, andThen_raised]⟩
  · obtain ⟨t, ht, hcoded⟩ := hok hroom
    exact ⟨_, by rw [ht, andThen_ok], vp8Put_of_encodeBool ht hcoded⟩

/-- An unbounded counter has room. -/
theorem not_formOverflows_of_unbounded {p : Params} (h : p.outstandingW = none) (low : Nat) (r : Vp8Enc) :
    ¬FormOverflows p low r := by
  rintro ⟨-, hcount, -⟩
  rw [counterFull, h] at hcount
  cases hcount

/-- The part that a bit selects, and its doublings (R230, R234). -/
theorem vp8Width_range_bounds {r : Vp8Enc} (h : 128 ≤ r.range8.toNat) (b : Bool) (prob : Byte) :
    1 ≤ vp8Width b prob r.range ∧ vp8Width b prob r.range ≤ 255 := by
  have hlt := r.range8.isLt
  obtain ⟨hpos, hle⟩ := vp8Width_bounds b prob (range := r.range) (by rw [Vp8Enc.range_toNat]; omega)
  rw [Vp8Enc.range_toNat] at hle
  omega

/-- Settles O32: EncodeBool selects a part of the interval and makes its doublings, and byte deferral keeps the code
number. -/
theorem vp8PutExact : Obligations.Vp8PutExact := by
  intro s e b ctx he hinv hun henc hc p split
  have hvp8 := hinv.vp8Enc henc
  obtain ⟨h128, -⟩ := vp8EncInv_iff.mp hvp8
  obtain ⟨hpos, -⟩ := vp8Width_range_bounds h128 b p
  obtain ⟨u, hb, ⟨hrange, hcode, hshifts, hu⟩, hph, hfam, hctx⟩ := (vp8Put_inMemory ⟨b, ctx, 0⟩ hun.1 hvp8).2 fun h =>
    not_formOverflows_of_unbounded hun.2.1 _ _ h.2
  have hcheck := checkCommand_vp8Put (y := ⟨b, ctx, 0⟩) henc hc
  obtain ⟨h128', hle, -⟩ := hu
  refine ⟨_, vp8Doublings (vp8Width b p e.vp8Enc.range), completes_of_body he hcheck hb, hph.trans henc.1,
    vp8Doublings_le hpos, (Vp8Enc.range_toNat _).trans hrange, h128', hle, hcode, hshifts,
    ctxGet_of_symCtxSet hinv.ctx.1 hfam hctx⟩

/-! ### FINISH -/

/-- The engine of FINISH after its release, before the end of the session (R239). -/
def vp8Released (t : Engine) : Engine :=
  t.setSink (t.sink ++ releasedBits t.vp8Enc.pendingByte 255 t.vp8Enc.bitsOutstanding)

/-- FINISH after its shifts, on an `InMemory` sink: the release, and a SinkClose that pads nothing (R239). -/
theorem vp8FinishBody_eq_of_shifts {p : Params} {e t : Engine} (hmem : p.sinkMode = .inMemory)
    (ht : vp8Shifts p (vp8FlushShifts e.vp8Enc) e = .ok () t) (hvalid : t.vp8Enc.pendingValid = true)
    (haligned : t.sink.length % 8 = 0) : vp8FinishBody p e = finishSession (vp8Released t) := by
  have hlen : (vp8Released t).sink.length % 8 = 0 := by
    rw [vp8Released, Engine.setSink_sink, List.length_append, releasedBits_length]
    omega
  have hrelease : releaseBytes p t.vp8Enc.pendingByte 255 t = .ok () (vp8Released t) := writeBytes_inMemory hmem _ t
  rw [vp8FinishBody, ht, andThen_ok, if_pos hvalid, hrelease, andThen_ok, sinkClose_inMemory hmem, hlen, andThen_ok]
  simp [Engine.setSink]

/-- What the shifts of FINISH leave: a byte pending, and nothing in `low`, so that the deferred bytes spell the code number
at a byte boundary (R239, R240). -/
theorem vp8Flush_released {p : Params} {ρ : Nat} {e t : Engine}
    (h : Vp8Advanced p ρ (vp8FlushShifts e.vp8Enc) e t) :
    t.vp8Enc.pendingValid = true ∧ t.sink.length % 8 = 0 ∧
    vp8FormedBytes t = vp8FormedBytes e + (if e.vp8Enc.count = 0 then 1 else 2) ∧
    vp8Formed t = vp8Code e * 2 ^ ((8 - e.vp8Enc.count.toNat) % 8) := by
  have hlt := e.vp8Enc.count.isLt
  obtain ⟨n, hn, hsum, hbytes⟩ : ∃ n, n = (8 - e.vp8Enc.count.toNat) % 8 ∧ vp8FlushShifts e.vp8Enc = n + 8 ∧
      e.vp8Enc.count.toNat + (n + 8) = 8 * (if e.vp8Enc.count = 0 then 1 else 2) := by
    unfold vp8FlushShifts
    split
    · next h0 => exact ⟨0, by rw [h0]; rfl, rfl, by rw [h0]; rfl⟩
    · next h0 =>
      have hne : e.vp8Enc.count.toNat ≠ 0 := fun h => h0 (BitVec.eq_of_toNat_eq h)
      exact ⟨8 - e.vp8Enc.count.toNat, by omega, by omega, by omega⟩
  rw [hsum] at h
  have h0 := h.count_eq_zero (by omega)
  have hlow := h.settled (.inl (Nat.succ_pos _)) h0
  have hcode := h.code
  have hshifts := h.shifts
  rw [vp8ShiftCount, vp8ShiftCount, h0] at hshifts
  have hpow : 2 ^ (n + 8) * vp8Code e = 256 * (vp8Code e * 2 ^ n) := by
    rw [Nat.pow_add]
    ring
  rw [vp8Code, h0, hpow] at hcode
  have hcount : vp8FormedBytes t = vp8FormedBytes e + (if e.vp8Enc.count = 0 then 1 else 2) := by omega
  refine ⟨Bool.eq_true_of_not_eq_false fun hfalse => ?_, h.bounds.aligned, hcount, ?_⟩
  · have hnil := (h.bounds.first hfalse).2.2
    have hzero : vp8FormedBytes t = 0 := by simp [vp8FormedBytes, hfalse, hnil]
    omega
  · rw [← hn]
    omega

/-- The output of a session (R239, R240). -/
theorem vp8Released_output {t : Engine} (hfam : t.fam = .vp8) (hvalid : t.vp8Enc.pendingValid = true)
    (haligned : t.sink.length % 8 = 0) :
    ((vp8Released t).setPhase .finished).output.length = vp8FormedBytes t ∧
    bytesValue ((vp8Released t).setPhase .finished).output = vp8Formed t := by
  have hout : ((vp8Released t).setPhase .finished).output = completeBytes (vp8Released t).sink := by
    simp only [Engine.output, Engine.setPhase_fam, vp8Released, Engine.setSink_fam, hfam]
    rfl
  have hlen : (vp8Released t).sink.length = t.sink.length + 8 * (t.vp8Enc.bitsOutstanding + 1) := by
    rw [vp8Released, Engine.setSink_sink, List.length_append, releasedBits_length]
  obtain ⟨hbytes, hval⟩ := completeBytes_spells (xs := (vp8Released t).sink) (by omega)
  rw [hout]
  refine ⟨?_, ?_⟩
  · rw [vp8FormedBytes_of_valid hvalid]
    omega
  · rw [hval, vp8Formed_of_valid hvalid]
    exact (bitsValue_released _ _ _).2

/-- What FINISH makes of a session: the engine Finished, its contexts as they were, and an output that spells the code number
at a byte boundary (R239, R240). -/
structure Vp8Finished (e u : Engine) : Prop where
  phase : u.phase = .finished
  fam : u.fam = e.fam
  ctx : u.ctx = e.ctx
  length : u.output.length = vp8FormedBytes e + (if e.vp8Enc.count = 0 then 1 else 2)
  value : bytesValue u.output = vp8Code e * 2 ^ ((8 - e.vp8Enc.count.toNat) % 8)

/-- FINISH on an `InMemory` sink raises COUNTER_OVERFLOW or goes on. -/
theorem vp8Finish_inMemory {p : Params} {e : Engine} (hmem : p.sinkMode = .inMemory) (henc : Encoding .vp8 e)
    (hinv : Vp8EncInv p e) :
    (FormOverflows p (e.vp8Enc.low.toNat * 2 ^ (8 - e.vp8Enc.count.toNat)) e.vp8Enc →
      ∃ u, instrBody .vp8Finish p e = .raised .counterOverflow u) ∧
    (¬FormOverflows p (e.vp8Enc.low.toNat * 2 ^ (8 - e.vp8Enc.count.toNat)) e.vp8Enc →
      ∃ u, instrBody .vp8Finish p e = .ok (.ofOut u.output) u ∧ Vp8Finished e u) := by
  obtain ⟨hraise, hok⟩ := (vp8Flush_outcome (vp8EncInv_iff.mp hinv).2).inMemory hmem
  have hbody : instrBody .vp8Finish p e = vp8FinishBody p e := rfl
  rw [hbody]
  refine ⟨fun hfull => ?_, fun hroom => ?_⟩
  · obtain ⟨t, ht⟩ := hraise hfull
    exact ⟨t, by rw [vp8FinishBody, ht, andThen_raised]⟩
  · obtain ⟨t, ht, hadv⟩ := hok hroom
    obtain ⟨hvalid, haligned, hbytes, hformed⟩ := vp8Flush_released hadv
    have hframe := vp8Shifts_frame p (vp8FlushShifts e.vp8Enc) e
    rw [ht] at hframe
    have hsame : SameControl e t := EncoderOnly.sameControl (f := .vp8) (o := .finish) hframe
    obtain ⟨hlen, hval⟩ := vp8Released_output (hsame.fam.trans henc.2) hvalid haligned
    refine ⟨(vp8Released t).setPhase .finished, ?_, rfl, hsame.fam, hsame.ctx, hlen.trans hbytes, hval.trans hformed⟩
    rw [vp8FinishBody_eq_of_shifts hmem ht hvalid haligned, finishSession_eq]

/-- FINISH passes the checks of R130 in an open session. -/
theorem checkCommand_vp8Finish {p : Params} {e : Engine} (henc : Encoding .vp8 e) :
    checkCommand p e (Instr.vp8Finish).family (Instr.vp8Finish).op (laneOperand .vp8Finish) (ctxOperand .vp8Finish) = .ok :=
  checkCommand_encoding (i := .vp8Finish) (.inr (.inr (.inr rfl))) henc nofun nofun

/-- Settles O33: the shifts of FINISH bring the code number to a byte boundary, and the release writes the deferred
bytes. -/
theorem vp8FinishOutput : Obligations.Vp8FinishOutput := by
  intro s e he hinv hun henc
  obtain ⟨u, hb, hu⟩ := (vp8Finish_inMemory hun.1 henc (hinv.vp8Enc henc)).2 (not_formOverflows_of_unbounded hun.2.1 _ _)
  exact ⟨_, _, completes_of_body he (checkCommand_vp8Finish henc) hb, hu.phase, if_pos hu.phase, hu.ctx, hu.length, hu.value⟩

/-! ### COUNTER_OVERFLOW -/

/-- A full counter of `w` bits where FormByte would count one more (R231, R232). -/
theorem formOverflows_iff {p : Params} {w : Nat} (hw : p.outstandingW = some w) (low : Nat) (r : Vp8Enc) :
    FormOverflows p low r ↔ (r.pendingValid = true ∧ r.bitsOutstanding = 2 ^ w - 1) ∧ low / 2 ^ 8 = 255 := by
  have hfull : counterFull p r.bitsOutstanding = true ↔ r.bitsOutstanding = 2 ^ w - 1 := by
    rw [counterFull_eq_true, hw]
    simp
  rw [FormOverflows, hfull, and_assoc]

/-- Settles O60: the byte that the eighth shift forms decides, and every command makes at most one byte that can be 0xFF. -/
theorem vp8CounterOverflow : Obligations.Vp8CounterOverflow := by
  intro s e w he hinv hmem hw henc r full formed
  have hvp8 := hinv.vp8Enc henc
  obtain ⟨h128, -⟩ := vp8EncInv_iff.mp hvp8
  refine ⟨?_, ?_⟩
  · intro b ctx hc p split low range
    obtain ⟨hpos, h255⟩ := vp8Width_range_bounds h128 b p
    obtain ⟨hge, hle⟩ := vp8Doublings_bounds hpos h255
    obtain ⟨hraise, hok⟩ := vp8Put_inMemory ⟨b, ctx, 0⟩ hmem hvp8
    have hcheck := checkCommand_vp8Put (y := ⟨b, ctx, 0⟩) henc hc
    have hiff : (full ∧ 8 ≤ r.count.toNat + vp8Doublings (vp8Width b p e.vp8Enc.range) ∧ formed low = 255) ↔
        PutOverflows s.params ⟨b, ctx, 0⟩ e :=
      and_left_comm.trans (and_congr_right' (formOverflows_iff hw _ _).symm)
    refine ⟨vp8Doublings (vp8Width b p e.vp8Enc.range), vp8Doublings_le hpos, hge, hle, ?_⟩
    split
    · next hfull =>
      obtain ⟨u, hb⟩ := hraise (hiff.mp hfull)
      exact ⟨_, raises_of_body he hcheck hb⟩
    · next hroom =>
      obtain ⟨u, hb, hput⟩ := hok (mt hiff.mpr hroom)
      exact ⟨_, completes_of_body he hcheck hb, (Vp8Enc.range_toNat _).trans hput.coded.range⟩
  · obtain ⟨hraise, hok⟩ := vp8Finish_inMemory hmem henc hvp8
    have hiff := formOverflows_iff hw (e.vp8Enc.low.toNat * 2 ^ (8 - e.vp8Enc.count.toNat)) e.vp8Enc
    split
    · next hfull =>
      obtain ⟨u, hb⟩ := hraise (hiff.mpr hfull)
      exact ⟨_, raises_of_body he (checkCommand_vp8Finish henc) hb⟩
    · next hroom =>
      obtain ⟨u, hb, hu⟩ := hok (mt hiff.mp hroom)
      exact ⟨_, _, completes_of_body he (checkCommand_vp8Finish henc) hb, hu.phase⟩

end Sys2Proof.Machine
end

section
/-! SUPPORT, then O34. The VP8 decoder commands (R242, R247, R248): the bits that the renormalization loop reads, and the bit of
the comparison. -/

namespace Sys2Proof.Machine

open Sys2Proof

/-! ### The renormalization loop -/

/-- The engine after `n` passes of DecodeBool's loop: the range doubled `n` times, and `n` bits of the input in `value`
(R242). -/
def vp8RenormedD (n : Nat) (e : Engine) : Engine :=
  (e.setBitpos (e.bitpos + n)).setVp8Dec
    ⟨BitVec.ofNat 8 (2 ^ n * e.vp8Dec.range8.toNat), shiftInBits (srcBit e) e.bitpos n e.vp8Dec.value⟩

theorem vp8RenormedD_zero (e : Engine) : vp8RenormedD 0 e = e := by
  rw [vp8RenormedD, Nat.pow_zero, Nat.one_mul, BitVec.ofNat_toNat, BitVec.setWidth_eq]
  rfl

/-- The engine of a pass before its bit is read (R242). -/
def vp8RangeDoubled (e : Engine) : Engine := e.setVp8Dec (e.vp8Dec.setRange (e.vp8Dec.range <<< 1))

/-- The engine after a pass that has its bit. -/
def vp8PassedD (e : Engine) : Engine :=
  ((vp8RangeDoubled e).setBitpos (e.bitpos + 1)).setVp8Dec
    { (vp8RangeDoubled e).vp8Dec with value := shiftIn e.vp8Dec.value (srcBit e e.bitpos) }

theorem vp8PassedD_range {e : Engine} (h : e.vp8Dec.range8.toNat < 128) :
    (vp8PassedD e).vp8Dec.range8.toNat = 2 * e.vp8Dec.range8.toNat := by
  show (e.vp8Dec.setRange (e.vp8Dec.range <<< 1)).range8.toNat = _
  rw [Vp8Dec.setRange_range8, BitVec.toNat_shiftLeft, Nat.shiftLeft_eq, Vp8Dec.range_toNat]
  omega

/-- A pass, then `n` more. -/
theorem vp8RenormedD_passed {e : Engine} (n : Nat) (h : e.vp8Dec.range8.toNat < 128) :
    vp8RenormedD n (vp8PassedD e) = vp8RenormedD (n + 1) e := by
  have hpos : e.bitpos + (n + 1) = e.bitpos + 1 + n := by omega
  have hscale : 2 ^ (n + 1) * e.vp8Dec.range8.toNat = 2 ^ n * (2 * e.vp8Dec.range8.toNat) := by
    rw [Nat.pow_succ, Nat.mul_assoc]
  rw [vp8RenormedD, vp8RenormedD, vp8PassedD_range h, hpos, hscale]
  rfl

theorem vp8RenormD_of_lt (n : Nat) {e : Engine} (h : e.vp8Dec.range8.toNat < 128) :
    vp8RenormD (n + 1) e = (readBit (vp8RangeDoubled e)).andThen fun b t =>
      vp8RenormD n (t.setVp8Dec { t.vp8Dec with value := shiftIn t.vp8Dec.value b }) := by
  rw [vp8RenormD, Vp8Dec.range_toNat, if_pos h]
  rfl

theorem vp8RenormD_of_ge (n : Nat) {e : Engine} (h : 128 ≤ e.vp8Dec.range8.toNat) : vp8RenormD n e = .ok () e := by
  cases n with
  | zero => rfl
  | succ n => rw [vp8RenormD, Vp8Dec.range_toNat, if_neg (by omega)]

/-- The loop makes the doublings that the range needs where the input has their bits, and raises INPUT_EXHAUSTED where it
does not (R242, R353). -/
theorem vp8RenormD_cases {n : Nat} {e : Engine} (h0 : 1 ≤ e.vp8Dec.range8.toNat)
    (hn : vp8Doublings e.vp8Dec.range8.toNat ≤ n) :
    (InputLeft e (vp8Doublings e.vp8Dec.range8.toNat) →
      vp8RenormD n e = .ok () (vp8RenormedD (vp8Doublings e.vp8Dec.range8.toNat) e)) ∧
    (¬InputLeft e (vp8Doublings e.vp8Dec.range8.toNat) → ∃ t, vp8RenormD n e = .raised .inputExhausted t) := by
  induction n generalizing e with
  | zero =>
    rw [Nat.le_zero.mp hn, vp8RenormedD_zero]
    exact ⟨fun _ => rfl, fun h => absurd (.inl rfl) h⟩
  | succ n ih =>
    by_cases hr : e.vp8Dec.range8.toNat < 128
    · have hrange := vp8PassedD_range hr
      rw [vp8Doublings_of_lt h0 hr] at hn ⊢
      rw [vp8RenormD_of_lt n hr, inputLeft_succ, ← vp8RenormedD_passed _ hr, ← hrange]
      rw [← hrange] at hn
      obtain ⟨hok, hraise⟩ := ih (e := vp8PassedD e) (by omega) (by omega)
      by_cases hread : e.bitpos < 8 * e.src.length ∨ e.eof = false
      · have hbit : readBit (vp8RangeDoubled e) = .ok (srcBit e e.bitpos) ((vp8RangeDoubled e).setBitpos (e.bitpos + 1)) :=
          readBit_ok (e := vp8RangeDoubled e) hread
        rw [hbit, andThen_ok]
        exact ⟨fun h => hok h.2, fun h => hraise fun hleft => h ⟨hread, hleft⟩⟩
      · obtain ⟨hend, heof⟩ := not_or.mp hread
        rw [readBit_exhausted (e := vp8RangeDoubled e) (Nat.not_lt.mp hend) (Bool.eq_true_of_not_eq_false heof),
          andThen_raised]
        exact ⟨fun h => absurd h.1 hread, fun _ => ⟨_, rfl⟩⟩
    · rw [vp8RenormD_of_ge _ (by omega), vp8Doublings_of_ge (by omega), vp8RenormedD_zero]
      exact ⟨fun _ => rfl, fun h => absurd (.inl rfl) h⟩

/-! ### GET and GET_BYPASS -/

/-- The bit of the comparison with the split (R242). -/
def decodedBit (prob : Byte) (r : Vp8Dec) : Bool := decide (vp8Split r.range prob ≤ r.value.toNat)

/-- The interval step of DecodeBool: the bit of the comparison, and its part of the interval selected (R242). -/
theorem vp8DecodeInterval_eq (prob : Byte) {r : Vp8Dec} (h2 : 2 ≤ r.range8.toNat) :
    (vp8DecodeInterval prob r).1 = decodedBit prob r ∧
    (vp8DecodeInterval prob r).2.range8.toNat = vp8Width (decodedBit prob r) prob r.range ∧
    (vp8DecodeInterval prob r).2.value.toNat = r.value.toNat - vp8Low (decodedBit prob r) prob r.range := by
  have hlt := r.range8.isLt
  have hval := r.value.isLt
  obtain ⟨h1, hle⟩ := vp8Split_bounds (range := r.range) (by rwa [Vp8Dec.range_toNat]) prob
  rw [Vp8Dec.range_toNat] at hle
  unfold vp8DecodeInterval decodedBit vp8Width vp8Low
  generalize vp8Split r.range prob = split at *
  have hsplit : (BitVec.ofNat 32 split).toNat = split := by
    rw [BitVec.toNat_ofNat]
    omega
  dsimp only
  split
  · next hcmp =>
    rw [decide_eq_false (by omega)]
    refine ⟨rfl, ?_, rfl⟩
    rw [Vp8Dec.setRange_range8, hsplit, Nat.mod_eq_of_lt (by omega)]
    rfl
  · next hcmp =>
    rw [decide_eq_true (by omega)]
    refine ⟨rfl, ?_, ?_⟩
    · rw [Vp8Dec.setRange_range8, BitVec.toNat_sub, hsplit, Vp8Dec.range_toNat, if_pos rfl]
      omega
    · rw [Vp8Dec.setRange_value, BitVec.toNat_sub, hsplit, if_pos rfl]
      omega

/-- The engine of DecodeBool before renormalization (R242). -/
def decodeSelected (prob : Byte) (e : Engine) : Engine := e.setVp8Dec (vp8DecodeInterval prob e.vp8Dec).2

/-- DecodeBool makes the doublings of the part that the bit selects, or raises INPUT_EXHAUSTED (R242). -/
theorem decodeBool_cases (prob : Byte) {e : Engine} (hinv : Vp8DecInv e) :
    let n := vp8Doublings (vp8Width (decodedBit prob e.vp8Dec) prob e.vp8Dec.range)
    (InputLeft e n → decodeBool prob e = .ok (decodedBit prob e.vp8Dec) (vp8RenormedD n (decodeSelected prob e))) ∧
    (¬InputLeft e n → ∃ t, decodeBool prob e = .raised .inputExhausted t) := by
  intro n
  obtain ⟨h128, -⟩ := hinv
  obtain ⟨hpos, -⟩ := vp8Width_bounds (decodedBit prob e.vp8Dec) prob (range := e.vp8Dec.range) (by omega)
  rw [Vp8Dec.range_toNat] at h128
  obtain ⟨hfst, hrange, -⟩ := vp8DecodeInterval_eq prob (r := e.vp8Dec) (by omega)
  have hwidth : (decodeSelected prob e).vp8Dec.range8.toNat =
      vp8Width (decodedBit prob e.vp8Dec) prob e.vp8Dec.range := hrange
  obtain ⟨hok, hraise⟩ := vp8RenormD_cases (n := vp8Passes) (e := decodeSelected prob e) (by rw [hwidth]; exact hpos)
    (by rw [hwidth]; exact vp8Doublings_le hpos)
  rw [hwidth] at hok hraise
  have hbody : decodeBool prob e = (vp8RenormD vp8Passes (decodeSelected prob e)).andThen fun _ t =>
      .ok (decodedBit prob e.vp8Dec) t := by rw [← hfst]; rfl
  rw [hbody]
  refine ⟨fun hleft => ?_, fun hnone => ?_⟩
  · rw [hok hleft, andThen_ok]
  · obtain ⟨t, ht⟩ := hraise hnone
    exact ⟨t, by rw [ht, andThen_raised]⟩

/-- GET and GET_BYPASS are one rule: DecodeBool, then the update of the context, if any (R247, R248). -/
theorem vp8Get_body (y : CodedSym) (p : Params) (e : Engine) :
    instrBody (getInstr .vp8 y) p e = (decodeBool (symProb y.ctx e) e).andThen fun b t =>
      .ok (.ofBit b) (symCtxSet y.ctx (probUpdate (symProb y.ctx e) b) t) := by
  obtain ⟨b, ctx, l⟩ := y
  cases ctx <;> rfl

theorem checkCommand_vp8Get {p : Params} {e : Engine} {y : CodedSym} (hdec : Decoding .vp8 e)
    (hc : ∀ c ∈ y.ctx, c < p.numCtx) :
    checkCommand p e (getInstr .vp8 y).family (getInstr .vp8 y).op (laneOperand (getInstr .vp8 y))
      (ctxOperand (getInstr .vp8 y)) = .ok := by
  obtain ⟨b, ctx, l⟩ := y
  cases ctx with
  | none => exact checkCommand_decoding (i := .vp8GetBypass) (.inr (.inl rfl)) hdec nofun nofun
  | some c => exact checkCommand_decoding (i := .vp8Get c) (.inl rfl) hdec nofun hc

/-- What a GET or GET_BYPASS that decodes `bit` makes of a session: the bit's part of the interval selected and
renormalized with `n` bits of the input, and the context updated. -/
structure Vp8Got (ctx : Option Nat) (bit : Bool) (e u : Engine) : Prop where
  range : u.vp8Dec.range8.toNat =
    2 ^ vp8Doublings (vp8Width bit (symProb ctx e) e.vp8Dec.range) * vp8Width bit (symProb ctx e) e.vp8Dec.range
  value : u.vp8Dec.value.toNat =
    (2 ^ vp8Doublings (vp8Width bit (symProb ctx e) e.vp8Dec.range) *
      (e.vp8Dec.value.toNat - vp8Low bit (symProb ctx e) e.vp8Dec.range) +
      inputBits e.src e.bitpos (vp8Doublings (vp8Width bit (symProb ctx e) e.vp8Dec.range))) % 2 ^ 32
  bitpos : u.bitpos = e.bitpos + vp8Doublings (vp8Width bit (symProb ctx e) e.vp8Dec.range)
  src : u.src = e.src
  phase : u.phase = e.phase
  fam : u.fam = e.fam
  ctx : u.ctx = (symCtxSet ctx (probUpdate (symProb ctx e) bit) e).ctx
  responses : u.responses = e.responses

/-- The doublings of the part that a bit selects bring the range of a decoder back to 128 to 255 (R230, R242). -/
theorem vp8DecInv_doublings {e : Engine} (hinv : Vp8DecInv e) (bit : Bool) (prob : Byte) :
    vp8Doublings (vp8Width bit prob e.vp8Dec.range) ≤ 7 ∧
    128 ≤ 2 ^ vp8Doublings (vp8Width bit prob e.vp8Dec.range) * vp8Width bit prob e.vp8Dec.range ∧
    2 ^ vp8Doublings (vp8Width bit prob e.vp8Dec.range) * vp8Width bit prob e.vp8Dec.range ≤ 255 := by
  obtain ⟨h128, h255⟩ := hinv
  obtain ⟨hpos, hle⟩ := vp8Width_bounds bit prob (range := e.vp8Dec.range) (by omega)
  exact ⟨vp8Doublings_le hpos, vp8Doublings_bounds hpos (by omega)⟩

theorem vp8Got_renormed (ctx : Option Nat) {e : Engine} (hinv : Vp8DecInv e) :
    Vp8Got ctx (decodedBit (symProb ctx e) e.vp8Dec) e
      (symCtxSet ctx (probUpdate (symProb ctx e) (decodedBit (symProb ctx e) e.vp8Dec))
        (vp8RenormedD (vp8Doublings (vp8Width (decodedBit (symProb ctx e) e.vp8Dec) (symProb ctx e) e.vp8Dec.range))
          (decodeSelected (symProb ctx e) e))) := by
  obtain ⟨-, -, hle⟩ := vp8DecInv_doublings hinv (decodedBit (symProb ctx e) e.vp8Dec) (symProb ctx e)
  have h2 : 2 ≤ e.vp8Dec.range8.toNat := by
    have := hinv.1
    rw [Vp8Dec.range_toNat] at this
    omega
  obtain ⟨-, hrange, hvalue⟩ := vp8DecodeInterval_eq (symProb ctx e) h2
  have hctx := symCtxSet_ctx_congr (e := e) (t := vp8RenormedD
    (vp8Doublings (vp8Width (decodedBit (symProb ctx e) e.vp8Dec) (symProb ctx e) e.vp8Dec.range))
    (decodeSelected (symProb ctx e) e)) rfl rfl ctx
    (probUpdate (symProb ctx e) (decodedBit (symProb ctx e) e.vp8Dec))
  generalize decodedBit (symProb ctx e) e.vp8Dec = bit at *
  generalize hn : vp8Doublings (vp8Width bit (symProb ctx e) e.vp8Dec.range) = n at *
  rw [symCtxSet_eq]
  refine ⟨?_, ?_, by rw [hn]; rfl, rfl, rfl, rfl, hctx, rfl⟩
  · show (BitVec.ofNat 8 (2 ^ n * (decodeSelected (symProb ctx e) e).vp8Dec.range8.toNat)).toNat = _
    rw [show (decodeSelected (symProb ctx e) e).vp8Dec.range8.toNat = _ from hrange, hn, BitVec.toNat_ofNat,
      Nat.mod_eq_of_lt (by omega)]
  · show (shiftInBits (srcBit e) e.bitpos n (vp8DecodeInterval (symProb ctx e) e.vp8Dec).2.value).toNat = _
    rw [shiftInBits_srcBit_toNat, hvalue, hn, Nat.mul_comm]

/-- GET and GET_BYPASS decode the bit of the comparison, or raise INPUT_EXHAUSTED (R247, R248). -/
theorem vp8Get_cases (y : CodedSym) (p : Params) {e : Engine} (hinv : Vp8DecInv e) {bit : Bool}
    (hbit : decodedBit (symProb y.ctx e) e.vp8Dec = bit) :
    (InputLeft e (vp8Doublings (vp8Width bit (symProb y.ctx e) e.vp8Dec.range)) →
      ∃ u, instrBody (getInstr .vp8 y) p e = .ok (.ofBit bit) u ∧ Vp8Got y.ctx bit e u) ∧
    (¬InputLeft e (vp8Doublings (vp8Width bit (symProb y.ctx e) e.vp8Dec.range)) →
      ∃ u, instrBody (getInstr .vp8 y) p e = .raised .inputExhausted u) := by
  subst hbit
  obtain ⟨hok, hraise⟩ := decodeBool_cases (symProb y.ctx e) hinv
  rw [vp8Get_body]
  refine ⟨fun hleft => ⟨_, by rw [hok hleft, andThen_ok], vp8Got_renormed y.ctx hinv⟩, fun hnone => ?_⟩
  obtain ⟨t, ht⟩ := hraise hnone
  exact ⟨t, by rw [ht, andThen_raised]⟩

/-- Settles O34: the decoded bit selects its part of the interval, and the renormalization loop reads the bits that the part
needs. -/
theorem vp8GetResult : Obligations.Vp8GetResult := by
  intro s e ctx he hinv hdec hc p split bit range
  have hvp8 := hinv.vp8Dec hdec
  have hcheck := checkCommand_vp8Get (y := ⟨bit, ctx, 0⟩) hdec hc
  obtain ⟨hn, hge, hle⟩ := vp8DecInv_doublings hvp8 bit p
  obtain ⟨hok, hraise⟩ := vp8Get_cases ⟨bit, ctx, 0⟩ s.params hvp8 (bit := bit) rfl
  refine ⟨vp8Doublings (vp8Width bit p e.vp8Dec.range), hn, hge, hle, ?_⟩
  split
  · next hleft =>
    obtain ⟨u, hb, hgot⟩ := hok hleft
    exact ⟨_, completes_of_body he hcheck hb, hgot.phase.trans hdec.1, (Vp8Dec.range_toNat _).trans hgot.range, hgot.value,
      hgot.bitpos, ctxGet_of_symCtxSet hinv.ctx.1 hgot.fam hgot.ctx⟩
  · next hnone =>
    obtain ⟨u, hb⟩ := hraise hnone
    exact ⟨_, raises_of_body he hcheck hb⟩

end Sys2Proof.Machine
end

section
/-! SUPPORT, then O51. VP8 sessions along a run: the bounds of the encoder's registers and of the decoder's range (R237, R39). -/

namespace Sys2Proof.Machine

open Sys2Proof

/-- OPEN_ENC starts a session in bounds (R53, R237). -/
theorem vp8EncInv_open {p : Params} {e : Engine} (hreg : e.vp8Enc = ⟨0, 255, 0, 0, false, 0⟩) (hsink : e.sink = []) :
    Vp8EncInv p e := by
  rw [Vp8EncInv, hreg, hsink]
  exact ⟨by decide, by decide, by decide, fun _ => ⟨by decide, rfl, rfl⟩, nofun, rfl, fun w _ => Nat.two_pow_pos w⟩

/-- A VP8 command after which an encoder session is open leaves its registers in bounds, on any sink. -/
theorem vp8EncInv_command {p : Params} {e t : Engine} {i : Instr} {a : Reply} (hf : i.family = .vp8)
    (hl : legalNow e i.family i.op = true) (h : Encoding .vp8 e → Vp8EncInv p e)
    (hb : instrBody i p e = .ok a t) (ht : t.phase = .enc) : Vp8EncInv p t := by
  rcases encoding_cases hl hb ht with hop | ⟨henc, hop⟩
  · cases i with
    | vp8OpenEnc =>
      cases hb
      exact vp8EncInv_open rfl rfl
    | _ => cases hf <;> cases hop
  · rw [hf] at henc
    have hinv := h henc
    rcases hop with hop | hop | hop | ⟨m, rfl⟩
    · cases i with
      | vp8Put b c => exact (vp8Put_of_ok (y := ⟨b, some c, 0⟩) hinv hb).coded.inv
      | _ => cases hf <;> cases hop
    · cases i with
      | vp8PutBypass b => exact (vp8Put_of_ok (y := ⟨b, none, 0⟩) hinv hb).coded.inv
      | _ => cases hf <;> cases hop
    · cases i <;> cases hf <;> cases hop
    · exact hinv

/-- OPEN_DEC that goes on, whatever its input: the range is 255 (R54, R245). -/
theorem vp8DecInv_openDec {p : Params} {eof : Bool} {e t : Engine} {a : Reply}
    (hb : vp8OpenDecBody eof p e = .ok a t) : Vp8DecInv t := by
  obtain ⟨v, e₁, hread, hb⟩ := andThen_eq_ok.mp hb
  have hframe := readByte_frame ((openDecoder .vp8 1 eof e).setVp8Dec ⟨255, 0⟩)
  rw [hread] at hframe
  obtain ⟨n, he₁⟩ := hframe
  rw [Res.engine_ok] at he₁
  cases hb
  have hrange : e₁.vp8Dec.range8 = 255 := by rw [he₁]; rfl
  rw [Vp8DecInv, Vp8Dec.range_toNat, Engine.setVp8Dec_vp8Dec, hrange]
  decide

/-- A GET or GET_BYPASS that goes on keeps the range in 128 to 255 (R242). -/
theorem vp8DecInv_get {p : Params} {y : CodedSym} {e t : Engine} {a : Reply} (hinv : Vp8DecInv e)
    (hb : instrBody (getInstr .vp8 y) p e = .ok a t) : Vp8DecInv t := by
  obtain ⟨hok, hraise⟩ := vp8Get_cases y p hinv rfl
  obtain ⟨-, hge, hle⟩ := vp8DecInv_doublings hinv (decodedBit (symProb y.ctx e) e.vp8Dec) (symProb y.ctx e)
  by_cases hleft : InputLeft e (vp8Doublings
      (vp8Width (decodedBit (symProb y.ctx e) e.vp8Dec) (symProb y.ctx e) e.vp8Dec.range))
  · obtain ⟨u, hu, hgot⟩ := hok hleft
    obtain ⟨-, rfl⟩ : _ ∧ t = u := by simpa using hb.symm.trans hu
    rw [Vp8DecInv, Vp8Dec.range_toNat, hgot.range]
    exact ⟨hge, hle⟩
  · obtain ⟨u, hu⟩ := hraise hleft
    cases hb.symm.trans hu

/-- A VP8 command after which a decoder session is open leaves its range normalized. -/
theorem vp8DecInv_command {p : Params} {e t : Engine} {i : Instr} {a : Reply} (hf : i.family = .vp8)
    (hl : legalNow e i.family i.op = true) (h : Decoding .vp8 e → Vp8DecInv e)
    (hb : instrBody i p e = .ok a t) (ht : t.phase = .dec) : Vp8DecInv t := by
  rcases decoding_cases hl hb ht with hop | ⟨hdec, hop⟩
  · cases i with
    | vp8OpenDec eof => exact vp8DecInv_openDec (p := p) hb
    | _ => cases hf <;> cases hop
  · rw [hf] at hdec
    have hinv := h hdec
    rcases hop with hop | hop | hop | ⟨m, rfl⟩
    · cases i with
      | vp8Get c => exact vp8DecInv_get (y := ⟨false, some c, 0⟩) hinv hb
      | _ => cases hf <;> cases hop
    · cases i with
      | vp8GetBypass => exact vp8DecInv_get (y := ⟨false, none, 0⟩) hinv hb
      | _ => cases hf <;> cases hop
    · cases i <;> cases hf <;> cases hop
    · exact hinv

/-- Settles O51: an OPEN starts a session in bounds, EncodeBool and DecodeBool renormalize the part of the interval that they
select, and no other command of an open session touches the registers. -/
theorem stepKeepsVp8 : Obligations.StepKeepsVp8 := by
  intro s t hs h
  refine step_keeps
    (P := fun p e => (Encoding .vp8 e → Vp8EncInv p e) ∧ (Decoding .vp8 e → Vp8DecInv e))
    (Q := fun p e => (Encoding .vp8 e → Vp8EncInv p e) ∧ (Decoding .vp8 e → Vp8DecInv e))
    (fun _ _ h => h) (fun _ _ _ h => h) (fun _ _ _ _ _ _ => ⟨(nomatch ·.1), (nomatch ·.1)⟩) ?_ hs h
  rintro p e i - hc ⟨henc, hdec⟩
  obtain ⟨hl, -, -⟩ := checkCommand_eq_ok.mp hc
  refine ⟨fun ⟨hph, hfam⟩ => ?_, fun ⟨hph, hfam⟩ => ?_⟩
  · obtain ⟨hf, a, t, hb, hs⟩ := settle_open hc hfam (by rw [hph]; nofun)
    rw [hs] at hph ⊢
    have hinv := vp8EncInv_command hf hl henc hb hph
    exact hinv
  · obtain ⟨hf, a, t, hb, hs⟩ := settle_open hc hfam (by rw [hph]; nofun)
    rw [hs] at hph ⊢
    have hinv := vp8DecInv_command hf hl hdec hb hph
    exact hinv

end Sys2Proof.Machine
end

section
/-! SUPPORT, then O57. VP8 sessions round-trip (R246, R249): the encoder's intervals are nested, the output spells a number in the
last one, and the decoder's value is the distance of what it has read from the encoder's code number. -/

namespace Sys2Proof.Machine

open Sys2Proof

/-! ### Nested intervals of code numbers -/

/-- The interval of an encoder: the numbers of `bits` bits from `code` on, `width` of them. -/
structure CodeInterval where
  bits : Nat
  code : Nat
  width : Nat

/-- The interval `j` lies inside `i`, at a scale that is finer by the bits between them. -/
def CodeInterval.Within (j i : CodeInterval) : Prop :=
  ∃ n, j.bits = i.bits + n ∧ 2 ^ n * i.code ≤ j.code ∧ j.code + j.width ≤ 2 ^ n * (i.code + i.width)

theorem CodeInterval.Within.refl (i : CodeInterval) : i.Within i := ⟨0, rfl, by omega, by omega⟩

theorem CodeInterval.Within.trans {i j k : CodeInterval} (h : k.Within j) (h' : j.Within i) : k.Within i := by
  obtain ⟨n, hn, hlo, hhi⟩ := h
  obtain ⟨m, hm, hlo', hhi'⟩ := h'
  refine ⟨m + n, by omega, ?_, ?_⟩ <;> rw [Nat.add_comm m n, Nat.pow_add, Nat.mul_assoc]
  · exact (Nat.mul_le_mul_left _ hlo').trans hlo
  · exact hhi.trans (Nat.mul_le_mul_left _ hhi')

/-- The first bits of an input spell a number in the interval, and are there. -/
structure CodeInterval.Holds (i : CodeInterval) (src : List Byte) : Prop where
  lower : i.code ≤ inputBits src 0 i.bits
  upper : inputBits src 0 i.bits < i.code + i.width
  length : i.bits ≤ 8 * src.length

/-- An input in an inner interval is in the outer one. -/
theorem CodeInterval.Holds.of_within {i j : CodeInterval} {src : List Byte} (h : j.Holds src) (hin : j.Within i) :
    i.Holds src := by
  obtain ⟨hlower, hupper, hlength⟩ := h
  obtain ⟨n, hn, hlo, hhi⟩ := hin
  have hrest := inputBits_lt src (0 + i.bits) n
  rw [hn, inputBits_add, Nat.mul_comm] at hlower hupper
  obtain ⟨hle, hlt⟩ := inside_of_scaled (lo := i.code) (width := i.width) hrest (hlo.trans hlower)
    (by rw [← Nat.mul_add]; omega)
  exact ⟨hle, hlt, by omega⟩

/-- The interval of a VP8 encoder: its window has 8 bits, and each shift has brought one more (R237). -/
def vp8Interval (e : Engine) : CodeInterval := ⟨8 + vp8ShiftCount e, vp8Code e, e.vp8Enc.range8.toNat⟩

/-- The part of the interval that a bit selects, at the scale of its doublings, lies inside it (R230, R234). -/
theorem Vp8Coded.within {p : Params} {lo width : Nat} {e t : Engine} (h : Vp8Coded p lo width e t)
    (hle : lo + width ≤ e.vp8Enc.range8.toNat) : (vp8Interval t).Within (vp8Interval e) := by
  have hmul := Nat.mul_le_mul_left (2 ^ vp8Doublings width) hle
  refine ⟨vp8Doublings width, ?_, ?_, ?_⟩
  · show 8 + vp8ShiftCount t = _
    rw [h.shifts, ← Nat.add_assoc]
    rfl
  · show _ ≤ vp8Code t
    rw [h.code]
    exact Nat.mul_le_mul_left _ (Nat.le_add_right _ _)
  · show vp8Code t + t.vp8Enc.range8.toNat ≤ _
    rw [h.code, h.range, ← Nat.mul_add]
    exact Nat.mul_le_mul_left _ (by show _ ≤ vp8Code e + e.vp8Enc.range8.toNat; omega)

/-! ### The decoder's value -/

/-- The decoder `d` follows the encoder `e` (R246, R249): same range and contexts, and `value` is how far the bits read are
above the code number. -/
structure Vp8Follows (e d : Engine) : Prop where
  decoding : Decoding .vp8 d
  lastErr : d.lastErr = .ok
  ctx : d.ctx = e.ctx
  range : d.vp8Dec.range8 = e.vp8Enc.range8
  bitpos : d.bitpos = 8 + vp8ShiftCount e
  value : d.vp8Dec.value.toNat + vp8Code e = inputBits d.src 0 (8 + vp8ShiftCount e)

/-- What the input of a following decoder says of the bit that comes next: the value lies in the bit's part, and the input
holds the bits that the part needs. -/
theorem Vp8Follows.next_bits {p : Params} {lo width : Nat} {e t d : Engine} (h : Vp8Follows e d)
    (hc : Vp8Coded p lo width e t) (hs : (vp8Interval t).Holds d.src) :
    lo ≤ d.vp8Dec.value.toNat ∧ d.vp8Dec.value.toNat < lo + width ∧
    2 ^ vp8Doublings width * (d.vp8Dec.value.toNat - lo) + inputBits d.src d.bitpos (vp8Doublings width) + vp8Code t =
      inputBits d.src 0 (8 + vp8ShiftCount t) ∧
    d.bitpos + vp8Doublings width ≤ 8 * d.src.length := by
  obtain ⟨hlower, hupper, hlength⟩ := hs
  have hvalue := h.value
  have hpos := h.bitpos
  have hrest := inputBits_lt d.src d.bitpos (vp8Doublings width)
  have hbits : inputBits d.src 0 (8 + vp8ShiftCount t) =
      2 ^ vp8Doublings width * (d.vp8Dec.value.toNat + vp8Code e) + inputBits d.src d.bitpos (vp8Doublings width) := by
    rw [hc.shifts, ← Nat.add_assoc, inputBits_add, Nat.zero_add, ← hvalue, hpos, Nat.mul_comm]
  have hcode := hc.code
  rw [Nat.mul_add] at hbits hcode
  have hlower : vp8Code t ≤ inputBits d.src 0 (8 + vp8ShiftCount t) := hlower
  have hupper : inputBits d.src 0 (8 + vp8ShiftCount t) < vp8Code t + t.vp8Enc.range8.toNat := hupper
  have hlength : 8 + vp8ShiftCount t ≤ 8 * d.src.length := hlength
  have hshifts := hc.shifts
  rw [hc.range] at hupper
  obtain ⟨hle, hlt⟩ := inside_of_scaled (lo := lo) (width := width) (offset := d.vp8Dec.value.toNat) hrest (by omega)
    (by omega)
  have hmul := Nat.mul_le_mul_left (2 ^ vp8Doublings width) hle
  refine ⟨hle, hlt, ?_, by omega⟩
  rw [Nat.mul_sub]
  omega

/-- The bit of a comparison inside the part of a bit is that bit (R242). -/
theorem decodedBit_of_inside {b : Bool} {prob : Byte} {r : Vp8Dec} (hlo : vp8Low b prob r.range ≤ r.value.toNat)
    (hhi : r.value.toNat < vp8Low b prob r.range + vp8Width b prob r.range) : decodedBit prob r = b := by
  unfold vp8Low vp8Width at *
  cases b with
  | false => exact decide_eq_false (by simpa using hhi)
  | true => exact decide_eq_true hlo

/-- The decoder reads the probability that the encoder has read (R246). -/
theorem Vp8Follows.symProb_eq {e d : Engine} (h : Vp8Follows e d) (henc : Encoding .vp8 e) (ctx : Option Nat) :
    symProb ctx d = symProb ctx e := by
  unfold symProb
  cases ctx with
  | none => rfl
  | some c =>
    show ctxGet d c = ctxGet e c
    rw [ctxGet, ctxGet, h.ctx, h.decoding.2, henc.2]

theorem Vp8Follows.range_eq {e d : Engine} (h : Vp8Follows e d) : d.vp8Dec.range = e.vp8Enc.range :=
  congrArg (BitVec.setWidth 32) h.range

/-- A decoder that has decoded the encoder's bit follows on (R246). -/
theorem Vp8Follows.got {p : Params} {y : CodedSym} {e u d g : Engine} (h : Vp8Follows e d) (henc : Encoding .vp8 e)
    (hput : Vp8Put p y e u) (hs : (vp8Interval u).Holds d.src) (hgot : Vp8Got y.ctx y.bit d g) (o o' : BitVec 4)
    (r r' : Reply) : Vp8Follows (completeCmd o r u) (completeCmd o' r' g) := by
  obtain ⟨hcoded, -, -, hctx⟩ := hput
  obtain ⟨hrange, hvalue, hpos, hsrc, hph, hfam, hgctx, -⟩ := hgot
  obtain ⟨-, -, hsum, -⟩ := h.next_bits hcoded hs
  have hupper : inputBits d.src 0 (8 + vp8ShiftCount u) < vp8Code u + u.vp8Enc.range8.toNat := hs.upper
  have hlt := u.vp8Enc.range8.isLt
  rw [h.symProb_eq henc, h.range_eq] at hrange hvalue hpos
  rw [Nat.mod_eq_of_lt (by omega)] at hvalue
  rw [h.symProb_eq henc] at hgctx
  refine ⟨⟨hph.trans h.decoding.1, hfam.trans h.decoding.2⟩, rfl, ?_, ?_, ?_, ?_⟩
  · show g.ctx = u.ctx
    rw [hgctx, hctx]
    exact symCtxSet_ctx_congr (h.decoding.2.trans henc.2.symm) h.ctx _ _
  · exact BitVec.eq_of_toNat_eq (hrange.trans hcoded.range.symm)
  · show g.bitpos = 8 + vp8ShiftCount u
    rw [hpos, h.bitpos, hcoded.shifts, Nat.add_assoc]
  · show g.vp8Dec.value.toNat + vp8Code u = inputBits g.src 0 (8 + vp8ShiftCount u)
    rw [hsrc, hvalue, hsum]

/-- A decoder that follows the encoder of a symbol gives its bit back and follows on (R246). -/
theorem Vp8Follows.get {p : Params} {y : CodedSym} {e u d : Engine} (h : Vp8Follows e d) (henc : Encoding .vp8 e)
    (hinv : Vp8EncInv p e) (hc : ∀ c ∈ y.ctx, c < p.numCtx) (hput : Vp8Put p y e u) (hs : (vp8Interval u).Holds d.src) :
    let v := commandEffect p (getInstr .vp8 y) d
    Vp8Follows (completeCmd (opBits (putInstr .vp8 y).op) .none u) v ∧ v.src = d.src ∧
      v.responses = getResponse y :: d.responses := by
  intro v
  have hdinv : Vp8DecInv d := by
    obtain ⟨h128, h255, -⟩ := hinv
    rw [Vp8DecInv, h.range_eq]
    exact ⟨h128, h255⟩
  obtain ⟨hle, hlt, -, hleft⟩ := h.next_bits hput.coded hs
  rw [← h.range_eq, ← h.symProb_eq henc] at hle hlt hleft
  obtain ⟨hok, -⟩ := vp8Get_cases y p hdinv (decodedBit_of_inside hle hlt)
  obtain ⟨g, hb, hgot⟩ := hok (.inr (.inr hleft))
  have hv : v = completeCmd (opBits (getInstr .vp8 y).op) (.ofBit y.bit) g :=
    commandEffect_of_body (checkCommand_vp8Get h.decoding hc) hb
  rw [hv]
  refine ⟨h.got henc hput hs hgot _ _ _ _, hgot.src, ?_⟩
  rw [completeCmd_eq, hgot.responses, getResponse]
  obtain ⟨b, ctx, l⟩ := y
  cases ctx <;> rfl

/-! ### Sessions -/

/-- A symbol coded: what PUT or PUT_BYPASS makes of the engine of an unbounded session. -/
theorem vp8Put_effect {p : Params} {y : CodedSym} {e : Engine} (hun : Unbounded p) (hc : ∀ c ∈ y.ctx, c < p.numCtx)
    (henc : Encoding .vp8 e) (hinv : Vp8EncInv p e) :
    ∃ u, commandEffect p (putInstr .vp8 y) e = completeCmd (opBits (putInstr .vp8 y).op) .none u ∧ Vp8Put p y e u ∧
      Encoding .vp8 u ∧ (vp8Interval u).Within (vp8Interval e) := by
  obtain ⟨u, hb, hput⟩ := (vp8Put_inMemory y hun.1 hinv).2 fun h => not_formOverflows_of_unbounded hun.2.1 _ _ h.2
  obtain ⟨-, hle⟩ := vp8Width_bounds y.bit (symProb y.ctx e) (range := e.vp8Enc.range) (by have := hinv.1; omega)
  rw [Vp8Enc.range_toNat] at hle
  exact ⟨u, commandEffect_of_body (checkCommand_vp8Put henc hc) hb, hput, ⟨hput.phase.trans henc.1, hput.fam.trans henc.2⟩,
    hput.coded.within hle⟩

/-- A run of symbols coded keeps the session in bounds and narrows its interval (R237). -/
theorem vp8_run_within {p : Params} {syms : List CodedSym} {e : Engine} (hun : Unbounded p)
    (hc : ∀ y ∈ syms, ∀ c ∈ y.ctx, c < p.numCtx) (henc : Encoding .vp8 e) (hinv : Vp8EncInv p e) :
    let t := runEngine p (syms.map (putInstr .vp8)) e
    Encoding .vp8 t ∧ Vp8EncInv p t ∧ (vp8Interval t).Within (vp8Interval e) := by
  induction syms generalizing e with
  | nil => exact ⟨henc, hinv, .refl _⟩
  | cons y syms ih =>
    obtain ⟨hy, hsyms⟩ := List.forall_mem_cons.mp hc
    obtain ⟨u, heff, hput, hu, hin⟩ := vp8Put_effect hun hy henc hinv
    obtain ⟨henc', hinv', hin'⟩ := ih (e := completeCmd (opBits (putInstr .vp8 y).op) .none u) hsyms hu hput.coded.inv
    rw [List.map_cons, runEngine_cons, heff]
    exact ⟨henc', hinv', hin'.trans hin⟩

/-- A decoder that follows an encoder at the start of a run of symbols, on an input that spells a number in the run's last
interval, gives every bit back and follows the encoder to the end (R246). -/
theorem vp8_run_follows {p : Params} {syms : List CodedSym} {e d : Engine} (hun : Unbounded p)
    (hc : ∀ y ∈ syms, ∀ c ∈ y.ctx, c < p.numCtx) (henc : Encoding .vp8 e) (hinv : Vp8EncInv p e) (hfol : Vp8Follows e d)
    (hs : (vp8Interval (runEngine p (syms.map (putInstr .vp8)) e)).Holds d.src) :
    Vp8Follows (runEngine p (syms.map (putInstr .vp8)) e) (runEngine p (syms.map (getInstr .vp8)) d) ∧
    (runEngine p (syms.map (getInstr .vp8)) d).responses = (syms.map getResponse).reverse ++ d.responses := by
  induction syms generalizing e d with
  | nil => exact ⟨hfol, rfl⟩
  | cons y syms ih =>
    obtain ⟨hy, hsyms⟩ := List.forall_mem_cons.mp hc
    obtain ⟨u, heff, hput, hu, -⟩ := vp8Put_effect hun hy henc hinv
    rw [List.map_cons, runEngine_cons, heff] at hs ⊢
    obtain ⟨-, -, hin⟩ := vp8_run_within (e := completeCmd (opBits (putInstr .vp8 y).op) .none u) hun hsyms hu
      hput.coded.inv
    obtain ⟨hfol', hsrc, hresp⟩ := hfol.get henc hinv hy hput (hs.of_within hin)
    obtain ⟨hfol'', hresp'⟩ := ih (e := completeCmd (opBits (putInstr .vp8 y).op) .none u) hsyms hu hput.coded.inv hfol'
      (by rw [hsrc]; exact hs)
    refine ⟨hfol'', ?_⟩
    rw [List.map_cons, runEngine_cons, hresp', hresp, List.map_cons, List.reverse_cons, List.append_assoc,
      List.singleton_append]

/-- The number that an output spells before its padding of zeros (R70). -/
theorem inputBits_of_padded {out : List Byte} {n pad v : Nat} (hlen : 8 * out.length = n + pad)
    (hval : bytesValue out = v * 2 ^ pad) : inputBits out 0 n = v := by
  have hscale := Nat.two_pow_pos pad
  have hrest := inputBits_lt out (0 + n) pad
  have hall := inputBits_all out
  rw [hlen, inputBits_add, hval] at hall
  have hdiv := congrArg (· / 2 ^ pad) hall
  rwa [Nat.mul_comm, Nat.mul_add_div hscale, Nat.div_eq_of_lt hrest, Nat.add_zero, Nat.mul_div_cancel _ hscale] at hdiv

/-- The output of a session begins with its code number, the lower end of its last interval (R239, R240). -/
theorem vp8Interval_holds_output {e u : Engine} (h : Vp8Finished e u) (hpos : 1 ≤ e.vp8Enc.range8.toNat) :
    (vp8Interval e).Holds u.output := by
  have hcount := e.vp8Enc.count.isLt
  have hlen : 8 * u.output.length = 8 + vp8ShiftCount e + (8 - e.vp8Enc.count.toNat) % 8 := by
    rw [h.length, vp8ShiftCount]
    split
    · next h0 =>
      rw [h0]
      show _ = 8 + (_ + 0) + 0
      omega
    · next h0 =>
      have hne : e.vp8Enc.count.toNat ≠ 0 := fun h => h0 (BitVec.eq_of_toNat_eq h)
      omega
  have hbits := inputBits_of_padded hlen h.value
  refine ⟨hbits.ge, ?_, ?_⟩
  · show inputBits u.output 0 (8 + vp8ShiftCount e) < vp8Code e + e.vp8Enc.range8.toNat
    omega
  · show 8 + vp8ShiftCount e ≤ _
    omega

/-- FINISH of an unbounded session (R239). -/
theorem vp8Finish_effect {p : Params} {e : Engine} (hun : Unbounded p) (henc : Encoding .vp8 e) (hinv : Vp8EncInv p e) :
    ∃ out, (commandEffect p .vp8Finish e).readableOutput = some out ∧ (vp8Interval e).Holds out ∧
      (commandEffect p .vp8Finish e).ctx = e.ctx ∧ (commandEffect p .vp8Finish e).fam = .vp8 := by
  obtain ⟨u, hb, hu⟩ := (vp8Finish_inMemory hun.1 henc hinv).2 (not_formOverflows_of_unbounded hun.2.1 _ _)
  rw [commandEffect_of_body (checkCommand_vp8Finish henc) hb]
  exact ⟨u.output, if_pos hu.phase, vp8Interval_holds_output hu (vp8EncInv_iff.mp hinv).2.range_pos, hu.ctx,
    hu.fam.trans henc.2⟩

/-- OPEN_ENC of VP8 (R53, R235). -/
theorem vp8OpenEnc_effect (p : Params) (e : Engine) :
    commandEffect p .vp8OpenEnc e = completeCmd (opBits .openEnc) .none
      ((openEncoder .vp8 1 e).setVp8Enc ⟨0, 255, 0, 0, false, 0⟩) :=
  commandEffect_of_body (checkCommand_open (.inl rfl) p e) rfl

/-- A session starts with code number 0 and no shift counted (R53). -/
theorem vp8Code_start {e : Engine} (hreg : e.vp8Enc = ⟨0, 255, 0, 0, false, 0⟩) (hsink : e.sink = []) :
    vp8Code e = 0 ∧ vp8ShiftCount e = 0 := by
  simp [vp8Code, vp8ShiftCount, vp8Formed, vp8FormedBytes, hreg, hsink]

/-- OPEN_DEC of VP8 on an input that spells a number in the interval of the encoder's start follows that encoder (R245). -/
theorem vp8OpenDec_follows (p : Params) {e d : Engine} (hs : (vp8Interval (commandEffect p .vp8OpenEnc e)).Holds d.staged) :
    Vp8Follows (commandEffect p .vp8OpenEnc e) (commandEffect p (.vp8OpenDec true) d) ∧
    (commandEffect p (.vp8OpenDec true) d).src = d.staged := by
  have hlen : 8 + vp8ShiftCount (commandEffect p .vp8OpenEnc e) ≤ 8 * d.staged.length := hs.length
  have heff : commandEffect p (.vp8OpenDec true) d = completeCmd (opBits .openDec) .none _ :=
    commandEffect_of_body (checkCommand_open (.inr rfl) p d)
      (vp8OpenDecBody_eq (eof := true) (e := d) (.inr (by omega)) p)
  rw [vp8OpenEnc_effect, heff]
  obtain ⟨hcode, hshifts⟩ := vp8Code_start (e := completeCmd (opBits .openEnc) .none
    ((openEncoder .vp8 1 e).setVp8Enc ⟨0, 255, 0, 0, false, 0⟩)) rfl rfl
  refine ⟨⟨⟨rfl, rfl⟩, rfl, rfl, rfl, by rw [hshifts]; rfl, ?_⟩, rfl⟩
  rw [hshifts, hcode]
  exact (BitVec.toNat_setWidth_of_le (by decide)).trans (inputBits_byte d.staged 0).symm

/-- Settles O57: the output spells a number in every interval of the session, so that the decoder follows the encoder from
OPEN_DEC on. -/
theorem vp8RoundTrip : Obligations.Vp8RoundTrip := by
  refine roundTrips_of_engine fun p e syms hun hsyms => ?_
  have hc : ∀ y ∈ syms, ∀ c ∈ y.ctx, c < p.numCtx := fun y hy => (hsyms y hy).2
  have henc : Encoding .vp8 (commandEffect p .vp8OpenEnc e) := by
    rw [vp8OpenEnc_effect]
    exact ⟨rfl, rfl⟩
  have hinv : Vp8EncInv p (commandEffect p .vp8OpenEnc e) := by
    rw [vp8OpenEnc_effect]
    exact vp8EncInv_open rfl rfl
  obtain ⟨henc', hinv', hin⟩ := vp8_run_within hun hc henc hinv
  obtain ⟨out, hout, hholds, hctx, hfam⟩ := vp8Finish_effect hun henc' hinv'
  have hrun : runEngine p (openEncInstr .vp8 1 :: syms.map (putInstr .vp8) ++ [finishInstr .vp8]) e =
      commandEffect p .vp8Finish (runEngine p (syms.map (putInstr .vp8)) (commandEffect p .vp8OpenEnc e)) := by
    rw [runEngine_append]
    rfl
  generalize commandEffect p .vp8Finish (runEngine p (syms.map (putInstr .vp8)) (commandEffect p .vp8OpenEnc e)) = e₁
    at hout hctx hfam hrun
  obtain ⟨hfol, hsrc⟩ := vp8OpenDec_follows p (e := e) (d := e₁.setStaged out) (hholds.of_within hin)
  obtain ⟨hfol', hresp⟩ := vp8_run_follows hun hc henc hinv hfol (by rw [hsrc]; exact hholds)
  unfold EngineRoundTrip
  rw [hrun]
  refine ⟨out, hout, ?_, hfol'.decoding.1, hfol'.lastErr, fun c => ?_⟩
  · show (runEngine p (syms.map (getInstr .vp8)) (commandEffect p (.vp8OpenDec true) (e₁.setStaged out))).responses.take
      _ = _
    rw [hresp, List.take_left' (by rw [List.length_reverse, List.length_map])]
  · show ctxGet (runEngine p (syms.map (getInstr .vp8)) (commandEffect p (.vp8OpenDec true) (e₁.setStaged out))) c = _
    rw [ctxGet, ctxGet, hfol'.ctx, hfol'.decoding.2, hctx, hfam]

end Sys2Proof.Machine
end

section
/-! SUPPORT, then O36. The rANS step as arithmetic (R270, R271, R277, R284): EncodeSym first brings `x` into the interval from
which one push keeps it in 2^16 to 2^24 - 1, and DecodeSym's step undoes the push. -/

namespace Sys2Proof.Machine

open Sys2Proof

/-! ### Slots -/

/-- The slots of a symbol: at least one, at most 255, and all within 256 (R270). -/
theorem ransFreq_bounds (s : Bool) {p : Byte} (hp : 1 ≤ p.toNat) :
    1 ≤ ransFreq s p ∧ ransFreq s p ≤ 255 ∧ ransFreq s p + ransCum s p ≤ 256 := by
  have hlt := p.isLt
  cases s <;> simp only [ransFreq, ransCum, if_true, Bool.false_eq_true, if_false] <;> omega

/-- The comparison of a slot of a symbol gives the symbol (R270, R284). -/
theorem decide_slot_eq {s : Bool} {p : Byte} {r : Nat} (hr : r < ransFreq s p) :
    decide (p.toNat ≤ r + ransCum s p) = s := by
  cases s with
  | false => exact decide_eq_false (Nat.not_le.mpr hr)
  | true => exact decide_eq_true (Nat.le_add_left _ _)

/-! ### The step of DecodeSym -/

/-- DecodeSym's step as exact numbers: it never leaves 32 bits (R284). -/
theorem decodeSymStep_eq (p : Byte) (x : Word) :
    let s := decide (p.toNat ≤ x.toNat % 256)
    (decodeSymStep p x).1 = s ∧
    (decodeSymStep p x).2.toNat = ransFreq s p * (x.toNat / 256) + x.toNat % 256 - ransCum s p := by
  intro s
  have hp := p.isLt
  have hx := x.isLt
  have hf : ransFreq s p ≤ 256 := by
    cases s <;> simp only [ransFreq, if_true, Bool.false_eq_true, if_false] <;> omega
  have hmul := Nat.mul_le_mul_right (x.toNat / 256) hf
  refine ⟨rfl, Nat.mod_eq_of_lt ?_⟩
  show ransFreq s p * (x.toNat / 256) + x.toNat % 256 - ransCum s p < 2 ^ 32
  omega

/-! ### The push of EncodeSym -/

/-- The first half of EncodeSym: where `x` is too large for `f` slots, its low byte is emitted (R271). -/
def ransRenormed (f : Nat) (st : Word × List Byte) : Word × List Byte :=
  if f * 2 ^ 16 ≤ st.1.toNat then (st.1 >>> 8, st.2 ++ [st.1.setWidth 8]) else st

/-- The second half of EncodeSym: the symbol is pushed onto `x` (R271). -/
def ransPush (s : Bool) (p : Byte) (x : Word) : Word :=
  BitVec.ofNat 32 (x.toNat / ransFreq s p * 256 + x.toNat % ransFreq s p + ransCum s p)

theorem encodeSym_eq (s : Bool) (p : Byte) (st : Word × List Byte) :
    encodeSym (s, p) st = (ransPush s p (ransRenormed (ransFreq s p) st).1, (ransRenormed (ransFreq s p) st).2) := by
  unfold encodeSym ransRenormed ransPush
  rfl

/-- From the interval of R277, `x` is brought to `256 * f` up to `65536 * f`, and what is emitted completes it. -/
theorem ransRenormed_cases {f : Nat} {st : Word × List Byte} (hpos : 1 ≤ f) (hf : f ≤ 255) (hlo : 2 ^ 16 ≤ st.1.toNat)
    (hhi : st.1.toNat < 2 ^ 24) :
    256 * f ≤ (ransRenormed f st).1.toNat ∧ (ransRenormed f st).1.toNat < 65536 * f ∧
    (ransRenormed f st = st ∨
      ∃ v : Byte, (ransRenormed f st).2 = st.2 ++ [v] ∧ (ransRenormed f st).1.toNat < 2 ^ 16 ∧
        (ransRenormed f st).1.toNat * 256 + v.toNat = st.1.toNat) := by
  unfold ransRenormed
  split
  · next hbig =>
    have hdiv : (st.1 >>> 8).toNat = st.1.toNat / 256 := by rw [BitVec.toNat_ushiftRight, Nat.shiftRight_eq_div_pow]
    have hbyte : (st.1.setWidth 8).toNat = st.1.toNat % 256 := BitVec.toNat_setWidth 8 st.1
    rw [hdiv]
    exact ⟨by omega, by omega, .inr ⟨_, rfl, by omega, by rw [hbyte]; omega⟩⟩
  · next hsmall => exact ⟨by omega, by omega, .inl rfl⟩

/-- A push from `256 * f` up to `65536 * f` gives an `x` in the interval of R277, whose slot tells the symbol and what was
pushed onto. -/
theorem ransPush_spec {s : Bool} {p : Byte} {x : Word} (hp : 1 ≤ p.toNat) (hlo : 256 * ransFreq s p ≤ x.toNat)
    (hhi : x.toNat < 65536 * ransFreq s p) :
    2 ^ 16 ≤ (ransPush s p x).toNat ∧ (ransPush s p x).toNat < 2 ^ 24 ∧ decodeSymStep p (ransPush s p x) = (s, x) := by
  obtain ⟨hpos, -, hslots⟩ := ransFreq_bounds s hp
  have hrem := Nat.mod_lt x.toNat hpos
  have hquot : 256 ≤ x.toNat / ransFreq s p := (Nat.le_div_iff_mul_le hpos).mpr hlo
  have hquot' : x.toNat / ransFreq s p < 65536 := (Nat.div_lt_iff_lt_mul hpos).mpr hhi
  have hpush : (ransPush s p x).toNat =
      x.toNat / ransFreq s p * 256 + (x.toNat % ransFreq s p + ransCum s p) := by
    rw [ransPush, Nat.add_assoc, BitVec.toNat_ofNat]
    omega
  have hhigh : (ransPush s p x).toNat / 256 = x.toNat / ransFreq s p := by omega
  have hslot : (ransPush s p x).toNat % 256 = x.toNat % ransFreq s p + ransCum s p := by omega
  refine ⟨by omega, by omega, ?_⟩
  obtain ⟨hsym, hval⟩ := decodeSymStep_eq p (ransPush s p x)
  rw [hslot, decide_slot_eq hrem] at hsym hval
  refine Prod.ext hsym (BitVec.eq_of_toNat_eq ?_)
  rw [hval, hhigh, ← Nat.add_assoc, Nat.add_sub_cancel, Nat.div_add_mod]

/-- EncodeSym on an `x` in the interval of R277: it keeps the interval, and DecodeSym's step on the result gives the symbol
and the `y` that was pushed onto, which is the old `x`, or the old one without the byte just emitted. -/
theorem encodeSym_cases {s : Bool} {p : Byte} {st : Word × List Byte} (hp : 1 ≤ p.toNat) (hlo : 2 ^ 16 ≤ st.1.toNat)
    (hhi : st.1.toNat < 2 ^ 24) :
    ∃ y : Word, 2 ^ 16 ≤ (encodeSym (s, p) st).1.toNat ∧ (encodeSym (s, p) st).1.toNat < 2 ^ 24 ∧
      decodeSymStep p (encodeSym (s, p) st).1 = (s, y) ∧
      (((encodeSym (s, p) st).2 = st.2 ∧ y = st.1) ∨
        ∃ v : Byte, (encodeSym (s, p) st).2 = st.2 ++ [v] ∧ y.toNat < 2 ^ 16 ∧ y.toNat * 256 + v.toNat = st.1.toNat) := by
  obtain ⟨hpos, hf, -⟩ := ransFreq_bounds s hp
  obtain ⟨hlo', hhi', hcases⟩ := ransRenormed_cases hpos hf hlo hhi
  obtain ⟨hge, hlt, hdec⟩ := ransPush_spec hp hlo' hhi'
  rw [encodeSym_eq]
  generalize ransRenormed (ransFreq s p) st = r at *
  obtain ⟨y, em⟩ := r
  exact ⟨y, hge, hlt, hdec, hcases.imp_left fun hsame => by rw [← hsame]; exact ⟨rfl, rfl⟩⟩

/-- Settles O36: the emission makes room for the push, and the slot undoes the push. -/
theorem ransStepInverse : Obligations.RansStepInverse := by
  intro b p x hp hlo hhi r d
  obtain ⟨y, hge, hlt, hdec, hcases⟩ := encodeSym_cases (s := b) (st := (x, [])) hp hlo hhi
  have hd : d = (b, y) := hdec
  rw [hd]
  exact ⟨hge, hlt, rfl, hcases⟩

end Sys2Proof.Machine
end

section
/-! SUPPORT, then O35 and O37. The rANS encoder commands (R273 to R276): the queue that PUT and PUT_BYPASS build, the code of a
queue, and the output of a session. -/

namespace Sys2Proof.Machine

open Sys2Proof

/-! ### PUT and PUT_BYPASS -/

/-- A context write after a change of other registers puts the written context memory into the changed engine. -/
theorem symCtxSet_of_same_ctx {e t : Engine} (hfam : t.fam = e.fam) (hctx : t.ctx = e.ctx) (ctx : Option Nat) (v : Byte) :
    symCtxSet ctx v t = t.setCtx (symCtxSet ctx v e).ctx := by
  rw [symCtxSet_eq, symCtxSet_ctx_congr hfam hctx]

/-- PUT and PUT_BYPASS are one rule: Enqueue, then the update of the context, if any (R274, R275). -/
theorem ransPut_body (y : CodedSym) (p : Params) (e : Engine) :
    instrBody (putInstr .rans y) p e = (enqueue p y.bit (symProb y.ctx e) e).andThen fun _ t =>
      .ok .none (symCtxSet y.ctx (probUpdate (symProb y.ctx e) y.bit) t) := by
  obtain ⟨b, ctx, l⟩ := y
  cases ctx <;> rfl

/-- The probability that a symbol is coded with is in 1 .. 225 (R157, R275). -/
theorem ransProb_bounds {p : Params} {e : Engine} (h : CtxInv p e) (hfam : e.fam = .rans) (ctx : Option Nat) :
    1 ≤ (symProb ctx e).toNat ∧ (symProb ctx e).toNat ≤ 225 := by
  cases ctx with
  | none => exact (by decide : 1 ≤ (128 : Byte).toNat ∧ (128 : Byte).toNat ≤ 225)
  | some c => exact ransCtx_bounds h hfam c

theorem checkCommand_ransPut {p : Params} {e : Engine} {y : CodedSym} (henc : Encoding .rans e)
    (hc : ∀ c ∈ y.ctx, c < p.numCtx) :
    checkCommand p e (putInstr .rans y).family (putInstr .rans y).op (laneOperand (putInstr .rans y))
      (ctxOperand (putInstr .rans y)) = .ok := by
  obtain ⟨b, ctx, l⟩ := y
  cases ctx with
  | none => exact checkCommand_encoding (i := .ransPutBypass b) (.inr (.inl rfl)) henc nofun nofun
  | some c => exact checkCommand_encoding (i := .ransPut b c) (.inl rfl) henc nofun hc

/-- The pair that a symbol adds to the queue (R274, R275). -/
def ransPair (y : CodedSym) (e : Engine) : Bool × Byte := (y.bit, symProb y.ctx e)

/-- The engine with the pair of a symbol queued and its context updated (R274, R275). -/
def ransQueued (y : CodedSym) (e : Engine) : Engine :=
  (e.setRansEnc { e.ransEnc with queue := e.ransEnc.queue ++ [ransPair y e] }).setCtx
    (symCtxSet y.ctx (probUpdate (symProb y.ctx e) y.bit) e).ctx

/-- The engine after a PUT or PUT_BYPASS that completes. -/
theorem completed_ransQueued (o : BitVec 4) (r : Reply) (y : CodedSym) (e : Engine) :
    let t := completeCmd o r (ransQueued y e)
    t.phase = e.phase ∧ t.fam = e.fam ∧ t.sink = e.sink ∧ t.ransEnc.queue = e.ransEnc.queue ++ [ransPair y e] ∧
    t.ctx = (symCtxSet y.ctx (probUpdate (symProb y.ctx e) y.bit) e).ctx := by
  simp [completeCmd_eq, ransQueued]

/-- PUT and PUT_BYPASS queue the pair, or raise QUEUE_OVERFLOW and change nothing (R273 to R275). -/
theorem ransPut_cases (y : CodedSym) (p : Params) (e : Engine) :
    instrBody (putInstr .rans y) p e =
      if p.ransQCap = some e.ransEnc.queue.length then .raised .queueOverflow e else .ok .none (ransQueued y e) := by
  rw [ransPut_body]
  rcases enqueue_cases p y.bit (symProb y.ctx e) e with ⟨hfull, h⟩ | ⟨hroom, h⟩
  · rw [h, if_pos hfull, andThen_raised]
  · rw [h, if_neg hroom, andThen_ok, symCtxSet_of_same_ctx (Engine.setRansEnc_fam e _) (Engine.setRansEnc_ctx e _)]
    rfl

/-- Settles O35: Enqueue has room or has not. -/
theorem ransPutQueues : Obligations.RansPutQueues := by
  intro s e b ctx he hinv henc hc p
  have hcheck := checkCommand_ransPut (y := ⟨b, ctx, 0⟩) henc hc
  have hbody := ransPut_cases ⟨b, ctx, 0⟩ s.params e
  split
  · next hfull =>
    rw [if_pos hfull] at hbody
    exact ⟨_, raises_of_body he hcheck hbody, rfl, rfl⟩
  · next hroom =>
    rw [if_neg hroom] at hbody
    obtain ⟨hph, hfam, hsink, hqueue, hctx⟩ :=
      completed_ransQueued (opBits (putInstr .rans ⟨b, ctx, 0⟩).op) .none ⟨b, ctx, 0⟩ e
    exact ⟨_, completes_of_body he hcheck hbody, hph.trans henc.1, hqueue, hsink,
      ctxGet_of_symCtxSet hinv.ctx.1 hfam hctx⟩

/-! ### The code of a queue -/

/-- What EncodeSym makes of a queue, from the last PUT to the first, from `x = 2^16` (R276). -/
def ransCoded (q : List (Bool × Byte)) : Word × List Byte := encodeSyms q.reverse (0x10000, [])

theorem encodeSyms_append (q r : List (Bool × Byte)) (st : Word × List Byte) :
    encodeSyms (q ++ r) st = encodeSyms r (encodeSyms q st) := by
  induction q generalizing st with
  | nil => rfl
  | cons sp q ih => rw [List.cons_append, encodeSyms, encodeSyms, ih]

/-- The first PUT is encoded last (R276). -/
theorem ransCoded_cons (sp : Bool × Byte) (q : List (Bool × Byte)) :
    ransCoded (sp :: q) = encodeSym sp (ransCoded q) := by
  rw [ransCoded, List.reverse_cons, encodeSyms_append]
  rfl

/-- The final `x` is in the interval of R277, and EncodeSym has emitted at most one byte a pair. -/
theorem ransCoded_bounds {q : List (Bool × Byte)} (hq : ∀ sp ∈ q, 1 ≤ sp.2.toNat) :
    2 ^ 16 ≤ (ransCoded q).1.toNat ∧ (ransCoded q).1.toNat < 2 ^ 24 ∧ (ransCoded q).2.length ≤ q.length := by
  induction q with
  | nil => exact ⟨by decide, by decide, le_rfl⟩
  | cons sp q ih =>
    obtain ⟨hsp, hq⟩ := List.forall_mem_cons.mp hq
    obtain ⟨hlo, hhi, hlen⟩ := ih hq
    obtain ⟨y, hlo', hhi', -, hem⟩ := encodeSym_cases (s := sp.1) hsp hlo hhi
    rw [ransCoded_cons]
    refine ⟨hlo', hhi', ?_⟩
    rcases hem with ⟨hsame, -⟩ | ⟨v, hbyte, -⟩
    · rw [hsame, List.length_cons]
      omega
    · rw [hbyte, List.length_append, List.length_singleton, List.length_cons]
      omega

/-! ### FINISH -/

/-- The output of a session with a queue: the final `x`, most significant byte first, then the emitted bytes in reverse
(R276). -/
def ransOutput (q : List (Bool × Byte)) : List Byte := (wordBytesLE (ransCoded q).1).reverse ++ (ransCoded q).2.reverse

theorem ransEmit_eq (q : List (Bool × Byte)) :
    (ransEmit q).1 = (ransCoded q).1 ∧ (ransEmit q).2.reverse = ransOutput q :=
  ⟨rfl, List.reverse_append⟩

/-- The number that four bytes spell (R70). -/
theorem bytesValue_four (a b c d : Byte) :
    bytesValue [a, b, c, d] = ((a.toNat * 256 + b.toNat) * 256 + c.toNat) * 256 + d.toNat := by
  simp only [bytesValue, List.foldl_cons, List.foldl_nil]
  omega

/-- The bytes of a word, most significant first, spell the word (R70). -/
theorem bytesValue_wordBytesLE_reverse (x : Word) : bytesValue (wordBytesLE x).reverse = x.toNat := by
  have hx := x.isLt
  refine (bytesValue_four _ _ _ _).trans ?_
  simp only [BitVec.toNat_setWidth, BitVec.toNat_ushiftRight, Nat.shiftRight_eq_div_pow]
  omega

/-- The engine of FINISH after its output is written (R276). -/
def ransFinished (e : Engine) : Engine :=
  (((e.setRansEnc ⟨[], (ransCoded e.ransEnc.queue).1⟩).setSink ((ransOutput e.ransEnc.queue).flatMap byteBits)).setPhase
    .finished)

theorem ransFinished_output {e : Engine} (hfam : e.fam = .rans) :
    (ransFinished e).output = ransOutput e.ransEnc.queue := by
  have hout : (ransFinished e).output = completeBytes (ransFinished e).sink := by
    simp only [Engine.output, ransFinished, Engine.setPhase_fam, Engine.setSink_fam, Engine.setRansEnc_fam, hfam]
  rw [hout]
  exact completeBytes_flatMap _

/-- FINISH on an `InMemory` sink that holds nothing yet: a SinkClose that pads nothing follows the bytes (R276). -/
theorem ransFinishBody_inMemory {p : Params} {e : Engine} (hmem : p.sinkMode = .inMemory) (hfam : e.fam = .rans)
    (hsink : e.sink = []) : ransFinishBody p e = .ok (.ofOut (ransOutput e.ransEnc.queue)) (ransFinished e) := by
  obtain ⟨hx, hbytes⟩ := ransEmit_eq e.ransEnc.queue
  have haligned := flatMap_byteBits_length (ransOutput e.ransEnc.queue)
  have hpad : (8 - ((ransOutput e.ransEnc.queue).flatMap byteBits).length % 8) % 8 = 0 := by omega
  have hend : ransFinishBody p e = finishSession
      ((e.setRansEnc ⟨[], (ransCoded e.ransEnc.queue).1⟩).setSink ((ransOutput e.ransEnc.queue).flatMap byteBits)) := by
    simp only [ransFinishBody, hx, hbytes, writeBytes_inMemory hmem, sinkClose_inMemory hmem, andThen_ok,
      Engine.setRansEnc_sink, Engine.setSink_sink, hsink, List.nil_append, hpad, List.replicate_zero, List.append_nil]
    rfl
  exact hend.trans (congrArg (fun out => Res.ok (Reply.ofOut out) (ransFinished e)) (ransFinished_output hfam))

/-- FINISH passes the checks of R130 in an open session. -/
theorem checkCommand_ransFinish {p : Params} {e : Engine} (henc : Encoding .rans e) :
    checkCommand p e (Instr.ransFinish).family (Instr.ransFinish).op (laneOperand .ransFinish)
      (ctxOperand .ransFinish) = .ok :=
  checkCommand_encoding (i := .ransFinish) (.inr (.inr (.inr rfl))) henc nofun nofun

/-- Settles O37: the output is the code of the queue. -/
theorem ransFinishOutput : Obligations.RansFinishOutput := by
  intro s e he hinv hun henc final
  obtain ⟨hq, -, hsink⟩ := hinv.ransEnc henc
  obtain ⟨hlo, hhi, hlen⟩ := ransCoded_bounds fun sp hsp => (hq sp hsp).1
  have hread : (completeCmd (opBits .finish) (.ofOut (ransOutput e.ransEnc.queue)) (ransFinished e)).readableOutput =
      some (ransOutput e.ransEnc.queue) := congrArg some (ransFinished_output henc.2)
  have hout : (ransOutput e.ransEnc.queue).length = 4 + (ransCoded e.ransEnc.queue).2.length := by
    rw [ransOutput, List.length_append, List.length_reverse, List.length_reverse]
    rfl
  refine ⟨_, _, completes_of_body he (checkCommand_ransFinish henc) (ransFinishBody_inMemory hun.1 henc.2 hsink), rfl, hread,
    rfl, rfl, rfl, hlo, hhi, by omega, by omega, bytesValue_wordBytesLE_reverse _, rfl, fun hnil => ?_⟩
  rw [hnil]
  decide

end Sys2Proof.Machine
end

section
/-! SUPPORT, then O38. The rANS decoder commands (R284 to R286): the symbol of the slot, and the one refill. -/

namespace Sys2Proof.Machine

open Sys2Proof

/-! ### DecodeSym -/

/-- At a byte boundary the input has a byte left where it has its eight bits left (R77, R78). -/
theorem inputLeft_byte_iff {e : Engine} (haligned : e.bitpos % 8 = 0) :
    InputLeft e 8 ↔ e.bitpos / 8 < e.src.length ∨ e.eof = false := by
  rw [InputLeft, or_comm (a := e.bitpos / 8 < e.src.length)]
  refine ⟨fun h => ?_, fun h => .inr (h.imp_right fun h => by omega)⟩
  exact (h.resolve_left (by decide)).imp_right fun h => by omega

section
variable {prob : Byte} {e : Engine} {bit : Bool} {x : Word} (hd : decodeSymStep prob e.ransDec.x = (bit, x))
include hd

/-- No refill where the new `x` is large enough (R284). -/
theorem decodeSym_of_ge (h : 2 ^ 16 ≤ x.toNat) :
    decodeSym prob e = .ok bit ((e.setBitpos e.bitpos).setRansDec ⟨x⟩) := by
  simp only [decodeSym, hd, if_neg (Nat.not_lt.mpr h)]
  rfl

/-- A refill takes the byte at the cursor, where the input has one left (R284). -/
theorem decodeSym_refill (h : x.toNat < 2 ^ 16) (haligned : e.bitpos % 8 = 0) (hleft : InputLeft e 8) :
    decodeSym prob e =
      .ok bit ((e.setBitpos (e.bitpos + 8)).setRansDec ⟨shiftInByte x (e.src.getD (e.bitpos / 8) 0)⟩) := by
  have hpos : e.bitpos = 8 * (e.bitpos / 8) := by omega
  have hnext : 8 * (e.bitpos / 8 + 1) = e.bitpos + 8 := by omega
  have hread := readByte_aligned (e := e.setRansDec ⟨x⟩) hpos ((inputLeft_byte_iff haligned).mp hleft)
  simp only [decodeSym, hd, if_pos h, hread, andThen_ok, hnext]
  rfl

/-- A refill past the end in explicit-EOF mode (R284, R353). -/
theorem decodeSym_exhausted (h : x.toNat < 2 ^ 16) (haligned : e.bitpos % 8 = 0) (hnone : ¬InputLeft e 8) :
    decodeSym prob e = .raised .inputExhausted (e.setRansDec ⟨x⟩) := by
  obtain ⟨hend, heof⟩ := not_or.mp (mt (inputLeft_byte_iff haligned).mpr hnone)
  have hread := readByte_exhausted (e := e.setRansDec ⟨x⟩) (show 8 * e.src.length ≤ e.bitpos by omega)
    (Bool.eq_true_of_not_eq_false heof)
  simp only [decodeSym, hd, if_pos h, hread, andThen_raised]

end

/-- DecodeSym's step takes an `x` in the interval of R277 to 256 at least, so that one refill brings it back (R284). -/
theorem decodeSymStep_ge {p : Byte} {x : Word} (hp : 1 ≤ p.toNat) (hx : 2 ^ 16 ≤ x.toNat) :
    256 ≤ (decodeSymStep p x).2.toNat := by
  obtain ⟨-, hval⟩ := decodeSymStep_eq p x
  obtain ⟨hpos, -, -⟩ := ransFreq_bounds (decide (p.toNat ≤ x.toNat % 256)) hp
  have hmul := Nat.mul_le_mul_right (x.toNat / 256) hpos
  have hcum : ransCum (decide (p.toNat ≤ x.toNat % 256)) p ≤ x.toNat % 256 := by
    simp only [ransCum, decide_eq_true_eq]
    split <;> omega
  omega

/-! ### GET and GET_BYPASS -/

/-- GET and GET_BYPASS are one rule: DecodeSym, then the update of the context, if any (R285, R286). -/
theorem ransGet_body (y : CodedSym) (p : Params) (e : Engine) :
    instrBody (getInstr .rans y) p e = (decodeSym (symProb y.ctx e) e).andThen fun b t =>
      .ok (.ofBit b) (symCtxSet y.ctx (probUpdate (symProb y.ctx e) b) t) := by
  obtain ⟨b, ctx, l⟩ := y
  cases ctx <;> rfl

theorem checkCommand_ransGet {p : Params} {e : Engine} {y : CodedSym} (hdec : Decoding .rans e)
    (hc : ∀ c ∈ y.ctx, c < p.numCtx) :
    checkCommand p e (getInstr .rans y).family (getInstr .rans y).op (laneOperand (getInstr .rans y))
      (ctxOperand (getInstr .rans y)) = .ok := by
  obtain ⟨b, ctx, l⟩ := y
  cases ctx with
  | none => exact checkCommand_decoding (i := .ransGetBypass) (.inr (.inl rfl)) hdec nofun nofun
  | some c => exact checkCommand_decoding (i := .ransGet c) (.inl rfl) hdec nofun hc

/-- The engine of a GET or GET_BYPASS that decodes `bit`: its cursor, its `x`, and the context updated. -/
def ransGot (ctx : Option Nat) (bit : Bool) (pos : Nat) (x : Word) (e : Engine) : Engine :=
  ((e.setBitpos pos).setRansDec ⟨x⟩).setCtx (symCtxSet ctx (probUpdate (symProb ctx e) bit) e).ctx

/-- Every context after a GET or GET_BYPASS (R285, R286). -/
theorem ctxGet_ransGot {e : Engine} (h : Memory.wf (some (initialCtx e.fam)) e.ctx) (ctx : Option Nat) (bit : Bool)
    (pos : Nat) (x : Word) (a : Nat) :
    ctxGet (ransGot ctx bit pos x e) a = if ctx = some a then probUpdate (symProb ctx e) bit else ctxGet e a :=
  ctxGet_of_symCtxSet (u := ransGot ctx bit pos x e) h rfl rfl a

/-- The engine after a GET or GET_BYPASS that completes. -/
theorem completed_ransGot (o : BitVec 4) (r : Reply) (ctx : Option Nat) (bit : Bool) (pos : Nat) (x : Word) (e : Engine) :
    let t := completeCmd o r (ransGot ctx bit pos x e)
    t.phase = e.phase ∧ t.fam = e.fam ∧ t.src = e.src ∧ t.bitpos = pos ∧ t.ransDec.x = x ∧
    t.ctx = (symCtxSet ctx (probUpdate (symProb ctx e) bit) e).ctx := by
  simp [completeCmd_eq, ransGot]

/-- A GET or GET_BYPASS whose DecodeSym goes on. -/
theorem ransGet_of_decodeSym {y : CodedSym} {e : Engine} {bit : Bool} {pos : Nat} {x : Word} (p : Params)
    (h : decodeSym (symProb y.ctx e) e = .ok bit ((e.setBitpos pos).setRansDec ⟨x⟩)) :
    instrBody (getInstr .rans y) p e = .ok (.ofBit bit) (ransGot y.ctx bit pos x e) := by
  rw [ransGet_body, h, andThen_ok, symCtxSet_of_same_ctx (e := e) (t := (e.setBitpos pos).setRansDec ⟨x⟩) rfl rfl]
  rfl

/-- What a GET or GET_BYPASS whose DecodeSym goes on leaves of a session (R285, R286). -/
theorem ransGet_completes {s : State} {e : Engine} {ctx : Option Nat} {bit : Bool} {pos : Nat} {x : Word}
    (he : s.engine? = some e) (hwf : Memory.wf (some (initialCtx e.fam)) e.ctx) (hdec : Decoding .rans e)
    (hc : ∀ c ∈ ctx, c < s.params.numCtx)
    (h : decodeSym (symProb ctx e) e = .ok bit ((e.setBitpos pos).setRansDec ⟨x⟩)) :
    ∃ t, Completes (getInstr .rans ⟨bit, ctx, 0⟩) s e (.ofBit bit) t ∧ t.phase = .dec ∧ t.ransDec.x = x ∧ t.bitpos = pos ∧
      ∀ a, ctxGet t a = if ctx = some a then probUpdate (symProb ctx e) bit else ctxGet e a := by
  obtain ⟨hph, -, -, hpos, hx, -⟩ :=
    completed_ransGot (opBits (getInstr .rans ⟨bit, ctx, 0⟩).op) (.ofBit bit) ctx bit pos x e
  refine ⟨_, completes_of_body he (checkCommand_ransGet (y := ⟨bit, ctx, 0⟩) hdec hc)
    (ransGet_of_decodeSym s.params h), hph.trans hdec.1, hx, hpos, fun a => ?_⟩
  rw [ctxGet_completeCmd, ctxGet_ransGot hwf]

/-- Settles O38: with a large enough `x` DecodeSym reads nothing, and else it refills or raises INPUT_EXHAUSTED. -/
theorem ransGetResult : Obligations.RansGetResult := by
  intro s e ctx he hinv hdec hc p slot bit x n
  have haligned := hinv.ransDec hdec
  have hkeep := decodeSymStep_ge (x := e.ransDec.x) (ransProb_bounds hinv.ctx hdec.2 ctx).1
  obtain ⟨v, hd, hv⟩ : ∃ v, decodeSymStep (symProb ctx e) e.ransDec.x = (bit, v) ∧ v.toNat = x :=
    ⟨_, rfl, (decodeSymStep_eq p e.ransDec.x).2⟩
  rw [hd, hv] at hkeep
  have hn : n = if x < 2 ^ 16 then 8 else 0 := rfl
  have hp : p = symProb ctx e := rfl
  clear_value n x bit slot p
  subst hp
  by_cases hsmall : x < 2 ^ 16
  · rw [if_pos hsmall] at hn ⊢
    rw [hn]
    split
    · next hleft =>
      have hrefilled : (shiftInByte v (e.src.getD (e.bitpos / 8) 0)).toNat = x * 256 + inputByte e.src (e.bitpos / 8) := by
        rw [shiftInByte_toNat, hv, Nat.mod_eq_of_lt (by omega), inputByte]
      obtain ⟨t, ht, hph, hx, hpos, hctx⟩ := ransGet_completes he hinv.ctx.1 hdec hc
        (decodeSym_refill hd (by omega) haligned hleft)
      rw [← hx] at hrefilled
      exact ⟨t, ht, hph, hrefilled, hpos, fun h => by have := hkeep h; omega, hctx⟩
    · next hnone =>
      refine ⟨_, raises_of_body he (checkCommand_ransGet (y := ⟨bit, ctx, 0⟩) hdec hc) (u := e.setRansDec ⟨v⟩) ?_⟩
      rw [ransGet_body, decodeSym_exhausted hd (by omega) haligned hnone, andThen_raised]
  · rw [if_neg hsmall] at hn ⊢
    obtain ⟨t, ht, hph, hx, hpos, hctx⟩ := ransGet_completes he hinv.ctx.1 hdec hc (decodeSym_of_ge hd (by omega))
    rw [← hx] at hv
    rw [if_pos (.inl hn), hn]
    exact ⟨t, ht, hph, hv, hpos, fun _ => by omega, hctx⟩

end Sys2Proof.Machine
end

section
/-! SUPPORT, then O55. rANS sessions round-trip (R287, R288): the decoder holds the code of the pairs that are still to come, and
each GET takes the first of them off. -/

namespace Sys2Proof.Machine

open Sys2Proof

/-! ### The decoder's code -/

/-- The decoder holds the code of a queue: its `x`, and the emitted bytes, last one first, as what is left of its input
(R276, R287). -/
structure RansHolds (q : List (Bool × Byte)) (d : Engine) : Prop where
  x : d.ransDec.x = (ransCoded q).1
  aligned : d.bitpos % 8 = 0
  rest : d.src.drop (d.bitpos / 8) = (ransCoded q).2.reverse

/-- The first byte of what is left of an input is the one at the cursor. -/
theorem getD_of_drop_eq_cons {src rest : List Byte} {k : Nat} {v : Byte} (h : src.drop k = v :: rest) :
    k < src.length ∧ src.getD k 0 = v ∧ src.drop (k + 1) = rest := by
  have hlt : k < src.length := by
    by_contra hge
    rw [List.drop_eq_nil_of_le (Nat.not_lt.mp hge)] at h
    cases h
  rw [List.drop_eq_getElem_cons hlt] at h
  injection h with hv hrest
  exact ⟨hlt, (List.getD_eq_getElem _ _ hlt).trans hv, hrest⟩

/-- DecodeSym with the probability of the first pair gives its bit, and leaves the code of the other pairs (R287). -/
theorem RansHolds.decodeSym_ok {b : Bool} {prob : Byte} {q : List (Bool × Byte)} {d : Engine}
    (h : RansHolds ((b, prob) :: q) d) (hprob : 1 ≤ prob.toNat) (hq : ∀ sp ∈ q, 1 ≤ sp.2.toNat) :
    ∃ pos, decodeSym prob d = .ok b ((d.setBitpos pos).setRansDec ⟨(ransCoded q).1⟩) ∧ pos % 8 = 0 ∧
      d.src.drop (pos / 8) = (ransCoded q).2.reverse := by
  obtain ⟨hx, haligned, hrest⟩ := h
  obtain ⟨hlo, hhi, -⟩ := ransCoded_bounds hq
  obtain ⟨y, -, -, hstep, hcases⟩ := encodeSym_cases (s := b) hprob hlo hhi
  rw [ransCoded_cons] at hx hrest
  rw [← hx] at hstep
  rcases hcases with ⟨hsame, hval⟩ | ⟨v, hbyte, hsmall, hval⟩
  · rw [hsame] at hrest
    rw [hval] at hstep
    exact ⟨d.bitpos, decodeSym_of_ge hstep hlo, haligned, hrest⟩
  · rw [hbyte, List.reverse_append, List.reverse_singleton, List.singleton_append] at hrest
    obtain ⟨hlt, hget, hdrop⟩ := getD_of_drop_eq_cons hrest
    have hword : shiftInByte y (d.src.getD (d.bitpos / 8) 0) = (ransCoded q).1 := by
      rw [hget]
      refine BitVec.eq_of_toNat_eq ?_
      rw [shiftInByte_toNat, Nat.mod_eq_of_lt (by omega), hval]
    have hnext : (d.bitpos + 8) / 8 = d.bitpos / 8 + 1 := by omega
    have hdec := decodeSym_refill hstep hsmall haligned ((inputLeft_byte_iff haligned).mpr (.inl hlt))
    rw [hword] at hdec
    exact ⟨d.bitpos + 8, hdec, by omega, by rw [hnext, hdrop]⟩

/-! ### A symbol -/

/-- The decoder `d` has the pairs `q` still to decode, and the contexts of the encoder `e` (R287). -/
structure RansFollows (q : List (Bool × Byte)) (e d : Engine) : Prop where
  decoding : Decoding .rans d
  lastErr : d.lastErr = .ok
  ctx : d.ctx = e.ctx
  holds : RansHolds q d

/-- The probability of a symbol depends on the family and on the contexts. -/
theorem symProb_congr {e t : Engine} (hfam : t.fam = e.fam) (hctx : t.ctx = e.ctx) (ctx : Option Nat) :
    symProb ctx t = symProb ctx e := by
  cases ctx with
  | none => rfl
  | some c =>
    show ctxGet t c = ctxGet e c
    rw [ctxGet, ctxGet, hctx, hfam]

/-- A decoder that follows the encoder of a symbol gives its bit back and follows on (R287). -/
theorem RansFollows.get {p : Params} {y : CodedSym} {q : List (Bool × Byte)} {e t d : Engine}
    (h : RansFollows (ransPair y e :: q) e d) (hfam : e.fam = .rans) (hq : ∀ sp ∈ ransPair y e :: q, 1 ≤ sp.2.toNat)
    (hc : ∀ c ∈ y.ctx, c < p.numCtx) (ht : t.ctx = (symCtxSet y.ctx (probUpdate (symProb y.ctx e) y.bit) e).ctx) :
    let v := commandEffect p (getInstr .rans y) d
    RansFollows q t v ∧ v.responses = getResponse y :: d.responses := by
  intro v
  obtain ⟨hprob, hq⟩ := List.forall_mem_cons.mp hq
  have hsame : d.fam = e.fam := h.decoding.2.trans hfam.symm
  have hsym := symProb_congr hsame h.ctx y.ctx
  obtain ⟨pos, hdec, haligned, hrest⟩ := h.holds.decodeSym_ok hprob hq
  have hb := ransGet_of_decodeSym (y := y) p (by rw [hsym]; exact hdec)
  have hv : v = completeCmd (opBits (getInstr .rans y).op) (.ofBit y.bit) (ransGot y.ctx y.bit pos (ransCoded q).1 d) :=
    commandEffect_of_body (checkCommand_ransGet h.decoding hc) hb
  obtain ⟨hph, hfamv, hsrc, hpos, hx, hctx⟩ := completed_ransGot (opBits (getInstr .rans y).op) (.ofBit y.bit) y.ctx y.bit
    pos (ransCoded q).1 d
  rw [hv]
  refine ⟨⟨⟨hph.trans h.decoding.1, hfamv.trans h.decoding.2⟩, rfl, ?_, hx, ?_, ?_⟩, ?_⟩
  · rw [hctx, ht, hsym, symCtxSet_ctx_congr hsame h.ctx]
  · rw [hpos, haligned]
  · rw [hpos, hsrc, hrest]
  · obtain ⟨b, ctx, l⟩ := y
    cases ctx <;> rfl

/-- An open rANS encoder session with good contexts and a good queue. -/
structure RansOpen (p : Params) (e : Engine) : Prop where
  encoding : Encoding .rans e
  ctx : CtxInv p e
  queue : RansEncInv p e

theorem RansOpen.queue_pos {p : Params} {e : Engine} (h : RansOpen p e) : ∀ sp ∈ e.ransEnc.queue, 1 ≤ sp.2.toNat :=
  fun sp hsp => (h.queue.1 sp hsp).1

/-- A symbol coded: what PUT or PUT_BYPASS makes of the engine of an unbounded session (R274, R275). -/
theorem ransPut_effect {p : Params} {y : CodedSym} {e : Engine} (hun : Unbounded p) (hc : ∀ c ∈ y.ctx, c < p.numCtx)
    (h : RansOpen p e) :
    let t := commandEffect p (putInstr .rans y) e
    RansOpen p t ∧ t.ransEnc.queue = e.ransEnc.queue ++ [ransPair y e] ∧
      t.ctx = (symCtxSet y.ctx (probUpdate (symProb y.ctx e) y.bit) e).ctx := by
  intro t
  obtain ⟨henc, hctx, hq, -, hsink⟩ := h
  have hcheck := checkCommand_ransPut henc hc
  have hb : instrBody (putInstr .rans y) p e = .ok .none (ransQueued y e) := by
    rw [ransPut_cases, if_neg (by rw [hun.2.2]; nofun)]
  have ht : t = completeCmd (opBits (putInstr .rans y).op) .none (ransQueued y e) := commandEffect_of_body hcheck hb
  have hctx' : CtxInv p t := by
    have := ctxInv_settle hcheck hctx
    rwa [← commandEffect_legal hcheck] at this
  obtain ⟨hph, hfam, hsink', hqueue, hctxt⟩ := completed_ransQueued (opBits (putInstr .rans y).op) .none y e
  rw [← ht] at hph hfam hsink' hqueue hctxt
  refine ⟨⟨⟨hph.trans henc.1, hfam.trans henc.2⟩, hctx', ?_, ?_, hsink'.trans hsink⟩, hqueue, hctxt⟩
  · rw [hqueue]
    exact List.forall_mem_append.mpr ⟨hq, List.forall_mem_singleton.mpr (ransProb_bounds hctx henc.2 y.ctx)⟩
  · rw [hun.2.2]
    nofun

/-! ### Sessions -/

/-- A run of symbols coded adds their pairs to the queue, and a decoder that has these pairs to decode gives every bit back
and follows the encoder to the end (R287). -/
theorem rans_run_follows {p : Params} {syms : List CodedSym} {e : Engine} (hun : Unbounded p)
    (hc : ∀ y ∈ syms, ∀ c ∈ y.ctx, c < p.numCtx) (h : RansOpen p e) :
    let t := runEngine p (syms.map (putInstr .rans)) e
    RansOpen p t ∧ ∃ q, t.ransEnc.queue = e.ransEnc.queue ++ q ∧ ∀ d, RansFollows q e d →
      let v := runEngine p (syms.map (getInstr .rans)) d
      RansFollows [] t v ∧ v.responses = (syms.map getResponse).reverse ++ d.responses := by
  induction syms generalizing e with
  | nil => exact ⟨h, [], (List.append_nil _).symm, fun d hd => ⟨hd, rfl⟩⟩
  | cons y syms ih =>
    obtain ⟨hy, hsyms⟩ := List.forall_mem_cons.mp hc
    obtain ⟨hopen, hqueue, hctx⟩ := ransPut_effect hun hy h
    obtain ⟨hopen', q, hqueue', hdec⟩ := ih hsyms hopen
    rw [hqueue, List.append_assoc, List.singleton_append] at hqueue'
    refine ⟨hopen', ransPair y e :: q, hqueue', fun d hd => ?_⟩
    have hpos := hopen'.queue_pos
    rw [hqueue'] at hpos
    obtain ⟨hfol, hresp⟩ := hd.get h.encoding.2 (List.forall_mem_append.mp hpos).2 hy hctx
    obtain ⟨hfol', hresp'⟩ := hdec _ hfol
    refine ⟨hfol', ?_⟩
    rw [List.map_cons, runEngine_cons, hresp', hresp, List.map_cons, List.reverse_cons, List.append_assoc,
      List.singleton_append]

/-- OPEN_ENC of rANS opens a session with nothing queued (R53, R272). -/
theorem ransOpenEnc_effect (p : Params) (e : Engine) :
    let t := commandEffect p .ransOpenEnc e
    RansOpen p t ∧ t.ransEnc.queue = [] ∧ t.ctx = [] := by
  intro t
  have ht : t = completeCmd (opBits .openEnc) .none
      ((openEncoder .rans 1 e).setRansEnc ⟨[], Config.ransOpenX e.id e.cmdIndex⟩) :=
    commandEffect_of_body (checkCommand_open (.inl rfl) p e) rfl
  rw [ht]
  exact ⟨⟨⟨rfl, rfl⟩, ctxInv_of_ctx_nil rfl, nofun, fun _ _ => Nat.zero_le _, rfl⟩, rfl, rfl⟩

/-- FINISH of rANS (R276): its output is the code of the queue, and the contexts stay. -/
theorem ransFinish_effect {p : Params} {e : Engine} (hun : Unbounded p) (h : RansOpen p e) :
    let t := commandEffect p .ransFinish e
    t.readableOutput = some (ransOutput e.ransEnc.queue) ∧ t.ctx = e.ctx ∧ t.fam = .rans := by
  intro t
  obtain ⟨henc, -, -, -, hsink⟩ := h
  have ht : t = completeCmd (opBits .finish) (.ofOut (ransOutput e.ransEnc.queue)) (ransFinished e) :=
    commandEffect_of_body (checkCommand_ransFinish henc) (ransFinishBody_inMemory hun.1 henc.2 hsink)
  rw [ht]
  exact ⟨congrArg some (ransFinished_output henc.2), rfl, henc.2⟩

/-- The seed of an output is the final `x` (R276, R282). -/
theorem shiftInBytes_ransOutput (q : List (Bool × Byte)) :
    shiftInBytes (fun j => (ransOutput q).getD j 0) 0 4 0 = (ransCoded q).1 := by
  refine BitVec.eq_of_toNat_eq ?_
  rw [shiftInBytes_input, ← bytesValue_wordBytesLE_reverse]
  exact (bytesValue_four _ _ _ _).symm

/-- OPEN_DEC of rANS on the output of a session has the pairs of the session's queue to decode (R282, R287). -/
theorem ransOpenDec_follows (p : Params) {q : List (Bool × Byte)} {e d : Engine} (hctx : e.ctx = [])
    (hstaged : d.staged = ransOutput q) : RansFollows q e (commandEffect p (.ransOpenDec true) d) := by
  have hlen : 4 ≤ d.staged.length := by
    rw [hstaged, ransOutput, List.length_append]
    exact Nat.le_add_right 4 _
  have heff : commandEffect p (.ransOpenDec true) d = completeCmd (opBits .openDec) .none _ :=
    commandEffect_of_body (checkCommand_open (.inr rfl) p d) (ransOpenDecBody_eq (eof := true) (.inr hlen) p)
  rw [heff, hstaged, shiftInBytes_ransOutput]
  refine ⟨⟨rfl, rfl⟩, rfl, hctx.symm, rfl, (by decide : 32 % 8 = 0), ?_⟩
  show d.staged.drop (32 / 8) = _
  rw [hstaged]
  rfl

/-- A round trip on one engine from its parts: what FINISH leaves of the encoder, and what a decoder of the output does. -/
theorem engineRoundTrip_of_parts {f : Family} {n : Nat} {p : Params} {e t e₁ : Engine} {syms : List CodedSym}
    {out : List Byte} (ht : t = runEngine p (syms.map (putInstr f)) (commandEffect p (openEncInstr f n) e))
    (he₁ : e₁ = commandEffect p (finishInstr f) t)
    (hfinish : e₁.readableOutput = some out ∧ e₁.ctx = t.ctx ∧ e₁.fam = f)
    (hdec : ∀ d, d.staged = out →
      let v := runEngine p (syms.map (getInstr f)) (commandEffect p (openDecInstr f n true) d)
      Decoding f v ∧ v.lastErr = .ok ∧ v.ctx = t.ctx ∧ ∃ rs, v.responses = (syms.map getResponse).reverse ++ rs) :
    EngineRoundTrip f n p e syms := by
  obtain ⟨hout, hctx, hfam⟩ := hfinish
  have hrun : runEngine p (openEncInstr f n :: syms.map (putInstr f) ++ [finishInstr f]) e = e₁ := by
    rw [runEngine_append, he₁, ht]
    rfl
  obtain ⟨hdecoding, herr, hctx', rs, hresp⟩ := hdec (e₁.setStaged out) rfl
  unfold EngineRoundTrip
  rw [hrun]
  simp only [runEngine_cons]
  refine ⟨out, hout, ?_, hdecoding.1, herr, fun c => ?_⟩
  · rw [hresp, List.take_left' (by rw [List.length_reverse, List.length_map])]
  · rw [ctxGet, ctxGet, hctx', hdecoding.2, hctx, hfam]

/-- Settles O55: the decoder opens with the code of the whole queue, and every GET takes one pair off it. -/
theorem ransRoundTrip : Obligations.RansRoundTrip := by
  refine roundTrips_of_engine fun p e syms hun hsyms => ?_
  obtain ⟨hopen, hnil, hctx⟩ := ransOpenEnc_effect p e
  obtain ⟨hopen', q, hqueue, hdec⟩ := rans_run_follows hun (fun y hy => (hsyms y hy).2) hopen
  have hfinish := ransFinish_effect hun hopen'
  rw [hnil, List.nil_append] at hqueue
  rw [hqueue] at hfinish
  refine engineRoundTrip_of_parts rfl rfl hfinish fun d hstaged => ?_
  obtain ⟨hfol, hresp⟩ := hdec _ (ransOpenDec_follows p hctx hstaged)
  exact ⟨hfol.decoding, hfol.lastErr, hfol.ctx, _, hresp⟩

end Sys2Proof.Machine
end

section
/-! SUPPORT. The Fpaq0 interval step as numbers (R300 to R303, R316, R322, R331), the same for the serial coder and for a lane:
the part of an interval that a bit selects, its equal leading bytes, and what shifting them out leaves. -/

namespace Sys2Proof.Machine

open Sys2Proof

/-! ### The bytes of a word -/

theorem byteAt_eq_ofNat (v : Word) (j : Nat) : byteAt v j = BitVec.ofNat 8 (v.toNat / 256 ^ j) := by
  have hpow : 2 ^ (8 * j) = 256 ^ j := by rw [Nat.pow_mul]
  refine BitVec.eq_of_toNat_eq ?_
  rw [byteAt, BitVec.toNat_setWidth, BitVec.toNat_ushiftRight, Nat.shiftRight_eq_div_pow, hpow, BitVec.toNat_ofNat]

theorem byteAt_toNat (v : Word) (j : Nat) : (byteAt v j).toNat = v.toNat / 256 ^ j % 256 := by
  rw [byteAt_eq_ofNat, BitVec.toNat_ofNat]

/-- Byte `j` of a word, most significant first (R70). -/
theorem getElem?_wordBytesBE (v : Word) {j : Nat} (hj : j < 4) :
    (wordBytesBE v)[j]? = some (BitVec.ofNat 8 (v.toNat / 256 ^ (3 - j))) := by
  rw [← byteAt_eq_ofNat]
  interval_cases j <;> rfl

/-- The top byte goes first, and the other three move up (R303). -/
theorem wordBytesBE_highShift (v : Word) :
    wordBytesBE v = topByte v :: (wordBytesBE (highShift v)).take 3 := by
  have hv := v.isLt
  have htop : byteAt v 3 = topByte v := BitVec.eq_of_toNat_eq (by rw [byteAt_toNat, topByte_toNat]; omega)
  have hup : ∀ j, j < 3 → byteAt (highShift v) (j + 1) = byteAt v j := fun j hj => by
    refine BitVec.eq_of_toNat_eq ?_
    rw [byteAt_toNat, byteAt_toNat, highShift_toNat]
    interval_cases j <;> omega
  simp only [wordBytesBE, List.take_succ_cons, List.take_zero, htop, hup 0 (by decide), hup 1 (by decide),
    hup 2 (by decide)]

/-- The first `n` bytes of a word spell its leading part. -/
theorem bytesValue_take_wordBytesBE (v : Word) {n : Nat} (hn : n ≤ 4) :
    bytesValue ((wordBytesBE v).take n) = v.toNat / 256 ^ (4 - n) := by
  have hv := v.isLt
  interval_cases n <;> simp [wordBytesBE, bytesValue, byteAt_toNat] <;> omega

/-- The number that two byte sequences in a row spell. -/
theorem bytesValue_append (vs ws : List Byte) :
    bytesValue (vs ++ ws) = bytesValue vs * 256 ^ ws.length + bytesValue ws := by
  simp only [bytesValue_eq_bitsValue, List.flatMap_append, bitsValue_append, flatMap_byteBits_length, Nat.pow_mul]

/-! ### Bytes shifted in and out -/

theorem lowShift_iterate_toNat (n : Nat) (v : Word) : (lowShift^[n] v).toNat = v.toNat * 256 ^ n % 2 ^ 32 := by
  induction n with
  | zero => rw [Function.iterate_zero_apply, Nat.pow_zero, Nat.mul_one, Nat.mod_eq_of_lt v.isLt]
  | succ n ih => rw [Function.iterate_succ_apply', lowShift_toNat, ih, Nat.mod_mul_mod, pow_succ 256, Nat.mul_assoc]

theorem highShift_iterate_toNat (n : Nat) (v : Word) :
    (highShift^[n] v).toNat = (v.toNat * 256 ^ n + (256 ^ n - 1)) % 2 ^ 32 := by
  induction n with
  | zero =>
    rw [Function.iterate_zero_apply, Nat.pow_zero, Nat.mul_one, Nat.sub_self, Nat.add_zero, Nat.mod_eq_of_lt v.isLt]
  | succ n ih =>
    have hpos : 0 < 256 ^ n := Nat.pow_pos (by decide)
    have hnext : v.toNat * 256 ^ (n + 1) + (256 ^ (n + 1) - 1) = (v.toNat * 256 ^ n + (256 ^ n - 1)) * 256 + 255 := by
      rw [Nat.pow_succ, ← Nat.mul_assoc]
      omega
    rw [Function.iterate_succ_apply', highShift_toNat, ih, hnext]
    omega

/-- Bytes shifted into a word, as a number. -/
theorem shiftInBytes_toNat (f : Nat → Byte) (k n : Nat) (v : Word) :
    (shiftInBytes f k n v).toNat =
      (v.toNat * 256 ^ n + bytesValue ((List.range n).map fun j => f (k + j))) % 2 ^ 32 := by
  induction n generalizing k v with
  | zero => simp [shiftInBytes, bytesValue, Nat.mod_eq_of_lt v.isLt]
  | succ n ih =>
    have hlist : (List.range (n + 1)).map (fun j => f (k + j)) = [f k] ++ (List.range n).map fun j => f (k + 1 + j) := by
      simp [List.range_succ_eq_map, Nat.add_left_comm, Nat.add_comm]
    have hone : bytesValue [f k] = (f k).toNat := by simp [bytesValue]
    have hsum : (v.toNat * 256 ^ (n + 1) + ((f k).toNat * 256 ^ n +
        bytesValue ((List.range n).map fun j => f (k + 1 + j)))) =
        (v.toNat * 256 + (f k).toNat) * 256 ^ n + bytesValue ((List.range n).map fun j => f (k + 1 + j)) := by
      rw [Nat.pow_succ]
      ring
    have hshift : (shiftInByte v (f k)).toNat ≡ v.toNat * 256 + (f k).toNat [MOD 2 ^ 32] := by
      rw [shiftInByte_toNat]
      exact (Nat.mod_modEq _ _).add_right _
    rw [shiftInBytes, ih, hlist, bytesValue_append, hone, List.length_map, List.length_range, hsum]
    exact (hshift.mul_right _).add_right _

/-- Bytes of an input as a number (R70). -/
theorem inputBits_bytes (src : List Byte) (k n : Nat) :
    inputBits src (8 * k) (8 * n) = bytesValue ((List.range n).map fun j => src.getD (k + j) 0) := by
  induction n with
  | zero => rfl
  | succ n ih =>
    have hpos : 8 * k + 8 * n = 8 * (k + n) := by omega
    have hone : bytesValue [src.getD (k + n) 0] = inputByte src (k + n) := by simp [bytesValue, inputByte]
    rw [Nat.mul_succ, inputBits_add, ih, hpos, inputBits_byte, List.range_succ, List.map_append, List.map_singleton,
      bytesValue_append, hone]
    rfl

/-- What shifting `n` bytes out of 32 bits leaves, with the bytes shifted out in front. -/
theorem shifted_out_add (x : Nat) {n r : Nat} (hn : n ≤ 4) (hr : r < 256 ^ n) :
    x / 256 ^ (4 - n) * 2 ^ 32 + (x * 256 ^ n + r) % 2 ^ 32 = x * 256 ^ n + r := by
  interval_cases n <;> norm_num at hr ⊢ <;> omega

/-! ### The equal leading bytes -/

/-- The passes of a renormalization loop of at most `n`: its steps while the top bytes are equal (R303). -/
def equalTops : Nat → Word → Word → Nat
  | 0, _, _ => 0
  | n + 1, low, high => if topByte low = topByte high then equalTops n (lowShift low) (highShift high) + 1 else 0

theorem equalTops_of_eq (n : Nat) {low high : Word} (h : topByte low = topByte high) :
    equalTops (n + 1) low high = equalTops n (lowShift low) (highShift high) + 1 := if_pos h

theorem equalTops_of_ne (n : Nat) {low high : Word} (h : topByte low ≠ topByte high) : equalTops n low high = 0 := by
  cases n with
  | zero => rfl
  | succ n => exact if_neg h

theorem equalTops_le (n : Nat) (low high : Word) : equalTops n low high ≤ n := by
  induction n generalizing low high with
  | zero => exact le_rfl
  | succ n ih =>
    rw [equalTops]
    split
    · exact Nat.succ_le_succ (ih _ _)
    · exact Nat.zero_le _

/-- After `k` passes with equal bytes shifted out, the top bytes are equal where one leading byte more is. -/
theorem topByte_iterate_eq_iff {k : Nat} {low high : Word} (hk : k < 4)
    (h : low.toNat / 256 ^ (4 - k) = high.toNat / 256 ^ (4 - k)) :
    topByte (lowShift^[k] low) = topByte (highShift^[k] high) ↔
      low.toNat / 256 ^ (3 - k) = high.toNat / 256 ^ (3 - k) := by
  have hl := low.isLt
  have hh := high.isLt
  rw [← BitVec.toNat_inj, topByte_toNat, topByte_toNat, lowShift_iterate_toNat, highShift_iterate_toNat]
  interval_cases k <;> norm_num at h ⊢ <;> omega

/-- The loop counts the equal leading bytes, `k` of them shifted out already (R303). -/
theorem equalLeadingBytes_equalTops {n k : Nat} {low high : Word} (hnk : n + k = 4)
    (h : low.toNat / 256 ^ (4 - k) = high.toNat / 256 ^ (4 - k)) :
    EqualLeadingBytes low.toNat high.toNat (k + equalTops n (lowShift^[k] low) (highShift^[k] high)) := by
  induction n generalizing k with
  | zero => exact ⟨by simp only [equalTops]; omega, by simpa [equalTops] using h, by simp only [equalTops]; omega⟩
  | succ n ih =>
    have hiff := topByte_iterate_eq_iff (by omega) h
    by_cases ht : topByte (lowShift^[k] low) = topByte (highShift^[k] high)
    · have hnext : 4 - (k + 1) = 3 - k := by omega
      have hrest := ih (k := k + 1) (by omega) (by rw [hnext]; exact hiff.mp ht)
      rw [Function.iterate_succ_apply', Function.iterate_succ_apply'] at hrest
      rw [equalTops_of_eq n ht, ← Nat.add_assoc, Nat.add_right_comm]
      exact hrest
    · rw [equalTops_of_ne _ ht, Nat.add_zero]
      exact ⟨by omega, h, fun _ => mt hiff.mpr ht⟩

/-- The loop ends with a good interval (R304). -/
theorem intervalInv_equalTops {n k : Nat} {low high : Word} (hnk : n + k = 4) (h : IntervalPass k low high) :
    IntervalInv (lowShift^[equalTops n low high] low) (highShift^[equalTops n low high] high) := by
  induction n generalizing k low high with
  | zero => exact intervalInv_of_pass h (.inr (by omega))
  | succ n ih =>
    by_cases ht : topByte low = topByte high
    · rw [equalTops_of_eq n ht]
      exact ih (by omega) (intervalPass_succ (by omega) h ht)
    · rw [equalTops_of_ne _ ht]
      exact intervalInv_of_pass h (.inl ht)

/-- The bytes that a loop of at most `n` passes shifts out of `high` are the leading ones (R303). -/
theorem take_equalTops_succ {n : Nat} (hn : n < 4) {low high : Word} (h : topByte low = topByte high) :
    (wordBytesBE high).take (equalTops (n + 1) low high) =
      topByte high :: (wordBytesBE (highShift high)).take (equalTops n (lowShift low) (highShift high)) := by
  have hle := equalTops_le n (lowShift low) (highShift high)
  rw [equalTops_of_eq n h, wordBytesBE_highShift high, List.take_succ_cons, List.take_take, Nat.min_eq_left (by omega)]

/-! ### The cut -/

/-- The lower end of the part that a bit selects (R301). -/
def cutLow (b : Bool) (p : Byte) (low high : Word) : Word := if b then fpaq0Mid low high p + 1 else low

/-- The upper end of the part that a bit selects (R301). -/
def cutHigh (b : Bool) (p : Byte) (low high : Word) : Word := if b then high else fpaq0Mid low high p

/-- The equal leading bytes of the part that a bit selects (R303). -/
def cutBytes (b : Bool) (p : Byte) (low high : Word) : Nat := equalTops fpaq0Passes (cutLow b p low high) (cutHigh b p low high)

/-- The lower end of the next interval (R303). -/
def nextLow (b : Bool) (p : Byte) (low high : Word) : Word := lowShift^[cutBytes b p low high] (cutLow b p low high)

/-- The upper end of the next interval (R303). -/
def nextHigh (b : Bool) (p : Byte) (low high : Word) : Word := highShift^[cutBytes b p low high] (cutHigh b p low high)

/-- The leading bytes that a bit shifts out (R303). -/
def outBytes (b : Bool) (p : Byte) (low high : Word) : List Byte :=
  (wordBytesBE (cutHigh b p low high)).take (cutBytes b p low high)

section
variable (b : Bool) (p : Byte) (low high : Word)

/-- A selected part has as many equal leading bytes as its loop makes passes (R303). -/
theorem cut_equalLeadingBytes :
    EqualLeadingBytes (cutLow b p low high).toNat (cutHigh b p low high).toNat (cutBytes b p low high) := by
  have hlo := (cutLow b p low high).isLt
  have hhi := (cutHigh b p low high).isLt
  have hzero : (cutLow b p low high).toNat / 256 ^ (4 - 0) = (cutHigh b p low high).toNat / 256 ^ (4 - 0) := by
    norm_num
    omega
  have heq := equalLeadingBytes_equalTops (n := 4) rfl hzero
  rwa [Nat.zero_add] at heq

theorem outBytes_length : (outBytes b p low high).length = cutBytes b p low high := by
  have hle := (cut_equalLeadingBytes b p low high).1
  rw [outBytes, List.length_take]
  exact Nat.min_eq_left hle

theorem bytesValue_outBytes :
    bytesValue (outBytes b p low high) = (cutHigh b p low high).toNat / 256 ^ (4 - cutBytes b p low high) :=
  bytesValue_take_wordBytesBE _ (cut_equalLeadingBytes b p low high).1

/-- With the bytes shifted out in front, the lower end is that of the selected part at the finer scale. -/
theorem nextLow_scaled :
    bytesValue (outBytes b p low high) * 2 ^ 32 + (nextLow b p low high).toNat =
      256 ^ cutBytes b p low high * (cutLow b p low high).toNat := by
  obtain ⟨hn, heq, -⟩ := cut_equalLeadingBytes b p low high
  rw [bytesValue_outBytes, ← heq, nextLow, lowShift_iterate_toNat, Nat.mul_comm (256 ^ _)]
  exact shifted_out_add (r := 0) _ hn (Nat.pow_pos (by decide))

/-- With the bytes shifted out in front, the upper end is that of the selected part at the finer scale. -/
theorem nextHigh_scaled :
    bytesValue (outBytes b p low high) * 2 ^ 32 + (nextHigh b p low high).toNat + 1 =
      256 ^ cutBytes b p low high * ((cutHigh b p low high).toNat + 1) := by
  obtain ⟨hn, -, -⟩ := cut_equalLeadingBytes b p low high
  have hpos : 0 < 256 ^ cutBytes b p low high := Nat.pow_pos (by decide)
  rw [bytesValue_outBytes, nextHigh, highShift_iterate_toNat, shifted_out_add _ hn (by omega), Nat.mul_comm (256 ^ _),
    Nat.succ_mul]
  omega

end

section
variable {low high : Word} (h : IntervalInv low high) (b : Bool) (p : Byte)
include h

/-- The ends of the selected part as numbers (R300, R301). -/
theorem cut_toNat :
    (cutLow b p low high).toNat = (if b then (fpaq0Mid low high p).toNat + 1 else low.toNat) ∧
    (cutHigh b p low high).toNat = (if b then high.toNat else (fpaq0Mid low high p).toNat) := by
  obtain ⟨-, hle, hlt⟩ := fpaq0Mid_toNat h.lt p
  have hhi := high.isLt
  have hone : (1 : Word).toNat = 1 := rfl
  cases b
  · exact ⟨rfl, rfl⟩
  · refine ⟨?_, rfl⟩
    show (fpaq0Mid low high p + 1).toNat = (fpaq0Mid low high p).toNat + 1
    rw [BitVec.toNat_add, hone, Nat.mod_eq_of_lt (by omega)]

/-- The selected part lies inside the interval. -/
theorem cut_inside : low.toNat ≤ (cutLow b p low high).toNat ∧ (cutLow b p low high).toNat ≤ (cutHigh b p low high).toNat ∧
    (cutHigh b p low high).toNat ≤ high.toNat := by
  obtain ⟨hlo, hhi⟩ := cut_toNat h b p
  obtain ⟨-, hle, hlt⟩ := fpaq0Mid_toNat h.lt p
  rw [hlo, hhi]
  cases b
  · exact ⟨le_rfl, hle, hlt.le⟩
  · exact ⟨Nat.le_succ_of_le hle, hlt, le_rfl⟩

/-- The next interval is a good one (R304). -/
theorem next_intervalInv : IntervalInv (nextLow b p low high) (nextHigh b p low high) :=
  intervalInv_equalTops (n := 4) rfl (intervalPass_split h p b)

end

/-- The comparison with `Mid` tells which part of the interval a value lies in (R316, R331). -/
theorem decide_mid_of_inside {low high : Word} (h : IntervalInv low high) {b : Bool} {p : Byte} {v : Nat}
    (hlo : (cutLow b p low high).toNat ≤ v) (hhi : v ≤ (cutHigh b p low high).toNat) :
    decide ((fpaq0Mid low high p).toNat < v) = b := by
  obtain ⟨hlow, hhigh⟩ := cut_toNat h b p
  rw [hlow] at hlo
  rw [hhigh] at hhi
  cases b
  · exact decide_eq_false (Nat.not_lt.mpr hhi)
  · exact decide_eq_true hlo

end Sys2Proof.Machine
end

section
/-! SUPPORT. The Fpaq0 coder on its own stream (R300 to R319, R334), the serial one or a lane: its code number, the nesting of its
intervals, and a decoder whose value is the distance of what it has read from the code number. -/

namespace Sys2Proof.Machine

open Sys2Proof

/-- An Fpaq0 encoder seen alone: the bytes put out, and the interval (R44, R46). -/
structure Coder where
  bytes : List Byte
  low : Word
  high : Word

/-- The coder of a new session or lane (R305, R323). -/
def Coder.start : Coder := ⟨[], 0, 0xFFFFFFFF⟩

/-- A bit coded (R301, R303, R322). -/
def Coder.code (b : Bool) (p : Byte) (c : Coder) : Coder :=
  ⟨c.bytes ++ outBytes b p c.low c.high, nextLow b p c.low c.high, nextHigh b p c.low c.high⟩

/-- The bytes of the flush added (R308, R326). -/
def Coder.output (c : Coder) : List Byte := c.bytes ++ wordBytesBE c.low

/-- The interval of code numbers: the bytes put out, then the 32 bits of the interval. -/
def Coder.interval (c : Coder) : CodeInterval :=
  ⟨8 * (c.bytes.length + 4), bytesValue c.bytes * 2 ^ 32 + c.low.toNat, c.high.toNat - c.low.toNat + 1⟩

theorem Coder.interval_bits (c : Coder) : c.interval.bits = 8 * (c.bytes.length + 4) := rfl

theorem Coder.interval_code (c : Coder) : c.interval.code = bytesValue c.bytes * 2 ^ 32 + c.low.toNat := rfl

theorem Coder.interval_width (c : Coder) : c.interval.width = c.high.toNat - c.low.toNat + 1 := rfl

/-- The coder's interval is a good one (R304). -/
abbrev Coder.Good (c : Coder) : Prop := IntervalInv c.low c.high

theorem Coder.start_good : Coder.start.Good := by decide

theorem Coder.code_good {c : Coder} (h : c.Good) (b : Bool) (p : Byte) : (c.code b p).Good := next_intervalInv h b p

theorem Coder.code_bytes_length (b : Bool) (p : Byte) (c : Coder) :
    (c.code b p).bytes.length = c.bytes.length + cutBytes b p c.low c.high := by
  rw [Coder.code, List.length_append, outBytes_length]

theorem Coder.code_bytesValue (b : Bool) (p : Byte) (c : Coder) :
    bytesValue (c.code b p).bytes =
      bytesValue c.bytes * 256 ^ cutBytes b p c.low c.high + bytesValue (outBytes b p c.low c.high) := by
  rw [Coder.code, bytesValue_append, outBytes_length]

/-- The code number of the next interval is that of the selected part, at the finer scale. -/
theorem Coder.code_code (b : Bool) (p : Byte) (c : Coder) :
    (c.code b p).interval.code =
      2 ^ (8 * cutBytes b p c.low c.high) * (bytesValue c.bytes * 2 ^ 32 + (cutLow b p c.low c.high).toNat) := by
  have hscaled := nextLow_scaled b p c.low c.high
  have hlow : (c.code b p).low = nextLow b p c.low c.high := rfl
  rw [Coder.interval_code, c.code_bytesValue, hlow, two_pow_eight_mul, Nat.mul_add, ← hscaled]
  ring

/-- The end of the next interval is that of the selected part, at the finer scale. -/
theorem Coder.code_end {c : Coder} (h : c.Good) (b : Bool) (p : Byte) :
    (c.code b p).interval.code + (c.code b p).interval.width =
      2 ^ (8 * cutBytes b p c.low c.high) * (bytesValue c.bytes * 2 ^ 32 + ((cutHigh b p c.low c.high).toNat + 1)) := by
  have hscaled := nextHigh_scaled b p c.low c.high
  have hle := (next_intervalInv h b p).1
  have hlow : (c.code b p).low = nextLow b p c.low c.high := rfl
  have hhigh : (c.code b p).high = nextHigh b p c.low c.high := rfl
  have hsum : (nextLow b p c.low c.high).toNat + ((nextHigh b p c.low c.high).toNat - (nextLow b p c.low c.high).toNat + 1) =
      (nextHigh b p c.low c.high).toNat + 1 := by omega
  rw [Coder.interval_code, Coder.interval_width, hlow, hhigh, Nat.add_assoc, hsum, c.code_bytesValue, two_pow_eight_mul,
    Nat.mul_add, ← hscaled]
  ring

/-- A bit narrows the interval (R301). -/
theorem Coder.code_within {c : Coder} (h : c.Good) (b : Bool) (p : Byte) : (c.code b p).interval.Within c.interval := by
  obtain ⟨hlo, -, hhi⟩ := cut_inside h b p
  have hle := h.1
  refine ⟨8 * cutBytes b p c.low c.high, ?_, ?_, ?_⟩
  · rw [Coder.interval_bits, Coder.interval_bits, c.code_bytes_length b p]
    omega
  · rw [c.code_code b p]
    exact Nat.mul_le_mul_left _ (Nat.add_le_add_left hlo _)
  · rw [c.code_end h b p, Coder.interval_code, Coder.interval_width]
    exact Nat.mul_le_mul_left _ (by omega)

/-- An input that begins with the output of a coder spells a number in its interval, the lowest (R308, R315). -/
theorem Coder.holds_output {c : Coder} {src : List Byte} (h : c.output <+: src) : c.interval.Holds src := by
  obtain ⟨rest, rfl⟩ := h
  have hlen : c.output.length = c.bytes.length + 4 := List.length_append
  have hword : bytesValue (wordBytesBE c.low) = c.low.toNat := by
    have := bytesValue_take_wordBytesBE c.low (n := 4) le_rfl
    rwa [Nat.sub_self, Nat.pow_zero, Nat.div_one, List.take_of_length_le (by exact le_rfl)] at this
  have hbits : inputBits (c.output ++ rest) 0 (8 * (c.bytes.length + 4)) = bytesValue c.bytes * 2 ^ 32 + c.low.toNat := by
    have hprefix : (List.range (c.bytes.length + 4)).map (fun j => (c.output ++ rest).getD (0 + j) 0) = c.output := by
      refine List.ext_getElem (by rw [List.length_map, List.length_range, hlen]) fun j hj hj' => ?_
      rw [List.getElem_map, List.getElem_range, Nat.zero_add, List.getD_append _ _ _ _ hj', List.getD_eq_getElem _ _ hj']
    have hall := inputBits_bytes (c.output ++ rest) 0 (c.bytes.length + 4)
    have hfour : (wordBytesBE c.low).length = 4 := rfl
    have hpow : 256 ^ 4 = 2 ^ 32 := by decide
    rw [hprefix, Coder.output, bytesValue_append, hword, hfour, hpow, Nat.mul_zero] at hall
    exact hall
  refine ⟨?_, ?_, ?_⟩
  · rw [Coder.interval_bits, hbits, Coder.interval_code]
  · rw [Coder.interval_bits, hbits, Coder.interval_code, Coder.interval_width]
    omega
  · rw [Coder.interval_bits, List.length_append, hlen]
    omega

/-! ### The decoder's value -/

/-- A decoder that has read `k` bytes of its stream follows the coder: its value is how far these bytes are above the coder's
code number before `low` (R315, R334). -/
structure Coder.Reads (c : Coder) (src : List Byte) (value : Word) (k : Nat) : Prop where
  count : k = c.bytes.length + 4
  value : bytesValue c.bytes * 2 ^ 32 + value.toNat = inputBits src 0 (8 * k)

/-- The seed follows the coder of a new session (R314, R330). -/
theorem Coder.start_reads (src : List Byte) (v : Word) :
    Coder.start.Reads src (shiftInBytes (fun j => src.getD j 0) 0 4 v) 4 := by
  refine ⟨rfl, ?_⟩
  have hlt := inputBits_lt src 0 (8 * 4)
  have hbytes := inputBits_bytes src 0 4
  rw [Nat.mul_zero] at hbytes
  show bytesValue [] * 2 ^ 32 + _ = _
  rw [shiftInBytes_toNat, ← hbytes, Nat.mul_comm v.toNat, (by decide : 256 ^ 4 = 2 ^ 32), Nat.mul_add_mod,
    Nat.mod_eq_of_lt (by simpa using hlt)]
  exact Nat.zero_add _

/-- What a decoder that follows the coder does with the next bit: the comparison gives the bit back, the stream holds the
bytes of the refill, and with them the decoder follows on (R315, R316). -/
theorem Coder.Reads.next {c : Coder} {src : List Byte} {value : Word} {k : Nat} (h : c.Reads src value k) (hgood : c.Good)
    {b : Bool} {p : Byte} (hs : (c.code b p).interval.Holds src) :
    decide ((fpaq0Mid c.low c.high p).toNat < value.toNat) = b ∧
    k + cutBytes b p c.low c.high ≤ src.length ∧
    (c.code b p).Reads src (shiftInBytes (fun j => src.getD j 0) k (cutBytes b p c.low c.high) value)
      (k + cutBytes b p c.low c.high) := by
  obtain ⟨hlower, hupper, hlength⟩ := hs
  obtain ⟨hcount, hvalue⟩ := h
  obtain ⟨-, hcut, -⟩ := cut_inside hgood b p
  obtain ⟨hn, heq, -⟩ := cut_equalLeadingBytes b p c.low c.high
  have hread : (c.code b p).bytes.length + 4 = k + cutBytes b p c.low c.high := by
    rw [c.code_bytes_length b p]
    omega
  have hbits : (c.code b p).interval.bits = 8 * k + 8 * cutBytes b p c.low c.high := by
    rw [Coder.interval_bits, hread, Nat.mul_add]
  have hrest := inputBits_lt src (8 * k) (8 * cutBytes b p c.low c.high)
  rw [hbits, inputBits_add, Nat.zero_add, ← hvalue, Nat.mul_comm _ (2 ^ _)] at hlower hupper
  rw [c.code_code b p] at hlower
  rw [c.code_end hgood b p] at hupper
  obtain ⟨hle, hlt⟩ := inside_of_scaled (lo := bytesValue c.bytes * 2 ^ 32 + (cutLow b p c.low c.high).toNat)
    (width := (cutHigh b p c.low c.high).toNat + 1 - (cutLow b p c.low c.high).toNat) hrest hlower
    (by rw [← Nat.mul_add]; exact hupper.trans_eq (congrArg _ (by omega)))
  have hlo : (cutLow b p c.low c.high).toNat ≤ value.toNat := by omega
  have hhi : value.toNat ≤ (cutHigh b p c.low c.high).toNat := by omega
  refine ⟨decide_mid_of_inside hgood hlo hhi, by rw [hbits] at hlength; omega, hread.symm, ?_⟩
  have hlead : value.toNat / 256 ^ (4 - cutBytes b p c.low c.high) = bytesValue (outBytes b p c.low c.high) := by
    rw [bytesValue_outBytes]
    exact le_antisymm (Nat.div_le_div_right hhi) (heq ▸ Nat.div_le_div_right hlo)
  have hscaled := shifted_out_add value.toNat hn (by rw [← two_pow_eight_mul]; exact hrest)
  rw [shiftInBytes_toNat, ← inputBits_bytes, c.code_bytesValue, Nat.mul_add, inputBits_add, Nat.zero_add, ← hvalue,
    ← hlead, Nat.add_mul, Nat.add_assoc, hscaled, two_pow_eight_mul, Nat.add_mul, Nat.add_assoc, Nat.mul_right_comm]

end Sys2Proof.Machine
end

section
/-! SUPPORT, then O39 and O40. The serial Fpaq0 encoder commands (R306 to R308) on any sink: the leading bytes that a PUT writes,
and the output of a session. -/

namespace Sys2Proof.Machine

open Sys2Proof

/-! ### RenormE -/

/-- The engine after `n` passes of RenormE: the first `n` bytes of `high` are written and shifted out (R303). -/
def fpaq0Shifted (n : Nat) (e : Engine) : Engine :=
  (e.setSink (e.sink ++ ((wordBytesBE e.fpaq0Enc.high).take n).flatMap byteBits)).setFpaq0Enc
    ⟨lowShift^[n] e.fpaq0Enc.low, highShift^[n] e.fpaq0Enc.high⟩

theorem fpaq0Shifted_zero (e : Engine) : fpaq0Shifted 0 e = e := by
  simp [fpaq0Shifted, Engine.setSink, Engine.setFpaq0Enc]

/-- The engine after one pass of RenormE that wrote its byte, with `m` offers counted (R303). -/
def fpaq0PassedE (m : Nat) (e : Engine) : Engine :=
  ((e.setSink (e.sink ++ byteBits (topByte e.fpaq0Enc.high))).setOffers m).setFpaq0Enc
    ⟨lowShift e.fpaq0Enc.low, highShift e.fpaq0Enc.high⟩

/-- A pass, then the rest of the loop. -/
theorem fpaq0Shifted_passedE {n : Nat} (hn : n < 4) (m : Nat) {e : Engine}
    (h : topByte e.fpaq0Enc.low = topByte e.fpaq0Enc.high) :
    fpaq0Shifted (equalTops n (lowShift e.fpaq0Enc.low) (highShift e.fpaq0Enc.high)) (fpaq0PassedE m e) =
      (fpaq0Shifted (equalTops (n + 1) e.fpaq0Enc.low e.fpaq0Enc.high) e).setOffers m := by
  rw [fpaq0Shifted, fpaq0Shifted, take_equalTops_succ hn h, List.flatMap_cons, ← List.append_assoc, equalTops_of_eq n h]
  rfl

/-- RenormE writes the equal leading bytes and shifts them out (R303). -/
theorem fpaq0RenormE_written (p : Params) {n : Nat} (hn : n ≤ 4) (e : Engine) :
    Written p (fpaq0Shifted (equalTops n e.fpaq0Enc.low e.fpaq0Enc.high) e) (fpaq0RenormE p n e) := by
  induction n generalizing e with
  | zero =>
    rw [equalTops, fpaq0Shifted_zero]
    exact .done e.offers fun _ => rfl
  | succ n ih =>
    rw [fpaq0RenormE]
    split
    · next h =>
      refine (writeBits_written p (byteBits (topByte e.fpaq0Enc.high)) e).andThen rfl fun m => ?_
      have hrest := ih (by omega) (fpaq0PassedE m e)
      rw [← fpaq0Shifted_passedE (by omega) m h]
      exact hrest
    · next h =>
      rw [equalTops_of_ne _ h, fpaq0Shifted_zero]
      exact .done e.offers fun _ => rfl

/-! ### EncodeBit -/

theorem fpaq0EncodeBit_eq (b : Bool) (p : Byte) (r : Fpaq0Enc) :
    fpaq0EncodeBit b p r = ⟨cutLow b p r.low r.high, cutHigh b p r.low r.high⟩ := by
  cases b <;> rfl

/-- The engine with a bit coded: its leading bytes written, and the next interval (R301, R303). -/
def fpaq0Coded (b : Bool) (prob : Byte) (e : Engine) : Engine :=
  (e.setSink (e.sink ++ (outBytes b prob e.fpaq0Enc.low e.fpaq0Enc.high).flatMap byteBits)).setFpaq0Enc
    ⟨nextLow b prob e.fpaq0Enc.low e.fpaq0Enc.high, nextHigh b prob e.fpaq0Enc.low e.fpaq0Enc.high⟩

/-- EncodeBit and RenormE code the bit (R301, R303). -/
theorem fpaq0Encode_written (p : Params) (b : Bool) (prob : Byte) (e : Engine) :
    Written p (fpaq0Coded b prob e) (fpaq0Encode p b prob e) := by
  have h := fpaq0RenormE_written p (n := fpaq0Passes) le_rfl (e.setFpaq0Enc (fpaq0EncodeBit b prob e.fpaq0Enc))
  rw [fpaq0EncodeBit_eq] at h
  rw [fpaq0Encode, fpaq0EncodeBit_eq]
  exact h

/-! ### PUT and PUT_BYPASS -/

/-- PUT and PUT_BYPASS are one rule: EncodeBit and RenormE, then the update of the context, if any (R306, R307). -/
theorem fpaq0Put_body (y : CodedSym) (p : Params) (e : Engine) :
    instrBody (putInstr .fpaq0 y) p e = (fpaq0Encode p y.bit (symProb y.ctx e) e).andThen fun _ t =>
      .ok .none (symCtxSet y.ctx (probUpdate (symProb y.ctx e) y.bit) t) := by
  obtain ⟨b, ctx, l⟩ := y
  cases ctx <;> rfl

theorem checkCommand_fpaq0Put {p : Params} {e : Engine} {y : CodedSym} (henc : Encoding .fpaq0 e)
    (hc : ∀ c ∈ y.ctx, c < p.numCtx) :
    checkCommand p e (putInstr .fpaq0 y).family (putInstr .fpaq0 y).op (laneOperand (putInstr .fpaq0 y))
      (ctxOperand (putInstr .fpaq0 y)) = .ok := by
  obtain ⟨b, ctx, l⟩ := y
  cases ctx with
  | none => exact checkCommand_encoding (i := .fpaq0PutBypass b) (.inr (.inl rfl)) henc nofun nofun
  | some c => exact checkCommand_encoding (i := .fpaq0Put b c) (.inl rfl) henc nofun hc

/-- The engine of a PUT or PUT_BYPASS: its bit coded and its context updated (R306, R307). -/
def fpaq0Put (y : CodedSym) (e : Engine) : Engine :=
  (fpaq0Coded y.bit (symProb y.ctx e) e).setCtx (symCtxSet y.ctx (probUpdate (symProb y.ctx e) y.bit) e).ctx

/-- A PUT or PUT_BYPASS that goes on, on any sink. -/
theorem fpaq0Put_of_ok {p : Params} {y : CodedSym} {e u : Engine} {a : Reply}
    (hb : instrBody (putInstr .fpaq0 y) p e = .ok a u) : ∃ m, u = (fpaq0Put y e).setOffers m := by
  rw [fpaq0Put_body] at hb
  obtain ⟨_, t, ht, hb⟩ := andThen_eq_ok.mp hb
  have hw := fpaq0Encode_written p y.bit (symProb y.ctx e) e
  rw [ht] at hw
  cases hw with
  | done m h =>
    rw [symCtxSet_of_same_ctx (e := e) (t := (fpaq0Coded _ _ e).setOffers m) rfl rfl] at hb
    cases hb
    exact ⟨m, rfl⟩

/-- A PUT or PUT_BYPASS on an `InMemory` sink. -/
theorem fpaq0Put_inMemory (y : CodedSym) {p : Params} (hmem : p.sinkMode = .inMemory) (e : Engine) :
    instrBody (putInstr .fpaq0 y) p e = .ok .none (fpaq0Put y e) := by
  rw [fpaq0Put_body, (fpaq0Encode_written p y.bit (symProb y.ctx e) e).inMemory hmem, andThen_ok,
    symCtxSet_of_same_ctx (e := e) (t := fpaq0Coded _ _ e) rfl rfl]
  rfl

/-- The engine after a PUT or PUT_BYPASS that completes. -/
theorem completed_fpaq0Put (o : BitVec 4) (r : Reply) (y : CodedSym) (e : Engine) :
    let t := completeCmd o r (fpaq0Put y e)
    t.phase = e.phase ∧ t.fam = e.fam ∧
    t.sink = e.sink ++ (outBytes y.bit (symProb y.ctx e) e.fpaq0Enc.low e.fpaq0Enc.high).flatMap byteBits ∧
    t.fpaq0Enc.low = nextLow y.bit (symProb y.ctx e) e.fpaq0Enc.low e.fpaq0Enc.high ∧
    t.fpaq0Enc.high = nextHigh y.bit (symProb y.ctx e) e.fpaq0Enc.low e.fpaq0Enc.high ∧
    t.ctx = (symCtxSet y.ctx (probUpdate (symProb y.ctx e) y.bit) e).ctx := by
  simp [completeCmd_eq, fpaq0Put, fpaq0Coded]

/-- The leading bytes keep the sink at a byte boundary. -/
theorem sink_append_outBytes (sink : List Bool) (b : Bool) (p : Byte) (low high : Word) :
    (sink ++ (outBytes b p low high).flatMap byteBits).length = sink.length + 8 * cutBytes b p low high := by
  rw [List.length_append, flatMap_byteBits_length, outBytes_length]

/-- The number that the bits written spell, the leading bytes of a bit included. -/
theorem bitsValue_append_outBytes (sink : List Bool) (b : Bool) (p : Byte) (low high : Word) :
    bitsValue (sink ++ (outBytes b p low high).flatMap byteBits) =
      bitsValue sink * 256 ^ cutBytes b p low high +
        (cutHigh b p low high).toNat / 256 ^ (4 - cutBytes b p low high) := by
  rw [bitsValue_append, ← bytesValue_eq_bitsValue, bytesValue_outBytes, flatMap_byteBits_length, outBytes_length,
    two_pow_eight_mul]

/-- The next interval as numbers (R303). -/
theorem next_toNat (b : Bool) (p : Byte) (low high : Word) :
    (nextLow b p low high).toNat = (cutLow b p low high).toNat * 256 ^ cutBytes b p low high % 2 ^ 32 ∧
    (nextHigh b p low high).toNat =
      ((cutHigh b p low high).toNat * 256 ^ cutBytes b p low high + (256 ^ cutBytes b p low high - 1)) % 2 ^ 32 :=
  ⟨lowShift_iterate_toNat _ _, highShift_iterate_toNat _ _⟩

/-- Settles O39: the bit's part of the interval, its equal leading bytes, and the interval that shifting them out leaves. -/
theorem fpaq0PutExact : Obligations.Fpaq0PutExact := by
  intro s e b ctx he hinv hun henc hc p mid lo hi
  obtain ⟨hint, -⟩ := hinv.fpaq0Enc henc
  obtain ⟨hlo, hhi⟩ : (cutLow b p e.fpaq0Enc.low e.fpaq0Enc.high).toNat = lo ∧
      (cutHigh b p e.fpaq0Enc.low e.fpaq0Enc.high).toNat = hi := cut_toNat hint b p
  obtain ⟨hn, heq, -⟩ := cut_equalLeadingBytes b p e.fpaq0Enc.low e.fpaq0Enc.high
  obtain ⟨hlow, hhigh⟩ := next_toNat b p e.fpaq0Enc.low e.fpaq0Enc.high
  obtain ⟨hph, hfam, hsink, htlow, hthigh, hctx⟩ :=
    completed_fpaq0Put (opBits (putInstr .fpaq0 ⟨b, ctx, 0⟩).op) .none ⟨b, ctx, 0⟩ e
  have hp : symProb ctx e = p := rfl
  clear_value lo hi mid p
  subst hp hlo hhi
  refine ⟨_, cutBytes b (symProb ctx e) e.fpaq0Enc.low e.fpaq0Enc.high,
    completes_of_body he (checkCommand_fpaq0Put (y := ⟨b, ctx, 0⟩) henc hc) (fpaq0Put_inMemory _ hun.1 e),
    hph.trans henc.1, hn, heq, ?_⟩
  rw [hsink, htlow, hthigh]
  exact ⟨bitsValue_append_outBytes _ _ _ _ _, sink_append_outBytes _ _ _ _ _, hlow, hhigh,
    (next_intervalInv hint b _).2, ctxGet_of_symCtxSet hinv.ctx.1 hfam hctx⟩

/-! ### FINISH -/

/-- The serial coder: the bytes written, and the interval. -/
def fpaq0Coder (e : Engine) : Coder := ⟨completeBytes e.sink, e.fpaq0Enc.low, e.fpaq0Enc.high⟩

/-- The engine of FINISH on an `InMemory` sink: `low` written (R308). -/
def fpaq0Finished (e : Engine) : Engine :=
  (e.setSink (e.sink ++ (wordBytesBE e.fpaq0Enc.low).flatMap byteBits)).setPhase .finished

theorem checkCommand_fpaq0Finish {p : Params} {e : Engine} (henc : Encoding .fpaq0 e) :
    checkCommand p e (Instr.fpaq0Finish).family (Instr.fpaq0Finish).op (laneOperand .fpaq0Finish)
      (ctxOperand .fpaq0Finish) = .ok :=
  checkCommand_encoding (i := .fpaq0Finish) (.inr (.inr (.inr rfl))) henc nofun nofun

theorem fpaq0Finished_output {e : Engine} (hfam : e.fam = .fpaq0) (haligned : e.sink.length % 8 = 0) :
    (fpaq0Finished e).output = (fpaq0Coder e).output := by
  have hout : (fpaq0Finished e).output = completeBytes (fpaq0Finished e).sink := by
    simp only [Engine.output, fpaq0Finished, Engine.setPhase_fam, Engine.setSink_fam, hfam]
  rw [hout, fpaq0Finished, Engine.setPhase_sink, Engine.setSink_sink, completeBytes_append _ haligned,
    completeBytes_flatMap]
  rfl

/-- FINISH on an `InMemory` sink at a byte boundary: a SinkClose that pads nothing follows the four bytes (R308). -/
theorem fpaq0FinishBody_inMemory {p : Params} {e : Engine} (hmem : p.sinkMode = .inMemory) (hfam : e.fam = .fpaq0)
    (haligned : e.sink.length % 8 = 0) :
    fpaq0FinishBody p e = .ok (.ofOut (fpaq0Coder e).output) (fpaq0Finished e) := by
  have hlen : (e.sink ++ (wordBytesBE e.fpaq0Enc.low).flatMap byteBits).length = e.sink.length + 32 := List.length_append
  have hpad : (8 - (e.sink ++ (wordBytesBE e.fpaq0Enc.low).flatMap byteBits).length % 8) % 8 = 0 := by omega
  have hend : fpaq0FinishBody p e =
      finishSession (e.setSink (e.sink ++ (wordBytesBE e.fpaq0Enc.low).flatMap byteBits)) := by
    rw [fpaq0FinishBody, writeBytes_inMemory hmem, andThen_ok, sinkClose_inMemory hmem, andThen_ok, Engine.setSink_sink, hpad,
      List.replicate_zero, List.append_nil]
    rfl
  rw [hend, finishSession_eq, ← fpaq0Finished_output hfam haligned]
  rfl

theorem writeBits_append (p : Params) (xs ys : List Bool) (e : Engine) :
    writeBits p (xs ++ ys) e = (writeBits p xs e).andThen fun _ t => writeBits p ys t := by
  induction xs generalizing e with
  | nil => rfl
  | cons x xs ih => simp only [List.cons_append, writeBits, andThen_assoc, ih]

/-- Bits that complete no byte are not offered (R73). -/
theorem writeBits_partial (p : Params) {bs : List Bool} {e : Engine} (h : e.sink.length % 8 + bs.length < 8) :
    writeBits p bs e = .ok () (e.setSink (e.sink ++ bs)) := by
  induction bs generalizing e with
  | nil => simp [writeBits, Engine.setSink]
  | cons b bs ih =>
    rw [List.length_cons] at h
    have hlen : (e.sink ++ [b]).length = e.sink.length + 1 := List.length_append
    have hbit : writeBit p b e = .ok () (e.setSink (e.sink ++ [b])) := by
      rw [writeBit]
      exact if_neg (by rw [Engine.setSink_sink]; omega)
    rw [writeBits, hbit, andThen_ok, ih (by rw [Engine.setSink_sink]; omega), Engine.setSink_sink, List.append_assoc]
    rfl

/-- A byte at a byte boundary is offered once, and an `External` sink whose environment refuses the offer raises
OUTPUT_FAILURE (R74, R82). -/
theorem writeByte_refused {p : Params} {e : Engine} (hext : p.sinkMode = .external) (haligned : e.sink.length % 8 = 0)
    (hno : Config.sinkAccepts e.id e.offers = false) (v : Byte) :
    ∃ t, writeByte p v e = .raised .outputFailure t ∧ t.offers = e.offers + 1 := by
  have hsplit : byteBits v = (byteBits v).take 7 ++ [v.getLsbD 0] := rfl
  have hseven : ((byteBits v).take 7).length = 7 := rfl
  have hlen : (e.sink ++ (byteBits v).take 7 ++ [v.getLsbD 0]).length = e.sink.length + 8 := by
    rw [List.length_append, List.length_append, hseven]
    rfl
  have hlast : ∀ t : Engine, t.id = e.id → t.offers = e.offers → t.sink = e.sink ++ (byteBits v).take 7 →
      ∃ u, writeBit p (v.getLsbD 0) t = .raised .outputFailure u ∧ u.offers = e.offers + 1 := fun t hid hoff hsink => by
    have hbit : writeBit p (v.getLsbD 0) t = offerByte p (t.setSink (t.sink ++ [v.getLsbD 0])) := by
      rw [writeBit]
      exact if_pos (by rw [Engine.setSink_sink, hsink, hlen]; omega)
    refine ⟨(t.setSink (t.sink ++ [v.getLsbD 0])).setOffers (t.offers + 1), ?_, by rw [Engine.setOffers_offers, hoff]⟩
    rw [hbit, offerByte_external hext, Engine.setSink_id, Engine.setSink_offers, hid, hoff, hno]
    rfl
  obtain ⟨u, hu, hoff⟩ := hlast (e.setSink (e.sink ++ (byteBits v).take 7)) rfl rfl rfl
  refine ⟨u, ?_, hoff⟩
  rw [writeByte, hsplit, writeBits_append, writeBits_partial p (by rw [hseven]; omega), andThen_ok, writeBits, hu,
    andThen_raised]

/-- FINISH whose first offer an `External` sink's environment refuses (R82, R308). -/
theorem fpaq0FinishBody_refused {p : Params} {e : Engine} (hext : p.sinkMode = .external)
    (haligned : e.sink.length % 8 = 0) (hno : Config.sinkAccepts e.id e.offers = false) :
    ∃ t, fpaq0FinishBody p e = .raised .outputFailure t ∧ t.offers = e.offers + 1 := by
  obtain ⟨t, ht, hoff⟩ := writeByte_refused hext haligned hno (byteAt e.fpaq0Enc.low 3)
  refine ⟨t, ?_, hoff⟩
  rw [fpaq0FinishBody, wordBytesBE, writeBytes, ht]
  rfl

/-- The output of a coder: its length, the bytes put out before, and the flush (R308). -/
theorem Coder.output_parts (c : Coder) : c.output.length = c.bytes.length + 4 ∧ c.output.take c.bytes.length = c.bytes ∧
    bytesValue (c.output.drop c.bytes.length) = c.low.toNat := by
  refine ⟨List.length_append, List.take_left' rfl, ?_⟩
  have hword := bytesValue_take_wordBytesBE c.low (n := 4) le_rfl
  rw [Coder.output, List.drop_left' rfl]
  exact hword.trans (Nat.div_one _)

/-- Settles O40: the output is the coder's, and the first offer of an `External` sink decides. -/
theorem fpaq0FinishOutput : Obligations.Fpaq0FinishOutput := by
  intro s e he hinv henc
  obtain ⟨-, haligned⟩ := hinv.fpaq0Enc henc
  have hcheck := checkCommand_fpaq0Finish (p := s.params) henc
  refine ⟨fun hmem => ?_, fun hext => ?_⟩
  · obtain ⟨hlen, htake, hdrop⟩ := (fpaq0Coder e).output_parts
    obtain ⟨hbytes, -⟩ := completeBytes_spells haligned
    have hcount : (fpaq0Coder e).bytes.length = e.sink.length / 8 := by
      show (completeBytes e.sink).length = _
      omega
    rw [hcount] at hlen htake hdrop
    exact ⟨_, _, completes_of_body he hcheck (fpaq0FinishBody_inMemory hmem henc.2 haligned), rfl,
      congrArg some (fpaq0Finished_output henc.2 haligned), rfl, hlen, htake, hdrop⟩
  · by_cases hyes : Config.sinkAccepts e.id e.offers = true
    · exact ⟨_, exec_eq_commandEffect he _, fun hno => absurd (hno.symm.trans hyes) Bool.false_ne_true⟩
    · obtain ⟨t, ht, hoff⟩ := fpaq0FinishBody_refused hext haligned (Bool.eq_false_of_not_eq_true hyes)
      have hraises := raises_of_body (i := .fpaq0Finish) he hcheck ht
      exact ⟨_, hraises.1, fun _ => ⟨hraises, hoff⟩⟩

end Sys2Proof.Machine
end

section
/-! SUPPORT, then O41. The serial Fpaq0 decoder commands (R316 to R318): the bit of the comparison, and the bytes of the refill. -/

namespace Sys2Proof.Machine

open Sys2Proof

/-! ### The refill loop -/

/-- At a byte boundary the input holds one byte more where it holds one and then the rest (R77, R78). -/
theorem inputLeft_bytes_succ {e : Engine} {n : Nat} (haligned : e.bitpos % 8 = 0) :
    InputLeft e (8 * (n + 1)) ↔
      (e.bitpos / 8 < e.src.length ∨ e.eof = false) ∧ InputLeft (e.setBitpos (e.bitpos + 8)) (8 * n) := by
  simp only [InputLeft, Engine.setBitpos_bitpos, Engine.setBitpos_src, Engine.setBitpos_eof]
  cases e.eof with
  | false => simp
  | true =>
    simp only [Bool.true_eq_false, or_false, false_or]
    omega

/-- The engine after `n` passes of the refill loop that have their bytes (R316). -/
def fpaq0Refilled (n : Nat) (e : Engine) : Engine :=
  (e.setBitpos (e.bitpos + 8 * n)).setFpaq0Dec
    ⟨lowShift^[n] e.fpaq0Dec.low, highShift^[n] e.fpaq0Dec.high,
      shiftInBytes (fun j => e.src.getD j 0) (e.bitpos / 8) n e.fpaq0Dec.value⟩

theorem fpaq0Refilled_zero (e : Engine) : fpaq0Refilled 0 e = e := rfl

/-- A pass, then `n` more. -/
theorem fpaq0Refilled_one (n : Nat) (e : Engine) : fpaq0Refilled n (fpaq0Refilled 1 e) = fpaq0Refilled (n + 1) e := by
  have hpos : e.bitpos + 8 * (n + 1) = e.bitpos + 8 + 8 * n := by omega
  have hbyte : (e.bitpos + 8) / 8 = e.bitpos / 8 + 1 := by omega
  have hone : (fpaq0Refilled 1 e).bitpos = e.bitpos + 8 := rfl
  rw [fpaq0Refilled, hone, hbyte, fpaq0Refilled.eq_1 (n + 1), hpos]
  rfl

theorem fpaq0RenormD_of_ne (n : Nat) {e : Engine} (h : topByte e.fpaq0Dec.low ≠ topByte e.fpaq0Dec.high) :
    fpaq0RenormD n e = .ok () e := by
  cases n with
  | zero => rfl
  | succ n => rw [fpaq0RenormD, if_neg h]

/-- A pass that has its byte, then the rest of the loop. -/
theorem fpaq0RenormD_of_eq (n : Nat) {e : Engine} (h : topByte e.fpaq0Dec.low = topByte e.fpaq0Dec.high)
    (haligned : e.bitpos % 8 = 0) (hleft : e.bitpos / 8 < e.src.length ∨ e.eof = false) :
    fpaq0RenormD (n + 1) e = fpaq0RenormD n (fpaq0Refilled 1 e) := by
  have hpos : e.bitpos = 8 * (e.bitpos / 8) := by omega
  have hnext : 8 * (e.bitpos / 8 + 1) = e.bitpos + 8 := by omega
  have hread := readByte_aligned (k := e.bitpos / 8) (e := e.setFpaq0Dec
    { e.fpaq0Dec with low := lowShift e.fpaq0Dec.low, high := highShift e.fpaq0Dec.high }) hpos hleft
  rw [fpaq0RenormD, if_pos h, hread, andThen_ok, hnext]
  rfl

/-- The refill loop takes as many bytes as the ends have equal leading ones, or raises INPUT_EXHAUSTED (R316, R353). -/
theorem fpaq0RenormD_cases (n : Nat) {e : Engine} (haligned : e.bitpos % 8 = 0) :
    (InputLeft e (8 * equalTops n e.fpaq0Dec.low e.fpaq0Dec.high) →
      fpaq0RenormD n e = .ok () (fpaq0Refilled (equalTops n e.fpaq0Dec.low e.fpaq0Dec.high) e)) ∧
    (¬InputLeft e (8 * equalTops n e.fpaq0Dec.low e.fpaq0Dec.high) →
      ∃ t, fpaq0RenormD n e = .raised .inputExhausted t) := by
  induction n generalizing e with
  | zero => exact ⟨fun _ => rfl, fun h => absurd (.inl rfl) h⟩
  | succ n ih =>
    by_cases h : topByte e.fpaq0Dec.low = topByte e.fpaq0Dec.high
    · rw [equalTops_of_eq n h, inputLeft_bytes_succ haligned, ← fpaq0Refilled_one]
      by_cases hleft : e.bitpos / 8 < e.src.length ∨ e.eof = false
      · obtain ⟨hok, hraise⟩ := ih (e := fpaq0Refilled 1 e) (by show (e.bitpos + 8 * 1) % 8 = 0; omega)
        rw [fpaq0RenormD_of_eq n h haligned hleft]
        exact ⟨fun hin => hok hin.2, fun hnone => hraise fun hin => hnone ⟨hleft, hin⟩⟩
      · obtain ⟨hend, heof⟩ := not_or.mp hleft
        have hread := readByte_exhausted (e := e.setFpaq0Dec
          { e.fpaq0Dec with low := lowShift e.fpaq0Dec.low, high := highShift e.fpaq0Dec.high })
          (show 8 * e.src.length ≤ e.bitpos by omega) (Bool.eq_true_of_not_eq_false heof)
        rw [fpaq0RenormD, if_pos h, hread, andThen_raised]
        exact ⟨fun hin => absurd hin.1 hleft, fun _ => ⟨_, rfl⟩⟩
    · rw [equalTops_of_ne _ h, fpaq0RenormD_of_ne _ h, fpaq0Refilled_zero]
      exact ⟨fun _ => rfl, fun h => absurd (.inl rfl) h⟩

/-! ### DecodeBit -/

/-- The bit of the comparison with `Mid` (R316, R331). -/
def midBit (prob : Byte) (low high value : Word) : Bool := decide ((fpaq0Mid low high prob).toNat < value.toNat)

theorem fpaq0DecodeInterval_eq (prob : Byte) (r : Fpaq0Dec) :
    let b := midBit prob r.low r.high r.value
    fpaq0DecodeInterval prob r = (b, ⟨cutLow b prob r.low r.high, cutHigh b prob r.low r.high, r.value⟩) := by
  intro b
  have hb : b = decide ((fpaq0Mid r.low r.high prob).toNat < r.value.toNat) := rfl
  unfold fpaq0DecodeInterval
  dsimp only
  split
  · next hle =>
    rw [hb, decide_eq_false (Nat.not_lt.mpr hle)]
    rfl
  · next hgt =>
    rw [hb, decide_eq_true (Nat.not_le.mp hgt)]
    rfl

/-- The engine with `b` decoded: the bit's part of the interval, and its refill (R316). -/
def fpaq0Decoded (b : Bool) (prob : Byte) (e : Engine) : Engine :=
  (e.setBitpos (e.bitpos + 8 * cutBytes b prob e.fpaq0Dec.low e.fpaq0Dec.high)).setFpaq0Dec
    ⟨nextLow b prob e.fpaq0Dec.low e.fpaq0Dec.high, nextHigh b prob e.fpaq0Dec.low e.fpaq0Dec.high,
      shiftInBytes (fun j => e.src.getD j 0) (e.bitpos / 8) (cutBytes b prob e.fpaq0Dec.low e.fpaq0Dec.high)
        e.fpaq0Dec.value⟩

/-- DecodeBit gives the bit of the comparison and refills, or raises INPUT_EXHAUSTED (R316). -/
theorem fpaq0DecodeBit_cases {prob : Byte} {e : Engine} {b : Bool}
    (hb : midBit prob e.fpaq0Dec.low e.fpaq0Dec.high e.fpaq0Dec.value = b) (haligned : e.bitpos % 8 = 0) :
    (InputLeft e (8 * cutBytes b prob e.fpaq0Dec.low e.fpaq0Dec.high) →
      fpaq0DecodeBit prob e = .ok b (fpaq0Decoded b prob e)) ∧
    (¬InputLeft e (8 * cutBytes b prob e.fpaq0Dec.low e.fpaq0Dec.high) →
      ∃ t, fpaq0DecodeBit prob e = .raised .inputExhausted t) := by
  have hcut := fpaq0DecodeInterval_eq prob e.fpaq0Dec
  rw [hb] at hcut
  obtain ⟨hok, hraise⟩ := fpaq0RenormD_cases fpaq0Passes (e := e.setFpaq0Dec
    ⟨cutLow b prob e.fpaq0Dec.low e.fpaq0Dec.high, cutHigh b prob e.fpaq0Dec.low e.fpaq0Dec.high, e.fpaq0Dec.value⟩)
    haligned
  rw [fpaq0DecodeBit, hcut]
  refine ⟨fun hleft => ?_, fun hnone => ?_⟩
  · exact andThen_eq_ok.mpr ⟨(), _, hok hleft, rfl⟩
  · obtain ⟨t, ht⟩ := hraise hnone
    exact ⟨t, andThen_eq_raised.mpr (.inl ht)⟩

/-! ### GET and GET_BYPASS -/

/-- GET and GET_BYPASS are one rule: DecodeBit, then the update of the context, if any (R317, R318). -/
theorem fpaq0Get_body (y : CodedSym) (p : Params) (e : Engine) :
    instrBody (getInstr .fpaq0 y) p e = (fpaq0DecodeBit (symProb y.ctx e) e).andThen fun b t =>
      .ok (.ofBit b) (symCtxSet y.ctx (probUpdate (symProb y.ctx e) b) t) := by
  obtain ⟨b, ctx, l⟩ := y
  cases ctx <;> rfl

theorem checkCommand_fpaq0Get {p : Params} {e : Engine} {y : CodedSym} (hdec : Decoding .fpaq0 e)
    (hc : ∀ c ∈ y.ctx, c < p.numCtx) :
    checkCommand p e (getInstr .fpaq0 y).family (getInstr .fpaq0 y).op (laneOperand (getInstr .fpaq0 y))
      (ctxOperand (getInstr .fpaq0 y)) = .ok := by
  obtain ⟨b, ctx, l⟩ := y
  cases ctx with
  | none => exact checkCommand_decoding (i := .fpaq0GetBypass) (.inr (.inl rfl)) hdec nofun nofun
  | some c => exact checkCommand_decoding (i := .fpaq0Get c) (.inl rfl) hdec nofun hc

/-- The engine of a GET or GET_BYPASS that decodes `bit` (R317, R318). -/
def fpaq0Got (ctx : Option Nat) (bit : Bool) (e : Engine) : Engine :=
  (fpaq0Decoded bit (symProb ctx e) e).setCtx (symCtxSet ctx (probUpdate (symProb ctx e) bit) e).ctx

/-- GET and GET_BYPASS decode the bit of the comparison, or raise INPUT_EXHAUSTED (R317, R318). -/
theorem fpaq0Get_cases (y : CodedSym) (p : Params) {e : Engine} {bit : Bool} (haligned : e.bitpos % 8 = 0)
    (hbit : midBit (symProb y.ctx e) e.fpaq0Dec.low e.fpaq0Dec.high e.fpaq0Dec.value = bit) :
    (InputLeft e (8 * cutBytes bit (symProb y.ctx e) e.fpaq0Dec.low e.fpaq0Dec.high) →
      instrBody (getInstr .fpaq0 y) p e = .ok (.ofBit bit) (fpaq0Got y.ctx bit e)) ∧
    (¬InputLeft e (8 * cutBytes bit (symProb y.ctx e) e.fpaq0Dec.low e.fpaq0Dec.high) →
      ∃ t, instrBody (getInstr .fpaq0 y) p e = .raised .inputExhausted t) := by
  obtain ⟨hok, hraise⟩ := fpaq0DecodeBit_cases hbit haligned
  rw [fpaq0Get_body]
  refine ⟨fun hleft => ?_, fun hnone => ?_⟩
  · rw [hok hleft, andThen_ok, symCtxSet_of_same_ctx (e := e) (t := fpaq0Decoded _ _ e) rfl rfl]
    rfl
  · obtain ⟨t, ht⟩ := hraise hnone
    exact ⟨t, by rw [ht, andThen_raised]⟩

/-- The engine after a GET or GET_BYPASS that completes. -/
theorem completed_fpaq0Got (o : BitVec 4) (r : Reply) (ctx : Option Nat) (bit : Bool) (e : Engine) :
    let t := completeCmd o r (fpaq0Got ctx bit e)
    let n := cutBytes bit (symProb ctx e) e.fpaq0Dec.low e.fpaq0Dec.high
    t.phase = e.phase ∧ t.fam = e.fam ∧ t.src = e.src ∧ t.bitpos = e.bitpos + 8 * n ∧
    t.fpaq0Dec.low = nextLow bit (symProb ctx e) e.fpaq0Dec.low e.fpaq0Dec.high ∧
    t.fpaq0Dec.high = nextHigh bit (symProb ctx e) e.fpaq0Dec.low e.fpaq0Dec.high ∧
    t.fpaq0Dec.value = shiftInBytes (fun j => e.src.getD j 0) (e.bitpos / 8) n e.fpaq0Dec.value ∧
    t.ctx = (symCtxSet ctx (probUpdate (symProb ctx e) bit) e).ctx := by
  simp [completeCmd_eq, fpaq0Got, fpaq0Decoded]

/-- Settles O41: the bit of the comparison selects its part of the interval, and the refill takes as many bytes as the part has
equal leading ones. -/
theorem fpaq0GetResult : Obligations.Fpaq0GetResult := by
  intro s e ctx he hinv hdec hc p mid bit lo hi
  obtain ⟨hint, haligned⟩ := hinv.fpaq0Dec hdec
  obtain ⟨hlo, hhi⟩ : (cutLow bit p e.fpaq0Dec.low e.fpaq0Dec.high).toNat = lo ∧
      (cutHigh bit p e.fpaq0Dec.low e.fpaq0Dec.high).toNat = hi := cut_toNat hint bit p
  have heq := cut_equalLeadingBytes bit p e.fpaq0Dec.low e.fpaq0Dec.high
  obtain ⟨hlow, hhigh⟩ := next_toNat bit p e.fpaq0Dec.low e.fpaq0Dec.high
  have hp : symProb ctx e = p := rfl
  have hbit : midBit p e.fpaq0Dec.low e.fpaq0Dec.high e.fpaq0Dec.value = bit := rfl
  have hcheck := checkCommand_fpaq0Get (y := ⟨bit, ctx, 0⟩) hdec hc
  clear_value lo hi bit mid p
  subst hp hlo hhi
  obtain ⟨hok, hraise⟩ := fpaq0Get_cases ⟨bit, ctx, 0⟩ s.params haligned hbit
  obtain ⟨hph, hfam, -, hpos, htlow, hthigh, htvalue, hctx⟩ :=
    completed_fpaq0Got (opBits (getInstr .fpaq0 ⟨bit, ctx, 0⟩).op) (.ofBit bit) ctx bit e
  refine ⟨cutBytes bit (symProb ctx e) e.fpaq0Dec.low e.fpaq0Dec.high, heq, ?_⟩
  split
  · next hleft =>
    refine ⟨_, completes_of_body he hcheck (hok hleft), hph.trans hdec.1, ?_⟩
    rw [htlow, hthigh, htvalue]
    refine ⟨hlow, hhigh, (next_intervalInv hint bit _).2, ?_, hpos, ctxGet_of_symCtxSet hinv.ctx.1 hfam hctx⟩
    have hbyte : 8 * (e.bitpos / 8) = e.bitpos := by omega
    rw [shiftInBytes_toNat, ← inputBits_bytes, hbyte]
  · next hnone =>
    obtain ⟨t, ht⟩ := hraise hnone
    exact ⟨_, raises_of_body he hcheck ht⟩

end Sys2Proof.Machine
end

section
/-! SUPPORT, then O53. Serial Fpaq0 sessions along a run (R304): the interval of either direction, and its stream. -/

namespace Sys2Proof.Machine

open Sys2Proof

/-- A PUT or PUT_BYPASS that goes on keeps the interval and the byte boundary, on any sink (R304). -/
theorem fpaq0Enc_kept {p : Params} {y : CodedSym} {e t : Engine} {a : Reply}
    (h : IntervalInv e.fpaq0Enc.low e.fpaq0Enc.high ∧ e.sink.length % 8 = 0)
    (hb : instrBody (putInstr .fpaq0 y) p e = .ok a t) :
    IntervalInv t.fpaq0Enc.low t.fpaq0Enc.high ∧ t.sink.length % 8 = 0 := by
  obtain ⟨hint, haligned⟩ := h
  obtain ⟨m, rfl⟩ := fpaq0Put_of_ok hb
  refine ⟨next_intervalInv hint y.bit (symProb y.ctx e), ?_⟩
  show (e.sink ++ (outBytes y.bit (symProb y.ctx e) e.fpaq0Enc.low e.fpaq0Enc.high).flatMap byteBits).length % 8 = 0
  rw [sink_append_outBytes]
  omega

/-- A serial Fpaq0 command after which an encoder session is open leaves a good interval, on any sink. -/
theorem fpaq0Enc_command {p : Params} {e t : Engine} {i : Instr} {a : Reply} (hf : i.family = .fpaq0)
    (hl : legalNow e i.family i.op = true)
    (h : Encoding .fpaq0 e → IntervalInv e.fpaq0Enc.low e.fpaq0Enc.high ∧ e.sink.length % 8 = 0)
    (hb : instrBody i p e = .ok a t) (ht : t.phase = .enc) :
    IntervalInv t.fpaq0Enc.low t.fpaq0Enc.high ∧ t.sink.length % 8 = 0 := by
  rcases encoding_cases hl hb ht with hop | ⟨henc, hop⟩
  · cases i with
    | fpaq0OpenEnc =>
      cases hb
      exact ⟨Coder.start_good, rfl⟩
    | _ => cases hf <;> cases hop
  · rw [hf] at henc
    have hinv := h henc
    rcases hop with hop | hop | hop | ⟨m, rfl⟩
    · cases i with
      | fpaq0Put b c => exact fpaq0Enc_kept (y := ⟨b, some c, 0⟩) hinv hb
      | _ => cases hf <;> cases hop
    · cases i with
      | fpaq0PutBypass b => exact fpaq0Enc_kept (y := ⟨b, none, 0⟩) hinv hb
      | _ => cases hf <;> cases hop
    · cases i <;> cases hf <;> cases hop
    · exact hinv

/-- A GET or GET_BYPASS that goes on keeps the interval and the byte boundary (R304, R316). -/
theorem fpaq0Dec_kept {p : Params} {y : CodedSym} {e t : Engine} {a : Reply}
    (h : IntervalInv e.fpaq0Dec.low e.fpaq0Dec.high ∧ e.bitpos % 8 = 0)
    (hb : instrBody (getInstr .fpaq0 y) p e = .ok a t) :
    IntervalInv t.fpaq0Dec.low t.fpaq0Dec.high ∧ t.bitpos % 8 = 0 := by
  obtain ⟨hint, haligned⟩ := h
  obtain ⟨hok, hraise⟩ := fpaq0Get_cases y p haligned rfl
  generalize midBit (symProb y.ctx e) e.fpaq0Dec.low e.fpaq0Dec.high e.fpaq0Dec.value = bit at hok hraise
  by_cases hleft : InputLeft e (8 * cutBytes bit (symProb y.ctx e) e.fpaq0Dec.low e.fpaq0Dec.high)
  · obtain ⟨-, rfl⟩ : _ ∧ t = _ := by simpa using hb.symm.trans (hok hleft)
    refine ⟨next_intervalInv hint bit (symProb y.ctx e), ?_⟩
    show (e.bitpos + 8 * _) % 8 = 0
    omega
  · obtain ⟨u, hu⟩ := hraise hleft
    cases hb.symm.trans hu

/-- The seeding of a serial Fpaq0 decoder moves the cursor by whole bytes and leaves the interval as it is (R314). -/
theorem fpaq0Seed_kept {n : Nat} {e t : Engine} (h : fpaq0Seed n e = .ok () t) :
    t.bitpos = e.bitpos + 8 * n ∧ t.fpaq0Dec.low = e.fpaq0Dec.low ∧ t.fpaq0Dec.high = e.fpaq0Dec.high := by
  induction n generalizing e with
  | zero => cases h; exact ⟨rfl, rfl, rfl⟩
  | succ n ih =>
    obtain ⟨v, e₁, hr, h⟩ := andThen_eq_ok.mp h
    obtain ⟨hpos, hlow, hhigh⟩ := ih h
    have hpos₁ := readByte_bitpos hr
    have hframe := readByte_frame e
    rw [hr] at hframe
    obtain ⟨m, he₁⟩ := hframe
    rw [Res.engine_ok] at he₁
    rw [Engine.setFpaq0Dec_bitpos] at hpos
    exact ⟨by omega, hlow.trans (by rw [he₁]; rfl), hhigh.trans (by rw [he₁]; rfl)⟩

/-- A serial Fpaq0 command after which a decoder session is open leaves a good interval. -/
theorem fpaq0Dec_command {p : Params} {e t : Engine} {i : Instr} {a : Reply} (hf : i.family = .fpaq0)
    (hl : legalNow e i.family i.op = true)
    (h : Decoding .fpaq0 e → IntervalInv e.fpaq0Dec.low e.fpaq0Dec.high ∧ e.bitpos % 8 = 0)
    (hb : instrBody i p e = .ok a t) (ht : t.phase = .dec) :
    IntervalInv t.fpaq0Dec.low t.fpaq0Dec.high ∧ t.bitpos % 8 = 0 := by
  rcases decoding_cases hl hb ht with hop | ⟨hdec, hop⟩
  · cases i with
    | fpaq0OpenDec eof =>
      obtain ⟨_, e₁, hs, hb⟩ := andThen_eq_ok.mp hb
      obtain ⟨hpos, hlow, hhigh⟩ := fpaq0Seed_kept hs
      cases hb
      rw [hpos, hlow, hhigh]
      exact ⟨Coder.start_good, (by decide : (0 + 8 * 4) % 8 = 0)⟩
    | _ => cases hf <;> cases hop
  · rw [hf] at hdec
    have hinv := h hdec
    rcases hop with hop | hop | hop | ⟨m, rfl⟩
    · cases i with
      | fpaq0Get c => exact fpaq0Dec_kept (y := ⟨false, some c, 0⟩) hinv hb
      | _ => cases hf <;> cases hop
    · cases i with
      | fpaq0GetBypass => exact fpaq0Dec_kept (y := ⟨false, none, 0⟩) hinv hb
      | _ => cases hf <;> cases hop
    · cases i <;> cases hf <;> cases hop
    · exact hinv

/-- Settles O53: an OPEN starts with the whole interval, PUT and GET renormalize the part that they select by whole bytes, and
no other command of an open session touches the registers. -/
theorem stepKeepsFpaq0 : Obligations.StepKeepsFpaq0 := by
  intro s t hs h
  refine step_keeps
    (P := fun _ e => (Encoding .fpaq0 e → IntervalInv e.fpaq0Enc.low e.fpaq0Enc.high ∧ e.sink.length % 8 = 0) ∧
      (Decoding .fpaq0 e → IntervalInv e.fpaq0Dec.low e.fpaq0Dec.high ∧ e.bitpos % 8 = 0))
    (Q := fun _ e => (Encoding .fpaq0 e → IntervalInv e.fpaq0Enc.low e.fpaq0Enc.high ∧ e.sink.length % 8 = 0) ∧
      (Decoding .fpaq0 e → IntervalInv e.fpaq0Dec.low e.fpaq0Dec.high ∧ e.bitpos % 8 = 0))
    (fun _ _ h => h) (fun _ _ _ h => h) (fun _ _ _ _ _ _ => ⟨(nomatch ·.1), (nomatch ·.1)⟩) ?_ hs h
  rintro p e i - hc ⟨henc, hdec⟩
  obtain ⟨hl, -, -⟩ := checkCommand_eq_ok.mp hc
  refine ⟨fun ⟨hph, hfam⟩ => ?_, fun ⟨hph, hfam⟩ => ?_⟩
  · obtain ⟨hf, a, t, hb, hs⟩ := settle_open hc hfam (by rw [hph]; nofun)
    rw [hs] at hph ⊢
    have hinv := fpaq0Enc_command hf hl henc hb hph
    exact hinv
  · obtain ⟨hf, a, t, hb, hs⟩ := settle_open hc hfam (by rw [hph]; nofun)
    rw [hs] at hph ⊢
    have hinv := fpaq0Dec_command hf hl hdec hb hph
    exact hinv

end Sys2Proof.Machine
end

section
/-! SUPPORT. A run of symbols coded and then decoded: what one symbol does to a session and to a decoder that follows it, carried
along the run. -/

namespace Sys2Proof.Machine

open Sys2Proof

/-- What the coding and decoding of a symbol does: the session stays open, an input that fits it afterwards has fitted it before,
and a decoder of such an input that follows the session gives the symbol's bit back and follows on (R401). -/
structure SymFollows (f : Family) (p : Params) (Open : Engine → Prop) (Fits : Engine → List Byte → Prop)
    (Follows : Engine → Engine → Prop) (y : CodedSym) (e : Engine) : Prop where
  stays : Open (commandEffect p (putInstr f y) e)
  narrows : ∀ src, Fits (commandEffect p (putInstr f y) e) src → Fits e src
  decoded : ∀ d, Follows e d → Fits (commandEffect p (putInstr f y) e) d.src →
    Follows (commandEffect p (putInstr f y) e) (commandEffect p (getInstr f y) d) ∧
    (commandEffect p (getInstr f y) d).src = d.src ∧
    (commandEffect p (getInstr f y) d).responses = getResponse y :: d.responses

/-- A run of symbols: the decoder gives all of them back and follows the session to the end. -/
theorem run_follows {f : Family} {p : Params} {Open : Engine → Prop} {Fits : Engine → List Byte → Prop}
    {Follows : Engine → Engine → Prop} {syms : List CodedSym}
    (hsym : ∀ y ∈ syms, ∀ e, Open e → SymFollows f p Open Fits Follows y e) {e : Engine} (h : Open e) :
    let t := runEngine p (syms.map (putInstr f)) e
    Open t ∧ (∀ src, Fits t src → Fits e src) ∧
    ∀ d, Follows e d → Fits t d.src →
      let v := runEngine p (syms.map (getInstr f)) d
      Follows t v ∧ v.responses = (syms.map getResponse).reverse ++ d.responses := by
  induction syms generalizing e with
  | nil => exact ⟨h, fun _ h => h, fun d hd _ => ⟨hd, rfl⟩⟩
  | cons y syms ih =>
    obtain ⟨hy, hsyms⟩ := List.forall_mem_cons.mp hsym
    obtain ⟨hstays, hnarrows, hdecoded⟩ := hy e h
    obtain ⟨hopen, hfits, hrun⟩ := ih hsyms hstays
    refine ⟨hopen, fun src hsrc => hnarrows src (hfits src hsrc), fun d hd hsrc => ?_⟩
    obtain ⟨hfol, hsame, hresp⟩ := hdecoded d hd (hfits _ hsrc)
    obtain ⟨hfol', hresp'⟩ := hrun _ hfol (by rw [hsame]; exact hsrc)
    refine ⟨hfol', ?_⟩
    rw [List.map_cons, runEngine_cons, hresp', hresp, List.map_cons, List.reverse_cons, List.append_assoc,
      List.singleton_append]

end Sys2Proof.Machine
end

section
/-! SUPPORT, then O56. Serial Fpaq0 sessions round-trip (R315, R319): the output spells a number in every interval of the
session, and the decoder follows the coder on it. -/

namespace Sys2Proof.Machine

open Sys2Proof

/-- An open serial Fpaq0 encoder session with a good interval and its sink at a byte boundary. -/
structure Fpaq0Open (e : Engine) : Prop where
  encoding : Encoding .fpaq0 e
  good : (fpaq0Coder e).Good
  aligned : e.sink.length % 8 = 0

/-- The decoder `d` follows the encoder `e` (R315): same interval and contexts, and a value read from the coder's stream. -/
structure Fpaq0Follows (e d : Engine) : Prop where
  decoding : Decoding .fpaq0 d
  lastErr : d.lastErr = .ok
  ctx : d.ctx = e.ctx
  low : d.fpaq0Dec.low = e.fpaq0Enc.low
  high : d.fpaq0Dec.high = e.fpaq0Enc.high
  aligned : d.bitpos % 8 = 0
  reads : (fpaq0Coder e).Reads d.src d.fpaq0Dec.value (d.bitpos / 8)

/-- An input that spells a number in the session's interval. -/
def Fpaq0Fits (e : Engine) (src : List Byte) : Prop := (fpaq0Coder e).interval.Holds src

/-- A symbol coded: what PUT or PUT_BYPASS makes of the engine of an unbounded session (R306, R307). -/
theorem fpaq0Put_effect {p : Params} {y : CodedSym} {e : Engine} (hun : Unbounded p) (hc : ∀ c ∈ y.ctx, c < p.numCtx)
    (h : Fpaq0Open e) :
    let t := commandEffect p (putInstr .fpaq0 y) e
    Fpaq0Open t ∧ fpaq0Coder t = (fpaq0Coder e).code y.bit (symProb y.ctx e) ∧
    t.ctx = (symCtxSet y.ctx (probUpdate (symProb y.ctx e) y.bit) e).ctx := by
  intro t
  have ht : t = completeCmd (opBits (putInstr .fpaq0 y).op) .none (fpaq0Put y e) :=
    commandEffect_of_body (checkCommand_fpaq0Put h.encoding hc) (fpaq0Put_inMemory y hun.1 e)
  obtain ⟨hph, hfam, hsink, hlow, hhigh, hctx⟩ := completed_fpaq0Put (opBits (putInstr .fpaq0 y).op) .none y e
  rw [← ht] at hph hfam hsink hlow hhigh hctx
  have hcoder : fpaq0Coder t = (fpaq0Coder e).code y.bit (symProb y.ctx e) := by
    rw [fpaq0Coder, hsink, hlow, hhigh, completeBytes_append _ h.aligned, completeBytes_flatMap]
    rfl
  refine ⟨⟨⟨hph.trans h.encoding.1, hfam.trans h.encoding.2⟩, ?_, ?_⟩, hcoder, hctx⟩
  · rw [hcoder]
    exact Coder.code_good h.good _ _
  · have haligned := h.aligned
    rw [hsink, sink_append_outBytes]
    omega

/-- A decoder that follows the encoder of a symbol gives its bit back and follows on (R315). -/
theorem Fpaq0Follows.get {p : Params} {y : CodedSym} {e t d : Engine} (h : Fpaq0Follows e d) (hopen : Fpaq0Open e)
    (hc : ∀ c ∈ y.ctx, c < p.numCtx) (ht : fpaq0Coder t = (fpaq0Coder e).code y.bit (symProb y.ctx e))
    (hctx : t.ctx = (symCtxSet y.ctx (probUpdate (symProb y.ctx e) y.bit) e).ctx) (hfits : Fpaq0Fits t d.src) :
    let v := commandEffect p (getInstr .fpaq0 y) d
    Fpaq0Follows t v ∧ v.src = d.src ∧ v.responses = getResponse y :: d.responses := by
  intro v
  have hsame : d.fam = e.fam := h.decoding.2.trans hopen.encoding.2.symm
  have hsym := symProb_congr hsame h.ctx y.ctx
  rw [Fpaq0Fits, ht] at hfits
  obtain ⟨hbit, hleft, hreads⟩ := h.reads.next hopen.good hfits
  have hlow : (fpaq0Coder e).low = d.fpaq0Dec.low := h.low.symm
  have hhigh : (fpaq0Coder e).high = d.fpaq0Dec.high := h.high.symm
  rw [hlow, hhigh, ← hsym] at hbit hleft hreads
  have haligned := h.aligned
  have hb := (fpaq0Get_cases y p haligned hbit).1 (.inr (.inr (by omega)))
  have hv : v = completeCmd (opBits (getInstr .fpaq0 y).op) (.ofBit y.bit) (fpaq0Got y.ctx y.bit d) :=
    commandEffect_of_body (checkCommand_fpaq0Get h.decoding hc) hb
  obtain ⟨hph, hfam, hsrc, hpos, hvlow, hvhigh, hvalue, hvctx⟩ :=
    completed_fpaq0Got (opBits (getInstr .fpaq0 y).op) (.ofBit y.bit) y.ctx y.bit d
  have hresp : v.responses = getResponse y :: d.responses := by
    rw [hv]
    obtain ⟨b, ctx, l⟩ := y
    cases ctx <;> rfl
  have herr : v.lastErr = .ok := by rw [hv]; rfl
  rw [← hv] at hph hfam hsrc hpos hvlow hvhigh hvalue hvctx
  have htlow : t.fpaq0Enc.low = nextLow y.bit (symProb y.ctx e) e.fpaq0Enc.low e.fpaq0Enc.high := congrArg Coder.low ht
  have hthigh : t.fpaq0Enc.high = nextHigh y.bit (symProb y.ctx e) e.fpaq0Enc.low e.fpaq0Enc.high := congrArg Coder.high ht
  refine ⟨⟨⟨hph.trans h.decoding.1, hfam.trans h.decoding.2⟩, herr, ?_, ?_, ?_, by omega, ?_⟩, hsrc, hresp⟩
  · rw [hvctx, hctx, hsym, symCtxSet_ctx_congr hsame h.ctx]
  · rw [hvlow, htlow, hsym, h.low, h.high]
  · rw [hvhigh, hthigh, hsym, h.low, h.high]
  · have hbyte : v.bitpos / 8 = d.bitpos / 8 + cutBytes y.bit (symProb y.ctx d) d.fpaq0Dec.low d.fpaq0Dec.high := by omega
    rw [hsym] at hreads
    rw [hbyte, hvalue, hsrc, ht, hsym]
    exact hreads

/-- A symbol of a serial Fpaq0 session (R306, R307, R315). -/
theorem fpaq0_symFollows {p : Params} {y : CodedSym} {e : Engine} (hun : Unbounded p) (hc : ∀ c ∈ y.ctx, c < p.numCtx)
    (h : Fpaq0Open e) : SymFollows .fpaq0 p Fpaq0Open Fpaq0Fits Fpaq0Follows y e := by
  obtain ⟨hopen, hcoder, hctx⟩ := fpaq0Put_effect hun hc h
  refine ⟨hopen, fun src hsrc => ?_, fun d hd hsrc => hd.get h hc hcoder hctx hsrc⟩
  rw [Fpaq0Fits, hcoder] at hsrc
  exact hsrc.of_within (Coder.code_within h.good _ _)

/-- OPEN_ENC of serial Fpaq0 starts a coder (R53, R305). -/
theorem fpaq0OpenEnc_effect (p : Params) (e : Engine) :
    let t := commandEffect p .fpaq0OpenEnc e
    Fpaq0Open t ∧ fpaq0Coder t = Coder.start ∧ t.ctx = [] := by
  intro t
  have ht : t = completeCmd (opBits .openEnc) .none ((openEncoder .fpaq0 1 e).setFpaq0Enc ⟨0, 0xFFFFFFFF⟩) :=
    commandEffect_of_body (checkCommand_open (.inl rfl) p e) rfl
  rw [ht]
  exact ⟨⟨⟨rfl, rfl⟩, Coder.start_good, rfl⟩, rfl, rfl⟩

/-- FINISH of serial Fpaq0 (R308): its output is the coder's, and the contexts stay. -/
theorem fpaq0Finish_effect {p : Params} {e : Engine} (hun : Unbounded p) (h : Fpaq0Open e) :
    let t := commandEffect p .fpaq0Finish e
    t.readableOutput = some (fpaq0Coder e).output ∧ t.ctx = e.ctx ∧ t.fam = .fpaq0 := by
  intro t
  have ht : t = completeCmd (opBits .finish) (.ofOut (fpaq0Coder e).output) (fpaq0Finished e) :=
    commandEffect_of_body (checkCommand_fpaq0Finish h.encoding) (fpaq0FinishBody_inMemory hun.1 h.encoding.2 h.aligned)
  rw [ht]
  exact ⟨congrArg some (fpaq0Finished_output h.encoding.2 h.aligned), rfl, h.encoding.2⟩

/-- OPEN_DEC of serial Fpaq0 on an input of four bytes at least follows the coder of a new session (R314, R315). -/
theorem fpaq0OpenDec_follows (p : Params) {e d : Engine} (hcoder : fpaq0Coder e = Coder.start) (hctx : e.ctx = [])
    (hlen : 4 ≤ d.staged.length) :
    let v := commandEffect p (.fpaq0OpenDec true) d
    Fpaq0Follows e v ∧ v.src = d.staged := by
  intro v
  have hv : v = completeCmd (opBits .openDec) .none _ :=
    commandEffect_of_body (checkCommand_open (.inr rfl) p d) (fpaq0OpenDecBody_eq (eof := true) (.inr hlen) p)
  have hsrc : v.src = d.staged := by rw [hv]; rfl
  have hpos : v.bitpos = 32 := by rw [hv]; rfl
  have hdec : v.fpaq0Dec = ⟨0, 0xFFFFFFFF, shiftInBytes (fun j => d.staged.getD j 0) 0 4 0⟩ := by rw [hv]; rfl
  refine ⟨⟨?_, ?_, ?_, ?_, ?_, by rw [hpos], ?_⟩, hsrc⟩
  · rw [hv]
    exact ⟨rfl, rfl⟩
  · rw [hv]
    rfl
  · rw [hv, hctx]
    rfl
  · exact (congrArg Fpaq0Dec.low hdec).trans (congrArg Coder.low hcoder).symm
  · exact (congrArg Fpaq0Dec.high hdec).trans (congrArg Coder.high hcoder).symm
  · rw [hcoder, hsrc, hdec, hpos]
    exact Coder.start_reads d.staged 0

/-- Settles O56: the output is a number in every interval of the session, so that the decoder follows the encoder from OPEN_DEC
on. -/
theorem fpaq0RoundTrip : Obligations.Fpaq0RoundTrip := by
  refine roundTrips_of_engine fun p e syms hun hsyms => ?_
  obtain ⟨hopen, hstart, hctx⟩ := fpaq0OpenEnc_effect p e
  obtain ⟨hopen', hnarrows, hrun⟩ :=
    run_follows (fun y hy e => fpaq0_symFollows (e := e) hun (hsyms y hy).2) hopen
  refine engineRoundTrip_of_parts rfl rfl (fpaq0Finish_effect hun hopen') fun d hstaged => ?_
  have hholds := Coder.holds_output (List.prefix_refl (fpaq0Coder
    (runEngine p (syms.map (putInstr .fpaq0)) (commandEffect p .fpaq0OpenEnc e))).output)
  have hlen : 4 ≤ d.staged.length := by
    have hseed := (hnarrows _ hholds).length
    rw [hstart] at hseed
    rw [hstaged]
    exact Nat.le_of_mul_le_mul_left hseed (by decide)
  obtain ⟨hfol, hsrc⟩ := fpaq0OpenDec_follows p hstart hctx hlen
  obtain ⟨hfol', hresp⟩ := hrun _ hfol (by rw [hsrc, hstaged]; exact hholds)
  exact ⟨hfol'.decoding, hfol'.lastErr, hfol'.ctx, _, hresp⟩

end Sys2Proof.Machine
end

section
/-! SUPPORT, then O42. The FPAQ0P encoder's PUT (R321 to R325): the bytes that a lane puts out, and the slots they go to. -/

namespace Sys2Proof.Machine

open Sys2Proof

/-! ### The slots of a lane -/

/-- Two bytes of lanes have the same position only where they are the same byte of the same lane (R80). -/
theorem slotPos_inj {n i i' j j' : Nat} (hi : i < n) (hi' : i' < n) : j * n + i = j' * n + i' ↔ j = j' ∧ i = i' := by
  refine ⟨fun h => ?_, fun ⟨hj, hi⟩ => by rw [hj, hi]⟩
  have hn : 0 < n := Nat.zero_lt_of_lt hi
  have hq := congrArg (· / n) h
  have hr := congrArg (· % n) h
  simp only [Nat.mul_comm _ n, Nat.mul_add_div hn, Nat.mul_add_mod, Nat.div_eq_of_lt hi, Nat.div_eq_of_lt hi',
    Nat.mod_eq_of_lt hi, Nat.mod_eq_of_lt hi'] at hq hr
  exact ⟨hq, hr⟩

/-- From `e` to `t` lane `i` puts the bytes `vs` out and comes to the interval `low`, `high`, and nothing else happens
(R46, R80, R321). -/
structure LaneWrote (i : Nat) (vs : List Byte) (low high : Word) (e t : Engine) : Prop where
  frame : LanesEncOnly e t
  length : t.lanesEnc.length = e.lanesEnc.length
  lanes : ∀ i', laneEnc t i' = if i' = i then ⟨low, high, (laneEnc e i).k + vs.length⟩ else laneEnc e i'
  written : ∀ j, j < vs.length → Memory.lookup (((laneEnc e i).k + j) * e.laneCount + i) t.slots = vs[j]?
  kept : ∀ a, (∀ j, j < vs.length → a ≠ ((laneEnc e i).k + j) * e.laneCount + i) →
    Memory.lookup a t.slots = Memory.lookup a e.slots

theorem LanesEncOnly.laneCount {e t : Engine} (h : LanesEncOnly e t) : t.laneCount = e.laneCount := by
  obtain ⟨ls, m, rfl⟩ := h
  rfl

section
variable {i : Nat} {vs ws : List Byte} {low high low' high' : Word} {e t u : Engine}

theorem LaneWrote.lane (h : LaneWrote i vs low high e t) : laneEnc t i = ⟨low, high, (laneEnc e i).k + vs.length⟩ :=
  (h.lanes i).trans (if_pos rfl)

theorem LaneWrote.other (h : LaneWrote i vs low high e t) {i' : Nat} (hi' : i' ≠ i) : laneEnc t i' = laneEnc e i' :=
  (h.lanes i').trans (if_neg hi')

/-- Bytes put out in a row. -/
theorem LaneWrote.trans (h : LaneWrote i vs low high e t) (h' : LaneWrote i ws low' high' t u) (hi : i < e.laneCount) :
    LaneWrote i (vs ++ ws) low' high' e u := by
  have hcount := h.frame.laneCount
  have hk : (laneEnc t i).k = (laneEnc e i).k + vs.length := congrArg LaneEnc.k h.lane
  have hwritten := h'.written
  have hkept := h'.kept
  rw [hk, hcount] at hwritten hkept
  refine ⟨h.frame.trans h'.frame, h'.length.trans h.length, fun i' => ?_, fun j hj => ?_, fun a ha => ?_⟩
  · rw [h'.lanes i', hk, List.length_append, Nat.add_assoc]
    split
    · rfl
    · next hi' => exact h.other hi'
  · rw [List.length_append] at hj
    by_cases hlt : j < vs.length
    · rw [List.getElem?_append_left hlt, ← h.written j hlt]
      refine hkept _ fun j' _ heq => ?_
      have := ((slotPos_inj hi hi).mp heq).1
      omega
    · rw [List.getElem?_append_right (by omega), ← hwritten (j - vs.length) (by omega)]
      congr 3
      omega
  · rw [List.length_append] at ha
    rw [hkept a fun j hj => by rw [Nat.add_assoc]; exact ha _ (by omega), h.kept a fun j hj => ha j (by omega)]

end

section
variable {i : Nat} {e : Engine} (hi : i < e.lanesEnc.length)
include hi

/-- Replacing a lane's interval. -/
theorem laneWrote_setLaneEnc {r : LaneEnc} (hk : r.k = (laneEnc e i).k) :
    LaneWrote i [] r.low r.high e (setLaneEnc e i r) := by
  refine ⟨setLaneEnc_frame e i r, setLaneEnc_length e i r, fun i' => ?_, nofun, fun a _ => rfl⟩
  rw [laneEnc_setLaneEnc hi, List.length_nil, Nat.add_zero, ← hk]

/-- LaneEmit (R321). -/
theorem laneWrote_laneEmit (v : Byte) : LaneWrote i [v] (laneEnc e i).low (laneEnc e i).high e (laneEmit i v e) := by
  refine ⟨laneEmit_frame i v e, setLaneEnc_length _ i _, laneEnc_laneEmit hi v, fun j hj => ?_, fun a ha => ?_⟩
  · obtain rfl : j = 0 := Nat.lt_one_iff.mp hj
    rw [slots_laneEmit, lookup_insertCell, Nat.add_zero, if_pos rfl]
    rfl
  · have hne := ha 0 Nat.zero_lt_one
    rw [Nat.add_zero] at hne
    rw [slots_laneEmit, lookup_insertCell, if_neg hne]

end

section
variable {i : Nat} {e : Engine}

/-- LaneEmit of a list of bytes (R326). -/
theorem laneWrote_laneEmitAll (hi : i < e.lanesEnc.length) (hcount : i < e.laneCount) (vs : List Byte) :
    LaneWrote i vs (laneEnc e i).low (laneEnc e i).high e (laneEmitAll i vs e) := by
  induction vs generalizing e with
  | nil =>
    refine ⟨.refl e, rfl, fun i' => ?_, nofun, fun a _ => rfl⟩
    split
    · next h => rw [h]; rfl
    · rfl
  | cons v vs ih =>
    have hone := laneWrote_laneEmit hi v
    have hrest := ih (e := laneEmit i v e) (hone.length.symm ▸ hi) (hone.frame.laneCount.symm ▸ hcount)
    rw [hone.lane] at hrest
    exact hone.trans hrest hcount

/-- The loop of LaneEncode puts the equal leading bytes out (R322). -/
theorem laneWrote_laneRenormE (hi : i < e.lanesEnc.length) (hcount : i < e.laneCount) {n : Nat} (hn : n ≤ 4) :
    let m := equalTops n (laneEnc e i).low (laneEnc e i).high
    LaneWrote i ((wordBytesBE (laneEnc e i).high).take m) (lowShift^[m] (laneEnc e i).low)
      (highShift^[m] (laneEnc e i).high) e (laneRenormE i n e) := by
  have hdone : LaneWrote i [] (laneEnc e i).low (laneEnc e i).high e e := laneWrote_laneEmitAll hi hcount []
  induction n generalizing e with
  | zero => exact hdone
  | succ n ih =>
    intro m
    rw [laneRenormE]
    dsimp only
    split
    · next htop =>
      have hemit := laneWrote_laneEmit hi (topByte (laneEnc e i).high)
      rw [hemit.lane]
      have hset := laneWrote_setLaneEnc (e := laneEmit i (topByte (laneEnc e i).high) e) (hemit.length.symm ▸ hi)
        (r := ⟨lowShift (laneEnc e i).low, highShift (laneEnc e i).high, (laneEnc e i).k + 1⟩)
        (congrArg LaneEnc.k hemit.lane).symm
      have hpass := hemit.trans hset hcount
      have hlen := hpass.length.symm ▸ hi
      have hcount' := hpass.frame.laneCount.symm ▸ hcount
      have hrest := ih hlen hcount' (by omega) (laneWrote_laneEmitAll hlen hcount' [])
      have hall := hpass.trans hrest hcount
      rw [hpass.lane] at hall
      have hm : m = equalTops n (lowShift (laneEnc e i).low) (highShift (laneEnc e i).high) + 1 := equalTops_of_eq n htop
      rw [take_equalTops_succ (by omega) htop, hm]
      exact hall
    · next htop =>
      have hm : m = 0 := equalTops_of_ne _ htop
      rw [hm]
      exact hdone

/-- LaneEncode codes the bit on its lane (R322). -/
theorem laneWrote_laneEncode (hi : i < e.lanesEnc.length) (hcount : i < e.laneCount) (b : Bool) (prob : Byte) :
    let r := laneEnc e i
    LaneWrote i (outBytes b prob r.low r.high) (nextLow b prob r.low r.high) (nextHigh b prob r.low r.high) e
      (laneEncode i b prob e) := by
  have hcut : laneEncodeBit b prob (laneEnc e i) = ⟨cutLow b prob (laneEnc e i).low (laneEnc e i).high,
      cutHigh b prob (laneEnc e i).low (laneEnc e i).high, (laneEnc e i).k⟩ := by cases b <;> rfl
  have hset := laneWrote_setLaneEnc hi (r := laneEncodeBit b prob (laneEnc e i)) (by rw [hcut])
  have hrenorm := laneWrote_laneRenormE (e := setLaneEnc e i (laneEncodeBit b prob (laneEnc e i)))
    (hset.length.symm ▸ hi) (hset.frame.laneCount.symm ▸ hcount) (n := fpaq0Passes) le_rfl
  rw [hset.lane, hcut] at hrenorm
  rw [laneEncode, hcut]
  rw [hcut] at hset
  exact hset.trans hrenorm hcount

end

/-! ### PUT and PUT_BYPASS -/

theorem LanesEncOnly.phase {e t : Engine} (h : LanesEncOnly e t) : t.phase = e.phase := by
  obtain ⟨ls, m, rfl⟩ := h
  rfl

theorem LanesEncOnly.fam {e t : Engine} (h : LanesEncOnly e t) : t.fam = e.fam := by
  obtain ⟨ls, m, rfl⟩ := h
  rfl

theorem LanesEncOnly.ctx {e t : Engine} (h : LanesEncOnly e t) : t.ctx = e.ctx := by
  obtain ⟨ls, m, rfl⟩ := h
  rfl

/-- The engine of a PUT or PUT_BYPASS: its bit coded on its lane and its context updated (R324, R325). -/
def fpaq0pPut (y : CodedSym) (e : Engine) : Engine :=
  (laneEncode y.lane y.bit (symProb y.ctx e) e).setCtx (symCtxSet y.ctx (probUpdate (symProb y.ctx e) y.bit) e).ctx

/-- PUT and PUT_BYPASS are one rule: LaneEncode, then the update of the context, if any (R324, R325). -/
theorem fpaq0pPut_body (y : CodedSym) (p : Params) (e : Engine) :
    instrBody (putInstr .fpaq0p y) p e = .ok .none (fpaq0pPut y e) := by
  have hframe := laneEncode_frame y.lane y.bit (symProb y.ctx e) e
  rw [fpaq0pPut, ← symCtxSet_of_same_ctx hframe.fam hframe.ctx]
  obtain ⟨b, ctx, l⟩ := y
  cases ctx <;> rfl

theorem checkCommand_fpaq0pPut {p : Params} {e : Engine} {y : CodedSym} (henc : Encoding .fpaq0p e)
    (hl : y.lane < e.laneCount) (hc : ∀ c ∈ y.ctx, c < p.numCtx) :
    checkCommand p e (putInstr .fpaq0p y).family (putInstr .fpaq0p y).op (laneOperand (putInstr .fpaq0p y))
      (ctxOperand (putInstr .fpaq0p y)) = .ok := by
  have hlane : ∀ l ∈ some y.lane, l < e.laneCount := fun l hmem => Option.some.inj hmem ▸ hl
  obtain ⟨b, ctx, l⟩ := y
  cases ctx with
  | none => exact checkCommand_encoding (i := .fpaq0pPutBypass l b) (.inr (.inl rfl)) henc hlane nofun
  | some c => exact checkCommand_encoding (i := .fpaq0pPut l b c) (.inl rfl) henc hlane hc

/-- The engine after a PUT or PUT_BYPASS that completes. -/
theorem completed_fpaq0pPut (o : BitVec 4) (r : Reply) (y : CodedSym) (e : Engine) :
    let t := completeCmd o r (fpaq0pPut y e)
    let u := laneEncode y.lane y.bit (symProb y.ctx e) e
    t.phase = e.phase ∧ t.fam = e.fam ∧ t.laneCount = e.laneCount ∧ t.lanesEnc = u.lanesEnc ∧ t.slots = u.slots ∧
    t.ctx = (symCtxSet y.ctx (probUpdate (symProb y.ctx e) y.bit) e).ctx := by
  have hframe := laneEncode_frame y.lane y.bit (symProb y.ctx e) e
  simp [completeCmd_eq, fpaq0pPut, hframe.phase, hframe.fam, hframe.laneCount]

/-- The leading bytes of the selected part, one by one (R303). -/
theorem getElem?_outBytes {b : Bool} {p : Byte} {low high : Word} {j : Nat} (hj : j < cutBytes b p low high) :
    (outBytes b p low high)[j]? = some (BitVec.ofNat 8 ((cutHigh b p low high).toNat / 256 ^ (3 - j))) := by
  have hle := (cut_equalLeadingBytes b p low high).1
  rw [outBytes, List.getElem?_take_of_lt hj, getElem?_wordBytesBE _ (by omega)]

theorem laneEnc_congr {e t : Engine} (h : t.lanesEnc = e.lanesEnc) : laneEnc t = laneEnc e := by
  funext i
  rw [laneEnc, laneEnc, h]

/-- Settles O42: the bit's part of the lane's interval, its equal leading bytes at the lane's next positions, and the interval
that shifting them out leaves. -/
theorem fpaq0pPutExact : Obligations.Fpaq0pPutExact := by
  intro s e l b ctx he hinv henc hl hc p r mid lo hi
  obtain ⟨hslots, hint⟩ := lanesEncInv_iff.mp (hinv.lanesEnc henc)
  obtain ⟨hlo, hhi⟩ : (cutLow b p r.low r.high).toNat = lo ∧ (cutHigh b p r.low r.high).toNat = hi :=
    cut_toNat (hint l hl) b p
  obtain ⟨hn, heq, -⟩ := cut_equalLeadingBytes b p r.low r.high
  obtain ⟨hlow, hhigh⟩ := next_toNat b p r.low r.high
  obtain ⟨hph, hfam, -, hlanes, hmem, hctx⟩ :=
    completed_fpaq0pPut (opBits (putInstr .fpaq0p ⟨b, ctx, l⟩).op) .none ⟨b, ctx, l⟩ e
  have hwrote := laneWrote_laneEncode (hslots.length.symm ▸ hl) hl b p
  have hp : symProb ctx e = p := rfl
  have hr : laneEnc e l = r := rfl
  clear_value lo hi mid p r
  subst hp hlo hhi hr
  have hlen := outBytes_length b (symProb ctx e) (laneEnc e l).low (laneEnc e l).high
  refine ⟨_, cutBytes b (symProb ctx e) (laneEnc e l).low (laneEnc e l).high,
    completes_of_body he (checkCommand_fpaq0pPut (y := ⟨b, ctx, l⟩) henc hl hc) (fpaq0pPut_body _ _ e),
    hph.trans henc.1, hn, heq, ?_⟩
  rw [laneEnc_congr hlanes, hmem, hwrote.lane, hlen]
  refine ⟨rfl, hlow, hhigh, (next_intervalInv (hint l hl) b _).2, fun i hi => hwrote.other hi, fun j hj => ?_, fun a ha => ?_,
    ctxGet_of_symCtxSet hinv.ctx.1 hfam hctx⟩
  · rw [hwrote.written j (hlen.symm ▸ hj), getElem?_outBytes hj]
  · exact hwrote.kept a fun j hj => ha j (hlen ▸ hj)

end Sys2Proof.Machine
end

section
/-! SUPPORT, then O43. The FPAQ0P encoder's FINISH (R326): the output lane by lane, as interleaved and padded. -/

namespace Sys2Proof.Machine

open Sys2Proof

/-! ### The bytes of the lanes -/

/-- The byte at a position that nothing was written to (R80). -/
theorem slotByte_of_unwritten {e : Engine} (h : SlotsInStep e) {i j : Nat} (hi : i < e.laneCount)
    (hj : (laneEnc e i).k ≤ j) : slotByte e (j * e.laneCount + i) = 0 := by
  have hn : 0 < e.laneCount := Nat.zero_lt_of_lt hi
  have hwritten := h.written (j * e.laneCount + i)
  rw [Nat.mul_comm, Nat.mul_add_div hn, Nat.mul_add_mod, Nat.div_eq_of_lt hi, Nat.mod_eq_of_lt hi, Nat.add_zero] at hwritten
  have hnone : Memory.lookup (e.laneCount * j + i) e.slots = none := by
    rw [← Option.not_isSome_iff_eq_none, hwritten]
    exact Nat.not_lt.mpr hj
  rw [slotByte, Memory.read, Nat.mul_comm, hnone]
  rfl

/-- What the bytes that a lane puts out do to the output (R321). -/
theorem LaneWrote.slotByte {i : Nat} {vs : List Byte} {low high : Word} {e t : Engine} (h : LaneWrote i vs low high e t)
    (hi : i < e.laneCount) {i' : Nat} (hi' : i' < e.laneCount) (j : Nat) :
    Machine.slotByte t (j * e.laneCount + i') =
      if i' = i ∧ (laneEnc e i).k ≤ j ∧ j < (laneEnc e i).k + vs.length then vs.getD (j - (laneEnc e i).k) 0
      else Machine.slotByte e (j * e.laneCount + i') := by
  split
  · next hnew =>
    obtain ⟨rfl, hle, hlt⟩ := hnew
    have hwritten := h.written (j - (laneEnc e i').k) (by omega)
    rw [Nat.add_sub_cancel' hle] at hwritten
    rw [Machine.slotByte, Memory.read, hwritten, Option.or_none, List.getD_eq_getElem?_getD]
  · next hold =>
    have hkept := h.kept (j * e.laneCount + i') fun j' hj' heq => hold ?_
    · rw [Machine.slotByte, Memory.read, hkept]
      rfl
    · obtain ⟨rfl, rfl⟩ := (slotPos_inj hi' hi).mp heq
      exact ⟨rfl, by omega, by omega⟩

/-! ### The flush -/

/-- The registers of a lane after its flush (R326). -/
def LaneEnc.flush (r : LaneEnc) : LaneEnc := { r with k := r.k + 4 }

/-- The flush of the lanes of a list (R326): each of them puts the four bytes of its `low` out, the others stay as they were. -/
theorem flushLanes_eq {is : List Nat} {e : Engine} (hnodup : is.Nodup) (his : ∀ i ∈ is, i < e.laneCount)
    (hlen : e.lanesEnc.length = e.laneCount) :
    let t := flushLanes is e
    t.lanesEnc.length = e.lanesEnc.length ∧
    (∀ i, laneEnc t i = if i ∈ is then (laneEnc e i).flush else laneEnc e i) ∧
    ∀ i j, i < e.laneCount → slotByte t (j * e.laneCount + i) =
      if i ∈ is ∧ (laneEnc e i).k ≤ j ∧ j < (laneEnc e i).k + 4 then
        (wordBytesBE (laneEnc e i).low).getD (j - (laneEnc e i).k) 0
      else slotByte e (j * e.laneCount + i) := by
  induction is generalizing e with
  | nil => exact ⟨rfl, fun i => (if_neg List.not_mem_nil).symm, fun i j _ => (if_neg fun h => List.not_mem_nil h.1).symm⟩
  | cons i is ih =>
    obtain ⟨hni, hnodup⟩ := List.nodup_cons.mp hnodup
    have hi := his i List.mem_cons_self
    have hflush : LaneWrote i (wordBytesBE (laneEnc e i).low) (laneEnc e i).low (laneEnc e i).high e (laneFlush i e) :=
      laneWrote_laneEmitAll (hlen.symm ▸ hi) hi _
    have hcount := hflush.frame.laneCount
    have hfour : (wordBytesBE (laneEnc e i).low).length = 4 := rfl
    obtain ⟨hlen', hlanes, hbytes⟩ := ih (e := laneFlush i e) hnodup
      (fun j hj => hcount.symm ▸ his j (List.mem_cons_of_mem i hj)) (hflush.length.trans (hlen.trans hcount.symm))
    rw [hcount] at hbytes
    refine ⟨hlen'.trans hflush.length, fun i' => ?_, fun i' j hi' => ?_⟩
    · refine (hlanes i').trans ?_
      by_cases heq : i' = i
      · rw [heq, if_neg hni, if_pos List.mem_cons_self, hflush.lane, hfour]
        rfl
      · simp only [hflush.other heq, List.mem_cons, heq, false_or]
    · refine (hbytes i' j hi').trans ?_
      rw [hflush.slotByte hi hi' j, hfour]
      by_cases heq : i' = i
      · rw [heq, if_neg (fun h => hni h.1)]
        simp only [true_and, List.mem_cons_self]
      · simp only [hflush.other heq, List.mem_cons, heq, false_or, false_and, if_false]

theorem foldl_max_map_add_four (ks : List Nat) (a : Nat) :
    (ks.map (· + 4)).foldl max (a + 4) = ks.foldl max a + 4 := by
  induction ks generalizing a with
  | nil => rfl
  | cons k ks ih => rw [List.map_cons, List.foldl_cons, List.foldl_cons, Nat.add_max_add_right, ih]

/-- The lanes after the flush of all of them. -/
theorem lanesEnc_flushLanes {e : Engine} (hlen : e.lanesEnc.length = e.laneCount) :
    (flushLanes (List.range e.laneCount) e).lanesEnc = e.lanesEnc.map LaneEnc.flush := by
  obtain ⟨hlen', hlanes, -⟩ := flushLanes_eq (e := e) List.nodup_range (fun i hi => List.mem_range.mp hi) hlen
  refine List.ext_getElem (by rw [hlen', List.length_map]) fun i hi hi' => ?_
  rw [List.length_map] at hi'
  have hlane := hlanes i
  rw [if_pos (List.mem_range.mpr (hlen ▸ hi')), laneEnc, laneEnc, List.getD_eq_getElem _ _ hi,
    List.getD_eq_getElem _ _ hi'] at hlane
  rw [hlane, List.getElem_map]

/-- The length of the output: `N` times the longest lane, its flush included (R80, R326). -/
theorem slotLength_flushLanes {e : Engine} (hlen : e.lanesEnc.length = e.laneCount) :
    slotLength (flushLanes (List.range e.laneCount) e) =
      e.laneCount * ((e.lanesEnc.map LaneEnc.k).foldl max 0 + 4) := by
  rw [slotLength, (flushLanes_frame _ e).laneCount, lanesEnc_flushLanes hlen]
  cases hl : e.lanesEnc with
  | nil => rw [← hlen, hl, List.length_nil, Nat.zero_mul, Nat.zero_mul]
  | cons r rs =>
    have hmap : ((r :: rs).map LaneEnc.flush).map LaneEnc.k =
        ((r :: rs).map LaneEnc.k).map (· + 4) := by
      rw [List.map_map, List.map_map]
      rfl
    rw [hmap, List.map_cons, List.map_cons, List.foldl_cons, List.foldl_cons, Nat.zero_max, Nat.zero_max,
      foldl_max_map_add_four]

/-! ### FINISH -/

/-- Byte `j` of lane `i` in the output of a session (R326). -/
def laneOutByte (e : Engine) (i j : Nat) : Byte :=
  if j < (laneEnc e i).k then slotByte e (j * e.laneCount + i)
  else if j < (laneEnc e i).k + 4 then BitVec.ofNat 8 ((laneEnc e i).low.toNat / 256 ^ (3 - (j - (laneEnc e i).k))) else 0

/-- The output of a session after its flush (R80, R326). -/
theorem slotOutput_flushLanes {e : Engine} (h : SlotsInStep e) :
    let m := (e.lanesEnc.map LaneEnc.k).foldl max 0 + 4
    let out := slotOutput (flushLanes (List.range e.laneCount) e)
    out.length = e.laneCount * m ∧
    ∀ i j, i < e.laneCount → j < m → out[j * e.laneCount + i]? = some (laneOutByte e i j) := by
  intro m out
  have hout : out = (List.range (e.laneCount * m)).map (slotByte (flushLanes (List.range e.laneCount) e)) := by
    rw [← slotLength_flushLanes h.length]
    rfl
  obtain ⟨-, -, hbytes⟩ := flushLanes_eq (e := e) List.nodup_range (fun i hi => List.mem_range.mp hi) h.length
  rw [hout]
  refine ⟨by rw [List.length_map, List.length_range], fun i j hi hj => ?_⟩
  have hlt : j * e.laneCount + i < e.laneCount * m := by
    calc j * e.laneCount + i < (j + 1) * e.laneCount := by rw [Nat.succ_mul]; omega
      _ ≤ m * e.laneCount := Nat.mul_le_mul_right _ hj
      _ = e.laneCount * m := Nat.mul_comm _ _
  rw [List.getElem?_map, List.getElem?_range hlt, Option.map_some, hbytes i j hi, laneOutByte]
  congr 1
  by_cases hold : j < (laneEnc e i).k
  · rw [if_pos hold, if_neg (by omega)]
  · rw [if_neg hold]
    by_cases hflush : j < (laneEnc e i).k + 4
    · rw [if_pos hflush, if_pos ⟨List.mem_range.mpr hi, by omega, hflush⟩, List.getD_eq_getElem?_getD,
        getElem?_wordBytesBE _ (by omega), Option.getD_some]
    · rw [if_neg hflush, if_neg (by omega), slotByte_of_unwritten h hi (by omega)]

theorem checkCommand_fpaq0pFinish {p : Params} {e : Engine} (henc : Encoding .fpaq0p e) :
    checkCommand p e (Instr.fpaq0pFinish).family (Instr.fpaq0pFinish).op (laneOperand .fpaq0pFinish)
      (ctxOperand .fpaq0pFinish) = .ok :=
  checkCommand_encoding (i := .fpaq0pFinish) (.inr (.inr (.inr rfl))) henc nofun nofun

/-- The engine of FINISH on an `InMemory` sink: the lanes flushed (R326). -/
def fpaq0pFinished (e : Engine) : Engine := (flushLanes (List.range e.laneCount) e).setPhase .finished

theorem fpaq0pFinished_output {e : Engine} (hfam : e.fam = .fpaq0p) :
    (fpaq0pFinished e).output = slotOutput (flushLanes (List.range e.laneCount) e) := by
  have hflushed : (fpaq0pFinished e).fam = .fpaq0p := (flushLanes_frame _ e).fam.trans hfam
  rw [Engine.output, hflushed]
  rfl

/-- FINISH on an `InMemory` sink (R326). -/
theorem fpaq0pFinishBody_inMemory {p : Params} {e : Engine} (hmem : p.sinkMode = .inMemory) (hfam : e.fam = .fpaq0p) :
    fpaq0pFinishBody p e = .ok (.ofOut (slotOutput (flushLanes (List.range e.laneCount) e))) (fpaq0pFinished e) := by
  rw [fpaq0pFinishBody, offerBytes_inMemory hmem, andThen_ok, finishSession_eq, ← fpaq0pFinished_output hfam]
  rfl

/-- Settles O43: the flush puts four bytes out in each lane, and an unwritten position of the output is 0. -/
theorem fpaq0pFinishLayout : Obligations.Fpaq0pFinishLayout := by
  intro s e he hinv hun henc m
  obtain ⟨hslots, -⟩ := lanesEncInv_iff.mp (hinv.lanesEnc henc)
  obtain ⟨hlen, hbytes⟩ := slotOutput_flushLanes hslots
  refine ⟨_, _, completes_of_body (i := .fpaq0pFinish) he (checkCommand_fpaq0pFinish henc)
    (fpaq0pFinishBody_inMemory hun.1 henc.2), rfl, congrArg some (fpaq0pFinished_output henc.2),
    (flushLanes_frame _ e).ctx, hlen, hbytes⟩

end Sys2Proof.Machine
end

section
/-! SUPPORT, then O44. The FPAQ0P decoder's GET (R328 to R333): the bit of the comparison on a lane, and the bytes of its
refill. -/

namespace Sys2Proof.Machine

open Sys2Proof

/-! ### The refill loop -/

/-- In its input or the zero fill after it, lane `i` has `n` bytes left: the last of them is there (R81, R328). -/
def LaneLeft (e : Engine) (i n : Nat) : Prop :=
  n = 0 ∨ e.eof = false ∨ ((laneDec e i).k + (n - 1)) * e.laneCount + i < e.src.length

/-- The registers of lane `i` after `n` passes of its refill loop that have their bytes (R331). -/
def LaneDec.refilled (src : List Byte) (lanes i n : Nat) (r : LaneDec) : LaneDec :=
  ⟨lowShift^[n] r.low, highShift^[n] r.high, shiftInBytes (laneByte src lanes i) r.k n r.value, r.k + n⟩

/-- A pass, then `n` more. -/
theorem LaneDec.refilled_one (src : List Byte) (lanes i n : Nat) (r : LaneDec) :
    (r.refilled src lanes i 1).refilled src lanes i n = r.refilled src lanes i (n + 1) := by
  have hk : r.k + (n + 1) = r.k + 1 + n := by omega
  rw [LaneDec.refilled, LaneDec.refilled.eq_1 (n := n + 1), hk]
  rfl

theorem setLaneDec_src (e : Engine) (i : Nat) (r : LaneDec) : (setLaneDec e i r).src = e.src := rfl

theorem setLaneDec_laneCount (e : Engine) (i : Nat) (r : LaneDec) : (setLaneDec e i r).laneCount = e.laneCount := rfl

theorem setLaneDec_self {e : Engine} {i : Nat} (hi : i < e.lanesDec.length) : setLaneDec e i (laneDec e i) = e := by
  rw [setLaneDec, laneDec, List.getD_eq_getElem _ _ hi, List.set_getElem_self]
  rfl

section
variable {i : Nat} {e : Engine} (hi : i < e.lanesDec.length)
include hi

/-- A lane has one byte more left where it has one and then the rest. -/
theorem laneLeft_succ (n : Nat) :
    LaneLeft e i (n + 1) ↔ ((laneDec e i).k * e.laneCount + i < e.src.length ∨ e.eof = false) ∧
      LaneLeft (setLaneDec e i ((laneDec e i).refilled e.src e.laneCount i 1)) i n := by
  have hk : (laneDec (setLaneDec e i ((laneDec e i).refilled e.src e.laneCount i 1)) i).k = (laneDec e i).k + 1 := by
    rw [laneDec_setLaneDec hi, if_pos rfl]
    rfl
  show _ ↔ _ ∧ (n = 0 ∨ e.eof = false ∨ ((laneDec (setLaneDec e i _) i).k + (n - 1)) * e.laneCount + i < e.src.length)
  rw [LaneLeft, hk]
  cases e.eof with
  | false => simp
  | true =>
    cases n with
    | zero => simp
    | succ n =>
      have hle : (laneDec e i).k * e.laneCount ≤ ((laneDec e i).k + (n + 1)) * e.laneCount :=
        Nat.mul_le_mul_right _ (Nat.le_add_right _ _)
      have hsum : (laneDec e i).k + 1 + n = (laneDec e i).k + (n + 1) := by omega
      simp only [Nat.add_sub_cancel, hsum, Bool.true_eq_false, Nat.succ_ne_zero, false_or, or_false]
      omega

/-- A pass that has its byte, then the rest of the loop. -/
theorem laneRenormD_of_eq (n : Nat) (h : topByte (laneDec e i).low = topByte (laneDec e i).high)
    (hleft : (laneDec e i).k * e.laneCount + i < e.src.length ∨ e.eof = false) :
    laneRenormD i (n + 1) e = laneRenormD i n (setLaneDec e i ((laneDec e i).refilled e.src e.laneCount i 1)) := by
  let r : LaneDec :=
    { laneDec e i with low := lowShift (laneDec e i).low, high := highShift (laneDec e i).high }
  have hr : laneDec (setLaneDec e i r) i = r := (laneDec_setLaneDec hi i r).trans (if_pos rfl)
  have hread := laneRefill_of_slotRead (e := setLaneDec e i r) (v := laneByte e.src e.laneCount i (laneDec e i).k)
    (by rwa [setLaneDec_length]) (by rw [hr]; exact slotRead_ok hleft)
  rw [hr, setLaneDec_setLaneDec] at hread
  rw [laneRenormD, if_pos h, hread, andThen_ok]
  rfl

/-- A pass whose byte is past the end of the input (R81, R353). -/
theorem laneRenormD_exhausted (n : Nat) (h : topByte (laneDec e i).low = topByte (laneDec e i).high)
    (hnone : ¬((laneDec e i).k * e.laneCount + i < e.src.length ∨ e.eof = false)) :
    ∃ t, laneRenormD i (n + 1) e = .raised .inputExhausted t := by
  let r : LaneDec :=
    { laneDec e i with low := lowShift (laneDec e i).low, high := highShift (laneDec e i).high }
  obtain ⟨hend, heof⟩ := not_or.mp hnone
  have hr : laneDec (setLaneDec e i r) i = r := (laneDec_setLaneDec hi i r).trans (if_pos rfl)
  have hread : slotRead ((laneDec (setLaneDec e i r) i).k * (setLaneDec e i r).laneCount + i) (setLaneDec e i r) =
      .raised .inputExhausted (setLaneDec e i r) := by
    rw [hr, slotRead, if_neg (by exact hend), if_pos (by exact Bool.eq_true_of_not_eq_false heof)]
  refine ⟨setLaneDec e i r, ?_⟩
  rw [laneRenormD, if_pos h, laneRefill, laneRead, hread]
  rfl

end

/-- The refill loop takes as many bytes of the lane as the ends have equal leading ones, or raises INPUT_EXHAUSTED
(R331, R353). -/
theorem laneRenormD_cases {i : Nat} (n : Nat) {e : Engine} (hi : i < e.lanesDec.length) :
    let m := equalTops n (laneDec e i).low (laneDec e i).high
    (LaneLeft e i m →
      laneRenormD i n e = .ok () (setLaneDec e i ((laneDec e i).refilled e.src e.laneCount i m))) ∧
    (¬LaneLeft e i m → ∃ t, laneRenormD i n e = .raised .inputExhausted t) := by
  have hdone : setLaneDec e i ((laneDec e i).refilled e.src e.laneCount i 0) = e := setLaneDec_self hi
  induction n generalizing e with
  | zero => exact ⟨fun _ => congrArg (Res.ok ()) hdone.symm, fun h => absurd (.inl rfl) h⟩
  | succ n ih =>
    intro m
    by_cases h : topByte (laneDec e i).low = topByte (laneDec e i).high
    · have hm : m = equalTops n (lowShift (laneDec e i).low) (highShift (laneDec e i).high) + 1 := equalTops_of_eq n h
      rw [hm, laneLeft_succ hi]
      by_cases hleft : (laneDec e i).k * e.laneCount + i < e.src.length ∨ e.eof = false
      · have hlen : i < (setLaneDec e i ((laneDec e i).refilled e.src e.laneCount i 1)).lanesDec.length := by
          rwa [setLaneDec_length]
        obtain ⟨hok, hraise⟩ := ih hlen (setLaneDec_self hlen)
        rw [laneDec_setLaneDec hi, if_pos rfl, setLaneDec_src, setLaneDec_laneCount, setLaneDec_setLaneDec,
          LaneDec.refilled_one] at hok
        rw [laneDec_setLaneDec hi, if_pos rfl] at hraise
        rw [laneRenormD_of_eq hi n h hleft]
        exact ⟨fun hin => hok hin.2, fun hnone => hraise fun hin => hnone ⟨hleft, hin⟩⟩
      · exact ⟨fun hin => absurd hin.1 hleft, fun _ => laneRenormD_exhausted hi n h hleft⟩
    · have hm : m = 0 := equalTops_of_ne _ h
      rw [hm, hdone, laneRenormD, if_neg h]
      exact ⟨fun _ => rfl, fun h => absurd (.inl rfl) h⟩

/-! ### LaneDecode -/

theorem laneDecodeInterval_eq (prob : Byte) (r : LaneDec) :
    let b := midBit prob r.low r.high r.value
    laneDecodeInterval prob r = (b, ⟨cutLow b prob r.low r.high, cutHigh b prob r.low r.high, r.value, r.k⟩) := by
  intro b
  have hb : b = decide ((fpaq0Mid r.low r.high prob).toNat < r.value.toNat) := rfl
  unfold laneDecodeInterval
  dsimp only
  split
  · next hle =>
    rw [hb, decide_eq_false (Nat.not_lt.mpr hle)]
    rfl
  · next hgt =>
    rw [hb, decide_eq_true (Nat.not_le.mp hgt)]
    rfl

/-- The registers of lane `i` with `b` decoded: the bit's part of the interval, and its refill (R331). -/
def LaneDec.decoded (b : Bool) (prob : Byte) (src : List Byte) (lanes i : Nat) (r : LaneDec) : LaneDec :=
  ⟨nextLow b prob r.low r.high, nextHigh b prob r.low r.high,
    shiftInBytes (laneByte src lanes i) r.k (cutBytes b prob r.low r.high) r.value, r.k + cutBytes b prob r.low r.high⟩

/-- LaneDecode gives the bit of the comparison and refills the lane, or raises INPUT_EXHAUSTED (R331). -/
theorem laneDecode_cases {i : Nat} {prob : Byte} {e : Engine} {b : Bool} (hi : i < e.lanesDec.length)
    (hb : midBit prob (laneDec e i).low (laneDec e i).high (laneDec e i).value = b) :
    let n := cutBytes b prob (laneDec e i).low (laneDec e i).high
    (LaneLeft e i n →
      laneDecode i prob e = .ok b (setLaneDec e i ((laneDec e i).decoded b prob e.src e.laneCount i))) ∧
    (¬LaneLeft e i n → ∃ t, laneDecode i prob e = .raised .inputExhausted t) := by
  have hcut := laneDecodeInterval_eq prob (laneDec e i)
  rw [hb] at hcut
  let r : LaneDec := ⟨cutLow b prob (laneDec e i).low (laneDec e i).high,
    cutHigh b prob (laneDec e i).low (laneDec e i).high, (laneDec e i).value, (laneDec e i).k⟩
  have hr : laneDec (setLaneDec e i r) i = r := (laneDec_setLaneDec hi i r).trans (if_pos rfl)
  obtain ⟨hok, hraise⟩ := laneRenormD_cases fpaq0Passes (e := setLaneDec e i r) (by rwa [setLaneDec_length])
  rw [LaneLeft, hr] at hok hraise
  rw [setLaneDec_setLaneDec] at hok
  rw [laneDecode, hcut]
  refine ⟨fun hleft => ?_, fun hnone => ?_⟩
  · exact andThen_eq_ok.mpr ⟨(), _, hok hleft, rfl⟩
  · obtain ⟨t, ht⟩ := hraise hnone
    exact ⟨t, andThen_eq_raised.mpr (.inl ht)⟩

/-! ### GET and GET_BYPASS -/

/-- GET and GET_BYPASS are one rule: LaneDecode, then the update of the context, if any (R332, R333). -/
theorem fpaq0pGet_body (y : CodedSym) (p : Params) (e : Engine) :
    instrBody (getInstr .fpaq0p y) p e = (laneDecode y.lane (symProb y.ctx e) e).andThen fun b t =>
      .ok (.ofBit b) (symCtxSet y.ctx (probUpdate (symProb y.ctx e) b) t) := by
  obtain ⟨b, ctx, l⟩ := y
  cases ctx <;> rfl

theorem checkCommand_fpaq0pGet {p : Params} {e : Engine} {y : CodedSym} (hdec : Decoding .fpaq0p e)
    (hl : y.lane < e.laneCount) (hc : ∀ c ∈ y.ctx, c < p.numCtx) :
    checkCommand p e (getInstr .fpaq0p y).family (getInstr .fpaq0p y).op (laneOperand (getInstr .fpaq0p y))
      (ctxOperand (getInstr .fpaq0p y)) = .ok := by
  have hlane : ∀ l ∈ some y.lane, l < e.laneCount := fun l hmem => Option.some.inj hmem ▸ hl
  obtain ⟨b, ctx, l⟩ := y
  cases ctx with
  | none => exact checkCommand_decoding (i := .fpaq0pGetBypass l) (.inr (.inl rfl)) hdec hlane nofun
  | some c => exact checkCommand_decoding (i := .fpaq0pGet l c) (.inl rfl) hdec hlane hc

/-- The engine of a GET or GET_BYPASS that decodes `bit` (R332, R333). -/
def fpaq0pGot (ctx : Option Nat) (l : Nat) (bit : Bool) (e : Engine) : Engine :=
  (setLaneDec e l ((laneDec e l).decoded bit (symProb ctx e) e.src e.laneCount l)).setCtx
    (symCtxSet ctx (probUpdate (symProb ctx e) bit) e).ctx

/-- GET and GET_BYPASS decode the bit of the comparison, or raise INPUT_EXHAUSTED (R332, R333). -/
theorem fpaq0pGet_cases (y : CodedSym) (p : Params) {e : Engine} {bit : Bool} (hl : y.lane < e.lanesDec.length)
    (hbit : midBit (symProb y.ctx e) (laneDec e y.lane).low (laneDec e y.lane).high (laneDec e y.lane).value = bit) :
    let n := cutBytes bit (symProb y.ctx e) (laneDec e y.lane).low (laneDec e y.lane).high
    (LaneLeft e y.lane n → instrBody (getInstr .fpaq0p y) p e = .ok (.ofBit bit) (fpaq0pGot y.ctx y.lane bit e)) ∧
    (¬LaneLeft e y.lane n → ∃ t, instrBody (getInstr .fpaq0p y) p e = .raised .inputExhausted t) := by
  obtain ⟨hok, hraise⟩ := laneDecode_cases hl hbit
  rw [fpaq0pGet_body]
  refine ⟨fun hleft => ?_, fun hnone => ?_⟩
  · rw [hok hleft, andThen_ok, symCtxSet_of_same_ctx (e := e) (t := setLaneDec e y.lane _) rfl rfl]
    rfl
  · obtain ⟨t, ht⟩ := hraise hnone
    exact ⟨t, by rw [ht, andThen_raised]⟩

/-- The engine after a GET or GET_BYPASS that completes. -/
theorem completed_fpaq0pGot (o : BitVec 4) (r : Reply) (ctx : Option Nat) (l : Nat) (bit : Bool) (e : Engine) :
    let t := completeCmd o r (fpaq0pGot ctx l bit e)
    t.phase = e.phase ∧ t.fam = e.fam ∧ t.src = e.src ∧ t.bitpos = e.bitpos ∧ t.laneCount = e.laneCount ∧
    t.lanesDec = (setLaneDec e l ((laneDec e l).decoded bit (symProb ctx e) e.src e.laneCount l)).lanesDec ∧
    t.ctx = (symCtxSet ctx (probUpdate (symProb ctx e) bit) e).ctx := by
  simp [completeCmd_eq, fpaq0pGot, setLaneDec]

theorem laneDec_congr {e t : Engine} (h : t.lanesDec = e.lanesDec) : laneDec t = laneDec e := by
  funext i
  rw [laneDec, laneDec, h]

/-- Settles O44: the bit of the comparison selects its part of the lane's interval, and the refill takes as many of the lane's
bytes as the part has equal leading ones. -/
theorem fpaq0pGetResult : Obligations.Fpaq0pGetResult := by
  intro s e l ctx he hinv hdec hl hc r p mid bit lo hi next
  obtain ⟨hlen, hint⟩ := lanesDecInv_iff.mp (hinv.lanesDec hdec)
  have hlt : l < e.lanesDec.length := hlen.symm ▸ hl
  obtain ⟨hlo, hhi⟩ : (cutLow bit p r.low r.high).toNat = lo ∧ (cutHigh bit p r.low r.high).toNat = hi :=
    cut_toNat (hint l hl) bit p
  have heq := cut_equalLeadingBytes bit p r.low r.high
  obtain ⟨hlow, hhigh⟩ := next_toNat bit p r.low r.high
  have hp : symProb ctx e = p := rfl
  have hr : laneDec e l = r := rfl
  have hnext : ∀ n, bytesValue ((List.range n).map fun j => laneByte e.src e.laneCount l (r.k + j)) = next n := fun _ => rfl
  have hbit : midBit p r.low r.high r.value = bit := rfl
  have hcheck := checkCommand_fpaq0pGet (y := ⟨bit, ctx, l⟩) hdec hl hc
  clear_value next lo hi bit mid p r
  subst hp hlo hhi hr
  obtain ⟨hok, hraise⟩ := fpaq0pGet_cases ⟨bit, ctx, l⟩ s.params hlt hbit
  obtain ⟨hph, hfam, -, hpos, -, hlanes, hctx⟩ :=
    completed_fpaq0pGot (opBits (getInstr .fpaq0p ⟨bit, ctx, l⟩).op) (.ofBit bit) ctx l bit e
  refine ⟨cutBytes bit (symProb ctx e) (laneDec e l).low (laneDec e l).high, heq, ?_⟩
  split
  · next hleft =>
    refine ⟨_, completes_of_body he hcheck (hok hleft), hph.trans hdec.1, ?_⟩
    rw [laneDec_congr hlanes, laneDec_setLaneDec hlt, if_pos rfl]
    refine ⟨rfl, hlow, hhigh, (next_intervalInv (hint l hl) bit _).2, ?_, fun i hi => ?_, hpos,
      ctxGet_of_symCtxSet hinv.ctx.1 hfam hctx⟩
    · rw [← hnext, LaneDec.decoded, shiftInBytes_toNat]
    · rw [laneDec_setLaneDec hlt, if_neg hi]
  · next hnone =>
    obtain ⟨t, ht⟩ := hraise hnone
    exact ⟨_, raises_of_body he hcheck ht⟩

end Sys2Proof.Machine
end

section
/-! SUPPORT, then O59. FPAQ0P sessions round-trip (R334): each lane is a coder of its own, whose stream is spread over the
output, and the decoder follows every one of them. -/

namespace Sys2Proof.Machine

open Sys2Proof

/-! ### The stream of a lane -/

/-- The bytes of lane `i` in an interleaved input of `n` lanes, as far as all lanes go (R328). -/
def laneStream (src : List Byte) (n i : Nat) : List Byte := (List.range (src.length / n)).map (laneByte src n i)

theorem laneStream_length (src : List Byte) (n i : Nat) : (laneStream src n i).length = src.length / n := by
  rw [laneStream, List.length_map, List.length_range]

theorem getElem?_laneStream {src : List Byte} {n i j : Nat} (hj : j < src.length / n) :
    (laneStream src n i)[j]? = some (laneByte src n i j) := by
  rw [laneStream, List.getElem?_map, List.getElem?_range hj, Option.map_some]

/-- A refill that stays within the lane's stream reads it (R331). -/
theorem shiftInBytes_laneStream {src : List Byte} {lanes i k n : Nat} (v : Word)
    (h : k + n ≤ (laneStream src lanes i).length) :
    shiftInBytes (fun j => (laneStream src lanes i).getD j 0) k n v = shiftInBytes (laneByte src lanes i) k n v := by
  rw [laneStream_length] at h
  refine BitVec.eq_of_toNat_eq ?_
  rw [shiftInBytes_toNat, shiftInBytes_toNat]
  congr 3
  refine List.map_congr_left fun j hj => ?_
  have hj := List.mem_range.mp hj
  rw [List.getD_eq_getElem?_getD, getElem?_laneStream (by omega), Option.getD_some]

/-- A refill that stays within the lane's stream has its bytes (R81, R328). -/
theorem laneLeft_of_stream {d : Engine} {i n : Nat} (hi : i < d.laneCount)
    (h : (laneDec d i).k + n ≤ (laneStream d.src d.laneCount i).length) : LaneLeft d i n := by
  rw [laneStream_length, Nat.le_div_iff_mul_le (Nat.zero_lt_of_lt hi)] at h
  cases n with
  | zero => exact .inl rfl
  | succ n =>
    refine .inr (.inr ?_)
    rw [← Nat.add_assoc, Nat.succ_mul] at h
    rw [Nat.add_sub_cancel]
    omega

/-! ### The coder of a lane -/

/-- The coder of lane `i`: the bytes at its positions, and its interval (R46, R80). -/
def laneCoder (e : Engine) (i : Nat) : Coder :=
  ⟨(List.range (laneEnc e i).k).map fun j => slotByte e (j * e.laneCount + i), (laneEnc e i).low, (laneEnc e i).high⟩

/-- Nothing else of the engine counts. -/
theorem laneCoder_congr {e t : Engine} (hlanes : t.lanesEnc = e.lanesEnc) (hslots : t.slots = e.slots)
    (hcount : t.laneCount = e.laneCount) : laneCoder t = laneCoder e := by
  funext i
  simp only [laneCoder, slotByte, laneEnc_congr hlanes, hslots, hcount]

theorem lanesEncInv_congr {e t : Engine} (hlanes : t.lanesEnc = e.lanesEnc) (hslots : t.slots = e.slots)
    (hcount : t.laneCount = e.laneCount) (h : LanesEncInv e) : LanesEncInv t := by
  simpa only [LanesEncInv, laneEnc_congr hlanes, hlanes, hslots, hcount] using h

/-- The coder of a lane that puts bytes out, and of the others. -/
theorem LaneWrote.laneCoder {i : Nat} {vs : List Byte} {low high : Word} {e t : Engine}
    (h : LaneWrote i vs low high e t) (hi : i < e.laneCount) {i' : Nat} (hi' : i' < e.laneCount) :
    Machine.laneCoder t i' =
      if i' = i then ⟨(Machine.laneCoder e i).bytes ++ vs, low, high⟩ else Machine.laneCoder e i' := by
  simp only [Machine.laneCoder, h.frame.laneCount, h.slotByte hi hi']
  split
  · next heq =>
    rw [heq, h.lane, List.range_add, List.map_append, List.map_map]
    congr 2
    · refine List.map_congr_left fun j hj => if_neg ?_
      have hj := List.mem_range.mp hj
      omega
    · refine List.ext_getElem (by rw [List.length_map, List.length_range]) fun j hj hj' => ?_
      rw [List.getElem_map, List.getElem_range, Function.comp_apply, if_pos ⟨rfl, by omega, by omega⟩,
        Nat.add_sub_cancel_left, List.getD_eq_getElem _ _ hj']
  · next hne =>
    rw [h.other hne]
    congr 1
    exact List.map_congr_left fun j _ => if_neg fun h => hne h.1

/-- No lane is longer than the longest (R80). -/
theorem laneEnc_le_longest {e : Engine} {i : Nat} (hi : i < e.lanesEnc.length) :
    (laneEnc e i).k ≤ (e.lanesEnc.map LaneEnc.k).foldl max 0 := by
  have hmem : laneEnc e i ∈ e.lanesEnc := by
    rw [laneEnc, List.getD_eq_getElem _ _ hi]
    exact List.getElem_mem hi
  obtain ⟨-, hmax⟩ := List.max?_eq_some_iff.mp (List.max?_cons' (x := 0) (xs := e.lanesEnc.map LaneEnc.k))
  exact hmax _ (List.mem_cons_of_mem _ (List.mem_map_of_mem hmem))

/-- The output of a lane's coder is at the front of its stream, and padding follows (R326). -/
theorem laneCoder_output_prefix {e : Engine} (h : SlotsInStep e) {i : Nat} (hi : i < e.laneCount) :
    (laneCoder e i).output <+: laneStream (slotOutput (flushLanes (List.range e.laneCount) e)) e.laneCount i := by
  obtain ⟨hlen, hbytes⟩ := slotOutput_flushLanes h
  have hn : 0 < e.laneCount := Nat.zero_lt_of_lt hi
  have hk := laneEnc_le_longest (h.length.symm ▸ hi)
  have hcount : (laneCoder e i).bytes.length = (laneEnc e i).k := by rw [laneCoder, List.length_map, List.length_range]
  have hout : (laneCoder e i).output.length = (laneEnc e i).k + 4 := by rw [(laneCoder e i).output_parts.1, hcount]
  rw [List.prefix_iff_getElem?]
  intro j hj
  rw [hout] at hj
  rw [getElem?_laneStream (by rw [hlen, Nat.mul_div_cancel_left _ hn]; omega), laneByte, List.getD_eq_getElem?_getD,
    hbytes i j hi (by omega), Option.getD_some, ← List.getElem?_eq_getElem, laneOutByte, Coder.output]
  split
  · next hold =>
    rw [List.getElem?_append_left (hcount.symm ▸ hold), laneCoder, List.getElem?_map, List.getElem?_range hold]
    rfl
  · next hflush =>
    rw [List.getElem?_append_right (by omega), hcount, getElem?_wordBytesBE _ (by omega)]
    rfl

/-! ### The session and its decoder -/

/-- An open FPAQ0P encoder session of `n` lanes. -/
structure Fpaq0pOpen (n : Nat) (e : Engine) : Prop where
  encoding : Encoding .fpaq0p e
  count : e.laneCount = n
  lanes : LanesEncInv e

/-- An input whose streams spell a number in the interval of every lane. -/
def Fpaq0pFits (n : Nat) (e : Engine) (src : List Byte) : Prop :=
  ∀ i, i < n → (laneCoder e i).interval.Holds (laneStream src n i)

/-- The decoder `d` follows the encoder `e` (R334): the same contexts, and in every lane the same interval and a value read from
the coder's stream. -/
structure Fpaq0pFollows (n : Nat) (e d : Engine) : Prop where
  decoding : Decoding .fpaq0p d
  lastErr : d.lastErr = .ok
  ctx : d.ctx = e.ctx
  count : d.laneCount = n
  length : d.lanesDec.length = n
  low : ∀ i, i < n → (laneDec d i).low = (laneEnc e i).low
  high : ∀ i, i < n → (laneDec d i).high = (laneEnc e i).high
  reads : ∀ i, i < n → (laneCoder e i).Reads (laneStream d.src n i) (laneDec d i).value (laneDec d i).k

theorem Fpaq0pOpen.good {n : Nat} {e : Engine} (h : Fpaq0pOpen n e) {i : Nat} (hi : i < n) : (laneCoder e i).Good :=
  (lanesEncInv_iff.mp h.lanes).2 i (h.count.symm ▸ hi)

section
variable {n : Nat} {p : Params} {y : CodedSym} {e : Engine}

/-- A symbol coded: what PUT or PUT_BYPASS makes of the session (R324, R325). -/
theorem fpaq0pPut_effect (hl : y.lane < n) (hc : ∀ c ∈ y.ctx, c < p.numCtx) (h : Fpaq0pOpen n e) :
    let t := commandEffect p (putInstr .fpaq0p y) e
    Fpaq0pOpen n t ∧
    (∀ i, i < n → laneCoder t i =
      if i = y.lane then (laneCoder e i).code y.bit (symProb y.ctx e) else laneCoder e i) ∧
    t.ctx = (symCtxSet y.ctx (probUpdate (symProb y.ctx e) y.bit) e).ctx := by
  intro t
  have hcount := h.count
  have hlane : y.lane < e.laneCount := hcount.symm ▸ hl
  have ht : t = completeCmd (opBits (putInstr .fpaq0p y).op) .none (fpaq0pPut y e) :=
    commandEffect_of_body (checkCommand_fpaq0pPut h.encoding hlane hc) (fpaq0pPut_body y p e)
  obtain ⟨hph, hfam, hn, hlanes, hslots, hctx⟩ := completed_fpaq0pPut (opBits (putInstr .fpaq0p y).op) .none y e
  rw [← ht] at hph hfam hn hlanes hslots hctx
  have hlen : e.lanesEnc.length = e.laneCount := h.lanes.1
  have hwrote := laneWrote_laneEncode (hlen.symm ▸ hlane) hlane y.bit (symProb y.ctx e)
  have hsame := hwrote.frame.laneCount
  refine ⟨⟨⟨hph.trans h.encoding.1, hfam.trans h.encoding.2⟩, hn.trans hcount, ?_⟩, fun i hi => ?_, hctx⟩
  · exact lanesEncInv_congr hlanes hslots (hn.trans hsame.symm) (lanesEncInv_laneEncode _ _ hlane h.lanes)
  · rw [laneCoder_congr hlanes hslots (hn.trans hsame.symm), hwrote.laneCoder hlane (hcount.symm ▸ hi)]
    split
    · next heq => rw [heq]; rfl
    · rfl

/-- A decoder that follows the encoder of a symbol gives its bit back and follows on (R334). -/
theorem Fpaq0pFollows.get {t d : Engine} (h : Fpaq0pFollows n e d) (hopen : Fpaq0pOpen n e) (hl : y.lane < n)
    (hc : ∀ c ∈ y.ctx, c < p.numCtx)
    (ht : ∀ i, i < n → laneCoder t i =
      if i = y.lane then (laneCoder e i).code y.bit (symProb y.ctx e) else laneCoder e i)
    (hctx : t.ctx = (symCtxSet y.ctx (probUpdate (symProb y.ctx e) y.bit) e).ctx) (hfits : Fpaq0pFits n t d.src) :
    let v := commandEffect p (getInstr .fpaq0p y) d
    Fpaq0pFollows n t v ∧ v.src = d.src ∧ v.responses = getResponse y :: d.responses := by
  intro v
  have hcount := h.count
  have hlane : y.lane < d.laneCount := hcount.symm ▸ hl
  have hlen : y.lane < d.lanesDec.length := h.length.symm ▸ hl
  have hsame : d.fam = e.fam := h.decoding.2.trans hopen.encoding.2.symm
  have hsym := symProb_congr hsame h.ctx y.ctx
  have hcode := (ht y.lane hl).trans (if_pos rfl)
  have hholds := hfits y.lane hl
  rw [hcode] at hholds
  obtain ⟨hbit, hleft, hreads⟩ := (h.reads y.lane hl).next (hopen.good hl) hholds
  have hlow : (laneCoder e y.lane).low = (laneDec d y.lane).low := (h.low y.lane hl).symm
  have hhigh : (laneCoder e y.lane).high = (laneDec d y.lane).high := (h.high y.lane hl).symm
  rw [shiftInBytes_laneStream _ hleft] at hreads
  rw [hlow, hhigh, ← hsym] at hbit hleft hreads
  rw [← hcount] at hleft
  have hb := (fpaq0pGet_cases y p hlen hbit).1 (laneLeft_of_stream hlane hleft)
  have hv : v = completeCmd (opBits (getInstr .fpaq0p y).op) (.ofBit y.bit) (fpaq0pGot y.ctx y.lane y.bit d) :=
    commandEffect_of_body (checkCommand_fpaq0pGet h.decoding hlane hc) hb
  obtain ⟨hph, hfam, hsrc, -, hn, hlanes, hvctx⟩ :=
    completed_fpaq0pGot (opBits (getInstr .fpaq0p y).op) (.ofBit y.bit) y.ctx y.lane y.bit d
  have hresp : v.responses = getResponse y :: d.responses := by
    rw [hv]
    obtain ⟨b, ctx, l⟩ := y
    cases ctx <;> rfl
  have herr : v.lastErr = .ok := by rw [hv]; rfl
  rw [← hv] at hph hfam hsrc hn hlanes hvctx
  have hdec : ∀ i, laneDec v i =
      if i = y.lane then (laneDec d i).decoded y.bit (symProb y.ctx d) d.src n i else laneDec d i := fun i => by
    rw [laneDec_congr hlanes, laneDec_setLaneDec hlen, hcount]
    split
    · next heq => rw [heq]
    · rfl
  have hone : ∀ i, i < n → (laneDec v i).low = (laneCoder t i).low ∧ (laneDec v i).high = (laneCoder t i).high ∧
      (laneCoder t i).Reads (laneStream d.src n i) (laneDec v i).value (laneDec v i).k := fun i hi => by
    rw [hdec, ht i hi]
    split
    · next heq =>
      rw [heq, Coder.code, hlow, hhigh, ← hsym]
      rw [Coder.code, hlow, hhigh] at hreads
      exact ⟨rfl, rfl, hreads⟩
    · exact ⟨h.low i hi, h.high i hi, h.reads i hi⟩
  refine ⟨⟨⟨hph.trans h.decoding.1, hfam.trans h.decoding.2⟩, herr, ?_, hn.trans hcount, ?_, fun i hi => (hone i hi).1,
    fun i hi => (hone i hi).2.1, fun i hi => ?_⟩, hsrc, hresp⟩
  · rw [hvctx, hctx, hsym, symCtxSet_ctx_congr hsame h.ctx]
  · rw [hlanes, setLaneDec_length, h.length]
  · rw [hsrc]
    exact (hone i hi).2.2

/-- A symbol of an FPAQ0P session (R324, R325, R334). -/
theorem fpaq0p_symFollows (hl : y.lane < n) (hc : ∀ c ∈ y.ctx, c < p.numCtx) (h : Fpaq0pOpen n e) :
    SymFollows .fpaq0p p (Fpaq0pOpen n) (Fpaq0pFits n) (Fpaq0pFollows n) y e := by
  obtain ⟨hopen, hcoder, hctx⟩ := fpaq0pPut_effect hl hc h
  refine ⟨hopen, fun src hsrc i hi => ?_, fun d hd hsrc => hd.get h hl hc hcoder hctx hsrc⟩
  have hholds := hsrc i hi
  rw [hcoder i hi] at hholds
  split at hholds
  · exact hholds.of_within (Coder.code_within (h.good hi) _ _)
  · exact hholds

end

/-! ### OPEN and FINISH -/

/-- OPEN_ENC of FPAQ0P starts a coder in every lane (R53, R323). -/
theorem fpaq0pOpenEnc_effect (n : Nat) (p : Params) (e : Engine) :
    let t := commandEffect p (.fpaq0pOpenEnc n) e
    Fpaq0pOpen n t ∧ (∀ i, i < n → laneCoder t i = Coder.start) ∧ t.ctx = [] := by
  intro t
  have ht : t = completeCmd (opBits .openEnc) .none
      ((openEncoder .fpaq0p n e).setLanesEnc (List.replicate n ⟨0, 0xFFFFFFFF, 0⟩)) :=
    commandEffect_of_body (checkCommand_open (.inl rfl) p e) rfl
  have hlanes : t.lanesEnc = List.replicate n ⟨0, 0xFFFFFFFF, 0⟩ := by rw [ht]; rfl
  have hcount : t.laneCount = n := by rw [ht]; rfl
  have hslots : t.slots = [] := by rw [ht]; rfl
  refine ⟨⟨by rw [ht]; exact ⟨rfl, rfl⟩, hcount, lanesEncInv_open hlanes hcount hslots⟩, fun i hi => ?_, by rw [ht]; rfl⟩
  have hlane : laneEnc t i = ⟨0, 0xFFFFFFFF, 0⟩ := by
    rw [laneEnc, hlanes, List.getD_eq_getElem?_getD, List.getElem?_replicate_of_lt hi, Option.getD_some]
  rw [laneCoder, hlane]
  rfl

/-- FINISH of FPAQ0P (R326): the output holds the lanes' coders' outputs, and the contexts stay. -/
theorem fpaq0pFinish_effect {n : Nat} {p : Params} {e : Engine} (hun : Unbounded p) (h : Fpaq0pOpen n e) :
    let t := commandEffect p .fpaq0pFinish e
    ∃ out, (t.readableOutput = some out ∧ t.ctx = e.ctx ∧ t.fam = .fpaq0p) ∧ Fpaq0pFits n e out ∧
      4 * n ≤ out.length := by
  intro t
  have ht : t = completeCmd (opBits .finish) _ (fpaq0pFinished e) :=
    commandEffect_of_body (checkCommand_fpaq0pFinish h.encoding) (fpaq0pFinishBody_inMemory hun.1 h.encoding.2)
  have hframe := flushLanes_frame (List.range e.laneCount) e
  obtain ⟨hslots, -⟩ := lanesEncInv_iff.mp h.lanes
  obtain ⟨hlen, -⟩ := slotOutput_flushLanes hslots
  have hcount := h.count
  refine ⟨slotOutput (flushLanes (List.range e.laneCount) e), ?_, fun i hi => ?_, ?_⟩
  · rw [ht]
    exact ⟨congrArg some (fpaq0pFinished_output h.encoding.2), hframe.ctx, hframe.fam.trans h.encoding.2⟩
  · have hprefix := laneCoder_output_prefix hslots (hcount.symm ▸ hi)
    rw [hcount] at hprefix ⊢
    exact Coder.holds_output hprefix
  · rw [hlen, hcount, Nat.mul_comm 4]
    exact Nat.mul_le_mul_left _ (Nat.le_add_left _ _)

/-- OPEN_DEC of FPAQ0P on an input of four bytes a lane at least follows the coders of a new session (R330, R334). -/
theorem fpaq0pOpenDec_follows {n : Nat} (p : Params) {e d : Engine} (hn : 0 < n)
    (hcoder : ∀ i, i < n → laneCoder e i = Coder.start) (hctx : e.ctx = []) (hlen : 4 * n ≤ d.staged.length) :
    let v := commandEffect p (.fpaq0pOpenDec n true) d
    Fpaq0pFollows n e v ∧ v.src = d.staged := by
  intro v
  obtain ⟨ls, hb, hcount, hseed⟩ := fpaq0pOpenDecBody_eq (eof := true) (.inr hlen) p
  have hv : v = completeCmd (opBits .openDec) .none ((openDecoder .fpaq0p n true d).setLanesDec ls) :=
    commandEffect_of_body (checkCommand_open (.inr rfl) p d) hb
  have hsrc : v.src = d.staged := by rw [hv]; rfl
  have hlanes : v.lanesDec = ls := by rw [hv]; rfl
  have hlane : ∀ i, i < n → laneDec v i = LaneDec.seed ⟨0, 0xFFFFFFFF, 0, 0⟩ d.staged n i 4 := fun i hi => by
    rw [laneDec, hlanes]
    exact hseed i hi
  have hfour : 4 ≤ d.staged.length / n := (Nat.le_div_iff_mul_le hn).mpr hlen
  refine ⟨⟨by rw [hv]; exact ⟨rfl, rfl⟩, by rw [hv]; rfl, by rw [hv, hctx]; rfl, by rw [hv]; rfl, hlanes ▸ hcount,
    fun i hi => ?_, fun i hi => ?_, fun i hi => ?_⟩, hsrc⟩
  · exact (congrArg LaneDec.low (hlane i hi)).trans (congrArg Coder.low (hcoder i hi)).symm
  · exact (congrArg LaneDec.high (hlane i hi)).trans (congrArg Coder.high (hcoder i hi)).symm
  · have hreads := Coder.start_reads (laneStream d.staged n i) 0
    rw [shiftInBytes_laneStream _ (by rw [laneStream_length]; omega)] at hreads
    rw [hcoder i hi, hsrc, hlane i hi]
    exact hreads

/-- Settles O59: in every lane the output is a number in every interval of the session, so that the decoder follows the encoder
from OPEN_DEC on. -/
theorem fpaq0pRoundTrip : Obligations.Fpaq0pRoundTrip := by
  refine fun n hn _ => roundTrips_of_engine fun p e syms hun hsyms => ?_
  obtain ⟨hopen, hstart, hctx⟩ := fpaq0pOpenEnc_effect n p e
  obtain ⟨hopen', -, hrun⟩ :=
    run_follows (fun y hy e => fpaq0p_symFollows (e := e) (hsyms y hy).1 (hsyms y hy).2) hopen
  obtain ⟨out, hfinish, hfits, hlen⟩ := fpaq0pFinish_effect hun hopen'
  refine engineRoundTrip_of_parts rfl rfl hfinish fun d hstaged => ?_
  obtain ⟨hfol, hsrc⟩ := fpaq0pOpenDec_follows p hn hstart hctx (hstaged ▸ hlen)
  obtain ⟨hfol', hresp⟩ := hrun _ hfol (by rw [hsrc, hstaged]; exact hfits)
  exact ⟨hfol'.decoding, hfol'.lastErr, hfol'.ctx, _, hresp⟩

end Sys2Proof.Machine
end

section
/-! O7. The actions of the host other than a command word (R88, R89, R393), each on an engine that exists. -/

namespace Sys2Proof.Machine

open Sys2Proof

theorem inputLatched_iff (e : Engine) :
    inputLatched e = true ↔ e.dir = .dec ∧ (e.phase = .dec ∨ e.phase = .faulted) := by
  simp [inputLatched]

section
variable {s : State} {n : Nat} {e : Engine} (he : s.engines[n]? = some e)
include he

/-- Placing an input writes the placed buffer only (R393). -/
theorem placeInput_engine (bytes : List Byte) :
    placeInput n bytes s = .next (s.setEngines (s.engines.set n (e.setStaged bytes))) := by
  simp only [placeInput, he]

/-- Changing the input is refused for a latched one, and otherwise the placing of it (R55, R89). -/
theorem overwriteInput_engine (bytes : List Byte) :
    overwriteInput n bytes s = if inputLatched e then .refused .inputLatched
      else .next (s.setEngines (s.engines.set n (e.setStaged bytes))) := by
  simp only [overwriteInput, he, placeInput_engine he]

/-- The output is read in phase Finished only (R88). -/
theorem readOutput_engine :
    readOutput n s = if e.phase = .finished then .next (s.setReadBack e.output) else .refused .outputNotReadable := by
  by_cases hph : e.phase = .finished
  · simp only [readOutput, he, Engine.readableOutput, if_pos hph]
  · simp only [readOutput, he, Engine.readableOutput, if_neg hph]

end

/-- Settles O7: a step with no action waits, and each action of the host is taken on the engine of its port. -/
theorem hostAccess : Obligations.HostAccess := by
  intro s
  refine ⟨step_nil, fun n rest e bytes he => ?_⟩
  have he' : (s.setHost rest).engines[n]? = some e := he
  refine ⟨fun hs => ?_, fun hs hph => ?_, fun hs hph => ?_, fun hs => ?_⟩ <;> rw [step_cons hs, takeAction]
  · exact placeInput_engine he' bytes
  · rw [readOutput_engine he', if_pos hph]
  · rw [readOutput_engine he', if_neg hph]
  · rw [overwriteInput_engine he']
    simp only [inputLatched_iff]
    rfl

end Sys2Proof.Machine
end

section
/-! SUPPORT, then O13. Commands that no error can stop (R351, R353): with an `InMemory` sink, unbounded counters and queue, and
zero-fill input every procedure goes on, whatever the registers, contexts and input hold. -/

namespace Sys2Proof.Machine

open Sys2Proof

/-! ### Outcomes that go on -/

/-- A procedure goes on, in an engine that meets `P`. -/
def Res.GoesOnIn {α : Type} (P : Engine → Prop) : Res α → Prop
  | .ok _ t => P t
  | .raised _ _ => False

/-- A procedure goes on, in any engine. -/
abbrev Res.Succeeds {α : Type} (r : Res α) : Prop := r.GoesOnIn fun _ => True

/-- A decoder in zero-fill mode: past the end its input reads as zeros (R77, R81). -/
def ZeroFill (e : Engine) : Prop := e.eof = false

section
variable {α β : Type} {P Q : Engine → Prop}

theorem goesOnIn_of_eq {r : Res α} {a : α} {t : Engine} (h : r = .ok a t) (ht : P t) : r.GoesOnIn P := h ▸ ht

/-- A sequence goes on where each of its parts does. -/
theorem goesOnIn_andThen {r : Res α} {f : α → Engine → Res β} (hr : r.GoesOnIn P)
    (hf : ∀ a t, P t → (f a t).GoesOnIn Q) : (r.andThen f).GoesOnIn Q := by
  cases r with
  | ok a t => exact hf a t hr
  | raised c t => exact hr.elim

/-- A procedure that goes on has a result. -/
theorem exists_ok_of_goesOnIn {r : Res α} (h : r.GoesOnIn P) : ∃ a t, r = .ok a t := by
  cases r with
  | ok a t => exact ⟨a, t, rfl⟩
  | raised c t => exact h.elim

/-- A procedure that goes on, followed by a reply: the end of every PUT and GET. -/
theorem succeeds_andThen_ok {r : Res α} {f : α → Engine → β} {g : α → Engine → Engine} (h : r.GoesOnIn P) :
    (r.andThen fun a t => .ok (f a t) (g a t)).Succeeds := goesOnIn_andThen h fun _ _ _ => trivial

end

/-! ### Encoders -/

section
variable {p : Params} (hun : Unbounded p)
include hun

/-- An unbounded counter has room (R186, R231). -/
theorem counterFull_unbounded (n : Nat) : counterFull p n = false := by
  obtain ⟨-, hnone, -⟩ := hun
  rw [counterFull, hnone, Option.any_none]

theorem putBit_succeeds (b : Bool) (e : Engine) : (putBit p b e).Succeeds :=
  goesOnIn_of_eq ((putBit_written p b e).inMemory hun.1) trivial

theorem incOutstanding_succeeds (e : Engine) : (incOutstanding p e).Succeeds := by
  rw [incOutstanding, counterFull_unbounded hun]
  trivial

theorem renormEClassify_succeeds (e : Engine) : (renormEClassify p e).Succeeds := by
  simp only [renormEClassify]
  split
  · exact putBit_succeeds hun false e
  · split
    · exact putBit_succeeds hun true _
    · exact incOutstanding_succeeds hun _

/-- RenormE goes on from every range, 0 included: the number of its passes is bounded (R187). -/
theorem cabacRenormE_succeeds (n : Nat) (e : Engine) : (cabacRenormE p n e).Succeeds := by
  induction n generalizing e with
  | zero => trivial
  | succ n ih =>
    rw [cabacRenormE]
    split
    · exact goesOnIn_andThen (renormEClassify_succeeds hun e) fun _ _ _ => ih _
    · trivial

theorem cabacTerminate_succeeds (e : Engine) : (cabacTerminate p e).Succeeds := by
  rw [cabacTerminate_inMemory hun.1]
  exact succeeds_andThen_ok (cabacRenormE_succeeds hun _ _)

theorem cabacPutBypassBody_succeeds (b : Bool) (e : Engine) : (cabacPutBypassBody b p e).Succeeds := by
  obtain ⟨r, hr, hout⟩ := cabacPutBypassBody_shiftedOut b p e
  obtain ⟨t, ht⟩ := hout.unbounded hun
  rw [hr, ht]
  trivial

theorem cabacPutTermBody_succeeds (b : Bool) (e : Engine) : (cabacPutTermBody b p e).Succeeds := by
  cases b with
  | false => exact succeeds_andThen_ok (cabacRenormE_succeeds hun _ _)
  | true => exact cabacTerminate_succeeds hun e

theorem releaseBytes_succeeds (first fill : Byte) (e : Engine) : (releaseBytes p first fill e).Succeeds :=
  goesOnIn_of_eq (writeBytes_inMemory hun.1 _ e) trivial

theorem incBytesOutstanding_succeeds (e : Engine) : (incBytesOutstanding p e).Succeeds := by
  rw [incBytesOutstanding, counterFull_unbounded hun]
  trivial

theorem formByte_succeeds (e : Engine) : (formByte p e).Succeeds := by
  simp only [formByte]
  split
  · exact succeeds_andThen_ok (releaseBytes_succeeds hun _ _ _)
  · split
    · trivial
    · split
      · exact incBytesOutstanding_succeeds hun _
      · exact succeeds_andThen_ok (releaseBytes_succeeds hun _ _ _)

theorem vp8Shift_succeeds (e : Engine) : (vp8Shift p e).Succeeds := by
  simp only [vp8Shift]
  split
  · exact formByte_succeeds hun _
  · trivial

theorem vp8Shifts_succeeds (n : Nat) (e : Engine) : (vp8Shifts p n e).Succeeds := by
  induction n generalizing e with
  | zero => trivial
  | succ n ih => exact goesOnIn_andThen (vp8Shift_succeeds hun e) fun _ t _ => ih t

theorem vp8RenormE_succeeds (n : Nat) (e : Engine) : (vp8RenormE p n e).Succeeds := by
  induction n generalizing e with
  | zero => trivial
  | succ n ih =>
    rw [vp8RenormE]
    split
    · exact goesOnIn_andThen (vp8Shift_succeeds hun _) fun _ t _ => ih t
    · trivial

theorem encodeBool_succeeds (b : Bool) (prob : Byte) (e : Engine) : (encodeBool p b prob e).Succeeds :=
  vp8RenormE_succeeds hun _ _

theorem sinkClose_finish_succeeds (e : Engine) : ((sinkClose p e).andThen fun _ t => finishSession t).Succeeds := by
  rw [sinkClose_inMemory hun.1]
  trivial

theorem vp8FinishBody_succeeds (e : Engine) : (vp8FinishBody p e).Succeeds := by
  refine goesOnIn_andThen (vp8Shifts_succeeds hun _ e) fun _ t _ =>
    goesOnIn_andThen (P := fun _ => True) ?_ fun _ u _ => sinkClose_finish_succeeds hun u
  split
  · exact releaseBytes_succeeds hun _ _ t
  · trivial

theorem enqueue_succeeds (b : Bool) (prob : Byte) (e : Engine) : (enqueue p b prob e).Succeeds := by
  obtain ⟨-, -, hcap⟩ := hun
  rcases enqueue_cases p b prob e with ⟨hfull, -⟩ | ⟨-, h⟩
  · exact nomatch hcap.symm.trans hfull
  · exact goesOnIn_of_eq h trivial

theorem ransFinishBody_succeeds (e : Engine) : (ransFinishBody p e).Succeeds := by
  simp only [ransFinishBody, writeBytes_inMemory hun.1, sinkClose_inMemory hun.1, andThen_ok]
  trivial

theorem fpaq0Encode_succeeds (b : Bool) (prob : Byte) (e : Engine) : (fpaq0Encode p b prob e).Succeeds :=
  goesOnIn_of_eq ((fpaq0Encode_written p b prob e).inMemory hun.1) trivial

theorem fpaq0FinishBody_succeeds (e : Engine) : (fpaq0FinishBody p e).Succeeds := by
  rw [fpaq0FinishBody, writeBytes_inMemory hun.1]
  exact sinkClose_finish_succeeds hun _

theorem fpaq0pFinishBody_succeeds (e : Engine) : (fpaq0pFinishBody p e).Succeeds := by
  rw [fpaq0pFinishBody, offerBytes_inMemory hun.1]
  trivial

/-- With an `InMemory` sink, unbounded counters and an unbounded queue every encoder command goes on (R351). -/
theorem encoder_succeeds {i : Instr} (hi : IsEncoder i) (e : Engine) : (instrBody i p e).Succeeds := by
  cases i with
  | cabacPut b c => exact succeeds_andThen_ok (cabacRenormE_succeeds hun _ _)
  | cabacPutBypass b => exact cabacPutBypassBody_succeeds hun b e
  | cabacPutTerm b => exact cabacPutTermBody_succeeds hun b e
  | cabacFinish => exact cabacTerminate_succeeds hun e
  | vp8Put | vp8PutBypass => exact succeeds_andThen_ok (encodeBool_succeeds hun _ _ e)
  | vp8Finish => exact vp8FinishBody_succeeds hun e
  | ransPut | ransPutBypass => exact succeeds_andThen_ok (enqueue_succeeds hun _ _ e)
  | ransFinish => exact ransFinishBody_succeeds hun e
  | fpaq0Put | fpaq0PutBypass => exact succeeds_andThen_ok (fpaq0Encode_succeeds hun _ _ e)
  | fpaq0Finish => exact fpaq0FinishBody_succeeds hun e
  | fpaq0pPut | fpaq0pPutBypass => trivial
  | fpaq0pFinish => exact fpaq0pFinishBody_succeeds hun e
  | _ => rcases hi with h | h | h | h <;> cases h

end

/-! ### Decoders -/

section
variable {e : Engine} (hzero : ZeroFill e)
include hzero

theorem readBit_zeroFill : (readBit e).GoesOnIn ZeroFill := goesOnIn_of_eq (readBit_ok (.inr hzero)) hzero

theorem readByte_zeroFill : (readByte e).GoesOnIn ZeroFill :=
  goesOnIn_of_eq (readByteLoop_eq 0 (.inr (.inl hzero))) hzero

theorem offsetShift_zeroFill : (offsetShift e).GoesOnIn ZeroFill := goesOnIn_of_eq (offsetShift_ok (.inr hzero)) hzero

/-- RenormD goes on from every range, 0 included: the number of its passes is bounded (R202). -/
theorem cabacRenormD_zeroFill (n : Nat) : (cabacRenormD n e).GoesOnIn ZeroFill := by
  induction n generalizing e with
  | zero => exact hzero
  | succ n ih =>
    rw [cabacRenormD]
    split
    · exact goesOnIn_andThen (offsetShift_zeroFill hzero) fun _ _ ht => ih ht
    · exact hzero

theorem cabacGetBypassBody_succeeds (p : Params) : (cabacGetBypassBody p e).Succeeds :=
  goesOnIn_andThen (offsetShift_zeroFill hzero) fun _ _ _ => by
    dsimp only
    split <;> trivial

theorem cabacGetTermBody_succeeds (p : Params) : (cabacGetTermBody p e).Succeeds := by
  simp only [cabacGetTermBody]
  split
  · trivial
  · exact succeeds_andThen_ok (cabacRenormD_zeroFill (by exact hzero) _)

theorem vp8RenormD_zeroFill (n : Nat) : (vp8RenormD n e).GoesOnIn ZeroFill := by
  induction n generalizing e with
  | zero => exact hzero
  | succ n ih =>
    rw [vp8RenormD]
    split
    · exact goesOnIn_andThen (readBit_zeroFill hzero) fun _ _ ht => ih ht
    · exact hzero

theorem decodeBool_succeeds (prob : Byte) : (decodeBool prob e).Succeeds :=
  succeeds_andThen_ok (vp8RenormD_zeroFill (by exact hzero) _)

theorem decodeSym_succeeds (prob : Byte) : (decodeSym prob e).Succeeds := by
  simp only [decodeSym]
  split
  · exact succeeds_andThen_ok (readByte_zeroFill hzero)
  · trivial

theorem fpaq0RenormD_zeroFill (n : Nat) : (fpaq0RenormD n e).GoesOnIn ZeroFill := by
  induction n generalizing e with
  | zero => exact hzero
  | succ n ih =>
    rw [fpaq0RenormD]
    split
    · exact goesOnIn_andThen (readByte_zeroFill hzero) fun _ _ ht => ih ht
    · exact hzero

theorem fpaq0DecodeBit_succeeds (prob : Byte) : (fpaq0DecodeBit prob e).Succeeds :=
  succeeds_andThen_ok (fpaq0RenormD_zeroFill (by exact hzero) _)

theorem laneRefill_zeroFill (i : Nat) : (laneRefill i e).GoesOnIn ZeroFill := by
  rw [laneRefill, laneRead, slotRead_ok (.inr hzero)]
  exact hzero

theorem laneRenormD_zeroFill (i n : Nat) : (laneRenormD i n e).GoesOnIn ZeroFill := by
  induction n generalizing e with
  | zero => exact hzero
  | succ n ih =>
    simp only [laneRenormD]
    split
    · exact goesOnIn_andThen (laneRefill_zeroFill (by exact hzero) i) fun _ _ ht => ih ht
    · exact hzero

theorem laneDecode_succeeds (i : Nat) (prob : Byte) : (laneDecode i prob e).Succeeds :=
  succeeds_andThen_ok (laneRenormD_zeroFill (by exact hzero) i _)

/-- In zero-fill mode every decoder command goes on (R353). -/
theorem decoder_succeeds {i : Instr} (hi : IsDecoder i) (p : Params) : (instrBody i p e).Succeeds := by
  cases i with
  | cabacGet c => exact succeeds_andThen_ok (cabacRenormD_zeroFill (by exact hzero) _)
  | cabacGetBypass => exact cabacGetBypassBody_succeeds hzero p
  | cabacGetTerm => exact cabacGetTermBody_succeeds hzero p
  | vp8Get | vp8GetBypass => exact succeeds_andThen_ok (decodeBool_succeeds hzero _)
  | ransGet | ransGetBypass => exact succeeds_andThen_ok (decodeSym_succeeds hzero _)
  | fpaq0Get | fpaq0GetBypass => exact succeeds_andThen_ok (fpaq0DecodeBit_succeeds hzero _)
  | fpaq0pGet | fpaq0pGetBypass => exact succeeds_andThen_ok (laneDecode_succeeds hzero _ _)
  | _ => rcases hi with h | h | h <;> cases h

end

/-! ### Every command -/

/-- OPEN_DEC with E = 0 goes on (R54, R353). -/
theorem openDec_succeeds {i : Instr} (hi : i.op = .openDec) (hmode : i.fields.b = false) (p : Params) (e : Engine) :
    (instrBody i p e).Succeeds := by
  cases i with
  | cabacOpenDec eof => exact goesOnIn_of_eq (cabacOpenDecBody_eq (.inl hmode) p) trivial
  | vp8OpenDec eof => exact goesOnIn_of_eq (vp8OpenDecBody_eq (.inl hmode) p) trivial
  | ransOpenDec eof => exact goesOnIn_of_eq (ransOpenDecBody_eq (.inl hmode) p) trivial
  | fpaq0OpenDec eof => exact goesOnIn_of_eq (fpaq0OpenDecBody_eq (.inl hmode) p) trivial
  | fpaq0pOpenDec n eof =>
    obtain ⟨ls, hb, -⟩ := fpaq0pOpenDecBody_eq (n := n) (.inl hmode) p
    exact goesOnIn_of_eq hb trivial
  | _ => cases hi

/-- Where no error can stop it, the rule of every command goes on (R351, R353). -/
theorem instrBody_succeeds {i : Instr} {p : Params} {e : Engine} (hun : Unbounded p)
    (hget : IsDecoder i → e.eof = false) (hopen : i.op = .openDec → i.fields.b = false) :
    (instrBody i p e).Succeeds := by
  rcases instr_kinds i with (hi | hi) | hi | hi | hi
  · obtain ⟨u, hu, -⟩ := openEnc_body hi p e
    exact goesOnIn_of_eq hu trivial
  · exact openDec_succeeds hi (hopen hi) p e
  · exact encoder_succeeds hun hi e
  · exact decoder_succeeds (hget hi) hi p
  · obtain ⟨r, m, hm, -⟩ := context_coded hi p e
    exact goesOnIn_of_eq hm trivial

/-- A legal command passes the checks of R130. -/
theorem checkCommand_of_legal {p : Params} {e : Engine} {i : Instr} (h : Legal p e i) :
    checkCommand p e i.family i.op (laneOperand i) (ctxOperand i) = .ok := by
  rwa [checkCommand_eq_ok, legalNow_iff]

/-- Settles O13: a legal command runs its rule, which goes on for every kind of command. -/
theorem plainCommandsComplete : Obligations.PlainCommandsComplete := by
  intro i s e he hun hlegal hget hopen
  obtain ⟨r, u, hb⟩ := exists_ok_of_goesOnIn (instrBody_succeeds hun hget hopen)
  exact ⟨r, _, completes_of_body he (checkCommand_of_legal hlegal) hb⟩

end Sys2Proof.Machine
end

section
/-! SUPPORT, then O16. OPEN_DEC in explicit-EOF mode on an input too short for its seed (R353): the read that passes the end
stops the seeding. -/

namespace Sys2Proof.Machine

open Sys2Proof

/-! ### Seeds of one stream -/

/-- The seeding bits of a CABAC decoder, where the input does not hold them (R210). -/
theorem offsetSeed_exhausted {n : Nat} {e : Engine} (h : ¬InputLeft e n) :
    ∃ t, offsetSeed n e = .raised .inputExhausted t := by
  induction n generalizing e with
  | zero => exact absurd (.inl rfl) h
  | succ n ih =>
    rw [offsetSeed]
    by_cases hbit : e.bitpos < 8 * e.src.length ∨ e.eof = false
    · rw [offsetShift_ok hbit, andThen_ok]
      exact ih fun hrest => h (inputLeft_succ.mpr ⟨hbit, hrest⟩)
    · exact ⟨e, by rw [offsetShift_exhausted hbit, andThen_raised]⟩

/-- A loop that reads `n` bytes from byte `k` of the input on and stores each of them outside the source, where the input
ends before the last of them (R282, R314). -/
theorem seedLoop_exhausted {seed : Nat → Engine → Res Unit} {store : Byte → Engine → Engine}
    (hloop : ∀ n e, seed (n + 1) e = (readByte e).andThen fun v t => seed n (store v t))
    (hstore : ∀ v e, (store v e).src = e.src ∧ (store v e).eof = e.eof ∧ (store v e).bitpos = e.bitpos)
    {n k : Nat} {e : Engine} (hk : e.bitpos = 8 * k) (heof : e.eof = true) (hin : k ≤ e.src.length)
    (hshort : e.src.length < k + n) : ∃ t, seed n e = .raised .inputExhausted t := by
  induction n generalizing e k with
  | zero => omega
  | succ n ih =>
    rw [hloop]
    by_cases hbyte : k < e.src.length
    · rw [readByte_aligned hk (.inl hbyte), andThen_ok]
      obtain ⟨hsrc, heof', hpos⟩ := hstore (e.src.getD k 0) (e.setBitpos (8 * (k + 1)))
      have hlen := congrArg List.length hsrc
      rw [Engine.setBitpos_src] at hlen
      exact ih hpos (heof'.trans heof) (by omega) (by omega)
    · exact ⟨e, by rw [readByte_exhausted (by omega) heof, andThen_raised]⟩

/-! ### Seeds of the lanes -/

/-- The byte of lane `i` that comes after `j` more of them is in the input, or reads as zeros past its end (R81, R328). -/
def LaneByteLeft (e : Engine) (i j : Nat) : Prop :=
  ((laneDec e i).k + j) * e.laneCount + i < e.src.length ∨ e.eof = false

/-- A refill of a lane whose next byte is not there (R81, R353). -/
theorem laneRefill_exhausted {e : Engine} {i : Nat} (h : ¬LaneByteLeft e i 0) :
    laneRefill i e = .raised .inputExhausted e := by
  obtain ⟨hend, heof⟩ := not_or.mp h
  rw [Nat.add_zero] at hend
  rw [laneRefill, laneRead, slotRead, if_neg hend, if_pos (Bool.eq_true_of_not_eq_false heof)]
  rfl

/-- The seeding bytes of one lane, where one of them is not there (R330). -/
theorem laneSeed_exhausted {n i j : Nat} {e : Engine} (hi : i < e.lanesDec.length) (hj : j < n)
    (h : ¬LaneByteLeft e i j) : ∃ t, laneSeed i n e = .raised .inputExhausted t := by
  induction n generalizing e j with
  | zero => omega
  | succ n ih =>
    rw [laneSeed]
    by_cases hnext : LaneByteLeft e i 0
    · obtain ⟨j, rfl⟩ : ∃ m, j = m + 1 := Nat.exists_eq_succ_of_ne_zero fun h0 => h (h0 ▸ hnext)
      have hread := laneRefill_of_slotRead hi (slotRead_ok hnext)
      have hk : ∀ v, (laneDec (setLaneDec e i ((laneDec e i).refill v)) i).k + j = (laneDec e i).k + (j + 1) := fun v => by
        rw [laneDec_setLaneDec hi, if_pos rfl, Nat.add_comm j, ← Nat.add_assoc]
        rfl
      rw [hread, andThen_ok]
      refine ih (by rwa [setLaneDec_length]) (j := j) (by omega) ?_
      rw [LaneByteLeft, hk]
      exact h
    · exact ⟨e, by rw [laneRefill_exhausted hnext, andThen_raised]⟩

/-- The seeding of the lanes of a list, where a byte of one of them is not there (R330). -/
theorem seedLanes_exhausted {is : List Nat} {i j : Nat} {e : Engine} (his : ∀ m ∈ is, m < e.lanesDec.length) (hi : i ∈ is)
    (hj : j < 4) (h : ¬LaneByteLeft e i j) : ∃ t, seedLanes is e = .raised .inputExhausted t := by
  induction is generalizing e with
  | nil => cases hi
  | cons m is ih =>
    have hm := his m List.mem_cons_self
    rw [seedLanes]
    by_cases hall : ∀ j, j < 4 → LaneByteLeft e m j
    · have hne : i ≠ m := by
        rintro rfl
        exact h (hall j hj)
      rw [laneSeed_eq hm hall, andThen_ok]
      refine ih (fun x hx => by rw [setLaneDec_length]; exact his x (List.mem_cons_of_mem m hx))
        (List.mem_of_ne_of_mem hne hi) ?_
      rw [LaneByteLeft, laneDec_setLaneDec hm, if_neg hne]
      exact h
    · obtain ⟨j', hj', hnone⟩ : ∃ j', j' < 4 ∧ ¬LaneByteLeft e m j' := by
        simpa only [not_forall, exists_prop] using hall
      obtain ⟨t, ht⟩ := laneSeed_exhausted hm hj' hnone
      exact ⟨t, by rw [ht, andThen_raised]⟩

/-! ### OPEN_DEC of each family -/

theorem cabacOpenDecBody_exhausted {e : Engine} (h : e.staged.length < 2) (p : Params) :
    ∃ t, cabacOpenDecBody true p e = .raised .inputExhausted t := by
  have hshort : ¬InputLeft ((openDecoder .cabac 1 true e).setCabacDec ⟨510, 0⟩) 9 := by
    rintro (h0 | heof | hin)
    · cases h0
    · cases heof
    · have hin : 0 + 9 ≤ 8 * e.staged.length := hin
      omega
  obtain ⟨t, ht⟩ := offsetSeed_exhausted hshort
  exact ⟨t, by rw [cabacOpenDecBody, ht, andThen_raised]⟩

theorem vp8OpenDecBody_exhausted {e : Engine} (h : e.staged.length < 1) (p : Params) :
    ∃ t, vp8OpenDecBody true p e = .raised .inputExhausted t := by
  have hread := readByte_exhausted (e := (openDecoder .vp8 1 true e).setVp8Dec ⟨255, 0⟩)
    (show 8 * e.staged.length ≤ 0 by omega) rfl
  exact ⟨_, by rw [vp8OpenDecBody, hread, andThen_raised]⟩

theorem ransOpenDecBody_exhausted {e : Engine} (h : e.staged.length < 4) (p : Params) :
    ∃ t, ransOpenDecBody true p e = .raised .inputExhausted t := by
  obtain ⟨t, ht⟩ := seedLoop_exhausted (seed := ransSeed) (fun _ _ => rfl) (fun _ _ => ⟨rfl, rfl, rfl⟩) (n := 4) (k := 0)
    (e := (openDecoder .rans 1 true e).setRansDec ⟨0⟩) rfl rfl (Nat.zero_le _) h
  exact ⟨t, by rw [ransOpenDecBody, ht, andThen_raised]⟩

theorem fpaq0OpenDecBody_exhausted {e : Engine} (h : e.staged.length < 4) (p : Params) :
    ∃ t, fpaq0OpenDecBody true p e = .raised .inputExhausted t := by
  obtain ⟨t, ht⟩ := seedLoop_exhausted (seed := fpaq0Seed) (fun _ _ => rfl) (fun _ _ => ⟨rfl, rfl, rfl⟩) (n := 4) (k := 0)
    (e := (openDecoder .fpaq0 1 true e).setFpaq0Dec ⟨0, 0xFFFFFFFF, 0⟩) rfl rfl (Nat.zero_le _) h
  exact ⟨t, by rw [fpaq0OpenDecBody, ht, andThen_raised]⟩

/-- An input shorter than four bytes a lane lacks the last byte of the last lane (R330). -/
theorem fpaq0pOpenDecBody_exhausted {n : Nat} {e : Engine} (hn : 1 ≤ n) (h : e.staged.length < 4 * n) (p : Params) :
    ∃ t, fpaq0pOpenDecBody n true p e = .raised .inputExhausted t := by
  let e₀ := (openDecoder .fpaq0p n true e).setLanesDec (List.replicate n ⟨0, 0xFFFFFFFF, 0, 0⟩)
  have hlen : e₀.lanesDec.length = n := List.length_replicate
  have hlast : (laneDec e₀ (n - 1)).k = 0 := by
    have hlt : n - 1 < e₀.lanesDec.length := by omega
    rw [laneDec, List.getD_eq_getElem _ _ hlt]
    exact congrArg LaneDec.k (List.getElem_replicate _)
  have hnone : ¬LaneByteLeft e₀ (n - 1) 3 := by
    rw [LaneByteLeft, hlast]
    rintro (hlt | heof)
    · have hlt : (0 + 3) * n + (n - 1) < e.staged.length := hlt
      omega
    · cases heof
  obtain ⟨t, ht⟩ := seedLanes_exhausted (is := List.range n) (fun m hm => hlen.symm ▸ List.mem_range.mp hm)
    (List.mem_range.mpr (by omega)) (by decide) hnone
  exact ⟨t, by rw [fpaq0pOpenDecBody, ht, andThen_raised]⟩

/-- Settles O16: each family's seeding stops, and with it its OPEN_DEC. -/
theorem openDecoderExhausts : Obligations.OpenDecoderExhausts := by
  intro f n s e he hn _ hshort
  have hbody : ∃ t, instrBody (openDecInstr f n true) s.params e = .raised .inputExhausted t := by
    cases f with
    | cabac => exact cabacOpenDecBody_exhausted hshort s.params
    | vp8 => exact vp8OpenDecBody_exhausted hshort s.params
    | rans => exact ransOpenDecBody_exhausted hshort s.params
    | fpaq0 => exact fpaq0OpenDecBody_exhausted hshort s.params
    | fpaq0p => exact fpaq0pOpenDecBody_exhausted hn hshort s.params
  obtain ⟨t, ht⟩ := hbody
  have hi : IsOpen (openDecInstr f n true) := by cases f <;> exact .inr rfl
  exact ⟨_, raises_of_body he (checkCommand_open hi _ e) ht⟩

end Sys2Proof.Machine
end

section
/-! O12. Commands outside a session (R364, R392): only an OPEN passes the first check of R130. -/

namespace Sys2Proof.Machine

open Sys2Proof

/-- In phase Idle and in phase Faulted no session's commands are legal. -/
theorem not_inSession {e : Engine} (hph : e.phase = .idle ∨ e.phase = .faulted) : ¬inSession e := by
  unfold inSession
  rcases hph with hph | hph <;> rw [hph] <;> decide

/-- Outside a session the first check of R130 stops every command but an OPEN. -/
theorem checkCommand_outside_session {i : Instr} (hi : ¬IsOpen i) {e : Engine} (hs : ¬inSession e) (p : Params) :
    checkCommand p e i.family i.op (laneOperand i) (ctxOperand i) = .illegalCommand := by
  have hnow : ¬legalNow e i.family i.op = true := fun h => hs (inSession_of_legalNow hi h)
  rw [legalNow_iff] at hnow
  rw [checkCommand_eq_ite, if_pos hnow]

/-- A command that a check of R130 stops ends in the error the check names. -/
theorem raises_of_check {i : Instr} {s : State} {e : Engine} {code : Status} (he : s.engine? = some e)
    (hc : checkCommand s.params e i.family i.op (laneOperand i) (ctxOperand i) = code) (hcode : code ≠ .ok) :
    Raises i s e code (raiseErr (opBits i.op) code e) := by
  subst hc
  refine ⟨?_, rfl, rfl, rfl, rfl⟩
  rw [exec_eq_commandEffect he, commandEffect_illegal hcode]

/-- Settles O12: neither phase is a session's, so the check of the phase stops every command but an OPEN. -/
theorem onlyOpenLeavesIdleAndFaulted : Obligations.OnlyOpenLeavesIdleAndFaulted := by
  intro i s e he hph henc hdec
  have hi : ¬IsOpen i := not_or.mpr ⟨henc, hdec⟩
  exact ⟨_, raises_of_check he (checkCommand_outside_session hi (not_inSession hph) s.params) (by decide)⟩

end Sys2Proof.Machine
end
